-- ==== Sys2Proof/Word.lean ====
section
/-! DEFINITION. Word.lean: the word types of the RSB-464, port, tag and slot numbers, and tables of a fixed
number of like things (64 slots, four ports, four contexts) read and written by number. -/

namespace Sys2Proof

/-- A byte of the serial link (11). -/
abbrev Byte := BitVec 8

/-- A 16-bit field: durations, wait limits, labels, the generation. -/
abbrev Half := BitVec 16

/-- An absolute tick value, reckoned modulo 2^32 (00_scope.md 5). -/
abbrev Tick := BitVec 32

/-- The 16-bit name of a record (R16). -/
abbrev Handle := BitVec 16

/-- Agent ports are numbered 0 to 3 (00_scope.md 4.1). -/
abbrev Port := Fin 4

/-- Request contexts of a port are known by tags 0 to 3 (R152). -/
abbrev Tag := Fin 4

/-- Lease slots are numbered 0 to 63 (R6). -/
abbrev SlotNo := Fin 64

/-- Entry `k` of a table. -/
def pick {α : Type} {n : Nat} (v : Vector α n) (k : Fin n) : α := v[k.val]

/-- The table with entry `k` replaced. -/
def put {α : Type} {n : Nat} (v : Vector α n) (k : Fin n) (x : α) : Vector α n := v.set k x

/-- The table whose entry `k` is `f k`. Irreducible, so that Lean compares two tables by `pick_tab` and not entry by
entry. -/
@[irreducible] def tab {α : Type} {n : Nat} (f : Fin n → α) : Vector α n := Vector.ofFn f

@[simp] theorem pick_put_self {α : Type} {n : Nat} (v : Vector α n) (k : Fin n) (x : α) :
    pick (put v k x) k = x := by
  simp [pick, put]

theorem pick_put_ne {α : Type} {n : Nat} (v : Vector α n) {j k : Fin n} (x : α) (h : j ≠ k) :
    pick (put v k x) j = pick v j := by
  have : k.val ≠ j.val := fun e => h (Fin.ext e.symm)
  simp [pick, put, this]

theorem pick_put {α : Type} {n : Nat} (v : Vector α n) (j k : Fin n) (x : α) :
    pick (put v k x) j = if j = k then x else pick v j := by
  split
  · next h => subst h; exact pick_put_self v j x
  · next h => exact pick_put_ne v x h

@[simp] theorem pick_tab {α : Type} {n : Nat} (f : Fin n → α) (k : Fin n) : pick (tab f) k = f k := by
  simp [pick, tab]

/-- Two tables with the same entries are the same table. -/
theorem table_ext {α : Type} {n : Nat} {v w : Vector α n} (h : ∀ k, pick v k = pick w k) : v = w := by
  apply Vector.ext
  intro i hi
  simpa [pick] using h ⟨i, hi⟩

/-- All port numbers, lowest first. -/
def allPorts : List Port := List.finRange 4

/-- All slot numbers, lowest first. -/
def allSlots : List SlotNo := List.finRange 64

@[simp] theorem mem_allPorts (p : Port) : p ∈ allPorts := List.mem_finRange p

@[simp] theorem mem_allSlots (k : SlotNo) : k ∈ allSlots := List.mem_finRange k

end Sys2Proof
end

