-- ==== Sys2Proof/Syntax.lean ====
section
/-! DEFINITION. Syntax.lean: the commands of the RSB-464, one constructor for each row of spec/opcode_table.json.
A command is one event of the part, taken whole (95_what_each_step_holds.md). A port operand says whose message,
request or serial transaction is taken; a request's own operands travel in the request, which entered the part as
the bytes of a SUBMIT frame (log 12). -/

namespace Sys2Proof

/-- Levels of one pin of each port; `true` is high. -/
abbrev PinLevels := Vector Bool 4

/-- The commands. -/
inductive Instr where
  -- reset and straps
  | deviceReset
  | resetRelease (straps prst : PinLevels)
  -- time
  | refclkEdge (prst : PinLevels)
  | tickNotice
  | leaseExpiry (k : SlotNo)
  | waitTimeout (k : SlotNo)
  | conversionTimeout (k : SlotNo)
  | warnMarginReached (k : SlotNo)
  | freezeLimit
  -- the request arbiter
  | arbiterTake
  -- requests taken by the lease engine
  | openSession (p : Port)
  | closeSession (p : Port)
  | noop (p : Port)
  | claim (p : Port)
  | renew (p : Port)
  | release (p : Port)
  | downgrade (p : Port)
  | upgrade (p : Port)
  | acknowledge (p : Port)
  | notice (p : Port)
  | probe (p : Port)
  | scanFirst (p : Port)
  | scanNext (p : Port)
  | limits (p : Port)
  | revoke (p : Port)
  | revokeRange (p : Port)
  | evict (p : Port)
  | freeze (p : Port)
  | thaw (p : Port)
  | trim (p : Port)
  | readClock (p : Port)
  -- the timebase's clock requests and their answer
  | timebaseTrim
  | timebaseReadClock
  | clockAnswer
  -- other messages of a port taken by the engine
  | forwardedCancel (p : Port)
  | portDrop (p : Port)
  -- messages of the engine taken by a port
  | portAnswer (p : Port)
  | portCompletion (p : Port)
  | cancelLateNotice (p : Port)
  | markedCount (p : Port)
  | sessionNotice (p : Port)
  | freezeNotice (p : Port)
  | dropComplete (p : Port)
  -- the serial link
  | selectFall (p : Port)
  | selectRise (p : Port)
  | submit (p : Port) (t : Tag) (bytes : List Byte)
  | fetch (p : Port) (t : Tag)
  | fetchComplete (p : Port)
  | cancel (p : Port) (t : Tag)
  | status (p : Port)
  | unknownTransaction (p : Port) (b : Byte)
  | portReset (p : Port) (prst : PinLevels)
  | portRelease (p : Port) (prst : PinLevels)
  | linkFaultCauseShiftedOut (p : Port)
  | bitAfterCheckByte (p : Port)
  deriving DecidableEq, Repr

end Sys2Proof
end

