-- ==== Sys2Proof/Decode.lean ====
section
/-! DEFINITION. Decode.lean: commands spelt as words. The opcode table gives no row any bits, so no word spells a
command (log 13). The bytes of the serial link are read in Machine/Operands.lean. -/

namespace Sys2Proof

/-- The command that a word of the opcode table's bits spells: none, since no row has bits (log 13). -/
def decodeTableWord (_nbits _w : Nat) : Option Instr := none

end Sys2Proof
end

