-- ==== Sys2Proof/Config.lean ====
section
/-! DEFINITION. Config.lean: the constants that the spec fixes for the RSB-464. The spec leaves no value open
and calls none undefined (INVENTORY, 'What the manual leaves open'), so there is no free value here. -/

namespace Sys2Proof.Config

/-- Unit numbers run from 0 to 1,048,575 (R1). -/
def unitCount : Nat := 1048576

/-- Default lease cap after device reset (R128). -/
def defaultLeaseCap : Byte := 16

/-- Default duration cap after device reset, in ticks (R128). -/
def defaultDurationCap : Half := 8192

/-- Default renewal cap after device reset: 0, no cap (R128). -/
def defaultRenewalCap : Byte := 0

/-- The largest lease cap that LIMITS may set (R129). -/
def maxLeaseCap : Byte := 64

/-- The largest warn margin (R94, R124). -/
def maxWarnMargin : Nat := 4095

/-- The freeze limit: 512 ticks after the freeze start (R140). -/
def freezeLimit : Tick := 512

/-- Wait limit 65,535: wait without limit (R26, R59). -/
def waitUnlimited : Half := 65535

/-- The last-served port after device reset, so that port 0 is visited first (R154). -/
def lastServedAtReset : Port := 3

end Sys2Proof.Config
end

