-- ==== Sys2Proof/Machine/State.lean ====
section
/-! DEFINITION. Machine/State.lean: everything the spec gives the RSB-464 to hold, as plain data, and the part
right after device reset. INVENTORY.md lists every field with its rule. -/

namespace Sys2Proof.Machine

/-! ### Regions, records and slots (chapter 1) -/

/-- Mode of a lease or of a waiting claim (1.2). -/
inductive Mode where
  | shared
  | sole
  deriving DecidableEq, Repr

/-- A region: base unit and length minus one, as carried on the link (R1). -/
structure Region where
  base  : BitVec 20
  lenM1 : Half
  deriving DecidableEq, Repr

/-- Why a lease retired (R13). -/
inductive RetireCause where
  | expired
  | revoked
  deriving DecidableEq, Repr

/-- The fields that a record carries in every state but FREE (R10). -/
structure Common where
  holder : Port
  region : Region
  mode   : Mode
  label  : Half
  deriving DecidableEq, Repr

/-- A pending conversion (R14); no wait deadline when it waits without limit. -/
structure Conversion where
  tag          : Tag
  waitDeadline : Option Tick
  deriving DecidableEq, Repr

/-- Duration and deadline of a HELD lease: none when pinned (R10, R11). -/
inductive Term where
  | pinned
  | timed (duration : Half) (deadline : Tick)
  deriving DecidableEq, Repr

/-- A WAITING record (R12). Duration 0 asks for PINNED; the arrival position is the place in the wait list. -/
structure Waiting extends Common where
  duration     : Half
  waitDeadline : Option Tick
  tag          : Tag
  deriving DecidableEq, Repr

/-- A HELD record (R11). -/
structure Held extends Common where
  term     : Term
  renewals : Byte
  warned   : Bool
  conv     : Option Conversion
  deriving DecidableEq, Repr

/-- A RETIRED record (R13). -/
structure Retired extends Common where
  cause : RetireCause
  deriving DecidableEq, Repr

/-- A slot is FREE, WAITING, HELD or RETIRED (R6). -/
inductive Record where
  | free
  | waiting (w : Waiting)
  | held (h : Held)
  | retired (r : Retired)
  deriving DecidableEq, Repr

/-- A lease slot: its issue number (R15) and its record. -/
structure Slot where
  issue  : BitVec 10
  record : Record
  deriving DecidableEq, Repr

/-! ### Requests (11.2) -/

/-- The twenty-one request codes. -/
inductive ReqCode where
  | openSession | closeSession | readClock | noop
  | claim | renew | release | downgrade | upgrade | acknowledge
  | notice | probe | scanFirst | scanNext
  | limits | revoke | revokeRange | evict | freeze | thaw | trim
  deriving DecidableEq, Repr

/-- A request with its operand fields as they came in the frame; the engine judges their values (R179). -/
inductive Request where
  | openSession (warnMargin : Half) (mask : Byte)
  | closeSession
  | readClock
  | noop
  | claim (base : BitVec 24) (lenM1 : Half) (mode : Byte) (duration waitLimit label : Half)
  | renew (handle : Handle) (duration : Half)
  | release (handle : Handle)
  | downgrade (handle : Handle)
  | upgrade (handle : Handle) (waitLimit : Half)
  | acknowledge (handle : Handle)
  | notice
  | probe (base : BitVec 24) (lenM1 : Half)
  | scanFirst (filter port : Byte) (base : BitVec 24) (lenM1 : Half)
  | scanNext
  | limits (target leaseCap : Byte) (durationCap : Half) (mayPin renewalCap : Byte)
  | revoke (handle : Handle)
  | revokeRange (base : BitVec 24) (lenM1 : Half)
  | evict (target : Byte)
  | freeze
  | thaw
  | trim (adjustment : Byte)
  deriving DecidableEq, Repr

/-! ### Results (11.3, 11.4) -/

/-- The 26 outcomes. -/
inductive ResultCode where
  | ok | granted | conflict | selfConflict | deadlock | tableFull | capReached | tooLong | limit | range
  | malformed | stale | notHolder | wrongState | gone | timeout | cancelled | revoked
  | noSession | alreadyOpen | notPermitted | busy | inUse | sequence | endOfScan | nothing
  deriving DecidableEq, Repr

/-- Handle kind and handle of a CLAIM or UPGRADE payload (R38, R64). -/
inductive HandleRef where
  | none
  | own (h : Handle)
  | blocker (h : Handle)
  deriving DecidableEq, Repr

/-- Path of a CLAIM or UPGRADE payload (R38, R64). -/
inductive PathKind where
  | none
  | immediate
  | queued
  deriving DecidableEq, Repr

/-- Time kind and deadline of a CLAIM, UPGRADE or ACKNOWLEDGE payload (R38, R64, R104). -/
inductive GrantTime where
  | none
  | deadline (d : Tick)
  | pinned
  deriving DecidableEq, Repr

/-- How a pending conversion's lease ended (R64). -/
inductive EndCause where
  | none
  | released
  | expired
  | revoked
  deriving DecidableEq, Repr

/-- Effect of ACKNOWLEDGE (R104). -/
inductive AckEffect where
  | none
  | freed
  | cleared
  deriving DecidableEq, Repr

/-- State of a record as a view or a REVOKE result names it (R23, R132). -/
inductive RecordState where
  | none
  | waiting
  | held
  | retired
  deriving DecidableEq, Repr

/-- Effect of REVOKE (R132). -/
inductive RevokeEffect where
  | none
  | retired
  | freed
  deriving DecidableEq, Repr

/-- Effect of TRIM (R80). -/
inductive TrimEffect where
  | none
  | carry
  | borrow
  deriving DecidableEq, Repr

/-- Time kind of a lease view (R23). -/
inductive TimeKind where
  | none
  | deadline
  | pinned
  | wait
  | unlimited
  deriving DecidableEq, Repr

/-- A lease view (R23). -/
structure View where
  handle      : Handle
  state       : RecordState
  holder      : Port
  mode        : Mode
  region      : Region
  label       : Half
  kind        : TimeKind
  time        : Tick
  remaining   : Tick
  warned      : Bool
  convPending : Bool
  overdue     : Bool
  cause       : Option RetireCause
  deriving DecidableEq, Repr

/-- The DONE bit and the NOTICE bit of an attention mask (R119). -/
structure AttnMask where
  done   : Bool
  notice : Bool
  deriving DecidableEq, Repr

/-- The four limits of a port (R128). -/
structure Limits where
  leaseCap    : Byte
  durationCap : Half
  mayPin      : Bool
  renewalCap  : Byte
  deriving DecidableEq, Repr

/-- OPEN payload (R125). -/
structure OpenPayload where
  port       : Port
  supervisor : Bool
  limits     : Limits
  warnMargin : BitVec 12
  mask       : AttnMask
  wasLost    : Bool
  settled    : Tick
  deriving DecidableEq, Repr

/-- Session-end payload of CLOSE and EVICT (R127). -/
structure SessionEndPayload where
  port             : Port
  heldFreed        : Nat
  waitingRemoved   : Nat
  retiredFreed     : Nat
  conversionsEnded : Nat
  thawed           : Bool
  deriving DecidableEq, Repr

/-- CLAIM payload (R38). -/
structure ClaimPayload where
  ref        : HandleRef
  path       : PathKind
  time       : GrantTime
  generation : Half
  deriving DecidableEq, Repr

/-- RENEW payload (R55). -/
structure RenewPayload where
  deadline : Tick
  duration : Half
  renewals : Byte
  warned   : Bool
  cause    : Option RetireCause
  deriving DecidableEq, Repr

/-- UPGRADE payload (R64). -/
structure UpgradePayload where
  ref      : HandleRef
  path     : PathKind
  time     : GrantTime
  endCause : EndCause
  deriving DecidableEq, Repr

/-- ACKNOWLEDGE payload (R104). -/
structure AckPayload where
  effect    : AckEffect
  cause     : Option RetireCause
  time      : GrantTime
  remaining : Tick
  marked    : Nat
  deriving DecidableEq, Repr

/-- NOTICE payload (R101). -/
structure NoticePayload where
  marked : Nat
  view   : Option View
  deriving DecidableEq, Repr

/-- PROBE payload (R107). -/
structure ProbePayload where
  held       : Nat
  waiting    : Nat
  overdue    : Nat
  view       : Option View
  generation : Half
  deriving DecidableEq, Repr

/-- SCAN_FIRST and SCAN_NEXT payload (R114). -/
structure ScanPayload where
  view       : Option View
  next       : Option SlotNo
  startGen   : Half
  generation : Half
  changed    : Bool
  deriving DecidableEq, Repr

/-- LIMITS payload (R129). -/
structure LimitsPayload where
  target : Port
  owned  : Nat
  before : Limits
  after  : Limits
  deriving DecidableEq, Repr

/-- REVOKE payload (R132). -/
structure RevokePayload where
  prior      : RecordState
  effect     : RevokeEffect
  holder     : Port
  convEnded  : Bool
  priorCause : Option RetireCause
  deriving DecidableEq, Repr

/-- REVOKE_RANGE payload (R134). -/
structure RangePayload where
  retired          : Nat
  conversionsEnded : Nat
  ports            : PinLevels
  deriving DecidableEq, Repr

/-- FREEZE payload (R141). -/
structure FreezePayload where
  owner   : Port
  start   : Tick
  limit   : Tick
  settled : Tick
  deriving DecidableEq, Repr

/-- THAW payload (R150). -/
structure ThawPayload where
  start            : Tick
  frozenTicks      : Half
  expired          : Nat
  timedOut         : Nat
  conversionsEnded : Nat
  granted          : Nat
  deriving DecidableEq, Repr

/-- TRIM payload (R82). -/
structure TrimPayload where
  adjustment  : Byte
  phaseBefore : BitVec 5
  phaseAfter  : BitVec 5
  now         : Tick
  debt        : Bool
  effect      : TrimEffect
  deriving DecidableEq, Repr

/-- READ_CLOCK payload (R86). -/
structure ClockPayload where
  now        : Tick
  phase      : BitVec 5
  debt       : Bool
  settled    : Tick
  generation : Half
  frozen     : Bool
  deriving DecidableEq, Repr

/-- The payload that a request's rule gives (R159); RELEASE and NOOP have none. -/
inductive Payload where
  | empty
  | openSession (x : OpenPayload)
  | sessionEnd (x : SessionEndPayload)
  | claim (x : ClaimPayload)
  | renew (x : RenewPayload)
  | downgrade (cause : Option RetireCause)
  | upgrade (x : UpgradePayload)
  | acknowledge (x : AckPayload)
  | notice (x : NoticePayload)
  | probe (x : ProbePayload)
  | scan (x : ScanPayload)
  | limits (x : LimitsPayload)
  | revoke (x : RevokePayload)
  | revokeRange (x : RangePayload)
  | freeze (x : FreezePayload)
  | thaw (x : ThawPayload)
  | trim (x : TrimPayload)
  | clock (x : ClockPayload)
  deriving DecidableEq, Repr

/-- A result record (R159): outcome, echoed request code, payload and the CANCEL_LATE flag. The echoed tag is the
number of the context that holds the record. -/
structure ResultRecord where
  outcome : ResultCode
  code    : ReqCode
  payload : Payload
  late    : Bool
  deriving DecidableEq, Repr

/-! ### The lease engine -/

/-- Filter of a scan cursor with its operand (R109). -/
inductive Filter where
  | own (p : Port)
  | port (p : Port)
  | region (r : Region)
  | all
  deriving DecidableEq, Repr

/-- A scan cursor that is not NONE (R109). -/
structure Cursor where
  filter   : Filter
  next     : SlotNo
  startGen : Half
  deriving DecidableEq, Repr

/-- A port's entry of the session table (R119). -/
structure Session where
  isOpen     : Bool
  warnMargin : BitVec 12
  mask       : AttnMask
  supervisor : Bool
  lost       : Bool
  cursor     : Option Cursor
  deriving DecidableEq, Repr

/-- The freeze state while the table is frozen (R140). -/
structure Freeze where
  owner : Port
  start : Tick
  deriving DecidableEq, Repr

/-- What the engine keeps of a clock request by its kind (R77, R85). -/
inductive ClockKind where
  | trim
  | readClock (settled : Tick) (generation : Half) (frozen : Bool)
  deriving DecidableEq, Repr

/-- The engine's clock request (R77): `late` once a forwarded cancel was taken (R78), `dropped` once the port's
port-drop notice was taken (R79). -/
structure ClockRequest where
  port    : Port
  tag     : Tag
  kind    : ClockKind
  late    : Bool
  dropped : Bool
  deriving DecidableEq, Repr

/-- The lease engine (chapters 1 to 3 and 5 to 8). -/
structure Engine where
  slots      : Vector Slot 64
  waitList   : List SlotNo
  convList   : List SlotNo
  generation : Half
  settled    : Tick
  sessions   : Vector Session 4
  limits     : Vector Limits 4
  freeze     : Option Freeze
  clock      : Option ClockRequest
  deriving DecidableEq, Repr

/-! ### The timebase (chapter 4) -/

/-- Timebase state (4.1). -/
structure Timebase where
  phase : BitVec 5
  now   : Tick
  debt  : Bool
  deriving DecidableEq, Repr

/-! ### Messages between the blocks (R75, R155) -/

/-- What the engine sends to the timebase (R77). -/
inductive ClockCall where
  | trim (adjustment : Byte)
  | readClock
  deriving DecidableEq, Repr

/-- What the timebase sends to the engine on its one path (R75, R82, R86). -/
inductive TimebaseMsg where
  | tick (now : Tick)
  | trimAnswer (busy : Bool) (x : TrimPayload)
  | clockAnswer (now : Tick) (phase : BitVec 5) (debt : Bool)
  deriving DecidableEq, Repr

/-- What a port sends to the engine (R155). -/
inductive PortMsg where
  | request (t : Tag) (r : Request)
  | cancel (t : Tag)
  | portDrop
  deriving DecidableEq, Repr

/-- A completion (R157): outcome, time kind and deadline and, for an UPGRADE, the end cause; the port joins the
handle that it kept. -/
structure Completion where
  outcome  : ResultCode
  time     : GrantTime
  endCause : EndCause
  deriving DecidableEq, Repr

/-- The engine's answer to a taken request (R156): its result, or a waiting notice with the handle and, for CLAIM,
the generation. -/
inductive Answer where
  | result (outcome : ResultCode) (payload : Payload) (late : Bool)
  | waitingClaim (handle : Handle) (generation : Half)
  | waitingUpgrade (handle : Handle)
  deriving DecidableEq, Repr

/-- What the engine sends to a port (R155). -/
inductive EngineMsg where
  | answer (t : Tag) (a : Answer)
  | completion (t : Tag) (c : Completion)
  | cancelLate (t : Tag)
  | marked (n : Nat)
  | session (isOpen : Bool) (mask : AttnMask) (lost : Bool)
  | freeze (frozen owner : Bool)
  | dropComplete
  deriving DecidableEq, Repr

/-! ### The agent ports (chapters 9 and 10) -/

/-- What a port keeps with a WAITING context (R152, R156). -/
inductive Kept where
  | claim (handle : Handle) (generation : Half)
  | upgrade (handle : Handle)
  deriving DecidableEq, Repr

/-- A request context (R152). -/
inductive Context where
  | free
  | queued (r : Request) (held cancelOut : Bool)
  | waiting (r : Request) (kept : Kept) (cancelOut : Bool)
  | done (rec : ResultRecord) (cancelOut : Bool)
  deriving DecidableEq, Repr

/-- Link-fault causes (R174). -/
inductive LinkFault where
  | none
  | unknownTransaction
  | unknownRequest
  | check
  | tagBusy
  | shortFrame
  | overlong
  deriving DecidableEq, Repr

/-- How far a SUBMIT's frame has come: bytes collected so far, or the check byte judged (R169). -/
inductive FrameProgress where
  | collecting (bytes : List Byte)
  | judged
  deriving DecidableEq, Repr

/-- What a REPLY shifts out: a result record (until its check byte is out), an extended status (until its
link-fault cause field is out), or anything else (R167, R171 to R173). -/
inductive ReplyKind where
  | record (t : Tag)
  | status
  | plain
  deriving DecidableEq, Repr

/-- The link state (R166); `out` holds the reply bytes still to shift out. -/
inductive Link where
  | standby
  | command
  | frame (t : Tag) (f : FrameProgress)
  | reply (kind : ReplyKind) (out : List Byte)
  | ignore
  | inReset
  | draining
  deriving DecidableEq, Repr

/-- The PRSTn filter (R176). -/
structure PrstFilter where
  asserted : Bool
  count    : Fin 3
  deriving DecidableEq, Repr

/-- An agent port (00_scope.md 2.1, chapters 9 and 10). The last seven fields are the values that the port holds
from notices and from the strap capture. -/
structure AgentPort where
  contexts        : Vector Context 4
  submission      : List Tag
  link            : Link
  selLow          : Bool
  shownStatus     : Byte
  cause           : LinkFault
  filter          : PrstFilter
  dropOutstanding : Bool
  supervisor      : Bool
  sessionOpen     : Bool
  mask            : AttnMask
  lost            : Bool
  marked          : Nat
  frozen          : Bool
  freezeOwner     : Bool
  deriving DecidableEq, Repr

/-! ### The whole part -/

/-- The state of the part: its blocks, the messages on the paths between them, and the queue of commands not yet
taken (`pending`, first in, first out). -/
structure State where
  resetLow     : Bool
  engine       : Engine
  timebase     : Timebase
  lastServed   : Port
  ports        : Vector AgentPort 4
  toEngine     : Vector (List PortMsg) 4
  toPort       : Vector (List EngineMsg) 4
  toTimebase   : Option ClockCall
  fromTimebase : List TimebaseMsg
  pending      : List Instr
  deriving DecidableEq, Repr

/-- Why the model stops. Each fault is a message that the spec says does not arrive where it would; no rule gives
it an effect, so the model stops instead of choosing one: safe (log 8). -/
inductive Fault where
  /-- PORT_ANSWER: an answer for a context that is neither held nor FREE (R156 names only those two). Safe. -/
  | answerUnexpected
  /-- PORT_COMPLETION: a completion for a QUEUED or DONE context, which R157 says it does not reach. Safe. -/
  | completionUnexpected
  /-- CANCEL_LATE_NOTICE: a cancel-late notice for a context other than a FREE one or a DONE one with the
  cancel-outstanding mark (R162 names only those two). Safe. -/
  | cancelLateUnexpected
  /-- DROP_COMPLETE: drop-complete while no drop is outstanding in IN_RESET or DRAINING (R177). Safe. -/
  | dropCompleteUnexpected
  /-- CLOCK_ANSWER: an answer of the timebase to no clock request of its kind (R77, R84). Safe. -/
  | clockAnswerUnexpected
  deriving DecidableEq, Repr

/-- Why a command has no meaning. Every row of the table has one, so nothing raises this. -/
inductive Refusal where
  /-- Raised by a refused arm of exec only; there is none. Safe. -/
  | notModelled (mnemonic : String)
  deriving DecidableEq, Repr

/-- Attention mask with both bits clear. -/
def AttnMask.clear : AttnMask := { done := false, notice := false }

/-- A FREE slot that was never used (R25). -/
def Slot.reset : Slot := { issue := 0, record := .free }

/-- A session entry after device reset (R119), with the given supervisor right. -/
def Session.reset (supervisor : Bool) : Session :=
  { isOpen := false, warnMargin := 0, mask := .clear, supervisor, lost := false, cursor := none }

/-- A port's limits after device reset (R128): may-pin follows supervisor right. -/
def Limits.reset (supervisor : Bool) : Limits :=
  { leaseCap := Config.defaultLeaseCap, durationCap := Config.defaultDurationCap, mayPin := supervisor,
    renewalCap := Config.defaultRenewalCap }

/-- The lease engine after device reset (R25, R87, R119, R128, R140). -/
def Engine.reset : Engine :=
  { slots := tab fun _ => .reset, waitList := [], convList := [], generation := 0, settled := 0,
    sessions := tab fun _ => .reset false, limits := tab fun _ => .reset false, freeze := none, clock := none }

/-- The timebase after device reset (R73). -/
def Timebase.reset : Timebase := { phase := 0, now := 0, debt := false }

/-- An agent port after device reset (R152, R153, R166, R99, R121, R140), before the release of RESETn. DESIGN
CHOICE (log 5): link STANDBY, filter released, no supervisor right and captured status byte 0 until the release. -/
def AgentPort.reset (selLow : Bool) : AgentPort :=
  { contexts := tab fun _ => .free, submission := [], link := .standby, selLow, shownStatus := 0, cause := .none,
    filter := { asserted := false, count := 0 }, dropOutstanding := false, supervisor := false,
    sessionOpen := false, mask := .clear, lost := false, marked := 0, frozen := false, freezeOwner := false }

/-- The part right after device reset, RESETn still low and every SELn high (log 5). -/
def State.reset : State :=
  { resetLow := true, engine := .reset, timebase := .reset, lastServed := Config.lastServedAtReset,
    ports := tab fun _ => .reset false, toEngine := tab fun _ => [], toPort := tab fun _ => [],
    toTimebase := none, fromTimebase := [], pending := [] }

end Sys2Proof.Machine
end

