-- ==== Sys2Proof/Machine/Operands.lean ====
section
/-! DEFINITION. Machine/Operands.lean: the bytes of the serial link and the values they stand for: check byte,
transaction bytes, request frames, operand values with a meaning, regions and handles. -/

namespace Sys2Proof.Machine

/-! ### The check byte (R175) -/

/-- One bit of the CRC: shift left, then combine with 0x07 when the bit shifted out differs from the data bit. -/
def crcBit (reg : Byte) (bit : Bool) : Byte :=
  if xor (reg.getLsbD 7) bit then (reg <<< 1) ^^^ 0x07 else reg <<< 1

/-- One byte of the CRC, most significant bit first. -/
def crcByte (reg b : Byte) : Byte :=
  [7, 6, 5, 4, 3, 2, 1, 0].foldl (fun r i => crcBit r (b.getLsbD i)) reg

/-- The check byte over `bytes`: preset to all ones, no final inversion. -/
def crc (bytes : List Byte) : Byte := bytes.foldl crcByte 0xFF

/-! ### Multi-byte fields, most significant byte first (11) -/

/-- The two bytes of a 16-bit field. -/
def bytes2 (x : BitVec 16) : List Byte := [x.extractLsb' 8 8, x.extractLsb' 0 8]

/-- The three bytes of a 24-bit field. -/
def bytes3 (x : BitVec 24) : List Byte := [x.extractLsb' 16 8, x.extractLsb' 8 8, x.extractLsb' 0 8]

/-- The four bytes of a 32-bit field. -/
def bytes4 (x : BitVec 32) : List Byte :=
  [x.extractLsb' 24 8, x.extractLsb' 16 8, x.extractLsb' 8 8, x.extractLsb' 0 8]

/-! ### Transaction bytes (11.1, R178) -/

/-- What a transaction byte names. -/
inductive Transaction where
  | submit (t : Tag)
  | fetch (t : Tag)
  | cancel (t : Tag)
  | status
  deriving DecidableEq, Repr

/-- The tag of a byte in the group of four that begins at `base`. -/
def tagFrom (base : Nat) (b : Byte) : Option Tag :=
  if h : base ≤ b.toNat ∧ b.toNat < base + 4 then some ⟨b.toNat - base, by omega⟩ else none

/-- Decoding of a transaction byte; `none` is UNKNOWN_TRANSACTION (R178). -/
def decodeTransaction (b : Byte) : Option Transaction :=
  match tagFrom 0xA0 b, tagFrom 0xB0 b, tagFrom 0xC0 b with
  | some t, _, _ => some (.submit t)
  | none, some t, _ => some (.fetch t)
  | none, none, some t => some (.cancel t)
  | none, none, none => if b = 0xD0 then some .status else none

/-- The transaction byte of a transaction (11.1). -/
def Transaction.byte : Transaction → Byte
  | .submit t => BitVec.ofNat 8 (0xA0 + t.val)
  | .fetch t => BitVec.ofNat 8 (0xB0 + t.val)
  | .cancel t => BitVec.ofNat 8 (0xC0 + t.val)
  | .status => 0xD0

/-! ### Request codes and operands (11.2) -/

/-- All request codes, in the table's order. -/
def allReqCodes : List ReqCode :=
  [.openSession, .closeSession, .readClock, .noop, .claim, .renew, .release, .downgrade, .upgrade, .acknowledge,
   .notice, .probe, .scanFirst, .scanNext, .limits, .revoke, .revokeRange, .evict, .freeze, .thaw, .trim]

/-- The code byte of a request. -/
def ReqCode.byte : ReqCode → Byte
  | .openSession => 0x01
  | .closeSession => 0x02
  | .readClock => 0x03
  | .noop => 0x04
  | .claim => 0x10
  | .renew => 0x11
  | .release => 0x12
  | .downgrade => 0x13
  | .upgrade => 0x14
  | .acknowledge => 0x15
  | .notice => 0x20
  | .probe => 0x21
  | .scanFirst => 0x22
  | .scanNext => 0x23
  | .limits => 0x30
  | .revoke => 0x31
  | .revokeRange => 0x32
  | .evict => 0x33
  | .freeze => 0x34
  | .thaw => 0x35
  | .trim => 0x36

/-- Decoding of a request code; `none` is UNKNOWN_REQUEST (R178). -/
def ReqCode.ofByte (b : Byte) : Option ReqCode := allReqCodes.find? fun c => c.byte == b

/-- Number of operand bytes of a request code. -/
def ReqCode.operandLength : ReqCode → Nat
  | .openSession => 3
  | .closeSession => 0
  | .readClock => 0
  | .noop => 0
  | .claim => 12
  | .renew => 4
  | .release => 2
  | .downgrade => 2
  | .upgrade => 4
  | .acknowledge => 2
  | .notice => 0
  | .probe => 5
  | .scanFirst => 7
  | .scanNext => 0
  | .limits => 6
  | .revoke => 2
  | .revokeRange => 5
  | .evict => 1
  | .freeze => 0
  | .thaw => 0
  | .trim => 1

/-- The code of a request. -/
def Request.code : Request → ReqCode
  | .openSession _ _ => .openSession
  | .closeSession => .closeSession
  | .readClock => .readClock
  | .noop => .noop
  | .claim _ _ _ _ _ _ => .claim
  | .renew _ _ => .renew
  | .release _ => .release
  | .downgrade _ => .downgrade
  | .upgrade _ _ => .upgrade
  | .acknowledge _ => .acknowledge
  | .notice => .notice
  | .probe _ _ => .probe
  | .scanFirst _ _ _ _ => .scanFirst
  | .scanNext => .scanNext
  | .limits _ _ _ _ _ => .limits
  | .revoke _ => .revoke
  | .revokeRange _ _ => .revokeRange
  | .evict _ => .evict
  | .freeze => .freeze
  | .thaw => .thaw
  | .trim _ => .trim

/-- The operand bytes of a request, in order (11.2). -/
def Request.operandBytes : Request → List Byte
  | .openSession m a => bytes2 m ++ [a]
  | .claim b l m d w x => bytes3 b ++ bytes2 l ++ [m] ++ bytes2 d ++ bytes2 w ++ bytes2 x
  | .renew h d => bytes2 h ++ bytes2 d
  | .release h => bytes2 h
  | .downgrade h => bytes2 h
  | .upgrade h w => bytes2 h ++ bytes2 w
  | .acknowledge h => bytes2 h
  | .probe b l => bytes3 b ++ bytes2 l
  | .scanFirst f p b l => [f, p] ++ bytes3 b ++ bytes2 l
  | .limits t c d m r => [t, c] ++ bytes2 d ++ [m, r]
  | .revoke h => bytes2 h
  | .revokeRange b l => bytes3 b ++ bytes2 l
  | .evict t => [t]
  | .trim a => [a]
  | .closeSession | .readClock | .noop | .notice | .scanNext | .freeze | .thaw => []

/-- Request code and operand bytes: the part of a frame that its check byte covers (R175). -/
def Request.covered (r : Request) : List Byte := r.code.byte :: r.operandBytes

/-- A whole request frame (R169). -/
def Request.frame (r : Request) : List Byte := r.covered ++ [crc r.covered]

/-- A request without operands, made of no operand bytes. -/
def Request.ofNone (r : Request) (bytes : List Byte) : Option Request := if bytes = [] then some r else none

/-- A request of one operand byte. -/
def Request.of1 (f : Byte → Request) : List Byte → Option Request
  | [b] => some (f b)
  | _ => none

/-- A request of one 16-bit operand. -/
def Request.of2 (f : Half → Request) : List Byte → Option Request
  | [h1, h0] => some (f (h1 ++ h0))
  | _ => none

/-- A request of a 16-bit operand and a byte. -/
def Request.of3 (f : Half → Byte → Request) : List Byte → Option Request
  | [h1, h0, b] => some (f (h1 ++ h0) b)
  | _ => none

/-- A request of two 16-bit operands. -/
def Request.of4 (f : Half → Half → Request) : List Byte → Option Request
  | [h1, h0, x1, x0] => some (f (h1 ++ h0) (x1 ++ x0))
  | _ => none

/-- A request of a base and a length. -/
def Request.of5 (f : BitVec 24 → Half → Request) : List Byte → Option Request
  | [b2, b1, b0, l1, l0] => some (f (b2 ++ b1 ++ b0) (l1 ++ l0))
  | _ => none

/-- LIMITS of its operand bytes. -/
def Request.of6 : List Byte → Option Request
  | [t, c, d1, d0, m, r] => some (.limits t c (d1 ++ d0) m r)
  | _ => none

/-- SCAN_FIRST of its operand bytes. -/
def Request.of7 : List Byte → Option Request
  | [f, p, b2, b1, b0, l1, l0] => some (.scanFirst f p (b2 ++ b1 ++ b0) (l1 ++ l0))
  | _ => none

/-- CLAIM of its operand bytes. -/
def Request.of12 : List Byte → Option Request
  | [b2, b1, b0, l1, l0, m, d1, d0, w1, w0, x1, x0] =>
    some (.claim (b2 ++ b1 ++ b0) (l1 ++ l0) m (d1 ++ d0) (w1 ++ w0) (x1 ++ x0))
  | _ => none

/-- The request that a code and its operand bytes make (11.2); `none` when their number is not the code's. -/
def Request.ofOperands (c : ReqCode) (bytes : List Byte) : Option Request :=
  match c with
  | .openSession => of3 .openSession bytes
  | .closeSession => ofNone .closeSession bytes
  | .readClock => ofNone .readClock bytes
  | .noop => ofNone .noop bytes
  | .claim => of12 bytes
  | .renew => of4 .renew bytes
  | .release => of2 .release bytes
  | .downgrade => of2 .downgrade bytes
  | .upgrade => of4 .upgrade bytes
  | .acknowledge => of2 .acknowledge bytes
  | .notice => ofNone .notice bytes
  | .probe => of5 .probe bytes
  | .scanFirst => of7 bytes
  | .scanNext => ofNone .scanNext bytes
  | .limits => of6 bytes
  | .revoke => of2 .revoke bytes
  | .revokeRange => of5 .revokeRange bytes
  | .evict => of1 .evict bytes
  | .freeze => ofNone .freeze bytes
  | .thaw => ofNone .thaw bytes
  | .trim => of1 .trim bytes

/-- The request that code and operand bytes together make. -/
def Request.ofCovered : List Byte → Option Request
  | [] => none
  | c :: ops => (ReqCode.ofByte c).bind fun code => Request.ofOperands code ops

/-! ### Operand values with a meaning (R179, 11.3) -/

/-- Whether a base field states a unit number. -/
def baseMeaningful (b : BitVec 24) : Bool := decide (b.toNat < Config.unitCount)

/-- The mode that a mode byte codes. -/
def modeOf (b : Byte) : Option Mode :=
  if b = 0x00 then some .shared else if b = 0x01 then some .sole else none

/-- The port that a port or target byte names. -/
def portOf (b : Byte) : Option Port := tagFrom 0 b

/-- The flag that a may-pin byte codes. -/
def flagOf (b : Byte) : Option Bool :=
  if b = 0x00 then some false else if b = 0x01 then some true else none

/-- The warn margin that a field states, 0 to 4,095. -/
def marginOf (m : Half) : Option (BitVec 12) :=
  if m.toNat ≤ Config.maxWarnMargin then some (m.setWidth 12) else none

/-- The attention mask that a byte codes: bit 0 DONE, bit 1 NOTICE, no other bit. -/
def maskOf (b : Byte) : Option AttnMask :=
  if b.toNat < 4 then some { done := b.getLsbD 0, notice := b.getLsbD 1 } else none

/-- Whether an adjustment byte lies from −16 to +15 (R77, R179). -/
def trimMeaningful (b : Byte) : Bool := decide (-16 ≤ b.toInt ∧ b.toInt ≤ 15)

/-- The new limits that LIMITS states, when every value has a meaning (R129, R179). -/
def limitsOf (cap : Byte) (dur : Half) (pin renewalCap : Byte) : Option Limits :=
  if cap = 0 ∨ cap.toNat > Config.maxLeaseCap.toNat ∨ dur = 0 then none
  else (flagOf pin).map fun f => { leaseCap := cap, durationCap := dur, mayPin := f, renewalCap := renewalCap }

/-! ### Regions (R1, R2) -/

/-- The region of a base field and a length field. -/
def regionOf (base : BitVec 24) (lenM1 : Half) : Region := { base := base.setWidth 20, lenM1 }

/-- Length in units. -/
def Region.length (r : Region) : Nat := r.lenM1.toNat + 1

/-- First unit. -/
def Region.first (r : Region) : Nat := r.base.toNat

/-- Last unit: base + length − 1. -/
def Region.last (r : Region) : Nat := r.base.toNat + r.lenM1.toNat

/-- A region is valid when base + length is at most 1,048,576 (R1). -/
def Region.valid (r : Region) : Bool := decide (r.first + r.length ≤ Config.unitCount)

/-- Two regions overlap when they share a unit (R2). -/
def Region.overlaps (a b : Region) : Bool := decide (a.first ≤ b.last ∧ b.first ≤ a.last)

/-! ### Handles (R16) -/

/-- handle = slot × 1024 + issue. -/
def mkHandle (k : SlotNo) (issue : BitVec 10) : Handle := BitVec.ofNat 16 (k.val * 1024 + issue.toNat)

/-- The slot that a handle names. -/
def slotOf (h : Handle) : SlotNo := ⟨h.toNat / 1024, by have := h.isLt; omega⟩

/-- The issue number that a handle carries. -/
def issueOf (h : Handle) : BitVec 10 := BitVec.ofNat 10 (h.toNat % 1024)

end Sys2Proof.Machine
end

