-- ==== Sys2Proof/Machine/Flags.lean ====
section
/-! DEFINITION. Machine/Flags.lean: every mark that the spec computes: due and warned tests, marked records, the
lease view with its overdue mark, DONE marks, the status byte, the extended status, ATTNn and SDOn. -/

namespace Sys2Proof.Machine

/-! ### Deadlines (R88, R94) -/

/-- Remaining ticks of a deadline, modulo 2^32; read as signed by `toInt` (R88). -/
def remaining (deadline settled : Tick) : Tick := deadline - settled

/-- A deadline is due when its remaining ticks are 0 or less (R88). -/
def isDue (deadline settled : Tick) : Bool := decide ((remaining deadline settled).toInt ≤ 0)

/-- An optional wait deadline is due when it is present and due (R41, R68). -/
def waitIsDue (deadline : Option Tick) (settled : Tick) : Bool :=
  match deadline with
  | some d => isDue d settled
  | none => false

/-- The deadline of a duration or wait limit counted from the settled tick (R89). -/
def deadlineFrom (settled : Tick) (ticks : Half) : Tick := settled + ticks.setWidth 32

/-- The optional wait deadline of a wait limit of 1 to 65,535 (R37, R61). -/
def waitDeadlineFrom (settled : Tick) (limit : Half) : Option Tick :=
  if limit = Config.waitUnlimited then none else some (deadlineFrom settled limit)

/-- The term of a lease granted with a duration field: 0 is PINNED (R10, R11). -/
def Term.start (settled : Tick) (duration : Half) : Term :=
  if duration = 0 then .pinned else .timed duration (deadlineFrom settled duration)

/-- Time kind and deadline that a GRANTED result reports (R38, R64). -/
def Term.grantTime : Term → GrantTime
  | .pinned => .pinned
  | .timed _ d => .deadline d

/-- The warned mark that a grant or RENEW writes: the duration is at or below the margin (R35, R46, R54). -/
def warnedAtWrite (duration : Half) (margin : BitVec 12) : Bool := decide (duration.toNat ≤ margin.toNat)

/-! ### Records -/

/-- The fields that a record has in every state but FREE (R10). -/
def Record.common : Record → Option Common
  | .free => none
  | .waiting w => some w.toCommon
  | .held h => some h.toCommon
  | .retired r => some r.toCommon

/-- Whether the slot is FREE. -/
def Record.isFree : Record → Bool
  | .free => true
  | _ => false

/-- Whether the record is one of port `p`'s owned records (R21). -/
def Record.ownedBy (r : Record) (p : Port) : Bool :=
  match r.common with
  | some c => c.holder == p
  | none => false

/-- Whether the record is HELD. -/
def Record.isHeld : Record → Bool
  | .held _ => true
  | _ => false

/-- Whether the record is WAITING. -/
def Record.isWaiting : Record → Bool
  | .waiting _ => true
  | _ => false

/-- Whether the record is RETIRED. -/
def Record.isRetired : Record → Bool
  | .retired _ => true
  | _ => false

/-- The pending conversion of a record, if any (R14). -/
def Record.conv : Record → Option Conversion
  | .held h => h.conv
  | _ => none

/-- Whether the record is marked: RETIRED, or HELD with the warned mark (R22). -/
def Record.isMarked : Record → Bool
  | .retired _ => true
  | .held h => h.warned
  | _ => false

/-- Whether the record is not FREE and its region overlaps `g`. -/
def Record.overlaps (r : Record) (g : Region) : Bool :=
  match r.common with
  | some c => c.region.overlaps g
  | none => false

/-- A HELD lease, not pinned, whose deadline is due (R91). -/
def Record.leaseDue (r : Record) (settled : Tick) : Bool :=
  match r with
  | .held h =>
    match h.term with
    | .timed _ d => isDue d settled
    | .pinned => false
  | _ => false

/-- A waiting claim whose wait deadline is due (R92). -/
def Record.waitDue (r : Record) (settled : Tick) : Bool :=
  match r with
  | .waiting w => waitIsDue w.waitDeadline settled
  | _ => false

/-- A pending conversion whose wait deadline is due (R93). -/
def Record.convDue (r : Record) (settled : Tick) : Bool :=
  match r.conv with
  | some c => waitIsDue c.waitDeadline settled
  | none => false

/-- Part 5 of a tick notice warns a HELD lease without the mark whose remaining ticks equal a margin above 0 (R94). -/
def Record.reachesMargin (r : Record) (settled : Tick) (margin : BitVec 12) : Bool :=
  match r with
  | .held h =>
    match h.term with
    | .timed _ d => !h.warned && decide (0 < margin.toNat) && (remaining d settled == margin.setWidth 32)
    | .pinned => false
  | _ => false

/-- Part 3 of thaw settlement warns a HELD lease without the mark whose margin point fell within the freeze (R149). -/
def Record.crossedMargin (r : Record) (settled start : Tick) (margin : BitVec 12) : Bool :=
  match r with
  | .held h =>
    match h.term with
    | .timed _ d =>
      !h.warned && decide (0 < margin.toNat) && decide ((remaining d settled).toInt ≤ margin.toNat) &&
        decide ((margin.toNat : Int) < (remaining d start).toInt)
    | .pinned => false
  | _ => false

/-- The record with the warned mark set. -/
def Record.warn : Record → Record
  | .held h => .held { h with warned := true }
  | r => r

/-! ### The lease view (R23, R24) -/

/-- Time kind and time of a view (R23). -/
def Record.viewTime : Record → TimeKind × Tick
  | .held h =>
    match h.term with
    | .timed _ d => (.deadline, d)
    | .pinned => (.pinned, 0)
  | .waiting w =>
    match w.waitDeadline with
    | some d => (.wait, d)
    | none => (.unlimited, 0)
  | _ => (.none, 0)

/-- Whether a time kind has a time. -/
def TimeKind.timed : TimeKind → Bool
  | .deadline => true
  | .wait => true
  | _ => false

/-- State of a record as a view names it. -/
def Record.stateName : Record → RecordState
  | .free => .none
  | .waiting _ => .waiting
  | .held _ => .held
  | .retired _ => .retired

/-- Retire cause of a RETIRED record. -/
def Record.cause : Record → Option RetireCause
  | .retired r => some r.cause
  | _ => none

/-- The warned mark of a HELD record. -/
def Record.warned : Record → Bool
  | .held h => h.warned
  | _ => false

/-- The overdue mark: the table is frozen and the record's time, if it has one, is due (R24). -/
def Record.overdue (r : Record) (settled : Tick) (frozen : Bool) : Bool :=
  frozen && r.viewTime.1.timed && isDue r.viewTime.2 settled

/-- The lease view of a record in a slot (R23); FREE slots have none. -/
def Record.view (r : Record) (handle : Handle) (settled : Tick) (frozen : Bool) : Option View :=
  r.common.map fun c =>
    { handle, state := r.stateName, holder := c.holder, mode := c.mode, region := c.region, label := c.label
      kind := r.viewTime.1
      time := r.viewTime.2
      remaining := if r.viewTime.1.timed then remaining r.viewTime.2 settled else 0
      warned := r.warned
      convPending := r.conv.isSome
      overdue := r.overdue settled frozen
      cause := r.cause }

/-! ### Marks of a port -/

/-- The DONE status mark of a tag: DONE with the cancel-outstanding mark clear (R159). -/
def Context.doneMark : Context → Bool
  | .done _ false => true
  | _ => false

/-- A byte from its bits, bit 7 first. -/
def byteOfBits (b7 b6 b5 b4 b3 b2 b1 b0 : Bool) : Byte :=
  BitVec.ofBool b7 ++ BitVec.ofBool b6 ++ BitVec.ofBool b5 ++ BitVec.ofBool b4 ++ BitVec.ofBool b3 ++
    BitVec.ofBool b2 ++ BitVec.ofBool b1 ++ BitVec.ofBool b0

/-- Whether DONE mark `t` of a port is set. -/
def AgentPort.doneMark (a : AgentPort) (t : Tag) : Bool := (pick a.contexts t).doneMark

/-- The status byte (R168, 11.5). -/
def AgentPort.statusByte (a : AgentPort) : Byte :=
  byteOfBits a.sessionOpen a.lost (decide (0 < a.marked)) (decide (a.cause ≠ .none))
    (a.doneMark 3) (a.doneMark 2) (a.doneMark 1) (a.doneMark 0)

/-- Two-bit code of a context state (11.5); a held context shows QUEUED. -/
def Context.stateCode : Context → BitVec 2
  | .free => 0
  | .queued _ _ _ => 1
  | .waiting _ _ _ => 2
  | .done _ _ => 3

/-- Code of a link-fault cause (11.5). -/
def LinkFault.code : LinkFault → Byte
  | .none => 0
  | .unknownTransaction => 1
  | .unknownRequest => 2
  | .check => 3
  | .tagBusy => 4
  | .shortFrame => 5
  | .overlong => 6

/-- Fields 2 to 5 of the extended status: tag states, link-fault cause, marked count, flags (R173, 11.5). -/
def AgentPort.extendedFields (a : AgentPort) : List Byte :=
  [(pick a.contexts 3).stateCode ++ (pick a.contexts 2).stateCode ++ (pick a.contexts 1).stateCode ++
      (pick a.contexts 0).stateCode,
   a.cause.code,
   BitVec.ofNat 8 a.marked,
   byteOfBits false false false false a.frozen a.supervisor a.freezeOwner a.sessionOpen]

/-- The bytes of an extended status that follow the status byte, with their check byte (R173). -/
def AgentPort.extendedStatus (a : AgentPort) : List Byte := a.extendedFields ++ [crc a.extendedFields]

/-- Whether the link is in a port reset. -/
def Link.inPortReset : Link → Bool
  | .inReset => true
  | .draining => true
  | _ => false

/-- Whether the port drives ATTNn low (R165). -/
def AgentPort.attention (a : AgentPort) : Bool :=
  !a.link.inPortReset &&
    (a.mask.done && (a.doneMark 0 || a.doneMark 1 || a.doneMark 2 || a.doneMark 3) ||
      a.mask.notice && decide (0 < a.marked) || a.lost)

/-- What the port drives on SDOn (10.1, R167). -/
inductive SdoDrive where
  | highImpedance
  | allHigh
  | bytes (out : List Byte)
  deriving DecidableEq, Repr

/-- SDOn: high impedance while SELn is high; the captured status byte during the transaction byte; the reply bytes
still to come in REPLY; high for every other bit, in a port reset the status byte position included (R167, R170).
DESIGN CHOICE (log 18): driven high while RESETn and SELn are low, where the link is in STANDBY (log 5). -/
def AgentPort.sdo (a : AgentPort) : SdoDrive :=
  if a.selLow then
    match a.link with
    | .command => .bytes [a.shownStatus]
    | .reply _ [] => .allHigh
    | .reply _ (b :: bs) => .bytes (b :: bs)
    | _ => .allHigh
  else .highImpedance

/-- The first fault since the cause was last cleared stands (R174). -/
def AgentPort.recordFault (a : AgentPort) (c : LinkFault) : AgentPort :=
  if a.cause = .none then { a with cause := c } else a

end Sys2Proof.Machine
end

