-- ==== Sys2Proof/Machine/Formats.lean ====
section
/-! DEFINITION. Machine/Formats.lean: the bytes of result records: outcome codes, codes of enumerated fields, payload
layouts, the lease view, and the record with its check byte (11.3, 11.4, R180). -/

namespace Sys2Proof.Machine

/-! ### Codes (11.3) -/

/-- Outcome codes. -/
def ResultCode.byte : ResultCode → Byte
  | .ok => 0x00
  | .granted => 0x01
  | .conflict => 0x02
  | .selfConflict => 0x03
  | .deadlock => 0x04
  | .tableFull => 0x05
  | .capReached => 0x06
  | .tooLong => 0x07
  | .limit => 0x08
  | .range => 0x09
  | .malformed => 0x0A
  | .stale => 0x0B
  | .notHolder => 0x0C
  | .wrongState => 0x0D
  | .gone => 0x0E
  | .timeout => 0x0F
  | .cancelled => 0x10
  | .revoked => 0x11
  | .noSession => 0x12
  | .alreadyOpen => 0x13
  | .notPermitted => 0x14
  | .busy => 0x15
  | .inUse => 0x16
  | .sequence => 0x17
  | .endOfScan => 0x18
  | .nothing => 0x19

/-- A flag byte: 0x00 clear, 0x01 set. -/
def flagByte (b : Bool) : Byte := if b then 0x01 else 0x00

/-- A count byte. -/
def countByte (n : Nat) : Byte := BitVec.ofNat 8 n

/-- A port byte. -/
def portByte (p : Port) : Byte := BitVec.ofNat 8 p.val

/-- Mode bit: 1 for SOLE. -/
def Mode.bit : Mode → BitVec 1
  | .shared => 0
  | .sole => 1

/-- Handle kind. -/
def HandleRef.kindByte : HandleRef → Byte
  | .none => 0
  | .own _ => 1
  | .blocker _ => 2

/-- Handle field; 0 for NONE (R38, R64). -/
def HandleRef.value : HandleRef → Handle
  | .none => 0
  | .own h => h
  | .blocker h => h

/-- Path. -/
def PathKind.byte : PathKind → Byte
  | .none => 0
  | .immediate => 1
  | .queued => 2

/-- Time kind of a payload. -/
def GrantTime.kindByte : GrantTime → Byte
  | .none => 0
  | .deadline _ => 1
  | .pinned => 2

/-- Deadline field; 0 unless the time kind is DEADLINE. -/
def GrantTime.value : GrantTime → Tick
  | .none => 0
  | .deadline d => d
  | .pinned => 0

/-- Retire cause, two bits. -/
def causeCode : Option RetireCause → BitVec 2
  | none => 0
  | some .expired => 1
  | some .revoked => 2

/-- Retire cause as a byte. -/
def causeByte (c : Option RetireCause) : Byte := (causeCode c).setWidth 8

/-- End cause. -/
def EndCause.byte : EndCause → Byte
  | .none => 0
  | .released => 1
  | .expired => 2
  | .revoked => 3

/-- Effect of ACKNOWLEDGE. -/
def AckEffect.byte : AckEffect → Byte
  | .none => 0
  | .freed => 1
  | .cleared => 2

/-- Effect of REVOKE. -/
def RevokeEffect.byte : RevokeEffect → Byte
  | .none => 0
  | .retired => 1
  | .freed => 2

/-- Effect of TRIM. -/
def TrimEffect.byte : TrimEffect → Byte
  | .none => 0
  | .carry => 1
  | .borrow => 2

/-- Record state, two bits. -/
def RecordState.code : RecordState → BitVec 2
  | .none => 0
  | .waiting => 1
  | .held => 2
  | .retired => 3

/-- Time kind of a view. -/
def TimeKind.byte : TimeKind → Byte
  | .none => 0
  | .deadline => 1
  | .pinned => 2
  | .wait => 3
  | .unlimited => 4

/-- An attention mask as a byte: bit 0 DONE, bit 1 NOTICE. -/
def AttnMask.byte (m : AttnMask) : Byte :=
  (0 : BitVec 6) ++ BitVec.ofBool m.notice ++ BitVec.ofBool m.done

/-! ### The lease view (11.4.1) -/

/-- The 20 bytes of a lease view. DESIGN CHOICE (log 19): bits 3 to 1 of byte 2 and bits 7, 6 and 3 of byte 19, to which
11.4.1 gives no field, are 0. -/
def View.bytes (v : View) : List Byte :=
  bytes2 v.handle ++
    [v.state.code ++ BitVec.ofNat 2 v.holder.val ++ (0 : BitVec 3) ++ v.mode.bit] ++
    bytes3 (v.region.base.setWidth 24) ++ bytes2 v.region.lenM1 ++ bytes2 v.label ++ [v.kind.byte] ++
    bytes4 v.time ++ bytes4 v.remaining ++
    [(0 : BitVec 2) ++ causeCode v.cause ++ (0 : BitVec 1) ++ BitVec.ofBool v.overdue ++
      BitVec.ofBool v.convPending ++ BitVec.ofBool v.warned]

/-- A view that may be absent: 20 bytes of 0 when it is (R180). -/
def viewBytes : Option View → List Byte
  | some v => v.bytes
  | none => List.replicate 20 0

/-! ### Payloads (11.4) -/

/-- The four limits as a LIMITS payload carries them. -/
def Limits.bytes (l : Limits) : List Byte :=
  [l.leaseCap] ++ bytes2 l.durationCap ++ [flagByte l.mayPin, l.renewalCap]

/-- The bytes of a payload. DESIGN CHOICE (log 19): the bits to which 11.4 gives no field are 0: bits 7, 3 and 2 of port
and rights (OPEN), bits 6 to 2 of warned and retire cause (RENEW), bits 7 to 2 of the scan flags, and bits 7 to 4 of the
port flags (REVOKE_RANGE). -/
def Payload.bytes : Payload → List Byte
  | .empty => []
  | .openSession x =>
    [(0 : BitVec 1) ++ BitVec.ofBool x.wasLost ++ BitVec.ofBool x.limits.mayPin ++ BitVec.ofBool x.supervisor ++
        (0 : BitVec 2) ++ BitVec.ofNat 2 x.port.val, x.limits.leaseCap] ++
      bytes2 x.limits.durationCap ++ [x.limits.renewalCap] ++ bytes2 (x.warnMargin.setWidth 16) ++ [x.mask.byte] ++
      bytes4 x.settled
  | .sessionEnd x =>
    [portByte x.port, countByte x.heldFreed, countByte x.waitingRemoved, countByte x.retiredFreed,
      countByte x.conversionsEnded, flagByte x.thawed]
  | .claim x =>
    [x.ref.kindByte] ++ bytes2 x.ref.value ++ [x.path.byte, x.time.kindByte] ++ bytes4 x.time.value ++
      bytes2 x.generation
  | .renew x =>
    bytes4 x.deadline ++ bytes2 x.duration ++
      [x.renewals, BitVec.ofBool x.warned ++ (0 : BitVec 5) ++ causeCode x.cause]
  | .downgrade c => [causeByte c]
  | .upgrade x =>
    [x.ref.kindByte] ++ bytes2 x.ref.value ++ [x.path.byte, x.time.kindByte] ++ bytes4 x.time.value ++
      [x.endCause.byte]
  | .acknowledge x =>
    [x.effect.byte, causeByte x.cause, x.time.kindByte] ++ bytes4 x.time.value ++ bytes4 x.remaining ++
      [countByte x.marked]
  | .notice x => [countByte x.marked, flagByte x.view.isSome] ++ viewBytes x.view
  | .probe x =>
    [countByte x.held, countByte x.waiting, countByte x.overdue, flagByte x.view.isSome] ++ viewBytes x.view ++
      bytes2 x.generation
  | .scan x =>
    [(0 : BitVec 6) ++ BitVec.ofBool x.changed ++ BitVec.ofBool x.view.isSome] ++ viewBytes x.view ++
      [match x.next with
        | some k => BitVec.ofNat 8 k.val
        | none => 0] ++
      bytes2 x.startGen ++ bytes2 x.generation
  | .limits x => [portByte x.target, countByte x.owned] ++ x.before.bytes ++ x.after.bytes
  | .revoke x =>
    [(x.prior.code).setWidth 8, x.effect.byte, portByte x.holder, flagByte x.convEnded, causeByte x.priorCause]
  | .revokeRange x =>
    [countByte x.retired, countByte x.conversionsEnded,
      (0 : BitVec 4) ++ BitVec.ofBool (pick x.ports 3) ++ BitVec.ofBool (pick x.ports 2) ++
        BitVec.ofBool (pick x.ports 1) ++ BitVec.ofBool (pick x.ports 0)]
  | .freeze x => [portByte x.owner] ++ bytes4 x.start ++ bytes4 x.limit ++ bytes4 x.settled
  | .thaw x =>
    bytes4 x.start ++ bytes2 x.frozenTicks ++
      [countByte x.expired, countByte x.timedOut, countByte x.conversionsEnded, countByte x.granted]
  | .trim x =>
    [x.adjustment, x.phaseBefore.setWidth 8, x.phaseAfter.setWidth 8] ++ bytes4 x.now ++
      [flagByte x.debt, x.effect.byte]
  | .clock x =>
    bytes4 x.now ++ [x.phase.setWidth 8, flagByte x.debt] ++ bytes4 x.settled ++ bytes2 x.generation ++
      [flagByte x.frozen]

/-- Payload length of a request's result record (11.4). -/
def ReqCode.payloadLength : ReqCode → Nat
  | .openSession => 12
  | .closeSession => 6
  | .evict => 6
  | .claim => 11
  | .renew => 8
  | .release => 0
  | .noop => 0
  | .downgrade => 1
  | .upgrade => 10
  | .acknowledge => 12
  | .notice => 22
  | .probe => 26
  | .scanFirst => 26
  | .scanNext => 26
  | .limits => 12
  | .revoke => 5
  | .revokeRange => 3
  | .freeze => 13
  | .thaw => 10
  | .trim => 9
  | .readClock => 13

/-- The request code whose result carries payloads of this form; the first of them where several codes share it. -/
def Payload.form : Payload → ReqCode
  | .empty => .noop
  | .openSession _ => .openSession
  | .sessionEnd _ => .closeSession
  | .claim _ => .claim
  | .renew _ => .renew
  | .downgrade _ => .downgrade
  | .upgrade _ => .upgrade
  | .acknowledge _ => .acknowledge
  | .notice _ => .notice
  | .probe _ => .probe
  | .scan _ => .scanFirst
  | .limits _ => .limits
  | .revoke _ => .revoke
  | .revokeRange _ => .revokeRange
  | .freeze _ => .freeze
  | .thaw _ => .thaw
  | .trim _ => .trim
  | .clock _ => .readClock

/-- The form of a request's payload (R159, 11.4): EVICT shares that of CLOSE, SCAN_NEXT that of SCAN_FIRST, and
RELEASE and NOOP have none. -/
def ReqCode.payloadForm : ReqCode → ReqCode
  | .evict => .closeSession
  | .release => .noop
  | .scanNext => .scanFirst
  | c => c

/-- Whether a payload is of the kind that a request's result carries. -/
def Payload.fits (c : ReqCode) (x : Payload) : Bool := x.form == c.payloadForm

/-! ### Payloads with every field 0 or NONE (R159, R180) -/

/-- Limits with every field 0. -/
def Limits.zero : Limits := { leaseCap := 0, durationCap := 0, mayPin := false, renewalCap := 0 }

/-- The payload of a request with every field 0 or NONE. -/
def ReqCode.zeroPayload : ReqCode → Payload
  | .openSession =>
    .openSession { port := 0, supervisor := false, limits := .zero, warnMargin := 0, mask := .clear,
                   wasLost := false, settled := 0 }
  | .closeSession | .evict =>
    .sessionEnd { port := 0, heldFreed := 0, waitingRemoved := 0, retiredFreed := 0, conversionsEnded := 0,
                  thawed := false }
  | .claim => .claim { ref := .none, path := .none, time := .none, generation := 0 }
  | .renew => .renew { deadline := 0, duration := 0, renewals := 0, warned := false, cause := none }
  | .release | .noop => .empty
  | .downgrade => .downgrade none
  | .upgrade => .upgrade { ref := .none, path := .none, time := .none, endCause := .none }
  | .acknowledge => .acknowledge { effect := .none, cause := none, time := .none, remaining := 0, marked := 0 }
  | .notice => .notice { marked := 0, view := none }
  | .probe => .probe { held := 0, waiting := 0, overdue := 0, view := none, generation := 0 }
  | .scanFirst | .scanNext => .scan { view := none, next := none, startGen := 0, generation := 0, changed := false }
  | .limits => .limits { target := 0, owned := 0, before := .zero, after := .zero }
  | .revoke => .revoke { prior := .none, effect := .none, holder := 0, convEnded := false, priorCause := none }
  | .revokeRange => .revokeRange { retired := 0, conversionsEnded := 0, ports := tab fun _ => false }
  | .freeze => .freeze { owner := 0, start := 0, limit := 0, settled := 0 }
  | .thaw =>
    .thaw { start := 0, frozenTicks := 0, expired := 0, timedOut := 0, conversionsEnded := 0, granted := 0 }
  | .trim =>
    .trim { adjustment := 0, phaseBefore := 0, phaseAfter := 0, now := 0, debt := false, effect := .none }
  | .readClock =>
    .clock { now := 0, phase := 0, debt := false, settled := 0, generation := 0, frozen := false }

/-! ### The record (11.4, R171, R175) -/

/-- Tag byte: the tag in bits 1 to 0, CANCEL_LATE in bit 7. -/
def tagByte (t : Tag) (late : Bool) : Byte := BitVec.ofBool late ++ (0 : BitVec 5) ++ BitVec.ofNat 2 t.val

/-- The covered bytes of the record in context `t`: outcome, request code, tag byte, payload. -/
def ResultRecord.covered (r : ResultRecord) (t : Tag) : List Byte :=
  [r.outcome.byte, r.code.byte, tagByte t r.late] ++ r.payload.bytes

/-- The record that a FETCH of tag `t` shifts out (R171). -/
def ResultRecord.bytes (r : ResultRecord) (t : Tag) : List Byte := r.covered t ++ [crc (r.covered t)]

/-! ### Single reply bytes (11.1) -/

/-- CANCEL found nothing to do. -/
def replyNothing : Byte := 0x00

/-- CANCEL withdrew the request at the port. -/
def replyCancelled : Byte := 0x01

/-- CANCEL was forwarded to the engine. -/
def replyForwarded : Byte := 0x02

/-- FETCH of a context that is not ready. -/
def replyNotReady : Byte := 0x80

end Sys2Proof.Machine
end

