-- ==== Sys2Proof/Machine/Ops.lean ====
section
/-! DEFINITION. Machine/Ops.lean: the named operations that the commands share: reading and changing the table,
conflict, the grant pass, thaw settlement, session end, the closing of an event, and the paths between blocks. -/

namespace Sys2Proof.Machine

/-- A message on its way from the engine to a port. -/
abbrev Out := Port × EngineMsg

/-! ### Reading the engine -/

/-- The record in slot `k`. -/
def Engine.record (e : Engine) (k : SlotNo) : Record := (pick e.slots k).record

/-- The issue number of slot `k`. -/
def Engine.issue (e : Engine) (k : SlotNo) : BitVec 10 := (pick e.slots k).issue

/-- The handle that names what stands in slot `k` (R16). -/
def Engine.handle (e : Engine) (k : SlotNo) : Handle := mkHandle k (e.issue k)

/-- The session entry of port `p` (R119). -/
def Engine.session (e : Engine) (p : Port) : Session := pick e.sessions p

/-- The limits of port `p` (R128). -/
def Engine.limitsOf (e : Engine) (p : Port) : Limits := pick e.limits p

/-- The warn margin of port `p` (R94). -/
def Engine.margin (e : Engine) (p : Port) : BitVec 12 := (e.session p).warnMargin

/-- Whether the table is frozen (R140). -/
def Engine.isFrozen (e : Engine) : Bool := e.freeze.isSome

/-- How many slots meet a condition. -/
def Engine.countSlots (e : Engine) (f : Record → Bool) : Nat := (allSlots.filter fun k => f (e.record k)).length

/-- Owned count of a port: its records that are not FREE (R21). -/
def Engine.ownedCount (e : Engine) (p : Port) : Nat := e.countSlots fun r => r.ownedBy p

/-- Marked-record count of a port: its RETIRED records and warned leases (R22). -/
def Engine.markedCount (e : Engine) (p : Port) : Nat := e.countSlots fun r => r.ownedBy p && r.isMarked

/-- The lease view of slot `k` (R23). -/
def Engine.view (e : Engine) (k : SlotNo) : Option View :=
  (e.record k).view (e.handle k) e.settled e.isFrozen

/-- The slot that a current handle names; `none` is the stale test of R17. -/
def Engine.current (e : Engine) (h : Handle) : Option SlotNo :=
  if (e.record (slotOf h)).isFree ∨ e.issue (slotOf h) ≠ issueOf h then none else some (slotOf h)

/-- The lowest-numbered FREE slot (R7). -/
def Engine.lowestFree (e : Engine) : Option SlotNo := allSlots.find? fun k => (e.record k).isFree

/-! ### Changing the table -/

/-- Slot `k` with a new record; its issue number stays (R15). -/
def Engine.setRecord (e : Engine) (k : SlotNo) (r : Record) : Engine :=
  { e with slots := put e.slots k { pick e.slots k with record := r } }

/-- Slot `k` leaves FREE: the issue number is incremented and a fresh record written (R8, R15). -/
def Engine.enter (e : Engine) (k : SlotNo) (r : Record) : Engine :=
  { e with slots := put e.slots k { issue := e.issue k + 1, record := r } }

/-- Every record changed by `f`, issue numbers kept. -/
def Engine.mapRecords (e : Engine) (f : SlotNo → Record → Record) : Engine :=
  { e with slots := tab fun k => { pick e.slots k with record := f k (e.record k) } }

/-- A session entry replaced. -/
def Engine.setSession (e : Engine) (p : Port) (x : Session) : Engine := { e with sessions := put e.sessions p x }

/-- A list of slots without those that `f` names; the rest keep their order (R40, R66). -/
def dropSlots (f : SlotNo → Bool) (l : List SlotNo) : List SlotNo := l.filter fun k => !f k

/-- The slots that `which` names become FREE and leave both lists; issue numbers stay (R9). -/
def Engine.freeWhere (e : Engine) (which : SlotNo → Bool) : Engine :=
  { e.mapRecords fun k r => if which k then .free else r with
    waitList := dropSlots which e.waitList, convList := dropSlots which e.convList }

/-- A HELD record retires: the common fields stay, the cause is written, the rest goes (R13). -/
def Record.retire (cause : RetireCause) : Record → Record
  | .held h => .retired { toCommon := h.toCommon, cause }
  | r => r

/-- The HELD leases that `which` names retire and leave the conversion list (R13). -/
def Engine.retireWhere (e : Engine) (which : SlotNo → Bool) (cause : RetireCause) : Engine :=
  { e.mapRecords fun k r => if which k then r.retire cause else r with convList := dropSlots which e.convList }

/-- A HELD record without its pending conversion; the lease is otherwise as it was (R14). -/
def Record.dropConv : Record → Record
  | .held h => .held { h with conv := none }
  | r => r

/-- The pending conversions of the leases that `which` names leave without being granted (R66). -/
def Engine.dropConvWhere (e : Engine) (which : SlotNo → Bool) : Engine :=
  { e.mapRecords fun k r => if which k then r.dropConv else r with convList := dropSlots which e.convList }

/-- The completions of the pending conversions that `which` names, in conversion-list order (R67). -/
def Engine.convCompletions (e : Engine) (which : SlotNo → Bool) (c : Completion) : List Out :=
  e.convList.filterMap fun k =>
    match e.record k with
    | .held h => if which k then h.conv.map fun v => (h.holder, .completion v.tag c) else none
    | _ => none

/-- The completions of the waiting claims that `which` names, in wait-list order. -/
def Engine.waitCompletions (e : Engine) (which : SlotNo → Bool) (c : Completion) : List Out :=
  e.waitList.filterMap fun k =>
    match e.record k with
    | .waiting w => if which k then some (w.holder, .completion w.tag c) else none
    | _ => none

/-! ### Conflict (R3, R4) -/

/-- Two parties conflict when their regions overlap and at least one of the two is SOLE (R3). -/
def conflicts (ga : Region) (ma : Mode) (gb : Region) (mb : Mode) : Bool :=
  ga.overlaps gb && (ma == .sole || mb == .sole)

/-- Region and effective mode with which a record takes part in conflict tests (R4). -/
def Record.stake : Record → Option (Region × Mode)
  | .waiting w => some (w.region, w.mode)
  | .held h => some (h.region, if h.conv.isSome then .sole else h.mode)
  | _ => none

/-- Whether a claim or waiter for `g` in mode `m` conflicts with the record (R3, R4). -/
def Record.blocks (r : Record) (g : Region) (m : Mode) : Bool :=
  match r.stake with
  | some (gb, mb) => conflicts g m gb mb
  | none => false

/-- The slots that a claim conflicts with, lowest first (R34). -/
def Engine.blockers (e : Engine) (g : Region) (m : Mode) : List SlotNo :=
  allSlots.filter fun k => (e.record k).blocks g m

/-- The slots of the claim's own port that it conflicts with, lowest first (R33). -/
def Engine.selfBlockers (e : Engine) (p : Port) (g : Region) (m : Mode) : List SlotNo :=
  allSlots.filter fun k => (e.record k).ownedBy p && (e.record k).blocks g m

/-- The other HELD leases whose regions overlap `g`, lowest first (R44, R59, R63). -/
def Engine.otherHolders (e : Engine) (k : SlotNo) (g : Region) : List SlotNo :=
  allSlots.filter fun j => j != k && (e.record j).isHeld && (e.record j).overlaps g

/-! ### Grants -/

/-- The HELD record of a claim granted now: deadline from the settled tick, renewal count 0, warned by the holder's
margin, no pending conversion (R35, R46). -/
def Engine.grantedHeld (e : Engine) (c : Common) (duration : Half) : Held :=
  { toCommon := c, term := .start e.settled duration, renewals := 0
    warned := duration != 0 && warnedAtWrite duration (e.margin c.holder), conv := none }

/-- First part of the grant pass, one entry: a conversion is granted when no other HELD lease overlaps (R44). -/
def Engine.grantConversion (e : Engine) (k : SlotNo) : Option (Engine × Out) :=
  match e.record k with
  | .held h =>
    match h.conv with
    | some c =>
      if e.otherHolders k h.region = [] then
        some ({ e.setRecord k (.held { h with mode := .sole, conv := none }) with
                convList := dropSlots (fun j => j == k) e.convList },
              (h.holder, .completion c.tag { outcome := .granted, time := h.term.grantTime, endCause := .none }))
      else none
    | none => none
  | _ => none

/-- First part of the grant pass, in list order (R44). -/
def Engine.grantConversions : List SlotNo → Engine → Engine × List Out
  | [], e => (e, [])
  | k :: ks, e =>
    match e.grantConversion k with
    | some (e1, m) => ((grantConversions ks e1).1, m :: (grantConversions ks e1).2)
    | none => grantConversions ks e

/-- What holds a waiter back in the second part of the pass: a HELD lease, one with a pending conversion taken as
SOLE, or an earlier entry still WAITING after its turn (R45). -/
def Engine.heldBack (e : Engine) (passed : List SlotNo) (w : Waiting) : Bool :=
  (allSlots.any fun j => (e.record j).isHeld && (e.record j).blocks w.region w.mode) ||
    (passed.any fun j => (e.record j).isWaiting && (e.record j).blocks w.region w.mode)

/-- Second part of the grant pass, one entry: the slot becomes HELD in place (R45, R46). -/
def Engine.grantWaiter (e : Engine) (passed : List SlotNo) (k : SlotNo) : Option (Engine × Out) :=
  match e.record k with
  | .waiting w =>
    if e.heldBack passed w then none
    else
      some ({ e.setRecord k (.held (e.grantedHeld w.toCommon w.duration)) with
              waitList := dropSlots (fun j => j == k) e.waitList },
            (w.holder, .completion w.tag
              { outcome := .granted, time := (Term.start e.settled w.duration).grantTime, endCause := .none }))
  | _ => none

/-- Second part of the grant pass, in list order; `passed` are the entries examined and left (R45). -/
def Engine.grantWaiters : List SlotNo → List SlotNo → Engine → Engine × List Out
  | _, [], e => (e, [])
  | passed, k :: ks, e =>
    match e.grantWaiter passed k with
    | some (e1, m) => ((grantWaiters passed ks e1).1, m :: (grantWaiters passed ks e1).2)
    | none => grantWaiters (passed ++ [k]) ks e

/-- The grant pass: conversions, then waiters (R43 to R47). -/
def Engine.grantPass (e : Engine) : Engine × List Out :=
  let c := Engine.grantConversions e.convList e
  let w := Engine.grantWaiters [] c.1.waitList c.1
  (w.1, c.2 ++ w.2)

/-- The pass of an ordinary event: none while the table is frozen (R43). -/
def Engine.passUnlessFrozen (e : Engine) : Engine × List Out :=
  if e.isFrozen then (e, []) else e.grantPass

/-! ### Closing an event -/

/-- The generation advances by one when the event changed at least one record (R19). -/
def Engine.closeEvent (old new : Engine) : Engine :=
  if new.slots = old.slots then new else { new with generation := new.generation + 1 }

/-- The new marked-record count for each port whose count the event changed (R99). -/
def countNotices (old new : Engine) : List Out :=
  allPorts.filterMap fun p =>
    if new.markedCount p = old.markedCount p then none else some (p, .marked (new.markedCount p))

/-- The session notice of port `p` with the values that the event leaves (R121). -/
def Engine.sessionNotice (e : Engine) (p : Port) : Out :=
  (p, .session (e.session p).isOpen (e.session p).mask (e.session p).lost)

/-- The freeze notices to the four ports with the values that the event leaves (R140). -/
def Engine.freezeNotices (e : Engine) : List Out :=
  allPorts.map fun p => (p, .freeze e.isFrozen (e.freeze.any fun f => f.owner == p))

/-- The freeze notices of an event, when it set or cleared Frozen (R140). -/
def Engine.freezeNoticesIf (e : Engine) (changed : Bool) : List Out := if changed then e.freezeNotices else []

/-! ### Expiry, timeouts and warnings (R90 to R94, R148) -/

/-- Completion of a conversion whose lease expired (R91). -/
def Completion.expired : Completion := { outcome := .gone, time := .none, endCause := .expired }

/-- Completion of a wait or conversion that timed out (R92, R93). -/
def Completion.timedOut : Completion := { outcome := .timeout, time := .none, endCause := .none }

/-- Completion of a wait or conversion whose session ended (R126). -/
def Completion.sessionEnded : Completion := { outcome := .noSession, time := .none, endCause := .none }

/-- Every HELD lease with a due deadline retires EXPIRED; pending conversions complete GONE (R91). -/
def Engine.expirePart (e : Engine) : Engine × List Out :=
  (e.retireWhere (fun k => (e.record k).leaseDue e.settled) .expired,
   e.convCompletions (fun k => (e.record k).leaseDue e.settled) .expired)

/-- Every waiting claim with a due wait deadline becomes FREE and completes TIMEOUT (R92). -/
def Engine.waitTimeoutPart (e : Engine) : Engine × List Out :=
  (e.freeWhere fun k => (e.record k).waitDue e.settled,
   e.waitCompletions (fun k => (e.record k).waitDue e.settled) .timedOut)

/-- Every pending conversion with a due wait deadline leaves and completes TIMEOUT (R93). -/
def Engine.convTimeoutPart (e : Engine) : Engine × List Out :=
  (e.dropConvWhere fun k => (e.record k).convDue e.settled,
   e.convCompletions (fun k => (e.record k).convDue e.settled) .timedOut)

/-- The margin against which a record is warned: its holder's (R94). -/
def Engine.marginFor (e : Engine) (r : Record) : BitVec 12 :=
  match r.common with
  | some c => e.margin c.holder
  | none => 0

/-- Leases that reach their holder's warn margin gain the warned mark (R94). -/
def Engine.warnPart (e : Engine) : Engine :=
  e.mapRecords fun _ r => if r.reachesMargin e.settled (e.marginFor r) then r.warn else r

/-- The parts that retire and time out, in order: leases, waiting claims, conversions (R90, R148). -/
structure Settled where
  engine       : Engine
  expired      : List Out
  waitsOut     : List Out
  convsOut     : List Out
  leasesGone   : Nat
  waitsGone    : Nat
  moved        : Bool

/-- Leases, then waiting claims, then conversions that are due (R90 parts 2 to 4, R148 parts 1 and 2). -/
def Engine.settleDue (e : Engine) : Settled :=
  let a := e.expirePart
  let b := a.1.waitTimeoutPart
  let c := b.1.convTimeoutPart
  { engine := c.1, expired := a.2, waitsOut := b.2, convsOut := c.2
    leasesGone := e.countSlots fun r => r.leaseDue e.settled
    waitsGone := a.1.countSlots fun r => r.waitDue e.settled
    moved := decide (0 < e.countSlots fun r => r.leaseDue e.settled) ||
      decide (0 < a.1.countSlots fun r => r.waitDue e.settled) ||
      decide (0 < b.1.countSlots fun r => r.convDue e.settled) }

/-! ### Thaw settlement (R148, R149, R150) -/

/-- Warned marks at thaw settlement (R149). -/
def Engine.thawWarnPart (e : Engine) (start : Tick) : Engine :=
  e.mapRecords fun _ r => if r.crossedMargin e.settled start (e.marginFor r) then r.warn else r

/-- What thaw settlement leaves: the engine, the GONE and TIMEOUT completions, the GRANTED completions of its pass,
and the counts that THAW reports. -/
structure Thawed where
  engine           : Engine
  early            : List Out
  grants           : List Out
  expired          : Nat
  timedOut         : Nat
  conversionsEnded : Nat

/-- Thaw settlement of the freeze that began at `start` (R148). The pass runs whatever the earlier parts changed. -/
def Engine.settleThaw (e : Engine) (start : Tick) : Thawed :=
  let d := e.settleDue
  let g := (d.engine.thawWarnPart start).grantPass
  { engine := { g.1 with freeze := none }
    early := d.expired ++ d.waitsOut ++ d.convsOut
    grants := g.2
    expired := d.leasesGone
    timedOut := d.waitsGone
    conversionsEnded := d.expired.length + d.convsOut.length }

/-! ### Session end (R126) -/

/-- What the end of a session leaves: the engine before the event is closed, the NO_SESSION completions, the
completions of the pass or settlement, whether the table thawed, and the counts of R127. -/
structure Ended where
  engine  : Engine
  told    : List Out
  passed  : List Out
  thawed  : Bool
  payload : SessionEndPayload

/-- The session entry after its end: CLOSED with cursor NONE; margin, mask and right kept (R119, R126). -/
def Session.ended (x : Session) : Session := { x with isOpen := false, cursor := none }

/-- Steps 1 to 4 of R126: all records of `p` become FREE, its session CLOSED, its cursor NONE. -/
def Engine.clearPort (e : Engine) (p : Port) : Engine :=
  (e.freeWhere fun k => (e.record k).ownedBy p).setSession p (e.session p).ended

/-- Steps 5 and 6 of R126: thaw settlement when `p` owns the freeze, else one grant pass unless frozen. -/
def Engine.afterClear (e : Engine) (p : Port) : Engine × List Out × Bool :=
  match e.freeze with
  | some f =>
    if f.owner = p then
      let t := e.settleThaw f.start
      (t.engine, t.early ++ t.grants, true)
    else (e, [], false)
  | none => (e.grantPass.1, e.grantPass.2, false)

/-- The end of port `p`'s session; `tell` sends the NO_SESSION completions of CLOSE and EVICT, which a port-drop
does not send (R126, R138). DESIGN CHOICE (log 17): waiting removed and conversions ended count `p`'s own, also when the
thaw settlement of step 5 removes waits and conversions of other ports. -/
def Engine.endSession (e : Engine) (p : Port) (tell : Bool) : Ended :=
  let mine := fun k => (e.record k).ownedBy p
  let convs := e.convCompletions mine .sessionEnded
  let waits := e.waitCompletions mine .sessionEnded
  let a := (e.clearPort p).afterClear p
  { engine := a.1
    told := if tell then convs ++ waits else []
    passed := a.2.1
    thawed := a.2.2
    payload :=
      { port := p
        heldFreed := e.countSlots fun r => r.ownedBy p && r.isHeld
        waitingRemoved := e.countSlots fun r => r.ownedBy p && r.isWaiting
        retiredFreed := e.countSlots fun r => r.ownedBy p && r.isRetired
        conversionsEnded := convs.length
        thawed := a.2.2 } }

/-! ### Effects of one engine event -/

/-- What one event of the engine leaves: the engine, the messages to the ports in the order in which they leave,
and a clock request sent to the timebase, if any. -/
structure Effect where
  engine : Engine
  out    : List Out := []
  call   : Option ClockCall := none

/-- The answer that carries a result to context `t` of port `p` (R156). -/
def answerTo (p : Port) (t : Tag) (outcome : ResultCode) (payload : Payload) : Out :=
  (p, .answer t (.result outcome payload false))

/-- An event that changes nothing and answers a result: a refusal or a read. -/
def Engine.reply (e : Engine) (p : Port) (t : Tag) (outcome : ResultCode) (payload : Payload) : Effect :=
  { engine := e, out := [answerTo p t outcome payload] }

/-- A refusal whose payload has every field 0 or NONE. -/
def Engine.refuse (e : Engine) (p : Port) (t : Tag) (outcome : ResultCode) (code : ReqCode) : Effect :=
  e.reply p t outcome code.zeroPayload

/-- Whether port `p`'s session is OPEN: the first check of every request but OPEN, READ_CLOCK and NOOP (R120). -/
def Engine.sessionOpen (e : Engine) (p : Port) : Bool := (e.session p).isOpen

/-- The first two checks of a supervisor request: session, then supervisor right (R123, R77, R141). -/
def Engine.supervisorRefusal (e : Engine) (p : Port) : Option ResultCode :=
  if !e.sessionOpen p then some .noSession
  else if !(e.session p).supervisor then some .notPermitted
  else none

/-- An event that changes the table, closed: the generation step of R19, the messages `out`, then the new marked
counts of R99. -/
def Engine.finish (old new : Engine) (out : List Out) : Effect :=
  { engine := old.closeEvent new, out := out ++ countNotices old new }

/-! ### Messages on the paths (R75, R155) -/

/-- Port `p` of the part. -/
def State.port (s : State) (p : Port) : AgentPort := pick s.ports p

/-- The part with port `p` replaced. -/
def State.setPort (s : State) (p : Port) (a : AgentPort) : State := { s with ports := put s.ports p a }

/-- The part with the engine replaced. -/
def State.setEngine (s : State) (e : Engine) : State := { s with engine := e }

/-- The part with the timebase replaced. -/
def State.setTimebase (s : State) (x : Timebase) : State := { s with timebase := x }

/-- The messages of `out` that go to port `p`, in order. -/
def outFor (p : Port) (out : List Out) : List EngineMsg :=
  out.filterMap fun m => if m.1 = p then some m.2 else none

/-- The engine sends messages: each port's join the tail of its path (R155). -/
def State.send (s : State) (out : List Out) : State :=
  { s with toPort := tab fun p => pick s.toPort p ++ outFor p out }

/-- Port `p` sends messages to the engine (R155). -/
def State.sendToEngine (s : State) (p : Port) (ms : List PortMsg) : State :=
  { s with toEngine := put s.toEngine p (pick s.toEngine p ++ ms) }

/-- Port `p`'s path to the engine with its rest after a message was taken. -/
def State.restToEngine (s : State) (p : Port) (rest : List PortMsg) : State :=
  { s with toEngine := put s.toEngine p rest }

/-- The engine's path to port `p` with its rest after a message was taken. -/
def State.restToPort (s : State) (p : Port) (rest : List EngineMsg) : State :=
  { s with toPort := put s.toPort p rest }

/-- The timebase's path to the engine with its rest after a message was taken. -/
def State.restFromTimebase (s : State) (rest : List TimebaseMsg) : State := { s with fromTimebase := rest }

/-- The timebase sends messages to the engine (R75). -/
def State.sendFromTimebase (s : State) (ms : List TimebaseMsg) : State :=
  { s with fromTimebase := s.fromTimebase ++ ms }

/-- The part after an event of the engine. -/
def State.applyEffect (s : State) (f : Effect) : State :=
  { (s.setEngine f.engine).send f.out with toTimebase := f.call.orElse fun _ => s.toTimebase }

/-! ### Taking events -/

/-- The three outcomes of a command. -/
abbrev StepResult := Host.Outcome State Fault Refusal

/-- While RESETn is low no block takes an event (R73, log 4). -/
def State.whenRunning (s : State) (k : StepResult) : StepResult := if s.resetLow then .next s else k

/-- The engine takes the message at the head of port `p`'s path when `f` gives it an effect; a head that is not the
named kind is not taken (log 1). -/
def State.takeFromPort (s : State) (p : Port) (f : PortMsg → Option Effect) : StepResult :=
  s.whenRunning <|
    match pick s.toEngine p with
    | [] => .next s
    | m :: rest =>
      match f m with
      | some x => .next ((s.restToEngine p rest).applyEffect x)
      | none => .next s

/-- The engine takes port `p`'s request at the head of its path. The engine takes no request while it holds a clock
request (R77). -/
def State.takeRequest (s : State) (p : Port) (f : Tag → Request → Option Effect) : StepResult :=
  if s.engine.clock.isSome then .next s
  else s.takeFromPort p fun m =>
    match m with
    | .request t r => f t r
    | _ => none

/-- Port `p` takes the message at the head of the engine's path to it when `f` names it as the command's kind. -/
def State.takeAtPort (s : State) (p : Port) (f : EngineMsg → Option (Except Fault AgentPort)) : StepResult :=
  s.whenRunning <|
    match pick s.toPort p with
    | [] => .next s
    | m :: rest =>
      match f m with
      | some (.ok a) => .next ((s.restToPort p rest).setPort p a)
      | some (.error x) => .fault x
      | none => .next s

/-- Port `p` takes an event on its pins or its link; it may send messages to the engine. -/
def State.atPort (s : State) (p : Port) (f : AgentPort → AgentPort × List PortMsg) : StepResult :=
  s.whenRunning <| .next ((s.setPort p (f (s.port p)).1).sendToEngine p (f (s.port p)).2)

/-! ### Contexts of a port -/

/-- Context `t` of the port. -/
def AgentPort.context (a : AgentPort) (t : Tag) : Context := pick a.contexts t

/-- Context `t` replaced. -/
def AgentPort.setContext (a : AgentPort) (t : Tag) (c : Context) : AgentPort :=
  { a with contexts := put a.contexts t c }

/-- Tag `t` leaves the submission list; the rest keep their order (R153). -/
def AgentPort.unlist (a : AgentPort) (t : Tag) : AgentPort :=
  { a with submission := a.submission.filter fun u => u != t }

end Sys2Proof.Machine
end

