-- ==== Sys2Proof/Machine/Arbiter.lean ====
section
/-! DEFINITION. Machine/Arbiter.lean: the request arbiter (R143, R154). -/

namespace Sys2Proof.Machine

/-- The requests that stay eligible from every port while the table is frozen (R143). -/
def ReqCode.alwaysEligible : ReqCode → Bool
  | .probe | .scanFirst | .scanNext | .notice | .readClock | .noop | .freeze | .thaw | .trim => true
  | .claim | .renew | .release | .downgrade | .upgrade | .acknowledge | .openSession | .closeSession | .limits
  | .revoke | .revokeRange | .evict => false

/-- Eligibility of port `p`'s request under the freeze state (R143). -/
def Engine.eligible (e : Engine) (p : Port) (c : ReqCode) : Bool :=
  match e.freeze with
  | none => true
  | some f => f.owner == p || c.alwaysEligible

/-- The head of port `p`'s submission list, when the arbiter may take it: QUEUED, not held, eligible (R154). -/
def State.takable (s : State) (p : Port) : Option (Tag × Request) :=
  match (s.port p).submission with
  | [] => none
  | t :: _ =>
    match (s.port p).context t with
    | .queued r false _ => if s.engine.eligible p r.code then some (t, r) else none
    | _ => none

/-- Whether a message is a taken request on its way to the engine. -/
def PortMsg.isRequest : PortMsg → Bool
  | .request _ _ => true
  | _ => false

/-- The engine is ready when it has finished taking the previous request and holds no clock request (R154). -/
def State.engineReady (s : State) : Bool :=
  s.engine.clock.isNone && allPorts.all fun p => (pick s.toEngine p).all fun m => !m.isRequest

/-- The ports in the order of the arbiter's visits: from the one after the last-served round to itself (R154). -/
def visitOrder (last : Port) : List Port := [last + 1, last + 2, last + 3, last]

/-- A port after the arbiter's take of its head: the held mark is set (R154). -/
def AgentPort.held (a : AgentPort) (t : Tag) (r : Request) : AgentPort := a.setContext t (.queued r true false)

/-- The arbiter's take of context `t` of port `p` (R154). -/
def State.arbiterTakes (s : State) (p : Port) (t : Tag) (r : Request) : State :=
  { (s.setPort p ((s.port p).held t r)).sendToEngine p [.request t r] with lastServed := p }

/-- ARBITER_TAKE (R154): the first port in visit order with a head that can be taken; without one there is no take. -/
def execArbiterTake (s : State) : StepResult :=
  s.whenRunning <|
    if s.engineReady then
      match (visitOrder s.lastServed).findSome? fun p => (s.takable p).map fun h => (p, h) with
      | some (p, t, r) => .next (s.arbiterTakes p t r)
      | none => .next s
    else .next s

end Sys2Proof.Machine
end

