-- ==== Sys2Proof/Machine/Claims.lean ====
section
/-! DEFINITION. Machine/Claims.lean: CLAIM (chapter 2, R26 to R38). -/

namespace Sys2Proof.Machine

/-- The duration check (R30): above the duration cap, or PINNED without the may-pin limit. -/
def Limits.tooLong (l : Limits) (duration : Half) : Bool :=
  if duration = 0 then !l.mayPin else decide (l.durationCap.toNat < duration.toNat)

/-- The admission checks of a CLAIM, in order (R27 to R33): the refusal with its blocker, or the mode and the slot that
the claim will take. -/
def Engine.admission (e : Engine) (p : Port) (base : BitVec 24) (lenM1 : Half) (mode : Byte) (duration : Half) :
    Except (ResultCode × HandleRef) (Mode × SlotNo) :=
  if !e.sessionOpen p then .error (.noSession, .none)
  else
    match modeOf mode with
    | none => .error (.malformed, .none)
    | some m =>
      if !baseMeaningful base then .error (.malformed, .none)
      else if !(regionOf base lenM1).valid then .error (.range, .none)
      else if (e.limitsOf p).tooLong duration then .error (.tooLong, .none)
      else if (e.limitsOf p).leaseCap.toNat ≤ e.ownedCount p then .error (.capReached, .none)
      else
        match e.lowestFree, e.selfBlockers p (regionOf base lenM1) m with
        | none, _ => .error (.tableFull, .none)
        | some _, j :: _ => .error (.selfConflict, .blocker (e.handle j))
        | some k, [] => .ok (m, k)

/-- The refusal of a CLAIM: it changes nothing and reports the generation as it stands (R27, R38). -/
def Engine.refuseClaim (e : Engine) (p : Port) (t : Tag) (outcome : ResultCode) (ref : HandleRef) : Effect :=
  e.reply p t outcome (.claim { ref, path := .none, time := .none, generation := e.generation })

/-- An immediate grant in slot `k` (R35). -/
def Engine.grantClaim (e : Engine) (p : Port) (t : Tag) (k : SlotNo) (c : Common) (duration : Half) : Effect :=
  let e1 := e.closeEvent (e.enter k (.held (e.grantedHeld c duration)))
  { engine := e1
    out := [answerTo p t .granted
        (.claim { ref := .own (e1.handle k), path := .immediate, time := (Term.start e.settled duration).grantTime
                  generation := e1.generation })] ++ countNotices e e1 }

/-- The engine with the claim queued in slot `k`, before the event is closed (R37). -/
def Engine.queued (e : Engine) (k : SlotNo) (w : Waiting) : Engine :=
  { e.enter k (.waiting w) with waitList := e.waitList ++ [k] }

/-- A claim queued in slot `k` at the tail of the wait list (R37). -/
def Engine.queueClaim (e : Engine) (p : Port) (t : Tag) (k : SlotNo) (c : Common) (duration limit : Half) : Effect :=
  let e1 := e.closeEvent
    (e.queued k { toCommon := c, duration, waitDeadline := waitDeadlineFrom e.settled limit, tag := t })
  { engine := e1, out := [(p, .answer t (.waitingClaim (e1.handle k) e1.generation))] }

/-- CLAIM taken by the engine (R26, R34 to R37). -/
def Engine.claimReq (e : Engine) (p : Port) (t : Tag) (base : BitVec 24) (lenM1 : Half) (mode : Byte)
    (duration limit label : Half) : Effect :=
  match e.admission p base lenM1 mode duration with
  | .error (o, ref) => e.refuseClaim p t o ref
  | .ok (m, k) =>
    let c : Common := { holder := p, region := regionOf base lenM1, mode := m, label }
    match e.blockers c.region m with
    | [] => e.grantClaim p t k c duration
    | j :: _ =>
      if limit = 0 then e.refuseClaim p t .conflict (.blocker (e.handle j))
      else e.queueClaim p t k c duration limit

/-- CLAIM. -/
def execClaim (p : Port) (s : State) : StepResult :=
  s.takeRequest p fun t r =>
    match r with
    | .claim base lenM1 mode duration limit label =>
      some (s.engine.claimReq p t base lenM1 mode duration limit label)
    | _ => none

end Sys2Proof.Machine
end

