-- ==== Sys2Proof/Machine/Clock.lean ====
section
/-! DEFINITION. Machine/Clock.lean: the engine's side of TRIM and READ_CLOCK, the timebase's answer, and the forwarded
cancel (R77, R78, R79, R85, R86, R161). -/

namespace Sys2Proof.Machine

/-! ### TRIM and READ_CLOCK taken by the engine -/

/-- The engine with a clock request sent to the timebase (R77). -/
def Engine.sendClock (e : Engine) (p : Port) (t : Tag) (kind : ClockKind) (call : ClockCall) : Effect :=
  { engine := { e with clock := some { port := p, tag := t, kind, late := false, dropped := false } }
    call := some call }

/-- The payload of a TRIM that the engine refuses: the adjustment as given, all else 0 (R82). -/
def trimRefusal (adjustment : Byte) : Payload :=
  .trim { adjustment, phaseBefore := 0, phaseAfter := 0, now := 0, debt := false, effect := .none }

/-- TRIM taken by the engine (R77, R82). -/
def Engine.trimReq (e : Engine) (p : Port) (t : Tag) (a : Byte) : Effect :=
  match e.supervisorRefusal p with
  | some o => e.reply p t o (trimRefusal a)
  | none =>
    if !trimMeaningful a then e.refuse p t .malformed .trim
    else e.sendClock p t .trim (.trim a)

/-- TRIM. -/
def execTrim (p : Port) (s : State) : StepResult :=
  s.takeRequest p fun t r =>
    match r with
    | .trim a => some (s.engine.trimReq p t a)
    | _ => none

/-- READ_CLOCK taken by the engine: no checks; settled tick, generation and frozen flag are recorded (R77, R85). -/
def Engine.readClockReq (e : Engine) (p : Port) (t : Tag) : Effect :=
  e.sendClock p t (.readClock e.settled e.generation e.isFrozen) .readClock

/-- READ_CLOCK. -/
def execReadClock (p : Port) (s : State) : StepResult :=
  s.takeRequest p fun t r =>
    match r with
    | .readClock => some (s.engine.readClockReq p t)
    | _ => none

/-! ### The timebase's answer (R78, R79, R82, R86) -/

/-- Outcome and payload of the clock request that the timebase's message answers (R82, R86). -/
def ClockRequest.resultOf (c : ClockRequest) (m : TimebaseMsg) : Option (ResultCode × Payload) :=
  match c.kind, m with
  | .trim, .trimAnswer busy x => some (if busy then .busy else .ok, .trim x)
  | .readClock settled generation frozen, .clockAnswer now phase debt =>
    some (.ok, .clock { now, phase, debt, settled, generation, frozen })
  | _, _ => none

/-- The engine takes the answer to its clock request `c`: the request ends; the port gets its result, late if a
forwarded cancel was taken, unless its port-drop notice was taken (R78, R79). -/
def Engine.endClock (e : Engine) (c : ClockRequest) (o : ResultCode) (x : Payload) : Effect :=
  { engine := { e with clock := none }
    out := if c.dropped then [] else [(c.port, .answer c.tag (.result o x c.late))] }

/-- CLOCK_ANSWER: the engine takes the answer at the head of the timebase's path (R78). An answer to no clock request of
its kind does not arise (R77, R84) and is a fault (log 8). -/
def execClockAnswer (s : State) : StepResult :=
  s.whenRunning <|
    match s.fromTimebase with
    | [] => .next s
    | .tick _ :: _ => .next s
    | m :: rest =>
      match s.engine.clock.bind fun c => (c.resultOf m).map fun r => (c, r) with
      | some (c, o, x) => .next ((s.restFromTimebase rest).applyEffect (s.engine.endClock c o x))
      | none => .fault .clockAnswerUnexpected

/-! ### The forwarded cancel (R161) -/

/-- The waiting claim that context `t` of port `p` is matched to (R158, R161 case 1). -/
def Record.waitsFor (r : Record) (p : Port) (t : Tag) : Bool :=
  match r with
  | .waiting w => w.holder == p && w.tag == t
  | _ => false

/-- The pending conversion that context `t` of port `p` is matched to (R158, R161 case 2). -/
def Record.convertsFor (r : Record) (p : Port) (t : Tag) : Bool :=
  r.ownedBy p && r.conv.any fun c => c.tag == t

/-- Completion of a wait or conversion that a forwarded cancel removed (R161). -/
def Completion.cancelled : Completion := { outcome := .cancelled, time := .none, endCause := .none }

/-- Case 1: the waiting claim's slot becomes FREE (R161). -/
def Engine.cancelWait (e : Engine) (p : Port) (t : Tag) (k : SlotNo) : Effect :=
  let g := (e.freeWhere fun j => j == k).passUnlessFrozen
  e.finish g.1 ([(p, .completion t .cancelled)] ++ g.2)

/-- Case 2: the conversion leaves and the lease stays HELD SHARED (R161). -/
def Engine.cancelConversion (e : Engine) (p : Port) (t : Tag) (k : SlotNo) : Effect :=
  let g := (e.dropConvWhere fun j => j == k).passUnlessFrozen
  e.finish g.1 ([(p, .completion t .cancelled)] ++ g.2)

/-- Cases 3 and 4: the clock request of the tag is marked late, or a cancel-late notice is sent (R161). -/
def Engine.cancelLate (e : Engine) (p : Port) (t : Tag) : Effect :=
  match e.clock with
  | some c =>
    if c.port = p ∧ c.tag = t then { engine := { e with clock := some { c with late := true } } }
    else { engine := e, out := [(p, .cancelLate t)] }
  | none => { engine := e, out := [(p, .cancelLate t)] }

/-- A forwarded cancel taken by the engine: the first case that applies (R161). -/
def Engine.cancelReq (e : Engine) (p : Port) (t : Tag) : Effect :=
  match allSlots.find? (fun k => (e.record k).waitsFor p t),
    allSlots.find? (fun k => (e.record k).convertsFor p t) with
  | some k, _ => e.cancelWait p t k
  | none, some k => e.cancelConversion p t k
  | none, none => e.cancelLate p t

/-- FORWARDED_CANCEL (R161). -/
def execForwardedCancel (p : Port) (s : State) : StepResult :=
  s.takeFromPort p fun m =>
    match m with
    | .cancel t => some (s.engine.cancelReq p t)
    | _ => none

end Sys2Proof.Machine
end

