-- ==== Sys2Proof/Machine/Holders.lean ====
section
/-! DEFINITION. Machine/Holders.lean: the holder requests RENEW, RELEASE, DOWNGRADE, UPGRADE and ACKNOWLEDGE (chapter 3,
R102 to R104). -/

namespace Sys2Proof.Machine

/-- Checks 1 to 3 of a holder request: session, stale, holder (R51). -/
def Engine.holderCheck (e : Engine) (p : Port) (h : Handle) : Except ResultCode SlotNo :=
  if !e.sessionOpen p then .error .noSession
  else
    match e.current h with
    | none => .error .stale
    | some k => if (e.record k).ownedBy p then .ok k else .error .notHolder

/-! ### RENEW (R53 to R56) -/

/-- The RENEW payload that reports a timed lease (R55). -/
def renewPayload (duration : Half) (deadline : Tick) (x : Held) : Payload :=
  .renew { deadline, duration, renewals := x.renewals, warned := x.warned, cause := none }

/-- The renewal count after one more RENEW, saturating at 255 (R11, R54). -/
def nextRenewals (n : Byte) : Byte := if n = 255 then 255 else n + 1

/-- The effective duration: the stated one, or the stored one for field 0 (R53). -/
def effectiveDuration (stated stored : Half) : Half := if stated = 0 then stored else stated

/-- The lease that an accepted RENEW leaves (R54). -/
def Engine.renewed (e : Engine) (p : Port) (x : Held) (duration : Half) : Held :=
  { x with
    term := .timed duration (deadlineFrom e.settled duration)
    renewals := nextRenewals x.renewals
    warned := warnedAtWrite duration (e.margin p) }

/-- RENEW of the timed lease `x` in slot `k` (R53, R54, R55). -/
def Engine.renewLease (e : Engine) (p : Port) (t : Tag) (k : SlotNo) (x : Held) (stored : Half) (deadline : Tick)
    (stated : Half) : Effect :=
  let eff := effectiveDuration stated stored
  let l := e.limitsOf p
  if l.renewalCap ≠ 0 ∧ l.renewalCap.toNat ≤ x.renewals.toNat then
    e.reply p t .limit (renewPayload stored deadline x)
  else if l.durationCap.toNat < eff.toNat then e.reply p t .tooLong (renewPayload stored deadline x)
  else
    e.finish (e.setRecord k (.held (e.renewed p x eff)))
      [answerTo p t .ok (renewPayload eff (deadlineFrom e.settled eff) (e.renewed p x eff))]

/-- RENEW taken by the engine (R51, R52). -/
def Engine.renewReq (e : Engine) (p : Port) (t : Tag) (h : Handle) (stated : Half) : Effect :=
  match e.holderCheck p h with
  | .error o => e.refuse p t o .renew
  | .ok k =>
    match e.record k with
    | .held x =>
      match x.term with
      | .timed stored deadline => e.renewLease p t k x stored deadline stated
      | .pinned => e.refuse p t .wrongState .renew
    | .retired x =>
      e.reply p t .gone (.renew { deadline := 0, duration := 0, renewals := 0, warned := false, cause := some x.cause })
    | _ => e.refuse p t .wrongState .renew

/-- RENEW. -/
def execRenew (p : Port) (s : State) : StepResult :=
  s.takeRequest p fun t r =>
    match r with
    | .renew h d => some (s.engine.renewReq p t h d)
    | _ => none

/-! ### RELEASE (R69) -/

/-- The completion of a pending conversion whose lease ends, with what `c` says (R64, R67). -/
def Held.convCompletion (x : Held) (c : Completion) : List Out :=
  match x.conv with
  | some v => [(x.holder, .completion v.tag c)]
  | none => []

/-- Completion of a conversion whose lease was released (R69). -/
def Completion.released : Completion := { outcome := .gone, time := .none, endCause := .released }

/-- RELEASE taken by the engine (R69). -/
def Engine.releaseReq (e : Engine) (p : Port) (t : Tag) (h : Handle) : Effect :=
  match e.holderCheck p h with
  | .error o => e.refuse p t o .release
  | .ok k =>
    match e.record k with
    | .held x =>
      let g := (e.freeWhere fun j => j == k).passUnlessFrozen
      e.finish g.1 (x.convCompletion .released ++ [answerTo p t .ok .empty] ++ g.2)
    | _ => e.refuse p t .wrongState .release

/-- RELEASE. -/
def execRelease (p : Port) (s : State) : StepResult :=
  s.takeRequest p fun t r =>
    match r with
    | .release h => some (s.engine.releaseReq p t h)
    | _ => none

/-! ### DOWNGRADE (R57, R58) -/

/-- DOWNGRADE taken by the engine (R57, R58). -/
def Engine.downgradeReq (e : Engine) (p : Port) (t : Tag) (h : Handle) : Effect :=
  match e.holderCheck p h with
  | .error o => e.refuse p t o .downgrade
  | .ok k =>
    match e.record k with
    | .held x =>
      if x.mode = .sole then
        let g := (e.setRecord k (.held { x with mode := .shared })).passUnlessFrozen
        e.finish g.1 ([answerTo p t .ok (.downgrade none)] ++ g.2)
      else e.refuse p t .wrongState .downgrade
    | .retired x => e.reply p t .gone (.downgrade (some x.cause))
    | _ => e.refuse p t .wrongState .downgrade

/-- DOWNGRADE. -/
def execDowngrade (p : Port) (s : State) : StepResult :=
  s.takeRequest p fun t r =>
    match r with
    | .downgrade h => some (s.engine.downgradeReq p t h)
    | _ => none

/-! ### UPGRADE (R59 to R64) -/

/-- The end cause that an UPGRADE refused with GONE reports: the retire cause (R64). -/
def RetireCause.endCause : RetireCause → EndCause
  | .expired => .expired
  | .revoked => .revoked

/-- The leases on the conversion list whose regions overlap `g`, lowest first (R59, R62). -/
def Engine.overlappingConversions (e : Engine) (g : Region) : List SlotNo :=
  allSlots.filter fun j => e.convList.contains j && (e.record j).isHeld && (e.record j).overlaps g

/-- A refused UPGRADE that names a blocker (R62, R63). -/
def Engine.refuseUpgrade (e : Engine) (p : Port) (t : Tag) (outcome : ResultCode) (blocker : SlotNo) : Effect :=
  e.reply p t outcome (.upgrade { ref := .blocker (e.handle blocker), path := .none, time := .none, endCause := .none })

/-- A conversion made at once: no list changes and no pass runs (R60). -/
def Engine.convertNow (e : Engine) (p : Port) (t : Tag) (k : SlotNo) (x : Held) : Effect :=
  e.finish (e.setRecord k (.held { x with mode := .sole }))
    [answerTo p t .granted
      (.upgrade { ref := .own (e.handle k), path := .immediate, time := x.term.grantTime, endCause := .none })]

/-- A conversion made pending at the tail of the conversion list (R61). -/
def Engine.convertLater (e : Engine) (p : Port) (t : Tag) (k : SlotNo) (x : Held) (limit : Half) : Effect :=
  e.finish
    { e.setRecord k (.held { x with conv := some { tag := t, waitDeadline := waitDeadlineFrom e.settled limit } }) with
      convList := e.convList ++ [k] }
    [(p, .answer t (.waitingUpgrade (e.handle k)))]

/-- UPGRADE of the HELD SHARED lease `x` without a pending conversion: the tests of R59, in order. -/
def Engine.upgradeLease (e : Engine) (p : Port) (t : Tag) (k : SlotNo) (x : Held) (limit : Half) : Effect :=
  match e.otherHolders k x.region, e.overlappingConversions x.region with
  | [], _ => e.convertNow p t k x
  | _ :: _, j :: _ => e.refuseUpgrade p t .deadlock j
  | i :: _, [] => if limit = 0 then e.refuseUpgrade p t .conflict i else e.convertLater p t k x limit

/-- UPGRADE taken by the engine (R51, R52, R59). -/
def Engine.upgradeReq (e : Engine) (p : Port) (t : Tag) (h : Handle) (limit : Half) : Effect :=
  match e.holderCheck p h with
  | .error o => e.refuse p t o .upgrade
  | .ok k =>
    match e.record k with
    | .held x =>
      if x.mode = .shared ∧ x.conv = none then e.upgradeLease p t k x limit
      else e.refuse p t .wrongState .upgrade
    | .retired x =>
      e.reply p t .gone
        (.upgrade { ref := .own (e.handle k), path := .none, time := .none, endCause := x.cause.endCause })
    | _ => e.refuse p t .wrongState .upgrade

/-- UPGRADE. -/
def execUpgrade (p : Port) (s : State) : StepResult :=
  s.takeRequest p fun t r =>
    match r with
    | .upgrade h w => some (s.engine.upgradeReq p t h w)
    | _ => none

/-! ### ACKNOWLEDGE (R102 to R104) -/

/-- Remaining ticks of a lease as ACKNOWLEDGE reports them (R104). -/
def Term.remaining (x : Term) (settled : Tick) : Tick :=
  match x with
  | .timed _ d => Machine.remaining d settled
  | .pinned => 0

/-- ACKNOWLEDGE of a RETIRED record: the slot becomes FREE; no grant pass (R102). -/
def Engine.acknowledgeRetired (e : Engine) (p : Port) (t : Tag) (k : SlotNo) (x : Retired) : Effect :=
  let e1 := e.freeWhere fun j => j == k
  e.finish e1
    [answerTo p t .ok
      (.acknowledge { effect := .freed, cause := some x.cause, time := .none, remaining := 0
                      marked := e1.markedCount p })]

/-- ACKNOWLEDGE of a warned lease: the mark is cleared; no grant pass (R103). -/
def Engine.acknowledgeWarned (e : Engine) (p : Port) (t : Tag) (k : SlotNo) (x : Held) : Effect :=
  let e1 := e.setRecord k (.held { x with warned := false })
  e.finish e1
    [answerTo p t .ok
      (.acknowledge { effect := .cleared, cause := none, time := x.term.grantTime
                      remaining := x.term.remaining e.settled, marked := e1.markedCount p })]

/-- ACKNOWLEDGE taken by the engine (R51, R52). -/
def Engine.acknowledgeReq (e : Engine) (p : Port) (t : Tag) (h : Handle) : Effect :=
  match e.holderCheck p h with
  | .error o => e.refuse p t o .acknowledge
  | .ok k =>
    match e.record k with
    | .retired x => e.acknowledgeRetired p t k x
    | .held x =>
      if x.warned then e.acknowledgeWarned p t k x else e.refuse p t .wrongState .acknowledge
    | _ => e.refuse p t .wrongState .acknowledge

/-- ACKNOWLEDGE. -/
def execAcknowledge (p : Port) (s : State) : StepResult :=
  s.takeRequest p fun t r =>
    match r with
    | .acknowledge h => some (s.engine.acknowledgeReq p t h)
    | _ => none

end Sys2Proof.Machine
end

