-- ==== Sys2Proof/Machine/Lookup.lean ====
section
/-! DEFINITION. Machine/Lookup.lean: NOTICE, PROBE, SCAN_FIRST and SCAN_NEXT (R100, R101, chapter 6). -/

namespace Sys2Proof.Machine

/-! ### NOTICE (R100, R101) -/

/-- The marked slots of a port, lowest first (R100). -/
def Engine.markedSlots (e : Engine) (p : Port) : List SlotNo :=
  allSlots.filter fun k => (e.record k).ownedBy p && (e.record k).isMarked

/-- NOTICE taken by the engine (R100, R101). -/
def Engine.noticeReq (e : Engine) (p : Port) (t : Tag) : Effect :=
  if !e.sessionOpen p then e.refuse p t .noSession .notice
  else
    match e.markedSlots p with
    | k :: _ => e.reply p t .ok (.notice { marked := e.markedCount p, view := e.view k })
    | [] => e.refuse p t .nothing .notice

/-- NOTICE. -/
def execNotice (p : Port) (s : State) : StepResult :=
  s.takeRequest p fun t r =>
    match r with
    | .notice => some (s.engine.noticeReq p t)
    | _ => none

/-! ### PROBE (R105 to R107) -/

/-- Whether a record counts in PROBE's held count (R106). -/
def Record.heldOn (r : Record) (g : Region) : Bool := r.isHeld && r.overlaps g

/-- Whether a record counts in PROBE's waiting count (R106). -/
def Record.waitingOn (r : Record) (g : Region) : Bool := r.isWaiting && r.overlaps g

/-- The PROBE payload for a region, from the table as it stands (R106, R107). -/
def Engine.probePayload (e : Engine) (g : Region) : ProbePayload :=
  { held := e.countSlots fun r => r.heldOn g
    waiting := e.countSlots fun r => r.waitingOn g
    overdue := e.countSlots fun r => (r.heldOn g || r.waitingOn g) && r.overdue e.settled e.isFrozen
    view := (allSlots.find? fun k => (e.record k).heldOn g).bind e.view
    generation := e.generation }

/-- A refused PROBE: every field 0 but the generation (R107). -/
def Engine.refuseProbe (e : Engine) (p : Port) (t : Tag) (outcome : ResultCode) : Effect :=
  e.reply p t outcome (.probe { held := 0, waiting := 0, overdue := 0, view := none, generation := e.generation })

/-- PROBE taken by the engine (R105). -/
def Engine.probeReq (e : Engine) (p : Port) (t : Tag) (base : BitVec 24) (lenM1 : Half) : Effect :=
  if !e.sessionOpen p then e.refuseProbe p t .noSession
  else if !baseMeaningful base then e.refuseProbe p t .malformed
  else if !(regionOf base lenM1).valid then e.refuseProbe p t .range
  else e.reply p t .ok (.probe (e.probePayload (regionOf base lenM1)))

/-- PROBE. -/
def execProbe (p : Port) (s : State) : StepResult :=
  s.takeRequest p fun t r =>
    match r with
    | .probe base lenM1 => some (s.engine.probeReq p t base lenM1)
    | _ => none

/-! ### Scans (R109 to R118) -/

/-- Whether a record matches a filter (R110). -/
def Filter.matches (f : Filter) (r : Record) : Bool :=
  match f with
  | .own p => r.ownedBy p
  | .port p => r.ownedBy p
  | .region g => r.overlaps g
  | .all => !r.isFree

/-- The first slot from `start` upward that matches the filter (R112, R113). -/
def Engine.search (e : Engine) (f : Filter) (start : Nat) : Option SlotNo :=
  allSlots.find? fun k => decide (start ≤ k.val) && f.matches (e.record k)

/-- The cursor after a step that matched slot `k`: the next slot, or NONE after slot 63 (R112, R113). -/
def Cursor.after (f : Filter) (startGen : Half) (k : SlotNo) : Option Cursor :=
  if h : k.val < 63 then some { filter := f, next := ⟨k.val + 1, by omega⟩, startGen } else none

/-- The engine with port `p`'s cursor replaced (R109). -/
def Engine.setCursor (e : Engine) (p : Port) (c : Option Cursor) : Engine :=
  e.setSession p { e.session p with cursor := c }

/-- One scan step from `start` with filter `f` (R112 to R115). -/
def Engine.scanStep (e : Engine) (p : Port) (t : Tag) (f : Filter) (startGen : Half) (start : Nat) : Effect :=
  match e.search f start with
  | some k =>
    { engine := e.setCursor p (Cursor.after f startGen k)
      out := [answerTo p t .ok
        (.scan { view := e.view k, next := (Cursor.after f startGen k).map (·.next), startGen
                 generation := e.generation, changed := e.generation != startGen })] }
  | none =>
    { engine := e.setCursor p none
      out := [answerTo p t .endOfScan
        (.scan { view := none, next := none, startGen, generation := e.generation
                 changed := e.generation != startGen })] }

/-- A refused scan request: it leaves the cursor as it was (R111, R113, R114). -/
def Engine.refuseScan (e : Engine) (p : Port) (t : Tag) (outcome : ResultCode) : Effect :=
  e.reply p t outcome
    (.scan { view := none, next := none, startGen := 0, generation := e.generation, changed := false })

/-- The filter that SCAN_FIRST's operands state, when they have a meaning; operands that the filter does not use are
ignored (R109, R111, R179). -/
def filterOf (p : Port) (filter port : Byte) (base : BitVec 24) (lenM1 : Half) : Option Filter :=
  if filter = 0x00 then some (.own p)
  else if filter = 0x01 then (portOf port).map .port
  else if filter = 0x02 then (if baseMeaningful base then some (.region (regionOf base lenM1)) else none)
  else if filter = 0x03 then some .all
  else none

/-- Whether a filter needs supervisor right (R111, R122). -/
def Filter.needsRight : Filter → Bool
  | .own _ => false
  | .port _ => true
  | .region _ => true
  | .all => true

/-- Whether a filter's region, if it has one, is valid (R111). -/
def Filter.valid : Filter → Bool
  | .region g => g.valid
  | .own _ => true
  | .port _ => true
  | .all => true

/-- SCAN_FIRST taken by the engine (R111, R112). -/
def Engine.scanFirstReq (e : Engine) (p : Port) (t : Tag) (filter port : Byte) (base : BitVec 24) (lenM1 : Half) :
    Effect :=
  if !e.sessionOpen p then e.refuseScan p t .noSession
  else
    match filterOf p filter port base lenM1 with
    | none => e.refuseScan p t .malformed
    | some f =>
      if f.needsRight && !(e.session p).supervisor then e.refuseScan p t .notPermitted
      else if !f.valid then e.refuseScan p t .range
      else e.scanStep p t f e.generation 0

/-- SCAN_FIRST. -/
def execScanFirst (p : Port) (s : State) : StepResult :=
  s.takeRequest p fun t r =>
    match r with
    | .scanFirst filter port base lenM1 => some (s.engine.scanFirstReq p t filter port base lenM1)
    | _ => none

/-- SCAN_NEXT taken by the engine (R113). -/
def Engine.scanNextReq (e : Engine) (p : Port) (t : Tag) : Effect :=
  if !e.sessionOpen p then e.refuseScan p t .noSession
  else
    match (e.session p).cursor with
    | none => e.refuseScan p t .sequence
    | some c => e.scanStep p t c.filter c.startGen c.next.val

/-- SCAN_NEXT. -/
def execScanNext (p : Port) (s : State) : StepResult :=
  s.takeRequest p fun t r =>
    match r with
    | .scanNext => some (s.engine.scanNextReq p t)
    | _ => none

end Sys2Proof.Machine
end

