-- ==== Sys2Proof/Machine/Timebase.lean ====
section
/-! DEFINITION. Machine/Timebase.lean: REFCLK edges at the timebase and at the ports' PRSTn filters, and the timebase's
side of TRIM and READ_CLOCK (chapter 4, R176, R177). -/

namespace Sys2Proof.Machine

/-! ### REFCLK at the timebase (R74) -/

/-- A tick: NOW advances by one and one tick notice carries the new value (R75, R76). -/
def Timebase.tick (x : Timebase) (phase : BitVec 5) : Timebase × List TimebaseMsg :=
  ({ x with phase, now := x.now + 1 }, [.tick (x.now + 1)])

/-- One REFCLK rising edge (R74). -/
def Timebase.edge (x : Timebase) : Timebase × List TimebaseMsg :=
  if x.phase = 31 then
    if x.debt then ({ x with phase := 0, debt := false }, []) else x.tick 0
  else ({ x with phase := x.phase + 1 }, [])

/-! ### The PRSTn filter (R176) -/

/-- What a sample of PRSTn brings about at the port. -/
inductive FilterEvent where
  | reset
  | release
  deriving DecidableEq, Repr

/-- One sample of PRSTn. A low sample disagrees with the released condition, a high one with the asserted condition;
the third consecutive one that disagrees changes the condition. -/
def PrstFilter.sample (f : PrstFilter) (high : Bool) : PrstFilter × Option FilterEvent :=
  if high = f.asserted then
    if f.count = 2 then ({ asserted := !f.asserted, count := 0 }, some (if f.asserted then .release else .reset))
    else ({ f with count := f.count + 1 }, none)
  else ({ f with count := 0 }, none)

/-- A context at the port reset: QUEUED becomes FREE, held or not; WAITING and DONE stay (R164). -/
def Context.atPortReset : Context → Context
  | .queued _ _ _ => .free
  | c => c

/-- The port reset event (R176): IN_RESET, QUEUED contexts freed, list and cause cleared; a port-drop notice goes to
the engine unless the drop of an earlier reset is still outstanding in DRAINING. -/
def AgentPort.resetEvent (a : AgentPort) : AgentPort × List PortMsg :=
  let b := { a with
    link := .inReset
    contexts := tab fun t => (a.context t).atPortReset
    submission := []
    cause := .none }
  if a.link = .draining then (b, []) else ({ b with dropOutstanding := true }, [.portDrop])

/-- Where a port reset is left for: STANDBY, or IGNORE while SELn is low (R177). -/
def AgentPort.leaveReset (a : AgentPort) : AgentPort :=
  { a with link := if a.selLow then .ignore else .standby }

/-- The release event (R177): DRAINING while a drop is outstanding, else the reset is left. -/
def AgentPort.releaseEvent (a : AgentPort) : AgentPort :=
  if a.link = .inReset then
    if a.dropOutstanding then { a with link := .draining } else a.leaveReset
  else a

/-- A port's sample of PRSTn at a REFCLK edge, with the event that it brings about (R176). -/
def AgentPort.samplePrst (a : AgentPort) (high : Bool) : AgentPort × List PortMsg :=
  let r := a.filter.sample high
  let b := { a with filter := r.1 }
  match r.2 with
  | some .reset => b.resetEvent
  | some .release => (b.releaseEvent, [])
  | none => (b, [])

/-- The event that port `p`'s sample of this edge brings about. -/
def State.prstEvent (s : State) (p : Port) (prst : PinLevels) : Option FilterEvent :=
  ((s.port p).filter.sample (pick prst p)).2

/-- One REFCLK rising edge at the timebase (R74) and at the four PRSTn filters (R176, log 3). -/
def State.refclk (s : State) (prst : PinLevels) : State :=
  { (s.setTimebase s.timebase.edge.1).sendFromTimebase s.timebase.edge.2 with
    ports := tab fun p => ((s.port p).samplePrst (pick prst p)).1
    toEngine := tab fun p => pick s.toEngine p ++ ((s.port p).samplePrst (pick prst p)).2 }

/-- REFCLK_EDGE (R74, R176). -/
def execRefclkEdge (prst : PinLevels) (s : State) : StepResult := s.whenRunning (.next (s.refclk prst))

/-- PORT_RESET: the REFCLK edge at which port `p` takes its third consecutive low sample (R176, log 3). -/
def execPortReset (p : Port) (prst : PinLevels) (s : State) : StepResult :=
  s.whenRunning (if s.prstEvent p prst = some .reset then .next (s.refclk prst) else .next s)

/-- PORT_RELEASE: the REFCLK edge at which port `p` takes its third consecutive high sample (R177, log 3). -/
def execPortRelease (p : Port) (prst : PinLevels) (s : State) : StepResult :=
  s.whenRunning (if s.prstEvent p prst = some .release then .next (s.refclk prst) else .next s)

/-! ### TRIM and READ_CLOCK at the timebase (R80 to R86) -/

/-- The answer to a TRIM that found phase and debt as in `x` and left `y` (R82). -/
def trimAnswer (x y : Timebase) (adjustment : Byte) (busy : Bool) (effect : TrimEffect) : TimebaseMsg :=
  .trimAnswer busy
    { adjustment, phaseBefore := x.phase, phaseAfter := y.phase, now := y.now, debt := y.debt, effect }

/-- The sum of phase and adjustment (R80). -/
def Timebase.trimSum (x : Timebase) (adjustment : Byte) : Int := x.phase.toNat + adjustment.toInt

/-- A TRIM taken by the timebase: BUSY with a debt (R81); else carry, none or borrow by the sum (R80). The carry's tick
notice leaves before the answer. -/
def Timebase.trim (x : Timebase) (adjustment : Byte) : Timebase × List TimebaseMsg :=
  if x.debt then (x, [trimAnswer x x adjustment true .none])
  else if 32 ≤ x.trimSum adjustment then
    let y := x.tick (BitVec.ofInt 5 (x.trimSum adjustment - 32))
    (y.1, y.2 ++ [trimAnswer x y.1 adjustment false .carry])
  else if 0 ≤ x.trimSum adjustment then
    let y := { x with phase := BitVec.ofInt 5 (x.trimSum adjustment) }
    (y, [trimAnswer x y adjustment false .none])
  else
    let y := { x with phase := BitVec.ofInt 5 (x.trimSum adjustment + 32), debt := true }
    (y, [trimAnswer x y adjustment false .borrow])

/-- TIMEBASE_TRIM: the timebase takes the TRIM that the engine sent (R80, R81). -/
def execTimebaseTrim (s : State) : StepResult :=
  s.whenRunning <|
    match s.toTimebase with
    | some (.trim a) =>
      .next { (s.setTimebase (s.timebase.trim a).1).sendFromTimebase (s.timebase.trim a).2 with toTimebase := none }
    | _ => .next s

/-- TIMEBASE_READ_CLOCK: the timebase answers with NOW, phase and debt and changes none of them (R86). -/
def execTimebaseReadClock (s : State) : StepResult :=
  s.whenRunning <|
    match s.toTimebase with
    | some .readClock =>
      .next { s.sendFromTimebase [.clockAnswer s.timebase.now s.timebase.phase s.timebase.debt] with
        toTimebase := none }
    | _ => .next s

end Sys2Proof.Machine
end

