-- ==== Sys2Proof/Machine/PortMessages.lean ====
section
/-! DEFINITION. Machine/PortMessages.lean: what a port does with each message of the engine (R99, R121, R140, R156, R157,
R162, R164, R177). -/

namespace Sys2Proof.Machine

/-! ### Answers (R156) -/

/-- The context that the answer leaves in place of the held context with request `r` (R156). -/
def Answer.settle (r : Request) (cancelOut : Bool) : Answer → Context
  | .result outcome payload late =>
    .done { outcome, code := r.code, payload, late } (cancelOut && !late)
  | .waitingClaim h g => .waiting r (.claim h g) cancelOut
  | .waitingUpgrade h => .waiting r (.upgrade h) cancelOut

/-- The port takes the engine's answer to a taken request (R156). -/
def AgentPort.takeAnswer (a : AgentPort) (t : Tag) (x : Answer) : Except Fault AgentPort :=
  match a.context t with
  | .queued r true co => .ok ((a.unlist t).setContext t (x.settle r co))
  | .free => .ok a
  | _ => .error .answerUnexpected

/-- PORT_ANSWER (R156). -/
def execPortAnswer (p : Port) (s : State) : StepResult :=
  s.takeAtPort p fun m =>
    match m with
    | .answer t x => some ((s.port p).takeAnswer t x)
    | _ => none

/-! ### Completions (R157) -/

/-- The payload that the port makes from a completion and what it kept (R38, R64, R157). -/
def Kept.payload (c : Completion) : Kept → Payload
  | .claim h g => .claim { ref := .own h, path := .queued, time := c.time, generation := g }
  | .upgrade h => .upgrade { ref := .own h, path := .queued, time := c.time, endCause := c.endCause }

/-- The context after a completion: DONE; the cancel-outstanding mark stays unless the completion is CANCELLED (R157,
R162). -/
def Completion.settle (c : Completion) (r : Request) (k : Kept) (cancelOut : Bool) : Context :=
  .done { outcome := c.outcome, code := r.code, payload := k.payload c, late := false }
    (cancelOut && c.outcome != .cancelled)

/-- The port takes a completion (R157). -/
def AgentPort.takeCompletion (a : AgentPort) (t : Tag) (c : Completion) : Except Fault AgentPort :=
  match a.context t with
  | .waiting r k co => .ok (a.setContext t (c.settle r k co))
  | .free => .ok a
  | _ => .error .completionUnexpected

/-- PORT_COMPLETION (R157). -/
def execPortCompletion (p : Port) (s : State) : StepResult :=
  s.takeAtPort p fun m =>
    match m with
    | .completion t c => some ((s.port p).takeCompletion t c)
    | _ => none

/-! ### Cancel-late notices (R162) -/

/-- The port takes a cancel-late notice (R162). -/
def AgentPort.takeCancelLate (a : AgentPort) (t : Tag) : Except Fault AgentPort :=
  match a.context t with
  | .done r true => .ok (a.setContext t (.done { r with late := true } false))
  | .free => .ok a
  | _ => .error .cancelLateUnexpected

/-- CANCEL_LATE_NOTICE (R162). -/
def execCancelLateNotice (p : Port) (s : State) : StepResult :=
  s.takeAtPort p fun m =>
    match m with
    | .cancelLate t => some ((s.port p).takeCancelLate t)
    | _ => none

/-! ### Values that the port holds (R99, R121, R140) -/

/-- MARKED_COUNT: the port holds the last count it has received (R99). -/
def execMarkedCount (p : Port) (s : State) : StepResult :=
  s.takeAtPort p fun m =>
    match m with
    | .marked n => some (.ok { s.port p with marked := n })
    | _ => none

/-- SESSION_NOTICE: the port holds the last session state, attention mask and SESSION_LOST (R121). -/
def execSessionNotice (p : Port) (s : State) : StepResult :=
  s.takeAtPort p fun m =>
    match m with
    | .session o k l => some (.ok { s.port p with sessionOpen := o, mask := k, lost := l })
    | _ => none

/-- FREEZE_NOTICE: the port holds the last frozen and freeze-owner flags (R140). -/
def execFreezeNotice (p : Port) (s : State) : StepResult :=
  s.takeAtPort p fun m =>
    match m with
    | .freeze f o => some (.ok { s.port p with frozen := f, freezeOwner := o })
    | _ => none

/-! ### Drop-complete (R164, R177) -/

/-- The port with every context freed and the drop no longer outstanding (R164, R177, log 16). -/
def AgentPort.freed (a : AgentPort) : AgentPort :=
  { a with contexts := tab fun _ => .free, submission := [], dropOutstanding := false }

/-- The port takes drop-complete (R164, R177). -/
def AgentPort.takeDropComplete (a : AgentPort) : Except Fault AgentPort :=
  match a.link, a.dropOutstanding with
  | .inReset, true => .ok a.freed
  | .draining, _ => .ok a.freed.leaveReset
  | _, _ => .error .dropCompleteUnexpected

/-- DROP_COMPLETE (R177). -/
def execDropComplete (p : Port) (s : State) : StepResult :=
  s.takeAtPort p fun m =>
    match m with
    | .dropComplete => some (s.port p).takeDropComplete
    | _ => none

end Sys2Proof.Machine
end

