-- ==== Sys2Proof/Machine/Reset.lean ====
section
/-! DEFINITION. Machine/Reset.lean: device reset and the release of RESETn (R25, R73, R119, R122, R128, R166). -/

namespace Sys2Proof.Machine

/-- DEVICE_RESET: every block at its device-reset value (R25, R73, R87, R119, R128, R140, R152, R154, R166). The
SELn levels are the agents' and stay; the queue of commands is not part of the hardware (log 4, log 6). -/
def execDeviceReset (s : State) : StepResult :=
  .next { State.reset with
    ports := tab fun p => AgentPort.reset (s.port p).selLow
    pending := s.pending }

/-- The link of a port as RESETn is released: IN_RESET while PRSTn is low, else STANDBY, or IGNORE while SELn is low
(R166). -/
def linkAtRelease (prstHigh selLow : Bool) : Link :=
  if prstHigh then (if selLow then .ignore else .standby) else .inReset

/-- A port as RESETn is released: strap and PRSTn sampled (R122, R166). -/
def AgentPort.atRelease (a : AgentPort) (strap prstHigh : Bool) : AgentPort :=
  { a with
    supervisor := strap
    filter := { asserted := !prstHigh, count := 0 }
    link := linkAtRelease prstHigh a.selLow }

/-- The engine as RESETn is released: supervisor right captured, and the may-pin default that follows it (R119, R122,
R128). -/
def Engine.atRelease (e : Engine) (straps : PinLevels) : Engine :=
  { e with
    sessions := tab fun p => { e.session p with supervisor := pick straps p }
    limits := tab fun p => { e.limitsOf p with mayPin := pick straps p } }

/-- RESET_RELEASE: the straps are captured and each port samples PRSTn (R122, R166). Without a low RESETn there is no
release (log 1). -/
def execResetRelease (straps prst : PinLevels) (s : State) : StepResult :=
  if s.resetLow then
    .next { s with
      resetLow := false
      engine := s.engine.atRelease straps
      ports := tab fun p => (s.port p).atRelease (pick straps p) (pick prst p) }
  else .next s

end Sys2Proof.Machine
end

