-- ==== Sys2Proof/Machine/Serial.lean ====
section
/-! DEFINITION. Machine/Serial.lean: the serial link of a port: SELn edges, SUBMIT, FETCH, CANCEL, STATUS and the link
faults (R160, R166 to R174, R178). -/

namespace Sys2Proof.Machine

/-! ### SELn (R167, R170) -/

/-- SELn falls: in STANDBY the status byte is captured and COMMAND entered (R167, R168). -/
def AgentPort.selectFall (a : AgentPort) : AgentPort :=
  if a.selLow then a
  else
    match a.link with
    | .standby => { a with selLow := true, shownStatus := a.statusByte, link := .command }
    | _ => { a with selLow := true }

/-- SELn rises: the transaction ends; a frame cut short records SHORT_FRAME (R166, R167, R170). -/
def AgentPort.selectRise (a : AgentPort) : AgentPort :=
  if a.selLow then
    match a.link with
    | .frame _ (.collecting _) => { a.recordFault .shortFrame with selLow := false, link := .standby }
    | .frame _ .judged | .command | .reply _ _ | .ignore => { a with selLow := false, link := .standby }
    | .standby | .inReset | .draining => { a with selLow := false }
  else a

/-- SELECT_FALL. While RESETn is low only the level of the pin changes (log 4). -/
def execSelectFall (p : Port) (s : State) : StepResult :=
  if s.resetLow then .next (s.setPort p { s.port p with selLow := true })
  else .next (s.setPort p (s.port p).selectFall)

/-- SELECT_RISE. While RESETn is low only the level of the pin changes (log 4). -/
def execSelectRise (p : Port) (s : State) : StepResult :=
  if s.resetLow then .next (s.setPort p { s.port p with selLow := false })
  else .next (s.setPort p (s.port p).selectRise)

/-! ### SUBMIT (R169, R170) -/

/-- The frame is accepted: the context takes the request and joins the tail of the submission list (R153, R169). -/
def AgentPort.accept (a : AgentPort) (t : Tag) (r : Request) : AgentPort :=
  { a.setContext t (.queued r false false) with submission := a.submission ++ [t] }

/-- The check byte `b` of the collected frame `bytes` is judged: CHECK before TAG_BUSY (R169). -/
def AgentPort.judge (a : AgentPort) (t : Tag) (bytes : List Byte) (b : Byte) : AgentPort :=
  if b = crc bytes then
    match a.context t, Request.ofCovered bytes with
    | .free, some r => a.accept t r
    | _, _ => a.recordFault .tagBusy
  else a.recordFault .check

/-- One byte of a frame (R169, R170). -/
def AgentPort.frameByte (a : AgentPort) (b : Byte) : AgentPort :=
  match a.link with
  | .frame t (.collecting []) =>
    match ReqCode.ofByte b with
    | some _ => { a with link := .frame t (.collecting [b]) }
    | none => { a.recordFault .unknownRequest with link := .ignore }
  | .frame t (.collecting (c :: ops)) =>
    match ReqCode.ofByte c with
    | some code =>
      if ops.length < code.operandLength then { a with link := .frame t (.collecting (c :: ops ++ [b])) }
      else { a.judge t (c :: ops) b with link := .frame t .judged }
    | none => { a.recordFault .unknownRequest with link := .ignore }
  | .frame _ .judged => a.recordFault .overlong
  | _ => a

/-- Bytes of a frame, in order. -/
def AgentPort.frameBytes (a : AgentPort) (bytes : List Byte) : AgentPort := bytes.foldl AgentPort.frameByte a

/-- SUBMIT for tag `t`: the transaction byte in COMMAND, then frame bytes; in FRAME further bytes of the same SUBMIT
(R167, R169, log 11). In every other link state the bytes are no SUBMIT (log 1). -/
def AgentPort.submit (a : AgentPort) (t : Tag) (bytes : List Byte) : AgentPort :=
  match a.link with
  | .command => AgentPort.frameBytes { a with link := .frame t (.collecting []) } bytes
  | .frame u _ => if u = t then a.frameBytes bytes else a
  | _ => a

/-- SUBMIT. -/
def execSubmit (p : Port) (t : Tag) (bytes : List Byte) (s : State) : StepResult :=
  s.atPort p fun a => (a.submit t bytes, [])

/-- BIT_AFTER_CHECK_BYTE: OVERLONG, when no fault is recorded; an accepted frame stands (R170, R174). -/
def AgentPort.bitAfterCheck (a : AgentPort) : AgentPort :=
  match a.link with
  | .frame _ .judged => a.recordFault .overlong
  | _ => a

/-- BIT_AFTER_CHECK_BYTE. -/
def execBitAfterCheckByte (p : Port) (s : State) : StepResult := s.atPort p fun a => (a.bitAfterCheck, [])

/-! ### FETCH (R171) -/

/-- A FETCH transaction byte for tag `t` completes: the record as it stands, or NOT_READY (R171). -/
def AgentPort.fetch (a : AgentPort) (t : Tag) : AgentPort :=
  match a.link, a.context t with
  | .command, .done r false => { a with link := .reply (.record t) (r.bytes t) }
  | .command, _ => { a with link := .reply .plain [replyNotReady] }
  | _, _ => a

/-- FETCH. -/
def execFetch (p : Port) (t : Tag) (s : State) : StepResult := s.atPort p fun a => (a.fetch t, [])

/-- The last bit of the record's check byte is shifted out: the context becomes FREE (R171). -/
def AgentPort.fetchComplete (a : AgentPort) : AgentPort :=
  match a.link with
  | .reply (.record t) _ => { a.setContext t .free with link := .reply .plain [] }
  | _ => a

/-- FETCH_COMPLETE. -/
def execFetchComplete (p : Port) (s : State) : StepResult := s.atPort p fun a => (a.fetchComplete, [])

/-! ### CANCEL (R160, R172) -/

/-- The result that the port makes for a QUEUED context that CANCEL withdraws (R159, R160, R180). -/
def Request.cancelledRecord (r : Request) : ResultRecord :=
  { outcome := .cancelled, code := r.code, payload := r.code.zeroPayload, late := false }

/-- CANCEL acts on the context as it finds it: the port, what it sends to the engine, the reply byte (R160). -/
def AgentPort.cancelContext (a : AgentPort) (t : Tag) : AgentPort × List PortMsg × Byte :=
  match a.context t with
  | .free => (a, [], replyNothing)
  | .queued r false _ => ((a.unlist t).setContext t (.done r.cancelledRecord false), [], replyCancelled)
  | .queued r true false => (a.setContext t (.queued r true true), [.cancel t], replyForwarded)
  | .queued _ true true => (a, [], replyForwarded)
  | .waiting r k false => (a.setContext t (.waiting r k true), [.cancel t], replyForwarded)
  | .waiting _ _ true => (a, [], replyForwarded)
  | .done _ _ => (a, [], replyNothing)

/-- A CANCEL transaction byte for tag `t` completes (R160, R172). -/
def AgentPort.cancel (a : AgentPort) (t : Tag) : AgentPort × List PortMsg :=
  match a.link with
  | .command =>
    let r := a.cancelContext t
    ({ r.1 with link := .reply .plain [r.2.2] }, r.2.1)
  | _ => (a, [])

/-- CANCEL. -/
def execCancel (p : Port) (t : Tag) (s : State) : StepResult := s.atPort p fun a => a.cancel t

/-! ### STATUS (R173) -/

/-- A STATUS transaction byte completes: the extended status is fixed (R173). -/
def AgentPort.statusReply (a : AgentPort) : AgentPort :=
  match a.link with
  | .command => { a with link := .reply .status a.extendedStatus }
  | _ => a

/-- STATUS. -/
def execStatus (p : Port) (s : State) : StepResult := s.atPort p fun a => (a.statusReply, [])

/-- The last bit of the link-fault cause field is shifted out: the cause becomes NONE (R173). Tag states and cause are
then out; the rest of the reply is still to come. -/
def AgentPort.causeShiftedOut (a : AgentPort) : AgentPort :=
  match a.link with
  | .reply .status out => { a with cause := .none, link := .reply .plain (out.drop 2) }
  | _ => a

/-- LINK_FAULT_CAUSE_SHIFTED_OUT. -/
def execLinkFaultCauseShiftedOut (p : Port) (s : State) : StepResult := s.atPort p fun a => (a.causeShiftedOut, [])

/-! ### UNKNOWN_TRANSACTION (R174) -/

/-- A transaction byte that names no kind: the fault is recorded and the link goes to IGNORE (R167, R174, R178). -/
def AgentPort.unknownTransaction (a : AgentPort) (b : Byte) : AgentPort :=
  match a.link, decodeTransaction b with
  | .command, none => { a.recordFault .unknownTransaction with link := .ignore }
  | _, _ => a

/-- UNKNOWN_TRANSACTION. -/
def execUnknownTransaction (p : Port) (b : Byte) (s : State) : StepResult :=
  s.atPort p fun a => (a.unknownTransaction b, [])

end Sys2Proof.Machine
end

