-- ==== Sys2Proof/Machine/Sessions.lean ====
section
/-! DEFINITION. Machine/Sessions.lean: OPEN, CLOSE, NOOP, LIMITS, EVICT and the port-drop notice (chapter 7). -/

namespace Sys2Proof.Machine

/-! ### NOOP (R120) -/

/-- NOOP is answered OK in either session state, with no payload (R120). -/
def Engine.noopReq (e : Engine) (p : Port) (t : Tag) : Effect := e.reply p t .ok .empty

/-- NOOP. -/
def execNoop (p : Port) (s : State) : StepResult :=
  s.takeRequest p fun t r =>
    match r with
    | .noop => some (s.engine.noopReq p t)
    | _ => none

/-! ### OPEN (R124, R125) -/

/-- The OPEN payload with the session's and the port's values as they stand (R125). -/
def Engine.openPayload (e : Engine) (p : Port) (wasLost : Bool) : Payload :=
  .openSession
    { port := p, supervisor := (e.session p).supervisor, limits := e.limitsOf p
      warnMargin := (e.session p).warnMargin, mask := (e.session p).mask, wasLost, settled := e.settled }

/-- The OPEN payload of a MALFORMED answer: port number and right, all else 0 (R125). -/
def Engine.openMalformedPayload (e : Engine) (p : Port) : Payload :=
  .openSession
    { port := p, supervisor := (e.session p).supervisor, limits := .zero, warnMargin := 0, mask := .clear
      wasLost := false, settled := 0 }

/-- The session entry that an accepted OPEN writes (R124). -/
def Session.opened (x : Session) (margin : BitVec 12) (mask : AttnMask) : Session :=
  { x with isOpen := true, warnMargin := margin, mask, lost := false }

/-- OPEN taken by the engine (R124, R125). -/
def Engine.openReq (e : Engine) (p : Port) (t : Tag) (m : Half) (a : Byte) : Effect :=
  if e.sessionOpen p then e.reply p t .alreadyOpen (e.openPayload p false)
  else
    match marginOf m, maskOf a with
    | some margin, some mask =>
      let e1 := e.setSession p ((e.session p).opened margin mask)
      { engine := e1
        out := [answerTo p t .ok (e1.openPayload p (e.session p).lost), e1.sessionNotice p] }
    | _, _ => e.reply p t .malformed (e.openMalformedPayload p)

/-- OPEN. -/
def execOpenSession (p : Port) (s : State) : StepResult :=
  s.takeRequest p fun t r =>
    match r with
    | .openSession m a => some (s.engine.openReq p t m a)
    | _ => none

/-! ### CLOSE (R126, R127) -/

/-- The event that ends port `q`'s session at the request of context `t` of port `p`: the messages in the order of
R126 and R150. -/
def Engine.endSessionFor (e : Engine) (p : Port) (t : Tag) (q : Port) (d : Ended) : Effect :=
  let e1 := e.closeEvent d.engine
  { engine := e1
    out := d.told ++ [answerTo p t .ok (.sessionEnd d.payload)] ++ d.passed ++ countNotices e e1 ++
      [e1.sessionNotice q] ++ e1.freezeNoticesIf d.thawed }

/-- CLOSE taken by the engine (R127). -/
def Engine.closeReq (e : Engine) (p : Port) (t : Tag) : Effect :=
  if !e.sessionOpen p then e.refuse p t .noSession .closeSession
  else e.endSessionFor p t p (e.endSession p true)

/-- CLOSE. -/
def execCloseSession (p : Port) (s : State) : StepResult :=
  s.takeRequest p fun t r =>
    match r with
    | .closeSession => some (s.engine.closeReq p t)
    | _ => none

/-! ### LIMITS (R128 to R130) -/

/-- The engine with port `p`'s limits replaced. -/
def Engine.setLimits (e : Engine) (p : Port) (l : Limits) : Engine := { e with limits := put e.limits p l }

/-- The LIMITS payload with the owned count and the limits before and after (R129). -/
def Engine.limitsPayload (e : Engine) (q : Port) (after : Limits) : Payload :=
  .limits { target := q, owned := e.ownedCount q, before := e.limitsOf q, after }

/-- LIMITS taken by the engine (R123, R129). -/
def Engine.limitsReq (e : Engine) (p : Port) (t : Tag) (target cap : Byte) (dur : Half) (pin ren : Byte) : Effect :=
  match e.supervisorRefusal p with
  | some o => e.refuse p t o .limits
  | none =>
    match portOf target, Machine.limitsOf cap dur pin ren with
    | some q, some l =>
      if l.leaseCap.toNat < e.ownedCount q then e.reply p t .inUse (e.limitsPayload q (e.limitsOf q))
      else { engine := e.setLimits q l, out := [answerTo p t .ok (e.limitsPayload q l)] }
    | _, _ => e.refuse p t .malformed .limits

/-- LIMITS. -/
def execLimits (p : Port) (s : State) : StepResult :=
  s.takeRequest p fun t r =>
    match r with
    | .limits target cap dur pin ren => some (s.engine.limitsReq p t target cap dur pin ren)
    | _ => none

/-! ### EVICT (R135, R137) -/

/-- The engine with port `q`'s SESSION_LOST written (R137). -/
def Engine.setLost (e : Engine) (q : Port) (lost : Bool) : Engine :=
  e.setSession q { e.session q with lost := lost }

/-- What the end of a session leaves, with the port's SESSION_LOST written in the same event (R135, R138). -/
def Ended.withLost (d : Ended) (q : Port) (lost : Bool) : Ended := { d with engine := d.engine.setLost q lost }

/-- EVICT taken by the engine (R123, R135). -/
def Engine.evictReq (e : Engine) (p : Port) (t : Tag) (target : Byte) : Effect :=
  match e.supervisorRefusal p with
  | some o => e.refuse p t o .evict
  | none =>
    match portOf target with
    | none => e.refuse p t .malformed .evict
    | some q =>
      if q = p then e.refuse p t .notPermitted .evict
      else if !e.sessionOpen q then e.refuse p t .wrongState .evict
      else e.endSessionFor p t q ((e.endSession q true).withLost q true)

/-- EVICT. -/
def execEvict (p : Port) (s : State) : StepResult :=
  s.takeRequest p fun t r =>
    match r with
    | .evict target => some (s.engine.evictReq p t target)
    | _ => none

/-! ### The port-drop notice (R138) -/

/-- The clock request with its answer dropped when it is port `p`'s (R79, R138). -/
def ClockRequest.dropFor (c : ClockRequest) (p : Port) : ClockRequest :=
  if c.port = p then { c with dropped := true } else c

/-- The port-drop notice taken by the engine (R138). -/
def Engine.dropPort (e : Engine) (p : Port) : Effect :=
  let d := (e.endSession p false).withLost p false
  let e1 := { e.closeEvent d.engine with clock := e.clock.map fun c => c.dropFor p }
  { engine := e1
    out := d.passed ++ countNotices e e1 ++ [e1.sessionNotice p] ++ e1.freezeNoticesIf d.thawed ++
      [(p, .dropComplete)] }

/-- PORT_DROP (R138). -/
def execPortDrop (p : Port) (s : State) : StepResult :=
  s.takeFromPort p fun m =>
    match m with
    | .portDrop => some (s.engine.dropPort p)
    | _ => none

end Sys2Proof.Machine
end

