-- ==== Sys2Proof/Machine/Supervision.lean ====
section
/-! DEFINITION. Machine/Supervision.lean: REVOKE, REVOKE_RANGE, FREEZE and THAW (R131 to R134, R141, R142). -/

namespace Sys2Proof.Machine

/-! ### REVOKE (R131, R132) -/

/-- Completion of a wait or conversion that a revocation ended; the end cause is a conversion's (R38, R64). -/
def Completion.revoked : Completion := { outcome := .revoked, time := .none, endCause := .revoked }

/-- The result of an accepted REVOKE (R132). -/
def revokeAnswer (p : Port) (t : Tag) (r : Record) (effect : RevokeEffect) (holder : Port) : Out :=
  answerTo p t .ok
    (.revoke { prior := r.stateName, effect, holder, convEnded := r.conv.isSome, priorCause := r.cause })

/-- REVOKE of the current record in slot `k` (R131). -/
def Engine.revokeSlot (e : Engine) (p : Port) (t : Tag) (k : SlotNo) : Effect :=
  match e.record k with
  | .held x =>
    let g := (e.retireWhere (fun j => j == k) .revoked).passUnlessFrozen
    e.finish g.1 (e.convCompletions (fun j => j == k) .revoked ++
      [revokeAnswer p t (.held x) .retired x.holder] ++ g.2)
  | .waiting x =>
    let g := (e.freeWhere fun j => j == k).passUnlessFrozen
    e.finish g.1 ([(x.holder, .completion x.tag .revoked), revokeAnswer p t (.waiting x) .freed x.holder] ++ g.2)
  | .retired x =>
    e.finish (e.freeWhere fun j => j == k) [revokeAnswer p t (.retired x) .freed x.holder]
  | .free => e.refuse p t .stale .revoke

/-- REVOKE taken by the engine (R123, R131). -/
def Engine.revokeReq (e : Engine) (p : Port) (t : Tag) (h : Handle) : Effect :=
  match e.supervisorRefusal p with
  | some o => e.refuse p t o .revoke
  | none =>
    match e.current h with
    | none => e.refuse p t .stale .revoke
    | some k => e.revokeSlot p t k

/-- REVOKE. -/
def execRevoke (p : Port) (s : State) : StepResult :=
  s.takeRequest p fun t r =>
    match r with
    | .revoke h => some (s.engine.revokeReq p t h)
    | _ => none

/-! ### REVOKE_RANGE (R134) -/

/-- Whether REVOKE_RANGE over `g` retires the record. -/
def Record.inRange (r : Record) (g : Region) : Bool := r.isHeld && r.overlaps g

/-- REVOKE_RANGE over a valid region (R134): one pass, when at least one lease retired. -/
def Engine.revokeRegion (e : Engine) (p : Port) (t : Tag) (g : Region) : Effect :=
  let hit := fun k => (e.record k).inRange g
  let n := e.countSlots fun r => r.inRange g
  let told := e.convCompletions hit .revoked
  let e1 := e.retireWhere hit .revoked
  let r := if 0 < n then e1.passUnlessFrozen else (e1, [])
  e.finish r.1 (told ++
    [answerTo p t .ok
      (.revokeRange
        { retired := n, conversionsEnded := told.length
          ports := tab fun q => allSlots.any fun k => hit k && (e.record k).ownedBy q })] ++ r.2)

/-- REVOKE_RANGE taken by the engine (R123, R134). -/
def Engine.revokeRangeReq (e : Engine) (p : Port) (t : Tag) (base : BitVec 24) (lenM1 : Half) : Effect :=
  match e.supervisorRefusal p with
  | some o => e.refuse p t o .revokeRange
  | none =>
    if !baseMeaningful base then e.refuse p t .malformed .revokeRange
    else if !(regionOf base lenM1).valid then e.refuse p t .range .revokeRange
    else e.revokeRegion p t (regionOf base lenM1)

/-- REVOKE_RANGE. -/
def execRevokeRange (p : Port) (s : State) : StepResult :=
  s.takeRequest p fun t r =>
    match r with
    | .revokeRange base lenM1 => some (s.engine.revokeRangeReq p t base lenM1)
    | _ => none

/-! ### FREEZE (R141) -/

/-- The FREEZE payload that reports the freeze `f` (R141). -/
def Engine.freezePayload (e : Engine) (f : Freeze) : Payload :=
  .freeze { owner := f.owner, start := f.start, limit := f.start + Config.freezeLimit, settled := e.settled }

/-- FREEZE taken by the engine (R141). -/
def Engine.freezeReq (e : Engine) (p : Port) (t : Tag) : Effect :=
  match e.supervisorRefusal p with
  | some o => e.refuse p t o .freeze
  | none =>
    match e.freeze with
    | some f => e.reply p t (if f.owner = p then .wrongState else .busy) (e.freezePayload f)
    | none =>
      let f : Freeze := { owner := p, start := e.settled }
      let e1 := { e with freeze := some f }
      { engine := e1, out := [answerTo p t .ok (e.freezePayload f)] ++ e1.freezeNotices }

/-- FREEZE. -/
def execFreeze (p : Port) (s : State) : StepResult :=
  s.takeRequest p fun t r =>
    match r with
    | .freeze => some (s.engine.freezeReq p t)
    | _ => none

/-! ### THAW (R142, R148, R150) -/

/-- The THAW payload (R150). -/
def Engine.thawPayload (e : Engine) (start : Tick) (x : Thawed) : Payload :=
  .thaw { start, frozenTicks := (e.settled - start).setWidth 16, expired := x.expired, timedOut := x.timedOut
          conversionsEnded := x.conversionsEnded, granted := x.grants.length }

/-- An accepted THAW: settlement, with its own result between the TIMEOUT and the GRANTED completions (R150). -/
def Engine.thawNow (e : Engine) (p : Port) (t : Tag) (f : Freeze) : Effect :=
  let x := e.settleThaw f.start
  let e1 := e.closeEvent x.engine
  { engine := e1
    out := x.early ++ [answerTo p t .ok (e.thawPayload f.start x)] ++ x.grants ++ countNotices e e1 ++
      e1.freezeNotices }

/-- THAW taken by the engine (R142). -/
def Engine.thawReq (e : Engine) (p : Port) (t : Tag) : Effect :=
  if !e.sessionOpen p then e.refuse p t .noSession .thaw
  else
    match e.freeze with
    | none => e.refuse p t .wrongState .thaw
    | some f => if f.owner = p then e.thawNow p t f else e.refuse p t .notPermitted .thaw

/-- THAW. -/
def execThaw (p : Port) (s : State) : StepResult :=
  s.takeRequest p fun t r =>
    match r with
    | .thaw => some (s.engine.thawReq p t)
    | _ => none

end Sys2Proof.Machine
end

