-- ==== Sys2Proof/Machine/Ticks.lean ====
section
/-! DEFINITION. Machine/Ticks.lean: the engine's handling of tick notices (R90 to R96, R146). -/

namespace Sys2Proof.Machine

/-- The engine with the settled tick advanced: part 1 of a tick notice (R87). -/
def Engine.advance (e : Engine) (now : Tick) : Engine := { e with settled := now }

/-- A tick notice in the unfrozen table: parts 1 to 7 of R90. -/
def Engine.tickUnfrozen (e : Engine) (now : Tick) : Effect :=
  let d := (e.advance now).settleDue
  let w := d.engine.warnPart
  let g := if d.moved then w.grantPass else (w, [])
  e.finish g.1 (d.expired ++ d.waitsOut ++ d.convsOut ++ g.2)

/-- The freeze limit tick (R140). -/
def Freeze.limitTick (f : Freeze) : Tick := f.start + Config.freezeLimit

/-- The tick notice that reaches the freeze limit: thaw settlement in place of parts 2 to 7 (R146, R150). -/
def Engine.limitThaw (e : Engine) (f : Freeze) (now : Tick) : Effect :=
  let t := (e.advance now).settleThaw f.start
  let e1 := e.closeEvent t.engine
  { engine := e1, out := t.early ++ t.grants ++ countNotices e e1 ++ e1.freezeNotices }

/-- A tick notice in the frozen table: the settled tick advances, and nothing else unless the limit is reached (R96,
R146). -/
def Engine.tickFrozen (e : Engine) (f : Freeze) (now : Tick) : Effect :=
  if now = f.limitTick then e.limitThaw f now else { engine := e.advance now }

/-- The engine takes a tick notice (R90, R96, R146). -/
def Engine.tick (e : Engine) (now : Tick) : Effect :=
  match e.freeze with
  | some f => e.tickFrozen f now
  | none => e.tickUnfrozen now

/-- The engine takes the tick notice at the head of the timebase's path, if `f` holds of the engine and the tick that it
carries. -/
def State.takeTickIf (s : State) (f : Engine → Tick → Bool) : StepResult :=
  s.whenRunning <|
    match s.fromTimebase with
    | .tick n :: rest =>
      if f s.engine n then .next ((s.restFromTimebase rest).applyEffect (s.engine.tick n)) else .next s
    | _ => .next s

/-- TICK_NOTICE (R90, R96, R146). -/
def execTickNotice (s : State) : StepResult := s.takeTickIf fun _ _ => true

/-- Whether the unfrozen table's notice for `now` retires slot `k` in part 2 (R91). -/
def Engine.expiresAt (e : Engine) (k : SlotNo) (now : Tick) : Bool :=
  !e.isFrozen && (e.record k).leaseDue now

/-- Whether the unfrozen table's notice for `now` times out the waiting claim in slot `k` in part 3 (R92). -/
def Engine.waitEndsAt (e : Engine) (k : SlotNo) (now : Tick) : Bool :=
  !e.isFrozen && (e.record k).waitDue now

/-- Whether the unfrozen table's notice for `now` times out slot `k`'s pending conversion in part 4: its lease did not
expire in part 2 (R93). -/
def Engine.convEndsAt (e : Engine) (k : SlotNo) (now : Tick) : Bool :=
  !e.isFrozen && (e.record k).convDue now && !(e.record k).leaseDue now

/-- Whether the unfrozen table's notice for `now` warns slot `k` in part 5 (R94). -/
def Engine.warnsAt (e : Engine) (k : SlotNo) (now : Tick) : Bool :=
  !e.isFrozen && (e.record k).reachesMargin now (e.marginFor (e.record k)) && !(e.record k).leaseDue now

/-- Whether the notice for `now` reaches the freeze limit (R146). -/
def Engine.limitAt (e : Engine) (now : Tick) : Bool := e.freeze.any fun f => now == f.limitTick

/-- LEASE_EXPIRY: the tick notice at which slot `k`'s lease falls due (R91, log 2). -/
def execLeaseExpiry (k : SlotNo) (s : State) : StepResult := s.takeTickIf fun e n => e.expiresAt k n

/-- WAIT_TIMEOUT: the tick notice at which slot `k`'s wait deadline falls due (R92, log 2). -/
def execWaitTimeout (k : SlotNo) (s : State) : StepResult := s.takeTickIf fun e n => e.waitEndsAt k n

/-- CONVERSION_TIMEOUT: the tick notice at which the wait deadline of slot `k`'s conversion falls due (R93, log 2). -/
def execConversionTimeout (k : SlotNo) (s : State) : StepResult := s.takeTickIf fun e n => e.convEndsAt k n

/-- WARN_MARGIN_REACHED: the tick notice at which slot `k` reaches its holder's warn margin (R94, log 2). -/
def execWarnMarginReached (k : SlotNo) (s : State) : StepResult := s.takeTickIf fun e n => e.warnsAt k n

/-- FREEZE_LIMIT: the tick notice that brings the settled tick to the freeze limit tick (R146, log 2). -/
def execFreezeLimit (s : State) : StepResult := s.takeTickIf fun e n => e.limitAt n

end Sys2Proof.Machine
end

