-- ==== Sys2Proof/Machine/Dispatch.lean ====
section
/-! DEFINITION. Machine/Dispatch.lean: one arm for each command. -/

namespace Sys2Proof.Machine

/-- The effect of a command on everything but the queue of commands. -/
def exec (i : Instr) (s : State) : Host.Outcome State Fault Refusal :=
  match i with
  | .deviceReset => Sys2Proof.Machine.execDeviceReset s
  | .resetRelease straps prst => Sys2Proof.Machine.execResetRelease straps prst s
  | .refclkEdge prst => Sys2Proof.Machine.execRefclkEdge prst s
  | .tickNotice => Sys2Proof.Machine.execTickNotice s
  | .leaseExpiry k => Sys2Proof.Machine.execLeaseExpiry k s
  | .waitTimeout k => Sys2Proof.Machine.execWaitTimeout k s
  | .conversionTimeout k => Sys2Proof.Machine.execConversionTimeout k s
  | .warnMarginReached k => Sys2Proof.Machine.execWarnMarginReached k s
  | .freezeLimit => Sys2Proof.Machine.execFreezeLimit s
  | .arbiterTake => Sys2Proof.Machine.execArbiterTake s
  | .openSession p => Sys2Proof.Machine.execOpenSession p s
  | .closeSession p => Sys2Proof.Machine.execCloseSession p s
  | .noop p => Sys2Proof.Machine.execNoop p s
  | .claim p => Sys2Proof.Machine.execClaim p s
  | .renew p => Sys2Proof.Machine.execRenew p s
  | .release p => Sys2Proof.Machine.execRelease p s
  | .downgrade p => Sys2Proof.Machine.execDowngrade p s
  | .upgrade p => Sys2Proof.Machine.execUpgrade p s
  | .acknowledge p => Sys2Proof.Machine.execAcknowledge p s
  | .notice p => Sys2Proof.Machine.execNotice p s
  | .probe p => Sys2Proof.Machine.execProbe p s
  | .scanFirst p => Sys2Proof.Machine.execScanFirst p s
  | .scanNext p => Sys2Proof.Machine.execScanNext p s
  | .limits p => Sys2Proof.Machine.execLimits p s
  | .revoke p => Sys2Proof.Machine.execRevoke p s
  | .revokeRange p => Sys2Proof.Machine.execRevokeRange p s
  | .evict p => Sys2Proof.Machine.execEvict p s
  | .freeze p => Sys2Proof.Machine.execFreeze p s
  | .thaw p => Sys2Proof.Machine.execThaw p s
  | .trim p => Sys2Proof.Machine.execTrim p s
  | .readClock p => Sys2Proof.Machine.execReadClock p s
  | .timebaseTrim => Sys2Proof.Machine.execTimebaseTrim s
  | .timebaseReadClock => Sys2Proof.Machine.execTimebaseReadClock s
  | .clockAnswer => Sys2Proof.Machine.execClockAnswer s
  | .forwardedCancel p => Sys2Proof.Machine.execForwardedCancel p s
  | .portDrop p => Sys2Proof.Machine.execPortDrop p s
  | .portAnswer p => Sys2Proof.Machine.execPortAnswer p s
  | .portCompletion p => Sys2Proof.Machine.execPortCompletion p s
  | .cancelLateNotice p => Sys2Proof.Machine.execCancelLateNotice p s
  | .markedCount p => Sys2Proof.Machine.execMarkedCount p s
  | .sessionNotice p => Sys2Proof.Machine.execSessionNotice p s
  | .freezeNotice p => Sys2Proof.Machine.execFreezeNotice p s
  | .dropComplete p => Sys2Proof.Machine.execDropComplete p s
  | .selectFall p => Sys2Proof.Machine.execSelectFall p s
  | .selectRise p => Sys2Proof.Machine.execSelectRise p s
  | .submit p t bytes => Sys2Proof.Machine.execSubmit p t bytes s
  | .fetch p t => Sys2Proof.Machine.execFetch p t s
  | .fetchComplete p => Sys2Proof.Machine.execFetchComplete p s
  | .cancel p t => Sys2Proof.Machine.execCancel p t s
  | .status p => Sys2Proof.Machine.execStatus p s
  | .unknownTransaction p b => Sys2Proof.Machine.execUnknownTransaction p b s
  | .portReset p prst => Sys2Proof.Machine.execPortReset p prst s
  | .portRelease p prst => Sys2Proof.Machine.execPortRelease p prst s
  | .linkFaultCauseShiftedOut p => Sys2Proof.Machine.execLinkFaultCauseShiftedOut p s
  | .bitAfterCheckByte p => Sys2Proof.Machine.execBitAfterCheckByte p s

end Sys2Proof.Machine
end

