-- ==== Sys2Proof/Machine/Step.lean ====
section
/-! DEFINITION. Machine/Step.lean: one step takes the front command of the queue. -/

namespace Sys2Proof.Machine

/-- The front command of the queue is executed on the state with the queue's rest; on an empty queue the part idles
(log 6). -/
def step (s : State) : Host.Outcome State Fault Refusal :=
  match s.pending with
  | [] => .next s
  | c :: q => exec c { s with pending := q }

/-- The state with the command that a word spells at the front of the queue; the same state where the word spells
none (log 13). -/
def State.withFetchWord (s : State) (nbits w : Nat) : State :=
  match decodeTableWord nbits w with
  | some c => { s with pending := c :: s.pending }
  | none => s

end Sys2Proof.Machine
end

