-- ==== Sys2Proof/Safety.lean ====
section
/-! DEFINITION. Safety.lean: the laws of the part that the spec names and that every command keeps, and the words in
which the statements speak of an event. -/

namespace Sys2Proof.Machine

/-! ### Words of the statements -/

/-- The request `r` of context `t` of port `p` stands at the head of the port's path, with `rest` behind it, and the
engine may take it: RESETn is high and the engine holds no clock request (R77, R154). -/
structure State.Offers (s : State) (p : Port) (t : Tag) (r : Request) (rest : List PortMsg) : Prop where
  running : s.resetLow = false
  free    : s.engine.clock = none
  head    : pick s.toEngine p = .request t r :: rest

/-- The part after the engine has taken the head of port `p`'s path, has become `e` and has sent `out`; every other
part of the state is as it was. -/
def State.afterTake (s : State) (p : Port) (rest : List PortMsg) (e : Engine) (out : List Out) : State :=
  { s with
    engine := e
    toEngine := put s.toEngine p rest
    toPort := tab fun q => pick s.toPort q ++ outFor q out }

/-- The part after port `p` has become `a` and has sent `ms` to the engine; every other part of the state is as it
was. -/
def State.afterLink (s : State) (p : Port) (a : AgentPort) (ms : List PortMsg) : State :=
  { s with ports := put s.ports p a, toEngine := put s.toEngine p (pick s.toEngine p ++ ms) }

/-- The part after port `p` has taken the head of the engine's path to it and has become `a`; every other part of the
state is as it was. -/
def State.afterMessage (s : State) (p : Port) (rest : List EngineMsg) (a : AgentPort) : State :=
  { s with toPort := put s.toPort p rest, ports := put s.ports p a }

/-- The engine's answer to a request of context `t`. -/
def resultMsg (t : Tag) (o : ResultCode) (x : Payload) : EngineMsg := .answer t (.result o x false)

/-- The part after the engine has taken the head of the timebase's path, has become `e` and has sent `out`; every other
part of the state is as it was. -/
def State.afterTimebase (s : State) (rest : List TimebaseMsg) (e : Engine) (out : List Out) : State :=
  { s with engine := e, fromTimebase := rest, toPort := tab fun q => pick s.toPort q ++ outFor q out }

/-- The engine with its generation advanced by one (R19). -/
def Engine.nextGeneration (e : Engine) : Engine := { e with generation := e.generation + 1 }

/-- The command by which the engine takes a request of port `p`. -/
def Request.command (p : Port) : Request → Instr
  | .openSession _ _ => .openSession p
  | .closeSession => .closeSession p
  | .readClock => .readClock p
  | .noop => .noop p
  | .claim _ _ _ _ _ _ => .claim p
  | .renew _ _ => .renew p
  | .release _ => .release p
  | .downgrade _ => .downgrade p
  | .upgrade _ _ => .upgrade p
  | .acknowledge _ => .acknowledge p
  | .notice => .notice p
  | .probe _ _ => .probe p
  | .scanFirst _ _ _ _ => .scanFirst p
  | .scanNext => .scanNext p
  | .limits _ _ _ _ _ => .limits p
  | .revoke _ => .revoke p
  | .revokeRange _ _ => .revokeRange p
  | .evict _ => .evict p
  | .freeze => .freeze p
  | .thaw => .thaw p
  | .trim _ => .trim p

/-- The request of context `t` of port `p` is answered with a result that changes nothing else: no record, list, count,
cursor, session field or limit, and not the generation. -/
def AnswersOnly (s : State) (p : Port) (t : Tag) (r : Request) (rest : List PortMsg) (o : ResultCode)
    (x : Payload) : Prop :=
  exec (r.command p) s = .next (s.afterTake p rest s.engine [(p, resultMsg t o x)])

/-! ### Checks in order -/

/-- One check of a request: whether it passes, and the outcome when it fails. -/
abbrev Check := Bool × ResultCode

/-- The outcome of the first check that fails. -/
def firstFailing : List Check → Option ResultCode
  | [] => none
  | (passes, o) :: rest => if passes then firstFailing rest else some o

/-- Whether a base field and a length field state a valid region (R1): base + length is at most 1,048,576. -/
def regionFits (base : BitVec 24) (lenM1 : Half) : Bool := decide (base.toNat + (lenM1.toNat + 1) ≤ 1048576)

/-- Operand values without meaning (R179). -/
def Request.meaningless : Request → Bool
  | .openSession margin mask => decide (4095 < margin.toNat) || decide (3 < mask.toNat)
  | .claim base _ mode _ _ _ => decide (1048575 < base.toNat) || decide (1 < mode.toNat)
  | .probe base _ => decide (1048575 < base.toNat)
  | .revokeRange base _ => decide (1048575 < base.toNat)
  | .scanFirst filter port base _ =>
    decide (3 < filter.toNat) || (filter == 1 && decide (3 < port.toNat)) ||
      (filter == 2 && decide (1048575 < base.toNat))
  | .limits target cap duration pin _ =>
    decide (3 < target.toNat) || decide (cap = 0) || decide (64 < cap.toNat) || decide (duration = 0) ||
      decide (1 < pin.toNat)
  | .evict target => decide (3 < target.toNat)
  | .trim adjustment => decide (adjustment.toInt < -16) || decide (15 < adjustment.toInt)
  | _ => false

/-- The mode that a CLAIM's mode byte codes: 0x01 SOLE (11.3). -/
def claimMode (mode : Byte) : Mode := if mode = 1 then .sole else .shared

/-- Whether a claim conflicts with a record of port `p`'s own in slot `k` (R33). -/
def Engine.ownConflict (e : Engine) (p : Port) (g : Region) (m : Mode) (k : SlotNo) : Bool :=
  (e.record k).ownedBy p && (e.record k).blocks g m

/-- The admission checks of a CLAIM (R27). -/
def Engine.claimChecks (e : Engine) (p : Port) (base : BitVec 24) (lenM1 : Half) (mode : Byte)
    (duration limit label : Half) : List Check :=
  [((e.session p).isOpen, .noSession),
   (!(Request.claim base lenM1 mode duration limit label).meaningless, .malformed),
   (regionFits base lenM1, .range),
   (if duration = 0 then (e.limitsOf p).mayPin else decide (duration.toNat ≤ (e.limitsOf p).durationCap.toNat),
    .tooLong),
   (decide (e.ownedCount p < (e.limitsOf p).leaseCap.toNat), .capReached),
   (allSlots.any fun k => (e.record k).isFree, .tableFull),
   (allSlots.all fun k => !e.ownConflict p (regionOf base lenM1) (claimMode mode) k, .selfConflict)]

/-- The handle that the request of a holder names (R51). -/
def Request.holderHandle : Request → Option Handle
  | .renew h _ => some h
  | .release h => some h
  | .downgrade h => some h
  | .upgrade h _ => some h
  | .acknowledge h => some h
  | _ => none

/-- Whether a handle is current: its slot is not FREE and carries its issue number (R17). -/
def Engine.isCurrent (e : Engine) (h : Handle) : Bool :=
  !(e.record (slotOf h)).isFree && (e.issue (slotOf h) == issueOf h)

/-- Checks 1 to 3 of a holder request (R51). -/
def Engine.holderChecks (e : Engine) (p : Port) (h : Handle) : List Check :=
  [((e.session p).isOpen, .noSession), (e.isCurrent h, .stale), ((e.record (slotOf h)).ownedBy p, .notHolder)]

/-- The answer to a holder request by the record's state; `none` where the request is accepted (R52). -/
def stateAnswer (c : ReqCode) : Record → Option ResultCode
  | .held x =>
    match c with
    | .renew => if x.term = .pinned then some .wrongState else none
    | .release => none
    | .downgrade => if x.mode = .sole then none else some .wrongState
    | .upgrade => if x.mode = .shared ∧ x.conv = none then none else some .wrongState
    | .acknowledge => if x.warned then none else some .wrongState
    | _ => some .wrongState
  | .retired _ =>
    match c with
    | .acknowledge => none
    | .release => some .wrongState
    | _ => some .gone
  | _ => some .wrongState

/-- The end cause that reports a retire cause (R64). -/
def endCauseOf : RetireCause → EndCause
  | .expired => .expired
  | .revoked => .revoked

/-- The payload of a holder request that its record's state refuses: GONE carries the retire cause, and for UPGRADE the
lease's own handle; every other field is 0 or NONE (R55, R57, R64, R104). -/
def stateAnswerPayload (h : Handle) (c : ReqCode) : Record → Payload
  | .retired x =>
    match c with
    | .renew => .renew { deadline := 0, duration := 0, renewals := 0, warned := false, cause := some x.cause }
    | .downgrade => .downgrade (some x.cause)
    | .upgrade => .upgrade { ref := .own h, path := .none, time := .none, endCause := endCauseOf x.cause }
    | c => c.zeroPayload
  | _ => c.zeroPayload

/-- The checks of the requests of chapters 6 to 8 and of TRIM, in order, up to the request's own conditions (R77, R100,
R105, R111, R113, R123, R135, R141, R142). -/
def Engine.requestChecks (e : Engine) (p : Port) (r : Request) : List Check :=
  let isOpen : Check := ((e.session p).isOpen, .noSession)
  let right : Check := ((e.session p).supervisor, .notPermitted)
  let meaning : Check := (!r.meaningless, .malformed)
  match r with
  | .notice => [isOpen]
  | .probe base lenM1 => [isOpen, meaning, (regionFits base lenM1, .range)]
  | .scanFirst filter _ base lenM1 =>
    [isOpen, meaning, (filter == 0 || (e.session p).supervisor, .notPermitted),
     (filter != 2 || regionFits base lenM1, .range)]
  | .scanNext => [isOpen, ((e.session p).cursor.isSome, .sequence)]
  | .limits _ _ _ _ _ => [isOpen, right, meaning]
  | .revoke h => [isOpen, right, meaning, (e.isCurrent h, .stale)]
  | .revokeRange base lenM1 => [isOpen, right, meaning, (regionFits base lenM1, .range)]
  | .evict target =>
    [isOpen, right, meaning, (portOf target != some p, .notPermitted),
     ((portOf target).any fun q => (e.session q).isOpen, .wrongState)]
  | .freeze => [isOpen, right]
  | .thaw => [isOpen, (e.freeze.isSome, .wrongState), (e.freeze.any fun f => f.owner == p, .notPermitted)]
  | .trim _ => [isOpen, right, meaning]
  | .openSession _ _ | .closeSession | .readClock | .noop | .claim _ _ _ _ _ _ | .renew _ _ | .release _
  | .downgrade _ | .upgrade _ _ | .acknowledge _ => []

/-- The payload of a request that one of these checks refuses: every field 0 or NONE, but the generation of PROBE and of
scans and the adjustment of a TRIM that is not MALFORMED (R82, R107, R114, R180). -/
def Engine.refusedPayload (e : Engine) (r : Request) (o : ResultCode) : Payload :=
  match r with
  | .probe _ _ => .probe { held := 0, waiting := 0, overdue := 0, view := none, generation := e.generation }
  | .scanFirst _ _ _ _ | .scanNext =>
    .scan { view := none, next := none, startGen := 0, generation := e.generation, changed := false }
  | .trim a =>
    .trim { adjustment := if o = .malformed then 0 else a, phaseBefore := 0, phaseAfter := 0, now := 0, debt := false
            effect := .none }
  | .openSession _ _ | .closeSession | .readClock | .noop | .claim _ _ _ _ _ _ | .renew _ _ | .release _
  | .downgrade _ | .upgrade _ _ | .acknowledge _ | .notice | .limits _ _ _ _ _ | .revoke _ | .revokeRange _ _
  | .evict _ | .freeze | .thaw => r.code.zeroPayload

/-! ### Records of the statements -/

/-- The slot that a claim takes is the lowest-numbered FREE slot (R7). -/
def Engine.IsLowestFree (e : Engine) (k : SlotNo) : Prop :=
  (e.record k).isFree = true ∧ ∀ j, j < k → (e.record j).isFree = false

/-- `k` is the lowest-numbered slot that meets a condition. -/
def IsLowest (f : SlotNo → Bool) (k : SlotNo) : Prop := f k = true ∧ ∀ j, j < k → f j = false

/-- The deadline of a term that begins at the settled tick `n` with a duration field, 0 for PINNED (R10, R11). -/
def termFrom (n : Tick) (duration : Half) : Term :=
  if duration = 0 then .pinned else .timed duration (n + duration.setWidth 32)

/-- Time kind and deadline of a GRANTED result (R38, R64). -/
def Term.reported : Term → GrantTime
  | .pinned => .pinned
  | .timed _ d => .deadline d

/-- The wait deadline of a wait limit of 1 to 65,535 at the settled tick `n` (R37, R61). -/
def waitFrom (n : Tick) (limit : Half) : Option Tick :=
  if limit = 65535 then none else some (n + limit.setWidth 32)

/-- The GRANTED completion of the pending conversion or the waiting claim in slot `k`: a lease keeps its own time, a claim
gets one from the settled tick (R44, R46). -/
def Engine.grantOf (e : Engine) (k : SlotNo) : Option Out :=
  let granted (t : GrantTime) : Completion := { outcome := .granted, time := t, endCause := .none }
  match e.record k with
  | .held x => x.conv.map fun c => (x.holder, .completion c.tag (granted x.term.reported))
  | .waiting w => some (w.holder, .completion w.tag (granted (termFrom e.settled w.duration).reported))
  | _ => none

/-- The head of port `p`'s submission list can be taken by the arbiter: QUEUED, not held, and eligible under the freeze
(R143, R154). -/
def State.HeadTakable (s : State) (p : Port) (t : Tag) (r : Request) : Prop :=
  (s.port p).submission.head? = some t ∧ (∃ c, (s.port p).context t = .queued r false c) ∧
    (s.engine.freeze = none ∨ (∃ f, s.engine.freeze = some f ∧ f.owner = p) ∨
      r.code ∈ [ReqCode.probe, .scanFirst, .scanNext, .notice, .readClock, .noop, .freeze, .thaw, .trim])

/-- The engine is ready for a request: it has taken every request passed to it and holds no clock request (R154). -/
def State.Ready (s : State) : Prop :=
  s.engine.clock = none ∧ ∀ p t r, PortMsg.request t r ∉ pick s.toEngine p

/-- The place of port `p` in the arbiter's round: 0 for the port after the last-served one (R154). -/
def State.place (s : State) (p : Port) : Fin 4 := p - s.lastServed - 1

/-- The cause of a link fault as the port records it: the first one since the cause was last cleared stands (R174). -/
def AgentPort.withFault (a : AgentPort) (c : LinkFault) : AgentPort :=
  if a.cause = .none then { a with cause := c } else a

/-! ### Absent events (log 1) -/

/-- The tick that a message of the timebase carries, if it is a tick notice. -/
def TimebaseMsg.tickOf : TimebaseMsg → Option Tick
  | .tick n => some n
  | _ => none

/-- The engine has no request of this code to take from port `p`: it holds a clock request, or no such request stands at
the head of the port's path (R77, R154). -/
def State.NoRequest (s : State) (p : Port) (c : ReqCode) : Prop :=
  s.engine.clock.isSome = true ∨ ∀ t r rest, pick s.toEngine p = .request t r :: rest → r.code ≠ c

/-- No tick notice at the head of the timebase's path meets `f` of the engine and the tick that it carries. -/
def State.NoTick (s : State) (f : Engine → Tick → Prop) : Prop :=
  ∀ n rest, s.fromTimebase = .tick n :: rest → ¬f s.engine n

/-- No message at the head of the engine's path to port `p` meets `f`. -/
def State.NoMessage (s : State) (p : Port) (f : EngineMsg → Prop) : Prop :=
  ∀ m rest, pick s.toPort p = m :: rest → ¬f m

/-- PRSTn of port `p` is at `level`, and this sample is the third consecutive one to disagree with the condition
(R176). -/
def State.ThirdSample (s : State) (p : Port) (prst : PinLevels) (level : Bool) : Prop :=
  pick prst p = level ∧ (s.port p).filter = { asserted := level, count := 2 }

/-- What a command names does not happen in this state: no message or request of its kind stands at the head of its
path, no record meets its condition, its pin edge or sample is not one, or the link is in no state that takes it. -/
def EventAbsent (c : Instr) (s : State) : Prop :=
  match c with
  | .deviceReset | .refclkEdge _ => False
  | .resetRelease _ _ => s.resetLow = false
  | .portReset p prst => ¬s.ThirdSample p prst false
  | .portRelease p prst => ¬s.ThirdSample p prst true
  | .timebaseTrim => ∀ a, s.toTimebase ≠ some (.trim a)
  | .timebaseReadClock => s.toTimebase ≠ some .readClock
  | .clockAnswer => ∀ m rest, s.fromTimebase = m :: rest → m.tickOf.isSome = true
  | .tickNotice => s.NoTick fun _ _ => True
  | .leaseExpiry k => s.NoTick fun e n => e.freeze = none ∧ (e.record k).leaseDue n = true
  | .waitTimeout k => s.NoTick fun e n => e.freeze = none ∧ (e.record k).waitDue n = true
  | .conversionTimeout k =>
    s.NoTick fun e n => e.freeze = none ∧ (e.record k).convDue n = true ∧ (e.record k).leaseDue n = false
  | .warnMarginReached k =>
    s.NoTick fun e n => e.freeze = none ∧
      (e.record k).reachesMargin n (e.marginFor (e.record k)) = true ∧ (e.record k).leaseDue n = false
  | .freezeLimit => s.NoTick fun e n => ∃ f, e.freeze = some f ∧ n = f.start + 512
  | .arbiterTake => ¬s.Ready ∨ ∀ p t r, ¬s.HeadTakable p t r
  | .openSession p => s.NoRequest p .openSession
  | .closeSession p => s.NoRequest p .closeSession
  | .readClock p => s.NoRequest p .readClock
  | .noop p => s.NoRequest p .noop
  | .claim p => s.NoRequest p .claim
  | .renew p => s.NoRequest p .renew
  | .release p => s.NoRequest p .release
  | .downgrade p => s.NoRequest p .downgrade
  | .upgrade p => s.NoRequest p .upgrade
  | .acknowledge p => s.NoRequest p .acknowledge
  | .notice p => s.NoRequest p .notice
  | .probe p => s.NoRequest p .probe
  | .scanFirst p => s.NoRequest p .scanFirst
  | .scanNext p => s.NoRequest p .scanNext
  | .limits p => s.NoRequest p .limits
  | .revoke p => s.NoRequest p .revoke
  | .revokeRange p => s.NoRequest p .revokeRange
  | .evict p => s.NoRequest p .evict
  | .freeze p => s.NoRequest p .freeze
  | .thaw p => s.NoRequest p .thaw
  | .trim p => s.NoRequest p .trim
  | .forwardedCancel p => ∀ t rest, pick s.toEngine p ≠ .cancel t :: rest
  | .portDrop p => ∀ rest, pick s.toEngine p ≠ .portDrop :: rest
  | .portAnswer p => s.NoMessage p fun m => ∃ t x, m = .answer t x
  | .portCompletion p => s.NoMessage p fun m => ∃ t x, m = .completion t x
  | .cancelLateNotice p => s.NoMessage p fun m => ∃ t, m = .cancelLate t
  | .markedCount p => s.NoMessage p fun m => ∃ n, m = .marked n
  | .sessionNotice p => s.NoMessage p fun m => ∃ o k l, m = .session o k l
  | .freezeNotice p => s.NoMessage p fun m => ∃ f o, m = .freeze f o
  | .dropComplete p => s.NoMessage p fun m => m = .dropComplete
  | .selectFall p => (s.port p).selLow = true
  | .selectRise p => (s.port p).selLow = false
  | .submit p t _ => (s.port p).link ≠ .command ∧ ∀ f, (s.port p).link ≠ .frame t f
  | .fetch p _ | .cancel p _ | .status p => (s.port p).link ≠ .command
  | .unknownTransaction p b => (s.port p).link ≠ .command ∨ ∃ x : Transaction, x.byte = b
  | .bitAfterCheckByte p => ∀ t, (s.port p).link ≠ .frame t .judged
  | .fetchComplete p => ∀ t out, (s.port p).link ≠ .reply (.record t) out
  | .linkFaultCauseShiftedOut p => ∀ out, (s.port p).link ≠ .reply .status out

/-! ### Layouts of frames and records (chapter 11) -/

/-- The bytes of a field of `n` bytes, most significant byte first (11). -/
def fieldBytes (n value : Nat) : List Byte := (List.range n).reverse.map fun i => BitVec.ofNat 8 (value / 256 ^ i)

/-- The bytes of fields, each with its length in bytes and its value, in order. -/
def layOut (fields : List (Nat × Nat)) : List Byte := fields.flatMap fun f => fieldBytes f.1 f.2

/-- The operands of a request, in the order of the table of 11.2. -/
def Request.fields : Request → List (Nat × Nat)
  | .openSession margin mask => [(2, margin.toNat), (1, mask.toNat)]
  | .claim base lenM1 mode duration limit label =>
    [(3, base.toNat), (2, lenM1.toNat), (1, mode.toNat), (2, duration.toNat), (2, limit.toNat), (2, label.toNat)]
  | .renew h duration => [(2, h.toNat), (2, duration.toNat)]
  | .upgrade h limit => [(2, h.toNat), (2, limit.toNat)]
  | .release h | .downgrade h | .acknowledge h | .revoke h => [(2, h.toNat)]
  | .probe base lenM1 | .revokeRange base lenM1 => [(3, base.toNat), (2, lenM1.toNat)]
  | .scanFirst filter port base lenM1 => [(1, filter.toNat), (1, port.toNat), (3, base.toNat), (2, lenM1.toNat)]
  | .limits target cap duration pin renewals =>
    [(1, target.toNat), (1, cap.toNat), (2, duration.toNat), (1, pin.toNat), (1, renewals.toNat)]
  | .evict target => [(1, target.toNat)]
  | .trim adjustment => [(1, adjustment.toNat)]
  | .closeSession | .readClock | .noop | .notice | .scanNext | .freeze | .thaw => []

/-- The fields of a lease view (11.4.1); the unused bits of its packed bytes are 0 (the model's choice: log 19). -/
def View.fields (v : View) : List (Nat × Nat) :=
  [(2, v.handle.toNat), (1, v.state.code.toNat * 64 + v.holder.val * 16 + v.mode.bit.toNat), (3, v.region.base.toNat),
   (2, v.region.lenM1.toNat), (2, v.label.toNat), (1, v.kind.byte.toNat), (4, v.time.toNat), (4, v.remaining.toNat),
   (1, v.warned.toNat + v.convPending.toNat * 2 + v.overdue.toNat * 4 + (causeCode v.cause).toNat * 16)]

/-- A lease view that may be absent: 20 bytes of 0 then (R180). -/
def viewFields (v : Option View) : List (Nat × Nat) := v.elim [(20, 0)] View.fields

/-- Limits as LIMITS reports them (11.4). -/
def Limits.fields (l : Limits) : List (Nat × Nat) :=
  [(1, l.leaseCap.toNat), (2, l.durationCap.toNat), (1, l.mayPin.toNat), (1, l.renewalCap.toNat)]

/-- The fields of a payload, in the order of the table of 11.4, the packed bytes as its list gives them, their unused bits
0 (the model's choice: log 19). -/
def Payload.fields : Payload → List (Nat × Nat)
  | .empty => []
  | .openSession x =>
    [(1, x.port.val + x.supervisor.toNat * 16 + x.limits.mayPin.toNat * 32 + x.wasLost.toNat * 64),
     (1, x.limits.leaseCap.toNat), (2, x.limits.durationCap.toNat), (1, x.limits.renewalCap.toNat),
     (2, x.warnMargin.toNat), (1, x.mask.done.toNat + x.mask.notice.toNat * 2), (4, x.settled.toNat)]
  | .sessionEnd x =>
    [(1, x.port.val), (1, x.heldFreed), (1, x.waitingRemoved), (1, x.retiredFreed), (1, x.conversionsEnded),
     (1, x.thawed.toNat)]
  | .claim x =>
    [(1, x.ref.kindByte.toNat), (2, x.ref.value.toNat), (1, x.path.byte.toNat), (1, x.time.kindByte.toNat),
     (4, x.time.value.toNat), (2, x.generation.toNat)]
  | .renew x =>
    [(4, x.deadline.toNat), (2, x.duration.toNat), (1, x.renewals.toNat),
     (1, x.warned.toNat * 128 + (causeCode x.cause).toNat)]
  | .downgrade c => [(1, (causeCode c).toNat)]
  | .upgrade x =>
    [(1, x.ref.kindByte.toNat), (2, x.ref.value.toNat), (1, x.path.byte.toNat), (1, x.time.kindByte.toNat),
     (4, x.time.value.toNat), (1, x.endCause.byte.toNat)]
  | .acknowledge x =>
    [(1, x.effect.byte.toNat), (1, (causeCode x.cause).toNat), (1, x.time.kindByte.toNat), (4, x.time.value.toNat),
     (4, x.remaining.toNat), (1, x.marked)]
  | .notice x => [(1, x.marked), (1, x.view.isSome.toNat)] ++ viewFields x.view
  | .probe x =>
    [(1, x.held), (1, x.waiting), (1, x.overdue), (1, x.view.isSome.toNat)] ++ viewFields x.view ++
      [(2, x.generation.toNat)]
  | .scan x =>
    [(1, x.view.isSome.toNat + x.changed.toNat * 2)] ++ viewFields x.view ++
      [(1, x.next.elim 0 Fin.val), (2, x.startGen.toNat), (2, x.generation.toNat)]
  | .limits x => [(1, x.target.val), (1, x.owned)] ++ x.before.fields ++ x.after.fields
  | .revoke x =>
    [(1, x.prior.code.toNat), (1, x.effect.byte.toNat), (1, x.holder.val), (1, x.convEnded.toNat),
     (1, (causeCode x.priorCause).toNat)]
  | .revokeRange x =>
    [(1, x.retired), (1, x.conversionsEnded),
     (1, (pick x.ports 0).toNat + (pick x.ports 1).toNat * 2 + (pick x.ports 2).toNat * 4 +
       (pick x.ports 3).toNat * 8)]
  | .freeze x => [(1, x.owner.val), (4, x.start.toNat), (4, x.limit.toNat), (4, x.settled.toNat)]
  | .thaw x =>
    [(4, x.start.toNat), (2, x.frozenTicks.toNat), (1, x.expired), (1, x.timedOut), (1, x.conversionsEnded),
     (1, x.granted)]
  | .trim x =>
    [(1, x.adjustment.toNat), (1, x.phaseBefore.toNat), (1, x.phaseAfter.toNat), (4, x.now.toNat), (1, x.debt.toNat),
     (1, x.effect.byte.toNat)]
  | .clock x =>
    [(4, x.now.toNat), (1, x.phase.toNat), (1, x.debt.toNat), (4, x.settled.toNat), (2, x.generation.toNat),
     (1, x.frozen.toNat)]

/-- The fields that a record's check byte covers: outcome, request code, tag byte with CANCEL_LATE in bit 7, payload
(11.4). -/
def ResultRecord.fields (r : ResultRecord) (t : Tag) : List (Nat × Nat) :=
  [(1, r.outcome.byte.toNat), (1, r.code.byte.toNat), (1, t.val + r.late.toNat * 128)] ++ r.payload.fields

/-! ### Laws of the table (chapters 1 to 3, 5) -/

/-- R5: any two HELD leases whose regions overlap are both SHARED. -/
def ExclusionLaw (e : Engine) : Prop :=
  ∀ j k x y, j ≠ k → e.record j = .held x → e.record k = .held y → x.region.overlaps y.region = true →
    x.mode = .shared ∧ y.mode = .shared

/-- R39: the wait list holds every WAITING slot, each once, and no slot in any other state. -/
def WaitListLaw (e : Engine) : Prop :=
  e.waitList.Nodup ∧ ∀ k, k ∈ e.waitList ↔ (e.record k).isWaiting = true

/-- R65: the conversion list holds every HELD lease with a pending conversion, each once, and nothing else; every entry
is SHARED, and no two entries have overlapping regions. -/
def ConvListLaw (e : Engine) : Prop :=
  e.convList.Nodup ∧ (∀ k, k ∈ e.convList ↔ (e.record k).conv.isSome = true) ∧
    (∀ k x, e.record k = .held x → x.conv.isSome = true → x.mode = .shared) ∧
    ∀ j k x y, j ≠ k → e.record j = .held x → e.record k = .held y → x.conv.isSome = true →
      y.conv.isSome = true → x.region.overlaps y.region = false

/-- R1, R10, R11: every record's region is valid; a timed lease has a duration of at least 1; a pinned lease has no
warned mark. -/
def RecordLaw (e : Engine) : Prop :=
  (∀ k c, (e.record k).common = some c → c.region.valid = true) ∧
    (∀ k x d n, e.record k = .held x → x.term = .timed d n → d ≠ 0) ∧
    ∀ k x, e.record k = .held x → x.term = .pinned → x.warned = false

/-- R95: while the table is not frozen, no lease, waiting claim or pending conversion is due. -/
def NothingDue (e : Engine) : Prop :=
  e.freeze = none → ∀ k, (e.record k).leaseDue e.settled = false ∧ (e.record k).waitDue e.settled = false ∧
    (e.record k).convDue e.settled = false

/-! ### Laws of sessions, limits and the freeze (chapters 7 and 8) -/

/-- A port whose session is CLOSED owns no record and has no scan cursor (R21, R109, R119); SESSION_LOST is set on a
CLOSED session only (R137, R181). -/
def SessionLaw (e : Engine) : Prop :=
  ∀ p, ((e.session p).isOpen = false →
      (e.session p).cursor = none ∧ ∀ k, (e.record k).ownedBy p = false) ∧
    ((e.session p).lost = true → (e.session p).isOpen = false)

/-- The freeze owner has supervisor right and an open session (R140). -/
def FreezeLaw (e : Engine) : Prop :=
  ∀ f, e.freeze = some f → (e.session f.owner).isOpen = true ∧ (e.session f.owner).supervisor = true

/-- No port owns more records than its lease cap, and every cap has a meaning (R128). -/
def CapLaw (e : Engine) : Prop :=
  ∀ p, e.ownedCount p ≤ (e.limitsOf p).leaseCap.toNat ∧ 1 ≤ (e.limitsOf p).leaseCap.toNat ∧
    (e.limitsOf p).leaseCap.toNat ≤ 64 ∧ (e.limitsOf p).durationCap ≠ 0

/-! ### Laws of time (chapter 4) -/

/-- The ticks on the timebase's path, in order. -/
def State.ticksOnPath (s : State) : List Tick := s.fromTimebase.filterMap TimebaseMsg.tickOf

/-- The ticks after `n` up to `n + count`, in order. -/
def ticksAfter (n : Tick) : Nat → List Tick
  | 0 => []
  | count + 1 => (n + 1) :: ticksAfter (n + 1) count

/-- R75, R87: the notices on the path carry the consecutive values after the settled tick, up to NOW. -/
def TickLaw (s : State) : Prop :=
  s.ticksOnPath = ticksAfter s.engine.settled s.ticksOnPath.length ∧
    s.timebase.now = s.engine.settled + BitVec.ofNat 32 s.ticksOnPath.length

/-- Whether a message of the timebase answers a clock request of this kind. -/
def ClockKind.answeredBy (k : ClockKind) : TimebaseMsg → Bool
  | .tick _ => false
  | .trimAnswer _ _ => k == .trim
  | .clockAnswer _ _ _ => k != .trim

/-- Whether a call to the timebase is for a clock request of this kind. -/
def ClockKind.calledBy (k : ClockKind) : ClockCall → Bool
  | .trim _ => k == .trim
  | .readClock => k != .trim

/-- The messages on the timebase's path that are no tick notices. -/
def State.answersOnPath (s : State) : List TimebaseMsg := s.fromTimebase.filter fun m => m.tickOf.isNone

/-- R77, R84: without a clock request nothing is on its way to or from the timebase; with one, either its call or its
answer is, and no other. -/
def ClockLaw (s : State) : Prop :=
  match s.engine.clock with
  | none => s.toTimebase = none ∧ s.answersOnPath = []
  | some c =>
    (∃ call, s.toTimebase = some call ∧ c.kind.calledBy call = true ∧ s.answersOnPath = []) ∨
      (∃ m, s.toTimebase = none ∧ s.answersOnPath = [m] ∧ c.kind.answeredBy m = true)

/-! ### Laws of the ports (chapters 9 and 10) -/

/-- Whether a context is QUEUED. -/
def Context.isQueued : Context → Bool
  | .queued _ _ _ => true
  | _ => false

/-- R153: the submission list holds exactly the QUEUED contexts, each once; a held context stands at its head. -/
def SubmissionLaw (a : AgentPort) : Prop :=
  a.submission.Nodup ∧ (∀ t, t ∈ a.submission ↔ (a.context t).isQueued = true) ∧
    ∀ t r c, a.context t = .queued r true c → a.submission.head? = some t

/-- R171: the context whose record a FETCH shifts out stays DONE, cancel-outstanding clear, with that record. -/
def FetchLaw (a : AgentPort) : Prop :=
  ∀ t out, a.link = .reply (.record t) out → ∃ r, a.context t = .done r false ∧ out = r.bytes t

/-- R166, R167: in STANDBY SELn is high; in COMMAND, FRAME, REPLY and IGNORE it is low. -/
def SelectLaw (a : AgentPort) : Prop :=
  match a.link with
  | .standby => a.selLow = false
  | .command | .frame _ _ | .reply _ _ | .ignore => a.selLow = true
  | .inReset | .draining => True

/-- The count that a message carries, if it is a marked-record count. -/
def EngineMsg.markedOf : EngineMsg → Option Nat
  | .marked n => some n
  | _ => none

/-- The values that a message carries, if it is a session notice. -/
def EngineMsg.sessionOf : EngineMsg → Option (Bool × AttnMask × Bool)
  | .session o k l => some (o, k, l)
  | _ => none

/-- The flags that a message carries, if it is a freeze notice. -/
def EngineMsg.freezeOf : EngineMsg → Option (Bool × Bool)
  | .freeze f o => some (f, o)
  | _ => none

/-- The last value on a path, or the value held where the path carries none. -/
def lastOr {α : Type} (f : EngineMsg → Option α) (path : List EngineMsg) (held : α) : α :=
  ((path.filterMap f).getLast?).getD held

/-- R99, R121, R140: once a port has taken every message on its way, it holds the engine's marked-record count,
session state, attention mask, SESSION_LOST and freeze flags. -/
def InformedLaw (s : State) : Prop :=
  ∀ p, lastOr EngineMsg.markedOf (pick s.toPort p) (s.port p).marked = s.engine.markedCount p ∧
    lastOr EngineMsg.sessionOf (pick s.toPort p) ((s.port p).sessionOpen, (s.port p).mask, (s.port p).lost) =
      ((s.engine.session p).isOpen, (s.engine.session p).mask, (s.engine.session p).lost) ∧
    lastOr EngineMsg.freezeOf (pick s.toPort p) ((s.port p).frozen, (s.port p).freezeOwner) =
      (s.engine.isFrozen, s.engine.freeze.any fun f => f.owner == p)

/-! ### Requests, waits and contexts (R156 to R158) -/

/-- Whether the record is a waiting claim of port `p` or a lease of `p` with a pending conversion, and names context
`t` (R158). -/
def Record.names (r : Record) (p : Port) (t : Tag) : Bool :=
  match r with
  | .waiting w => w.holder == p && w.tag == t
  | .held x => x.holder == p && x.conv.any fun c => c.tag == t
  | _ => false

/-- Whether the clock request is context `t`'s of port `p`, its answer not to be dropped (R77, R79). -/
def ClockRequest.names (c : ClockRequest) (p : Port) (t : Tag) : Bool := c.port == p && c.tag == t && !c.dropped

/-- Whether the message is the taken request of context `t`. -/
def PortMsg.asksFor (t : Tag) : PortMsg → Bool
  | .request u _ => u == t
  | _ => false

/-- Whether the message is the result of context `t`'s request (R156). -/
def EngineMsg.results (t : Tag) : EngineMsg → Bool
  | .answer u (.result _ _ _) => u == t
  | _ => false

/-- Whether the message is the waiting notice of context `t`, as which a claim or an UPGRADE is answered (R156). -/
def EngineMsg.notifies (t : Tag) : EngineMsg → Bool
  | .answer u (.waitingClaim _ _) | .answer u (.waitingUpgrade _) => u == t
  | _ => false

/-- Whether the message completes the wait of context `t` (R157). -/
def EngineMsg.completes (t : Tag) : EngineMsg → Bool
  | .completion u _ => u == t
  | _ => false

/-- How many clock requests name context `t` of port `p`: none or one. -/
def Engine.asked (e : Engine) (p : Port) (t : Tag) : Nat := e.clock.toList.countP fun c => c.names p t

/-- How many waiting claims and pending conversions name context `t` of port `p`. -/
def Engine.waits (e : Engine) (p : Port) (t : Tag) : Nat := e.countSlots fun r => r.names p t

/-- The wait of a context: `waits` of the engine that name it, or completions on the path `down` to the port. -/
def inWait (waits : Tag → Nat) (down : List EngineMsg) (t : Tag) : Nat := waits t + down.countP (EngineMsg.completes t)

/-- How often a request of a context is under way: on the path `up` to the engine, `asked` of the timebase, answered with
a result on the path `down` back to the port, or in a wait. -/
def underWay (up : List PortMsg) (asked waits : Tag → Nat) (down : List EngineMsg) (t : Tag) : Nat :=
  up.countP (PortMsg.asksFor t) + asked t + down.countP (EngineMsg.results t) + inWait waits down t

/-- R158 for a context: how many requests are `under` way, how many of them in a `wait`, and how many waiting `notices` are
on their way, by the context's state. A context that is QUEUED and not held, or DONE, has none; so has a FREE one with no
drop outstanding (`settled`). A held one has one request under way, whose notice is on its way exactly while it is in a
wait. A WAITING one has taken its notice, and has one wait until drop-complete is on its way (`undropped`). -/
def Context.Matches (c : Context) (settled undropped : Prop) (under wait notices : Nat) : Prop :=
  match c with
  | .queued _ false _ | .done _ _ => under = 0 ∧ notices = 0
  | .queued _ true _ => under = 1 ∧ notices = wait
  | .waiting _ _ _ => (undropped → wait = 1) ∧ notices = 0
  | .free => settled → under = 0 ∧ notices = 0

/-- R158, R164, R176, R177 for a port, its path `up` to the engine, the engine's clock request and waits that name its
contexts, and the path `down` back. No context has two requests under way, and each has what its state says. A drop
outstanding is one port-drop notice on its way, the port's last request before it, or one drop-complete on its way back,
the port's last answer or completion before it; it stands in IN_RESET and DRAINING only, where no context is QUEUED. -/
structure PortMatch (a : AgentPort) (up : List PortMsg) (asked waits : Tag → Nat) (down : List EngineMsg) : Prop where
  once     : ∀ t, underWay up asked waits down t ≤ 1
  matched  : ∀ t, (a.context t).Matches (a.dropOutstanding = false) (EngineMsg.dropComplete ∉ down)
    (underWay up asked waits down t) (inWait waits down t) (down.countP (EngineMsg.notifies t))
  drops    : up.count .portDrop + down.count .dropComplete = if a.dropOutstanding then 1 else 0
  inReset  : a.dropOutstanding = true →
    (a.link = .inReset ∨ a.link = .draining) ∧ ∀ t, (a.context t).isQueued = false
  draining : a.link = .draining → a.dropOutstanding = true
  released : a.filter.asserted = false → a.link ≠ .inReset
  lastAsk  : ∀ before after, up = before ++ .portDrop :: after → ∀ t, after.countP (PortMsg.asksFor t) = 0
  lastWord : ∀ before after, down = before ++ .dropComplete :: after → ∀ t,
    underWay up asked waits after t = 0 ∧ after.countP (EngineMsg.notifies t) = 0

/-- R158, R164, R176, R177 for the four ports; while RESETn is low no drop is outstanding. -/
def MatchLaw (s : State) : Prop :=
  ∀ p, PortMatch (s.port p) (pick s.toEngine p) (s.engine.asked p) (s.engine.waits p) (pick s.toPort p) ∧
    (s.resetLow = true → (s.port p).dropOutstanding = false)

/-! ### The laws of the whole part -/

/-- While RESETn is low the engine stands as device reset left it, so far as the release of RESETn can reach (R73,
R140). -/
def ResetLaw (s : State) : Prop := s.resetLow = true → s.engine.freeze = none

end Sys2Proof.Machine
end

