-- ==== Sys2Proof/WellFormed.lean ====
section
/-! DEFINITION. WellFormed.lean: the commands whose operands agree with what the command's name says. Every command
runs, well-formed or not; an ill-formed one names an event that its own operands contradict. -/

namespace Sys2Proof

/-- A command is well-formed when its operands do not contradict its name: an UNKNOWN_TRANSACTION byte names no
transaction (R178); a PORT_RESET of port `p` samples PRSTn of `p` low (R176), a PORT_RELEASE high (R177). -/
def Instr.wf : Instr → Bool
  | .unknownTransaction _ b => (Machine.decodeTransaction b).isNone
  | .portReset p prst => !pick prst p
  | .portRelease p prst => pick prst p
  | _ => true

end Sys2Proof
end

