-- ==== Sys2Proof/Certificates/Slice0/Obligations.lean ====
section
/-! DEFINITION. Certificates/Slice0/Obligations.lean: the statements for the provers. OBLIGATIONS.json gives each its
title, its reading in words and the rules or sections of the spec that it rests on. -/

open Sys2Proof Sys2Proof.Machine

/-! ### The queue of commands -/

/-- A step takes the command at the front of the queue and runs it on the part with the queue's rest. -/
def Obligations.StepTakesFrontCommand : Prop :=
  ∀ (c : Instr) (q : List Instr) (s : State), s.pending = c :: q → step s = exec c { s with pending := q }

/-- The model's choices (log 6, log 1): on an empty queue the part idles, no command touches the queue, and a command
whose event is absent changes nothing. `EventAbsent` says for each of the 55 commands when its event is absent. -/
def Obligations.QueueIdlesAndAbsentEventsChangeNothing : Prop :=
  ((∀ s : State, s.pending = [] → step s = .next s) ∧
     ∀ (c : Instr) (s s' : State), exec c s = .next s' → s'.pending = s.pending) ∧
    ∀ (c : Instr) (s : State), EventAbsent c s → exec c s = .next s

/-- No command is refused; five commands stop, each with its own fault and only where a message arrives that the spec
says does not arrive (log 8). -/
def Obligations.OnlyUnexpectedMessagesStop : Prop :=
  (∀ (c : Instr) (s : State) (x : Refusal), exec c s ≠ .refused x) ∧
    ∀ (c : Instr) (s : State) (f : Fault), exec c s = .fault f →
      s.resetLow = false ∧
        match c with
        | .portAnswer p => f = .answerUnexpected ∧
            ∃ t x rest, pick s.toPort p = .answer t x :: rest ∧ (s.port p).context t ≠ .free ∧
              ∀ r k, (s.port p).context t ≠ .queued r true k
        | .portCompletion p => f = .completionUnexpected ∧
            ∃ t x rest, pick s.toPort p = .completion t x :: rest ∧ (s.port p).context t ≠ .free ∧
              ∀ r k m, (s.port p).context t ≠ .waiting r k m
        | .cancelLateNotice p => f = .cancelLateUnexpected ∧
            ∃ t rest, pick s.toPort p = .cancelLate t :: rest ∧ (s.port p).context t ≠ .free ∧
              ∀ r, (s.port p).context t ≠ .done r true
        | .dropComplete p => f = .dropCompleteUnexpected ∧
            (∃ rest, pick s.toPort p = .dropComplete :: rest) ∧ (s.port p).link ≠ .draining ∧
              ((s.port p).link = .inReset → (s.port p).dropOutstanding = false)
        | .clockAnswer => f = .clockAnswerUnexpected ∧
            ∃ m rest, s.fromTimebase = m :: rest ∧ m.tickOf = none ∧
              ∀ k, s.engine.clock = some k → k.kind.answeredBy m = false
        | _ => False

/-! ### Reset (4.1, 1.9, 7.1, 7.2, 9.1, 9.2, 10.2) -/

/-- Device reset leaves every block at its device-reset value; the levels of SELn and the queue of commands are not the
block's and stay (log 4). The status byte's 0 and the empty paths are the model's (log 5, log 7). -/
def Obligations.DeviceResetGivesResetValues : Prop :=
  ∀ s : State, ∃ s', exec .deviceReset s = .next s' ∧
    s'.resetLow = true ∧ s'.pending = s.pending ∧
    (∀ k, s'.engine.record k = .free ∧ s'.engine.issue k = 0) ∧
    s'.engine.waitList = [] ∧ s'.engine.convList = [] ∧ s'.engine.generation = 0 ∧ s'.engine.settled = 0 ∧
    (∀ p, s'.engine.ownedCount p = 0 ∧ s'.engine.markedCount p = 0) ∧
    (∀ p, (s'.engine.session p).isOpen = false ∧ (s'.engine.session p).warnMargin = 0 ∧
      (s'.engine.session p).mask = { done := false, notice := false } ∧ (s'.engine.session p).lost = false ∧
      (s'.engine.session p).cursor = none) ∧
    (∀ p, (s'.engine.limitsOf p).leaseCap = 16 ∧ (s'.engine.limitsOf p).durationCap = 8192 ∧
      (s'.engine.limitsOf p).renewalCap = 0) ∧
    s'.engine.freeze = none ∧ s'.engine.clock = none ∧
    s'.timebase = { phase := 0, now := 0, debt := false } ∧ s'.lastServed = 3 ∧
    (∀ p, (∀ t, (s'.port p).context t = .free) ∧ (s'.port p).submission = [] ∧ (s'.port p).cause = .none ∧
      (s'.port p).filter.count = 0 ∧ (s'.port p).dropOutstanding = false ∧ (s'.port p).sessionOpen = false ∧
      (s'.port p).mask = { done := false, notice := false } ∧ (s'.port p).lost = false ∧ (s'.port p).marked = 0 ∧
      (s'.port p).frozen = false ∧ (s'.port p).freezeOwner = false ∧ (s'.port p).statusByte = 0 ∧
      (s'.port p).selLow = (s.port p).selLow) ∧
    (∀ p, pick s'.toEngine p = [] ∧ pick s'.toPort p = []) ∧ s'.toTimebase = none ∧ s'.fromTimebase = []

/-- The release of RESETn captures the straps into both holders of supervisor right and the default may-pin limit, and
samples PRSTn into the link state and the filter; all else is as it was (R122, R128, R166). -/
def Obligations.ReleaseCapturesStrapsAndPortResets : Prop :=
  ∀ (s : State) (straps prst : PinLevels), s.resetLow = true → ∃ s',
    exec (.resetRelease straps prst) s = .next s' ∧ s'.resetLow = false ∧
    (∀ p, s'.engine.session p = { s.engine.session p with supervisor := pick straps p } ∧
      s'.engine.limitsOf p = { s.engine.limitsOf p with mayPin := pick straps p } ∧
      s'.port p = { s.port p with
        supervisor := pick straps p
        filter := { asserted := !pick prst p, count := 0 }
        link := if pick prst p = false then .inReset else if (s.port p).selLow then .ignore else .standby }) ∧
    s'.engine.slots = s.engine.slots ∧ s'.engine.waitList = s.engine.waitList ∧
    s'.engine.convList = s.engine.convList ∧ s'.engine.generation = s.engine.generation ∧
    s'.engine.settled = s.engine.settled ∧ s'.engine.freeze = s.engine.freeze ∧ s'.engine.clock = s.engine.clock ∧
    s'.timebase = s.timebase ∧ s'.lastServed = s.lastServed ∧ s'.toEngine = s.toEngine ∧ s'.toPort = s.toPort ∧
    s'.toTimebase = s.toTimebase ∧ s'.fromTimebase = s.fromTimebase

/-- While RESETn is low no block takes an event: only the levels of SELn follow the pins (R73; the model's reading for
the other blocks: log 4). -/
def Obligations.LowResetTakesNoEvent : Prop :=
  ∀ (s : State) (c : Instr), s.resetLow = true →
    match c with
    | .deviceReset | .resetRelease _ _ => True
    | .selectFall p => exec c s = .next (s.setPort p { s.port p with selLow := true })
    | .selectRise p => exec c s = .next (s.setPort p { s.port p with selLow := false })
    | c => exec c s = .next s

/-! ### The timebase (chapter 4) and PRSTn (10.9) -/

/-- R74: what a rising edge of REFCLK makes of phase, debt and NOW, and the tick notice that it sends. The filters of the
ports do not look at the timebase, and no command but an edge, a TRIM at the timebase and device reset changes phase,
debt or NOW. -/
def Obligations.RefclkEdgeCountsPhase : Prop :=
  (∀ (s : State) (prst : PinLevels), s.resetLow = false → ∃ s',
    exec (.refclkEdge prst) s = .next s' ∧
      (s.timebase.phase ≠ 31 →
        s'.timebase = { s.timebase with phase := s.timebase.phase + 1 } ∧ s'.fromTimebase = s.fromTimebase) ∧
      (s.timebase.phase = 31 → s.timebase.debt = false →
        s'.timebase = { phase := 0, debt := false, now := s.timebase.now + 1 } ∧
          s'.fromTimebase = s.fromTimebase ++ [.tick (s.timebase.now + 1)]) ∧
      (s.timebase.phase = 31 → s.timebase.debt = true →
        s'.timebase = { phase := 0, debt := false, now := s.timebase.now } ∧ s'.fromTimebase = s.fromTimebase) ∧
      s'.engine = s.engine ∧ s'.lastServed = s.lastServed ∧ s'.toPort = s.toPort ∧ s'.toTimebase = s.toTimebase ∧
      ∀ x s2, exec (.refclkEdge prst) { s with timebase := x } = .next s2 →
        s2.ports = s'.ports ∧ s2.toEngine = s'.toEngine) ∧
    ∀ (c : Instr) (s s' : State), exec c s = .next s' → s'.timebase ≠ s.timebase →
      match c with
      | .refclkEdge _ | .portReset _ _ | .portRelease _ _ | .timebaseTrim | .deviceReset => True
      | _ => False

/-- The PRSTn filter: samples that agree with the condition clear the count, the third consecutive one that disagrees
changes it and brings about the port reset event or the release event (R176, R177). PORT_RESET and PORT_RELEASE are that
edge (the model's reading: log 3). -/
def Obligations.PortResetNeedsThreeSamples : Prop :=
  ∀ (s : State) (prst : PinLevels) (p : Port), s.resetLow = false → ∃ s',
    exec (.refclkEdge prst) s = .next s' ∧
      let a := s.port p
      let kept := s'.port p
      (pick prst p = !a.filter.asserted →
        kept = { a with filter := { a.filter with count := 0 } } ∧ pick s'.toEngine p = pick s.toEngine p) ∧
      (pick prst p = a.filter.asserted → a.filter.count ≠ 2 →
        kept = { a with filter := { a.filter with count := a.filter.count + 1 } } ∧
          pick s'.toEngine p = pick s.toEngine p) ∧
      (pick prst p = false → a.filter = { asserted := false, count := 2 } →
        kept.filter = { asserted := true, count := 0 } ∧ kept.link = .inReset ∧ kept.submission = [] ∧
          kept.cause = .none ∧ kept.attention = false ∧
          (∀ t, kept.context t = if (a.context t).isQueued then .free else a.context t) ∧
          (if a.link = .draining then
            kept.dropOutstanding = a.dropOutstanding ∧ pick s'.toEngine p = pick s.toEngine p
          else kept.dropOutstanding = true ∧ pick s'.toEngine p = pick s.toEngine p ++ [.portDrop]) ∧
          kept.selLow = a.selLow ∧ kept.shownStatus = a.shownStatus ∧ kept.supervisor = a.supervisor ∧
          kept.sessionOpen = a.sessionOpen ∧ kept.mask = a.mask ∧ kept.lost = a.lost ∧ kept.marked = a.marked ∧
          kept.frozen = a.frozen ∧ kept.freezeOwner = a.freezeOwner) ∧
      (pick prst p = true → a.filter = { asserted := true, count := 2 } →
        pick s'.toEngine p = pick s.toEngine p ∧
          kept = { a with
            filter := { asserted := false, count := 0 }
            link :=
              if a.link = .inReset then
                if a.dropOutstanding then .draining else if a.selLow then .ignore else .standby
              else a.link }) ∧
      (pick prst p = false → a.filter = { asserted := false, count := 2 } →
        exec (.portReset p prst) s = .next s') ∧
      (pick prst p = true → a.filter = { asserted := true, count := 2 } →
        exec (.portRelease p prst) s = .next s')

/-- R80 and R81: what a TRIM with adjustment `a` makes of the timebase, and its answer. `edges n` are `n` further
REFCLK edges. -/
def Obligations.TrimMovesPhaseOrIsBusy : Prop :=
  ∀ (s : State) (a : Byte), s.resetLow = false → s.toTimebase = some (.trim a) → -16 ≤ a.toInt → a.toInt ≤ 15 →
    ∃ s', exec .timebaseTrim s = .next s' ∧ s'.toTimebase = none ∧ s'.engine = s.engine ∧ s'.ports = s.ports ∧
      s'.toEngine = s.toEngine ∧ s'.toPort = s.toPort ∧ s'.lastServed = s.lastServed ∧
      let x := s.timebase
      let y := s'.timebase
      let sum := (x.phase.toNat : Int) + a.toInt
      let answer (busy : Bool) (effect : TrimEffect) : TimebaseMsg :=
        .trimAnswer busy { adjustment := a, phaseBefore := x.phase, phaseAfter := y.phase, now := y.now
                           debt := y.debt, effect }
      (x.debt = true → y = x ∧ s'.fromTimebase = s.fromTimebase ++ [answer true .none]) ∧
      (x.debt = false → -16 ≤ sum ∧ sum ≤ 46) ∧
      (x.debt = false → 32 ≤ sum →
        (y.phase.toNat : Int) = sum - 32 ∧ y.debt = false ∧ y.now = x.now + 1 ∧
          s'.fromTimebase = s.fromTimebase ++ [.tick (x.now + 1), answer false .carry]) ∧
      (x.debt = false → 0 ≤ sum → sum ≤ 31 →
        (y.phase.toNat : Int) = sum ∧ y.debt = false ∧ y.now = x.now ∧
          s'.fromTimebase = s.fromTimebase ++ [answer false .none]) ∧
      (x.debt = false → sum < 0 →
        (y.phase.toNat : Int) = sum + 32 ∧ 16 ≤ y.phase.toNat ∧ y.debt = true ∧ y.now = x.now ∧
          s'.fromTimebase = s.fromTimebase ++ [answer false .borrow] ∧
          ∀ n, (Nat.iterate (fun z => z.edge.1) n y).debt = true ↔ n < 32 - y.phase.toNat) ∧
      (x.debt = false → a = 0 → y = x ∧ s'.fromTimebase = s.fromTimebase ++ [answer false .none])

/-! ### Tick notices (chapter 5, 8.5) -/

/-- A tick notice in the frozen table, short of the freeze limit, advances the settled tick and does nothing else
(R96). -/
def Obligations.FrozenTickOnlyAdvances : Prop :=
  ∀ (s : State) (f : Freeze) (n : Tick) (rest : List TimebaseMsg), s.resetLow = false →
    s.fromTimebase = .tick n :: rest → s.engine.freeze = some f → n ≠ f.start + 512 →
    exec .tickNotice s = .next (s.afterTimebase rest { s.engine with settled := n } [])

/-- A tick notice in the unfrozen table: its seven parts in order, and its messages in order (R90, R95). The due parts
see the advanced settled tick; the pass runs exactly when one of them did something. -/
def Obligations.UnfrozenTickRunsItsParts : Prop :=
  ∀ (s : State) (n : Tick) (rest : List TimebaseMsg), s.resetLow = false →
    s.fromTimebase = .tick n :: rest → s.engine.freeze = none →
    let e1 := { s.engine with settled := n }
    let e2 := e1.retireWhere (fun k => (e1.record k).leaseDue n) .expired
    let gone := e1.convCompletions (fun k => (e1.record k).leaseDue n)
      { outcome := .gone, time := .none, endCause := .expired }
    let e3 := e2.freeWhere fun k => (e2.record k).waitDue n
    let late : Completion := { outcome := .timeout, time := .none, endCause := .none }
    let waits := e2.waitCompletions (fun k => (e2.record k).waitDue n) late
    let e4 := e3.dropConvWhere fun k => (e3.record k).convDue n
    let convs := e3.convCompletions (fun k => (e3.record k).convDue n) late
    let e5 := e4.mapRecords fun _ r => if r.reachesMargin n (e4.marginFor r) then r.warn else r
    let due := (∃ k, (e1.record k).leaseDue n = true) ∨ (∃ k, (e2.record k).waitDue n = true) ∨
      ∃ k, (e3.record k).convDue n = true
    (due → exec .tickNotice s = .next (s.afterTimebase rest (s.engine.closeEvent e5.grantPass.1)
      (gone ++ waits ++ convs ++ e5.grantPass.2 ++ countNotices s.engine e5.grantPass.1))) ∧
    (¬due → exec .tickNotice s = .next (s.afterTimebase rest (s.engine.closeEvent e5)
      (countNotices s.engine e5)))

/-- The notice at which a record falls due, named by what it does to the record (R91 to R94; the model's reading of the
four commands: log 2): a lease retires EXPIRED and its conversion completes GONE; a waiting claim becomes FREE and
completes TIMEOUT; a conversion leaves its lease and completes TIMEOUT; a lease gains the warned mark. Each command is
the whole notice. -/
def Obligations.DueRecordsSettleAtTheirNotice : Prop :=
  ∀ (s : State) (k : SlotNo) (n : Tick) (rest : List TimebaseMsg), s.resetLow = false →
    s.fromTimebase = .tick n :: rest → s.engine.freeze = none →
    (∀ x d m, s.engine.record k = .held x → x.term = .timed d m → (m - n).toInt ≤ 0 → ∃ s',
      exec (.leaseExpiry k) s = .next s' ∧ exec .tickNotice s = .next s' ∧ s'.engine.settled = n ∧
        s'.engine.record k = .retired { toCommon := x.toCommon, cause := .expired } ∧
        s'.engine.issue k = s.engine.issue k ∧ k ∉ s'.engine.convList ∧
        ∀ c, x.conv = some c → k ∈ s.engine.convList →
          .completion c.tag { outcome := .gone, time := .none, endCause := .expired } ∈ pick s'.toPort x.holder) ∧
    (∀ w m, s.engine.record k = .waiting w → w.waitDeadline = some m → (m - n).toInt ≤ 0 → ∃ s',
      exec (.waitTimeout k) s = .next s' ∧ exec .tickNotice s = .next s' ∧ s'.engine.settled = n ∧
        s'.engine.record k = .free ∧ s'.engine.issue k = s.engine.issue k ∧ k ∉ s'.engine.waitList ∧
        (k ∈ s.engine.waitList →
          .completion w.tag { outcome := .timeout, time := .none, endCause := .none } ∈ pick s'.toPort w.holder)) ∧
    (∀ x c m, s.engine.record k = .held x → x.conv = some c → c.waitDeadline = some m → (m - n).toInt ≤ 0 →
      (∀ d l, x.term = .timed d l → 0 < (l - n).toInt) → ∃ s',
      exec (.conversionTimeout k) s = .next s' ∧ exec .tickNotice s = .next s' ∧ s'.engine.settled = n ∧
        (∃ warned, s'.engine.record k = .held { x with conv := none, warned }) ∧
        s'.engine.issue k = s.engine.issue k ∧ k ∉ s'.engine.convList ∧
        (k ∈ s.engine.convList →
          .completion c.tag { outcome := .timeout, time := .none, endCause := .none } ∈ pick s'.toPort x.holder)) ∧
    (∀ x d m, s.engine.record k = .held x → x.term = .timed d m → x.warned = false →
      0 < (s.engine.session x.holder).warnMargin.toNat →
      m - n = (s.engine.session x.holder).warnMargin.setWidth 32 → ∃ s' y,
      exec (.warnMarginReached k) s = .next s' ∧ exec .tickNotice s = .next s' ∧ s'.engine.settled = n ∧
        s'.engine.record k = .held y ∧ y.warned = true ∧ y.toCommon = { x.toCommon with mode := y.mode } ∧
        y.term = x.term ∧ y.renewals = x.renewals ∧ s'.engine.issue k = s.engine.issue k)

/-- R146, R150: the notice that brings the settled tick to the freeze limit tick thaws the table by thaw settlement, in place
of the notice's other parts. R148, R149: in thaw settlement leases, waits and conversions that are due settle, leases
whose margin point fell within the freeze are warned, one grant pass runs, and the freeze ends. FREEZE_LIMIT is the whole
notice (the model's reading: log 2). -/
def Obligations.FreezeLimitThawsBySettlement : Prop :=
  (∀ (s : State) (f : Freeze) (rest : List TimebaseMsg), s.resetLow = false →
     s.fromTimebase = .tick (f.start + 512) :: rest → s.engine.freeze = some f →
     let x := { s.engine with settled := f.start + 512 }.settleThaw f.start
     let e := s.engine.closeEvent x.engine
     e.freeze = none ∧
     exec .freezeLimit s = .next (s.afterTimebase rest e (x.early ++ x.grants ++ countNotices s.engine e ++
       [(0, .freeze false false), (1, .freeze false false), (2, .freeze false false), (3, .freeze false false)])) ∧
     exec .tickNotice s = exec .freezeLimit s) ∧
    ∀ (e : Engine) (start : Tick),
      let n := e.settled
      let e1 := e.retireWhere (fun k => (e.record k).leaseDue n) .expired
      let e2 := e1.freeWhere fun k => (e1.record k).waitDue n
      let e3 := e2.dropConvWhere fun k => (e2.record k).convDue n
      let late : Completion := { outcome := .timeout, time := .none, endCause := .none }
      ∃ e4 : Engine,
        (e4.waitList = e3.waitList ∧ e4.convList = e3.convList ∧ e4.sessions = e3.sessions ∧ e4.settled = n) ∧
        (∀ k, e4.issue k = e.issue k ∧
          (e4.record k = e3.record k ∨
            ∃ x d m, e3.record k = .held x ∧ x.term = .timed d m ∧ e4.record k = .held { x with warned := true })) ∧
        (∀ k x d m, e3.record k = .held x → x.term = .timed d m →
          let margin := (e.session x.holder).warnMargin
          (x.warned = false ∧ 0 < margin.toNat ∧ (m - n).toInt ≤ margin.toNat ∧ (margin.toNat : Int) < (m - start).toInt →
            e4.record k = .held { x with warned := true }) ∧
          (¬(x.warned = false ∧ 0 < margin.toNat ∧ (m - n).toInt ≤ margin.toNat ∧
            (margin.toNat : Int) < (m - start).toInt) → e4.record k = .held x)) ∧
        (e.settleThaw start).engine = { e4.grantPass.1 with freeze := none } ∧
        (e.settleThaw start).early =
          e.convCompletions (fun k => (e.record k).leaseDue n)
              { outcome := .gone, time := .none, endCause := .expired } ++
            e1.waitCompletions (fun k => (e1.record k).waitDue n) late ++
            e2.convCompletions (fun k => (e2.record k).convDue n) late ∧
        (e.settleThaw start).grants = e4.grantPass.2

/-! ### The table's shared moves -/

/-- R9, R13, R14, R8, R15: a slot that enters FREE loses its record and leaves both lists, and keeps its issue number; a HELD
lease that retires keeps its common fields and gets the cause; a conversion that leaves without a grant leaves the lease
otherwise as it was; a slot that leaves FREE gets the next issue number and a fresh record; every other slot, and the
order of the entries that remain, is as it was. R19: the generation advances by one when an event changed at least one
record, however many, and stays when it changed none. That a slot counts as changed when its record or its issue number
differs, slots compared as wholes, is the model's reading (log 15). -/
def Obligations.SlotsMoveAndGenerationStepsOnce : Prop :=
  (∀ (e : Engine) (which : SlotNo → Bool),
     (∀ k, ((e.freeWhere which).record k = if which k then .free else e.record k) ∧
       (e.freeWhere which).issue k = e.issue k) ∧
     (e.freeWhere which).waitList = e.waitList.filter (fun k => !which k) ∧
     (e.freeWhere which).convList = e.convList.filter (fun k => !which k) ∧
     (∀ cause k, (e.retireWhere which cause).issue k = e.issue k ∧
       (∀ x, which k = true → e.record k = .held x →
         (e.retireWhere which cause).record k = .retired { toCommon := x.toCommon, cause }) ∧
       (which k = false ∨ (e.record k).isHeld = false → (e.retireWhere which cause).record k = e.record k)) ∧
     (∀ cause, (e.retireWhere which cause).waitList = e.waitList ∧
       (e.retireWhere which cause).convList = e.convList.filter fun k => !which k) ∧
     (∀ k, (e.dropConvWhere which).issue k = e.issue k ∧
       (∀ x, which k = true → e.record k = .held x → (e.dropConvWhere which).record k = .held { x with conv := none }) ∧
       (which k = false ∨ (e.record k).isHeld = false → (e.dropConvWhere which).record k = e.record k)) ∧
     (e.dropConvWhere which).waitList = e.waitList ∧
     (e.dropConvWhere which).convList = e.convList.filter (fun k => !which k) ∧
     ∀ j r k, (e.enter j r).record k = (if k = j then r else e.record k) ∧
       (e.enter j r).issue k = if k = j then e.issue k + 1 else e.issue k) ∧
    ∀ (before after : Engine),
      ((∃ k, after.record k ≠ before.record k ∨ after.issue k ≠ before.issue k) →
        before.closeEvent after = { after with generation := after.generation + 1 }) ∧
      ((∀ k, after.record k = before.record k ∧ after.issue k = before.issue k) →
        before.closeEvent after = after)

/-- R44 to R46: one entry of a grant pass. A conversion is granted exactly when no other HELD lease overlaps its lease; a
waiter exactly when no HELD lease and no earlier entry still WAITING conflicts with it, a lease with a pending
conversion taken as SOLE. R47: the pass is these steps, over the conversion list and then over the wait list, each entry
once and in list order; an entry granted adds its completion at the end, a waiter left joins those passed. -/
def Obligations.EntriesOfAPassAreGranted : Prop :=
  (∀ (e : Engine) (k : SlotNo) (x : Held) (c : Conversion), e.record k = .held x → x.conv = some c →
    ((∀ j y, j ≠ k → e.record j = .held y → y.region.overlaps x.region = false) →
      ∃ e', e.grantConversion k = some (e', (x.holder, .completion c.tag
          { outcome := .granted, time := x.term.reported, endCause := .none })) ∧
        e'.record k = .held { x with mode := .sole, conv := none } ∧ (∀ j, j ≠ k → e'.record j = e.record j) ∧
        e'.convList = e.convList.filter (fun j => j != k) ∧ e'.waitList = e.waitList) ∧
    ((∃ j y, j ≠ k ∧ e.record j = .held y ∧ y.region.overlaps x.region = true) → e.grantConversion k = none)) ∧
  (∀ (e : Engine) (passed : List SlotNo) (k : SlotNo) (w : Waiting), e.record k = .waiting w →
    let blocked := (∃ j y, e.record j = .held y ∧ y.region.overlaps w.region = true ∧
        (w.mode = .sole ∨ y.mode = .sole ∨ y.conv.isSome = true)) ∨
      ∃ j v, j ∈ passed ∧ e.record j = .waiting v ∧ v.region.overlaps w.region = true ∧
        (w.mode = .sole ∨ v.mode = .sole)
    (¬blocked → ∃ e', e.grantWaiter passed k = some (e', (w.holder, .completion w.tag
        { outcome := .granted, time := (termFrom e.settled w.duration).reported, endCause := .none })) ∧
      e'.record k = .held { toCommon := w.toCommon, term := termFrom e.settled w.duration, renewals := 0
                            warned := w.duration != 0 &&
                              decide (w.duration.toNat ≤ (e.session w.holder).warnMargin.toNat)
                            conv := none } ∧
      (∀ j, j ≠ k → e'.record j = e.record j) ∧ (∀ j, e'.issue j = e.issue j) ∧
      e'.waitList = e.waitList.filter (fun j => j != k) ∧ e'.convList = e.convList) ∧
    (blocked → e.grantWaiter passed k = none)) ∧
  ∀ e : Engine,
    let conversion (x : Engine × List Out) (k : SlotNo) : Engine × List Out :=
      match x.1.grantConversion k with
      | some (e', m) => (e', x.2 ++ [m])
      | none => x
    let waiter (x : List SlotNo × Engine × List Out) (k : SlotNo) : List SlotNo × Engine × List Out :=
      match x.2.1.grantWaiter x.1 k with
      | some (e', m) => (x.1, e', x.2.2 ++ [m])
      | none => (x.1 ++ [k], x.2)
    let first := e.convList.foldl conversion (e, [])
    e.grantPass = (first.1.waitList.foldl waiter ([], first)).2

/-- R47: when a grant pass ends, every conversion that it left overlaps another HELD lease, and every waiter that it left
conflicts with a HELD lease, a pending conversion or an earlier waiter; the pass moves records only by its grants. R44,
R46, R47: each entry granted leaves its list and gives one completion, conversions in conversion-list order, then waiters in
wait-list order. -/
def Obligations.GrantPassLeavesNothingGrantable : Prop :=
  ∀ e : Engine, WaitListLaw e → ConvListLaw e →
    let e' := e.grantPass.1
    (∀ k x, e'.record k = .held x → x.conv.isSome = true →
      ∃ j y, j ≠ k ∧ e'.record j = .held y ∧ y.region.overlaps x.region = true) ∧
    (∀ before k after w, e'.waitList = before ++ k :: after → e'.record k = .waiting w →
      (∃ j y, e'.record j = .held y ∧ y.region.overlaps w.region = true ∧
        (w.mode = .sole ∨ y.mode = .sole ∨ y.conv.isSome = true)) ∨
      ∃ j v, j ∈ before ∧ e'.record j = .waiting v ∧ v.region.overlaps w.region = true ∧
        (w.mode = .sole ∨ v.mode = .sole)) ∧
    (∀ k, e'.issue k = e.issue k ∧
      (e'.record k = e.record k ∨
        (∃ x, e.record k = .held x ∧ x.conv.isSome = true ∧
          e'.record k = .held { x with mode := .sole, conv := none }) ∨
        ∃ w, e.record k = .waiting w ∧
          e'.record k = .held { toCommon := w.toCommon, term := termFrom e.settled w.duration, renewals := 0
                                warned := w.duration != 0 &&
                                  decide (w.duration.toNat ≤ (e.session w.holder).warnMargin.toNat)
                                conv := none })) ∧
    (let granted (l : List SlotNo) : List SlotNo := l.filter fun k => decide (e'.record k ≠ e.record k)
     e.grantPass.2 = (granted e.convList ++ granted e.waitList).filterMap e.grantOf ∧
       e.grantPass.2.length = (granted e.convList).length + (granted e.waitList).length ∧
       e'.convList = e.convList.filter (fun k => decide (e'.record k = e.record k)) ∧
       e'.waitList = e.waitList.filter fun k => decide (e'.record k = e.record k)) ∧
    e'.generation = e.generation ∧ e'.settled = e.settled ∧ e'.sessions = e.sessions ∧ e'.limits = e.limits ∧
    e'.freeze = e.freeze ∧ e'.clock = e.clock

/-! ### The request arbiter (8.3, 9.2) -/

/-- R154, R143: the arbiter takes the head of the first port in its round whose head can be taken, and passes over the
others; without such a head, or while the engine is not ready, it makes no take. -/
def Obligations.ArbiterTakesFirstPortInItsRound : Prop :=
  ∀ s : State, s.resetLow = false →
    (∀ p t r, s.Ready → s.HeadTakable p t r →
      (∀ q, s.place q < s.place p → ∀ u m, ¬s.HeadTakable q u m) →
      exec .arbiterTake s = .next { s with
        lastServed := p
        ports := put s.ports p { s.port p with contexts := put (s.port p).contexts t (.queued r true false) }
        toEngine := put s.toEngine p (pick s.toEngine p ++ [.request t r]) }) ∧
    ((¬s.Ready ∨ ∀ p t r, ¬s.HeadTakable p t r) → exec .arbiterTake s = .next s)

/-! ### Checks of requests -/

/-- R27 to R33: the first admission check of a CLAIM that fails gives the outcome, SELF_CONFLICT with the lowest own
blocker, and the refusal changes nothing. -/
def Obligations.ClaimChecksInOrder : Prop :=
  ∀ (s : State) (p : Port) (t : Tag) (b : BitVec 24) (l : Half) (m : Byte) (d w x : Half) (rest : List PortMsg)
    (o : ResultCode), s.Offers p t (.claim b l m d w x) rest →
    firstFailing (s.engine.claimChecks p b l m d w x) = some o →
    (o ≠ .selfConflict → AnswersOnly s p t (.claim b l m d w x) rest o
      (.claim { ref := .none, path := .none, time := .none, generation := s.engine.generation })) ∧
    (∀ k, o = .selfConflict → IsLowest (s.engine.ownConflict p (regionOf b l) (claimMode m)) k →
      AnswersOnly s p t (.claim b l m d w x) rest o
        (.claim { ref := .blocker (s.engine.handle k), path := .none, time := .none
                  generation := s.engine.generation }))

/-- R51, R52, R17, R18: the checks of RENEW, RELEASE, DOWNGRADE, UPGRADE and ACKNOWLEDGE in order, then the answer by the
record's state; each refusal changes nothing. -/
def Obligations.HolderChecksInOrder : Prop :=
  ∀ (s : State) (p : Port) (t : Tag) (r : Request) (h : Handle) (rest : List PortMsg) (o : ResultCode),
    s.Offers p t r rest → r.holderHandle = some h →
    (firstFailing (s.engine.holderChecks p h) = some o → AnswersOnly s p t r rest o r.code.zeroPayload) ∧
    (firstFailing (s.engine.holderChecks p h) = none → stateAnswer r.code (s.engine.record (slotOf h)) = some o →
      AnswersOnly s p t r rest o (stateAnswerPayload h r.code (s.engine.record (slotOf h))))

/-- R77, R100, R105, R111, R113, R123, R135, R141, R142: the checks of lookup, supervisor and freeze requests and of TRIM
in order; the first that fails gives the outcome, and the refusal changes nothing. -/
def Obligations.RequestChecksInOrder : Prop :=
  ∀ (s : State) (p : Port) (t : Tag) (r : Request) (rest : List PortMsg) (o : ResultCode), s.Offers p t r rest →
    firstFailing (s.engine.requestChecks p r) = some o →
    AnswersOnly s p t r rest o (s.engine.refusedPayload r o)

/-- R179: no request whose operands all have a meaning is answered MALFORMED. -/
def Obligations.MeaningfulOperandsAreNotMalformed : Prop :=
  ∀ (s s' : State) (p : Port) (t : Tag) (r : Request) (rest : List PortMsg), s.Offers p t r rest →
    r.meaningless = false → exec (r.command p) s = .next s' →
    ∀ u x late, EngineMsg.answer u (.result .malformed x late) ∈ pick s'.toPort p →
      EngineMsg.answer u (.result .malformed x late) ∈ pick s.toPort p

/-! ### Claims (chapter 2) -/

/-- R35: an admitted claim that conflicts with nothing is granted at once in the lowest FREE slot, with the next issue
number, a deadline from the settled tick and the warned mark by the holder's margin; no pass runs. -/
def Obligations.ClearClaimIsGrantedAtOnce : Prop :=
  ∀ (s : State) (p : Port) (t : Tag) (b : BitVec 24) (l : Half) (m : Byte) (d w x : Half) (rest : List PortMsg)
    (k : SlotNo), s.Offers p t (.claim b l m d w x) rest →
    firstFailing (s.engine.claimChecks p b l m d w x) = none → s.engine.IsLowestFree k →
    (∀ j, (s.engine.record j).blocks (regionOf b l) (claimMode m) = false) →
    let e := s.engine
    let lease : Held := { holder := p, region := regionOf b l, mode := claimMode m, label := x
                          term := termFrom e.settled d, renewals := 0
                          warned := d != 0 && decide (d.toNat ≤ (e.session p).warnMargin.toNat), conv := none }
    let e' := { e with slots := put e.slots k { issue := e.issue k + 1, record := .held lease } }
    exec (.claim p) s = .next (s.afterTake p rest e'.nextGeneration
      ([(p, resultMsg t .granted (.claim
        { ref := .own (mkHandle k (e.issue k + 1)), path := .immediate, time := (termFrom e.settled d).reported
          generation := e.generation + 1 }))] ++ countNotices e e'))

/-- R36, R37: an admitted claim that conflicts with a record is refused with CONFLICT and the lowest blocker when its
wait limit is 0; else it is queued in the lowest FREE slot at the tail of the wait list, and the port gets a waiting
notice. -/
def Obligations.BlockedClaimIsRefusedOrQueued : Prop :=
  ∀ (s : State) (p : Port) (t : Tag) (b : BitVec 24) (l : Half) (m : Byte) (d w x : Half) (rest : List PortMsg)
    (j k : SlotNo), s.Offers p t (.claim b l m d w x) rest →
    firstFailing (s.engine.claimChecks p b l m d w x) = none → s.engine.IsLowestFree k →
    IsLowest (fun i => (s.engine.record i).blocks (regionOf b l) (claimMode m)) j →
    let e := s.engine
    let waiter : Waiting := { holder := p, region := regionOf b l, mode := claimMode m, label := x, duration := d
                              waitDeadline := waitFrom e.settled w, tag := t }
    (w = 0 → AnswersOnly s p t (.claim b l m d w x) rest .conflict
      (.claim { ref := .blocker (e.handle j), path := .none, time := .none, generation := e.generation })) ∧
    (w ≠ 0 → exec (.claim p) s = .next (s.afterTake p rest
      { e with slots := put e.slots k { issue := e.issue k + 1, record := .waiting waiter }
               waitList := e.waitList ++ [k], generation := e.generation + 1 }
      [(p, .answer t (.waitingClaim (mkHandle k (e.issue k + 1)) (e.generation + 1)))]))

/-! ### Holder requests (chapter 3, 5.6) -/

/-- R53 to R55: RENEW of a timed lease: LIMIT at the renewal cap, TOO_LONG above the duration cap, else a new deadline
from the settled tick, one more renewal and a recomputed warned mark; everything else of the lease stays. -/
def Obligations.RenewRestartsTheDeadline : Prop :=
  ∀ (s : State) (p : Port) (t : Tag) (h : Handle) (stated stored : Half) (deadline : Tick) (x : Held)
    (rest : List PortMsg), s.Offers p t (.renew h stated) rest →
    firstFailing (s.engine.holderChecks p h) = none → s.engine.record (slotOf h) = .held x →
    x.term = .timed stored deadline →
    let e := s.engine
    let l := e.limitsOf p
    let eff := if stated = 0 then stored else stated
    let kept : Payload :=
      .renew { deadline, duration := stored, renewals := x.renewals, warned := x.warned, cause := none }
    let y : Held := { x with
      term := .timed eff (e.settled + eff.setWidth 32)
      renewals := if x.renewals = 255 then 255 else x.renewals + 1
      warned := decide (eff.toNat ≤ (e.session p).warnMargin.toNat) }
    let atCap := l.renewalCap ≠ 0 ∧ l.renewalCap.toNat ≤ x.renewals.toNat
    let tooLong := l.durationCap.toNat < eff.toNat
    let e' := e.setRecord (slotOf h) (.held y)
    (atCap → AnswersOnly s p t (.renew h stated) rest .limit kept) ∧
    (¬atCap → tooLong → AnswersOnly s p t (.renew h stated) rest .tooLong kept) ∧
    (¬atCap → ¬tooLong → exec (.renew p) s = .next (s.afterTake p rest (e.closeEvent e')
      ([(p, resultMsg t .ok (.renew { deadline := e.settled + eff.setWidth 32, duration := eff
                                      renewals := y.renewals, warned := y.warned, cause := none }))] ++
        countNotices e e')))

/-- R69: RELEASE of a HELD lease: its conversion completes GONE, the slot becomes FREE, the result is OK, and one grant
pass runs unless the table is frozen; the generation advances by one. -/
def Obligations.ReleaseFreesTheSlot : Prop :=
  ∀ (s : State) (p : Port) (t : Tag) (h : Handle) (x : Held) (rest : List PortMsg),
    s.Offers p t (.release h) rest → firstFailing (s.engine.holderChecks p h) = none →
    s.engine.record (slotOf h) = .held x →
    let e := s.engine
    let freed := e.freeWhere fun k => k == slotOf h
    let passed := if e.freeze.isSome then (freed, []) else freed.grantPass
    let gone : List Out := x.conv.toList.map fun c =>
      (p, .completion c.tag { outcome := .gone, time := .none, endCause := .released })
    passed.1.record (slotOf h) = .free ∧ passed.1.issue (slotOf h) = e.issue (slotOf h) ∧
    exec (.release p) s = .next (s.afterTake p rest passed.1.nextGeneration
      (gone ++ [(p, resultMsg t .ok .empty)] ++ passed.2 ++ countNotices e passed.1))

/-- R57, R58: DOWNGRADE of a SOLE lease makes it SHARED and keeps the rest of it; one grant pass runs unless the table is
frozen, after the result; the generation advances by one. -/
def Obligations.DowngradeMakesTheLeaseShared : Prop :=
  ∀ (s : State) (p : Port) (t : Tag) (h : Handle) (x : Held) (rest : List PortMsg),
    s.Offers p t (.downgrade h) rest → firstFailing (s.engine.holderChecks p h) = none →
    s.engine.record (slotOf h) = .held x → x.mode = .sole → x.conv = none →
    let e := s.engine
    let down := e.setRecord (slotOf h) (.held { x with mode := .shared })
    let passed := if e.freeze.isSome then (down, []) else down.grantPass
    passed.1.record (slotOf h) = .held { x with mode := .shared } ∧
    exec (.downgrade p) s = .next (s.afterTake p rest passed.1.nextGeneration
      ([(p, resultMsg t .ok (.downgrade none))] ++ passed.2 ++ countNotices e passed.1))

/-- R59 to R63: UPGRADE of a SHARED lease without a conversion: converted at once when no other HELD lease overlaps;
else DEADLOCK when a lease on the conversion list overlaps; else CONFLICT for wait limit 0; else a pending conversion at
the tail of the conversion list and a waiting notice. -/
def Obligations.UpgradeConvertsWaitsOrIsRefused : Prop :=
  ∀ (s : State) (p : Port) (t : Tag) (h : Handle) (limit : Half) (x : Held) (rest : List PortMsg),
    s.Offers p t (.upgrade h limit) rest → firstFailing (s.engine.holderChecks p h) = none →
    s.engine.record (slotOf h) = .held x → x.mode = .shared → x.conv = none →
    let e := s.engine
    let k := slotOf h
    let other := fun j => j != k && ((e.record j).isHeld && (e.record j).overlaps x.region)
    let converting := fun j => e.convList.contains j && ((e.record j).isHeld && (e.record j).overlaps x.region)
    let refusal (j : SlotNo) : Payload :=
      .upgrade { ref := .blocker (e.handle j), path := .none, time := .none, endCause := .none }
    let sole := e.setRecord k (.held { x with mode := .sole })
    let pending := e.setRecord k
      (.held { x with conv := some { tag := t, waitDeadline := waitFrom e.settled limit } })
    ((∀ j, other j = false) → exec (.upgrade p) s = .next (s.afterTake p rest sole.nextGeneration
      [(p, resultMsg t .granted
        (.upgrade { ref := .own h, path := .immediate, time := x.term.reported, endCause := .none }))])) ∧
    (∀ i j, other i = true → IsLowest converting j →
      AnswersOnly s p t (.upgrade h limit) rest .deadlock (refusal j)) ∧
    (∀ i, IsLowest other i → (∀ j, converting j = false) → limit = 0 →
      AnswersOnly s p t (.upgrade h limit) rest .conflict (refusal i)) ∧
    (∀ i, other i = true → (∀ j, converting j = false) → limit ≠ 0 →
      exec (.upgrade p) s = .next (s.afterTake p rest
        { pending.nextGeneration with convList := e.convList ++ [k] } [(p, .answer t (.waitingUpgrade h))]))

/-- R102 to R104: ACKNOWLEDGE frees a RETIRED record, and clears the warned mark of a HELD lease, which stays as it was
otherwise; no pass runs, and the generation advances by one. -/
def Obligations.AcknowledgeTakesTheMarkOff : Prop :=
  ∀ (s : State) (p : Port) (t : Tag) (h : Handle) (rest : List PortMsg),
    s.Offers p t (.acknowledge h) rest → firstFailing (s.engine.holderChecks p h) = none →
    let e := s.engine
    let k := slotOf h
    (∀ x, e.record k = .retired x →
      let freed := e.freeWhere fun j => j == k
      exec (.acknowledge p) s = .next (s.afterTake p rest freed.nextGeneration
        ([(p, resultMsg t .ok (.acknowledge { effect := .freed, cause := some x.cause, time := .none, remaining := 0
                                              marked := freed.markedCount p }))] ++ countNotices e freed))) ∧
    (∀ x d m, e.record k = .held x → x.term = .timed d m → x.warned = true →
      let cleared := e.setRecord k (.held { x with warned := false })
      exec (.acknowledge p) s = .next (s.afterTake p rest cleared.nextGeneration
        ([(p, resultMsg t .ok (.acknowledge { effect := .cleared, cause := none, time := .deadline m
                                              remaining := m - e.settled, marked := cleared.markedCount p }))] ++
          countNotices e cleared)))

/-! ### Lookup (5.5, chapter 6) -/

/-- R100, R101: NOTICE shows the lowest-numbered marked record of the port, or answers NONE; it changes nothing. -/
def Obligations.NoticeShowsLowestMarkedRecord : Prop :=
  ∀ (s : State) (p : Port) (t : Tag) (rest : List PortMsg), s.Offers p t .notice rest →
    (s.engine.session p).isOpen = true →
    let marked := fun k => (s.engine.record k).ownedBy p &&
      match s.engine.record k with
      | .retired _ => true
      | .held x => x.warned
      | _ => false
    (∀ k, IsLowest marked k → AnswersOnly s p t .notice rest .ok
      (.notice { marked := (allSlots.filter marked).length, view := s.engine.view k })) ∧
    ((∀ k, marked k = false) → AnswersOnly s p t .notice rest .nothing (.notice { marked := 0, view := none }))

/-- R106, R107: PROBE counts the HELD and WAITING records on the region and those of them that are overdue, and shows the
lowest-numbered HELD one; it changes nothing. -/
def Obligations.ProbeCountsRecordsOnTheRegion : Prop :=
  ∀ (s : State) (p : Port) (t : Tag) (b : BitVec 24) (l : Half) (rest : List PortMsg),
    s.Offers p t (.probe b l) rest → firstFailing (s.engine.requestChecks p (.probe b l)) = none →
    let e := s.engine
    let held := fun k => (e.record k).isHeld && (e.record k).overlaps (regionOf b l)
    let waiting := fun k => (e.record k).isWaiting && (e.record k).overlaps (regionOf b l)
    let overdue := fun k => (held k || waiting k) && (e.view k).any fun v => v.overdue
    let answer (v : Option View) : Prop := AnswersOnly s p t (.probe b l) rest .ok
      (.probe { held := (allSlots.filter held).length, waiting := (allSlots.filter waiting).length
                overdue := (allSlots.filter overdue).length, view := v, generation := e.generation })
    (∀ k, IsLowest held k → answer (e.view k)) ∧ ((∀ k, held k = false) → answer none)

/-- R110, R112 to R115: a scan step returns the first slot from its start that matches its filter and moves the cursor
past it, or ends the scan; it changes nothing else. SCAN_FIRST starts at slot 0 with the generation as it stands,
SCAN_NEXT at the cursor. -/
def Obligations.ScanStepsWalkTheTable : Prop :=
  ∀ (s : State) (p : Port) (t : Tag) (rest : List PortMsg) (c : Instr) (f : Filter) (startGen : Half) (start : Nat),
    ((∃ fb pb b l, c = .scanFirst p ∧ s.Offers p t (.scanFirst fb pb b l) rest ∧
        firstFailing (s.engine.requestChecks p (.scanFirst fb pb b l)) = none ∧
        startGen = s.engine.generation ∧ start = 0 ∧
        (fb = 0 → f = .own p) ∧ (fb = 1 → ∃ q, portOf pb = some q ∧ f = .port q) ∧
        (fb = 2 → f = .region (regionOf b l)) ∧ (fb = 3 → f = .all)) ∨
      ∃ next, c = .scanNext p ∧ s.Offers p t .scanNext rest ∧ (s.engine.session p).isOpen = true ∧
        (s.engine.session p).cursor = some { filter := f, next, startGen } ∧ start = next.val) →
    let e := s.engine
    let hit := fun k : SlotNo => decide (start ≤ k.val) &&
      match f with
      | .own q => (e.record k).ownedBy q
      | .port q => (e.record k).ownedBy q
      | .region g => (e.record k).overlaps g
      | .all => !(e.record k).isFree
    let withCursor (c : Option Cursor) : Engine :=
      { e with sessions := put e.sessions p { e.session p with cursor := c } }
    let payload (v : Option View) (next : Option SlotNo) : Payload :=
      .scan { view := v, next, startGen, generation := e.generation, changed := e.generation != startGen }
    (∀ k, IsLowest hit k →
      (∀ n : SlotNo, k.val + 1 = n.val →
        exec c s = .next (s.afterTake p rest (withCursor (some { filter := f, next := n, startGen }))
          [(p, resultMsg t .ok (payload (e.view k) (some n)))])) ∧
      (k.val = 63 → exec c s = .next (s.afterTake p rest (withCursor none)
        [(p, resultMsg t .ok (payload (e.view k) none))]))) ∧
    ((∀ k, hit k = false) → exec c s = .next (s.afterTake p rest (withCursor none)
      [(p, resultMsg t .endOfScan (payload none none))]))

/-! ### Sessions and limits (chapter 7) -/

/-- R120, R124, R125: NOOP is answered OK in either session state. OPEN on a CLOSED session with operands that have a
meaning opens it; on an OPEN session it is ALREADY_OPEN; without meaning MALFORMED. -/
def Obligations.NoopAnswersAndOpenOpens : Prop :=
  ∀ (s : State) (p : Port) (t : Tag) (rest : List PortMsg),
    (s.Offers p t .noop rest → AnswersOnly s p t .noop rest .ok .empty) ∧
    ∀ (margin : Half) (mask : Byte), s.Offers p t (.openSession margin mask) rest →
      let e := s.engine
      let x := e.session p
      let y : Session := { x with
        isOpen := true, warnMargin := margin.setWidth 12
        mask := { done := mask.getLsbD 0, notice := mask.getLsbD 1 }, lost := false }
      let shown (z : Session) (wasLost : Bool) : Payload :=
        .openSession { port := p, supervisor := x.supervisor, limits := e.limitsOf p, warnMargin := z.warnMargin
                       mask := z.mask, wasLost, settled := e.settled }
      (x.isOpen = true → AnswersOnly s p t (.openSession margin mask) rest .alreadyOpen (shown x false)) ∧
      (x.isOpen = false → (Request.openSession margin mask).meaningless = true →
        AnswersOnly s p t (.openSession margin mask) rest .malformed (.openSession
          { port := p, supervisor := x.supervisor, limits := .zero, warnMargin := 0
            mask := { done := false, notice := false }, wasLost := false, settled := 0 })) ∧
      (x.isOpen = false → (Request.openSession margin mask).meaningless = false →
        exec (.openSession p) s = .next (s.afterTake p rest { e with sessions := put e.sessions p y }
          [(p, resultMsg t .ok (shown y x.lost)), (p, .session true y.mask false)]))

/-- R126: the end of port `p`'s session frees every record of `p` and empties the lists of them, closes the session and
clears the cursor, keeps margin, mask, right, limits and issue numbers. Then one grant pass runs over the table so left
when it is not frozen, thaw settlement when `p` owns the freeze, and neither while another port's freeze holds. R127: the
counts of the session-end payload; that they count the records and conversions of `p` alone, also when its session end
thaws the table, is the model's choice (log 17). -/
def Obligations.SessionEndFreesThePortsRecords : Prop :=
  ∀ (e : Engine) (p : Port) (tell : Bool),
    let d := e.endSession p tell
    let e' := d.engine
    (∀ k, e'.issue k = e.issue k ∧ ((e.record k).ownedBy p = true →
      e'.record k = .free ∧ k ∉ e'.waitList ∧ k ∉ e'.convList)) ∧
    e'.session p = { e.session p with isOpen := false, cursor := none } ∧
    (∀ q, q ≠ p → e'.session q = e.session q) ∧ (∀ q, e'.limitsOf q = e.limitsOf q) ∧
    e'.settled = e.settled ∧ e'.clock = e.clock ∧ e'.generation = e.generation ∧
    (d.thawed = true ↔ ∃ f, e.freeze = some f ∧ f.owner = p) ∧
    e'.freeze = (if d.thawed then none else e.freeze) ∧
    ((∃ f, e.freeze = some f ∧ f.owner ≠ p) → ∀ k, (e.record k).ownedBy p = false → e'.record k = e.record k) ∧
    (let freed := e.freeWhere fun k => (e.record k).ownedBy p
     let cleared : Engine :=
       { freed with sessions := put e.sessions p { e.session p with isOpen := false, cursor := none } }
     (e.freeze = none → e' = cleared.grantPass.1 ∧ d.passed = cleared.grantPass.2) ∧
     (∀ f, e.freeze = some f → f.owner = p →
       e' = (cleared.settleThaw f.start).engine ∧
         d.passed = (cleared.settleThaw f.start).early ++ (cleared.settleThaw f.start).grants) ∧
     ∀ f, e.freeze = some f → f.owner ≠ p → e' = cleared ∧ d.passed = []) ∧
    d.told = (if tell then
        e.convCompletions (fun k => (e.record k).ownedBy p) { outcome := .noSession, time := .none, endCause := .none } ++
        e.waitCompletions (fun k => (e.record k).ownedBy p) { outcome := .noSession, time := .none, endCause := .none }
      else []) ∧
    d.payload.port = p ∧ d.payload.thawed = d.thawed ∧
    d.payload.heldFreed = (allSlots.filter fun k => (e.record k).ownedBy p && (e.record k).isHeld).length ∧
    d.payload.waitingRemoved = (allSlots.filter fun k => (e.record k).ownedBy p && (e.record k).isWaiting).length ∧
    d.payload.retiredFreed = (allSlots.filter fun k => (e.record k).ownedBy p && (e.record k).isRetired).length ∧
    d.payload.conversionsEnded =
      (e.convList.filter fun k => (e.record k).ownedBy p && (e.record k).conv.isSome).length

/-- R126, R127, R135: CLOSE ends the requesting port's session, EVICT another port's, whose SESSION_LOST it sets; the
messages leave in the order of R126. R120, R127: CLOSE on a CLOSED session is answered NO_SESSION with every payload
field 0, and changes nothing. -/
def Obligations.CloseAndEvictEndASession : Prop :=
  ∀ (s : State) (p : Port) (t : Tag) (rest : List PortMsg),
    let e := s.engine
    let messages (q : Port) (d : Ended) (e' : Engine) (lost : Bool) : List Out :=
      d.told ++ [(p, resultMsg t .ok (.sessionEnd d.payload))] ++ d.passed ++ countNotices e e' ++
        [(q, .session false (e.session q).mask lost)] ++
        if d.thawed then
          [(0, .freeze false false), (1, .freeze false false), (2, .freeze false false), (3, .freeze false false)]
        else []
    (s.Offers p t .closeSession rest → (e.session p).isOpen = true →
      let d := e.endSession p true
      let e' := e.closeEvent d.engine
      exec (.closeSession p) s = .next (s.afterTake p rest e' (messages p d e' (e.session p).lost))) ∧
    (s.Offers p t .closeSession rest → (e.session p).isOpen = false →
      AnswersOnly s p t .closeSession rest .noSession (.sessionEnd
        { port := 0, heldFreed := 0, waitingRemoved := 0, retiredFreed := 0, conversionsEnded := 0
          thawed := false })) ∧
    ∀ (b : Byte) (q : Port), s.Offers p t (.evict b) rest → portOf b = some q →
      firstFailing (e.requestChecks p (.evict b)) = none →
      let d := e.endSession q true
      let e' := e.closeEvent
        { d.engine with sessions := put d.engine.sessions q { d.engine.session q with lost := true } }
      exec (.evict p) s = .next (s.afterTake p rest e' (messages q d e' true))

/-- R138: the port-drop notice ends the port's session whatever its state, tells its waits nothing, clears SESSION_LOST,
marks the port's clock request so that its answer is dropped, and sends drop-complete last. It is taken also while the
engine holds a clock request. -/
def Obligations.PortDropEndsTheSession : Prop :=
  ∀ (s : State) (p : Port) (rest : List PortMsg), s.resetLow = false → pick s.toEngine p = .portDrop :: rest →
    let e := s.engine
    let d := e.endSession p false
    let e' := e.closeEvent { d.engine with
      sessions := put d.engine.sessions p { d.engine.session p with lost := false } }
    let clock := e.clock.map fun c => if c.port = p then { c with dropped := true } else c
    exec (.portDrop p) s = .next (s.afterTake p rest { e' with clock } (d.passed ++ countNotices e e' ++
      [(p, .session false (e.session p).mask false)] ++
      (if d.thawed then
        [(0, .freeze false false), (1, .freeze false false), (2, .freeze false false), (3, .freeze false false)]
      else []) ++ [(p, .dropComplete)]))

/-- R129: LIMITS writes the target's four limits in one event, or answers IN_USE when the new lease cap is below the
target's owned count; no record changes. -/
def Obligations.LimitsWritesFourLimits : Prop :=
  ∀ (s : State) (p : Port) (t : Tag) (target cap : Byte) (duration : Half) (pin renewals : Byte)
    (rest : List PortMsg) (q : Port), s.Offers p t (.limits target cap duration pin renewals) rest →
    firstFailing (s.engine.requestChecks p (.limits target cap duration pin renewals)) = none →
    target.toNat = q.val →
    let e := s.engine
    let new : Limits := { leaseCap := cap, durationCap := duration, mayPin := pin == 1, renewalCap := renewals }
    let answer (after : Limits) : Payload :=
      .limits { target := q, owned := e.ownedCount q, before := e.limitsOf q, after }
    (cap.toNat < e.ownedCount q →
      AnswersOnly s p t (.limits target cap duration pin renewals) rest .inUse (answer (e.limitsOf q))) ∧
    (e.ownedCount q ≤ cap.toNat → exec (.limits p) s = .next (s.afterTake p rest
      { e with limits := put e.limits q new } [(p, resultMsg t .ok (answer new))]))

/-! ### Revocation (7.6) -/

/-- R131, R132: REVOKE of a current record. A HELD lease retires REVOKED, its conversion completes REVOKED; a WAITING slot
becomes FREE and its claim completes REVOKED; a RETIRED record becomes FREE without a pass. Unless the table is frozen
one pass runs in the first two cases, and the generation advances by one in all. -/
def Obligations.RevokeRetiresOrFrees : Prop :=
  ∀ (s : State) (p : Port) (t : Tag) (h : Handle) (rest : List PortMsg), s.Offers p t (.revoke h) rest →
    firstFailing (s.engine.requestChecks p (.revoke h)) = none →
    let e := s.engine
    let k := slotOf h
    let revoked : Completion := { outcome := .revoked, time := .none, endCause := .revoked }
    let freed := e.freeWhere fun j => j == k
    let retired := e.retireWhere (fun j => j == k) .revoked
    let pass (x : Engine) : Engine × List Out := if e.freeze.isSome then (x, []) else x.grantPass
    (∀ x, e.record k = .held x → (pass retired).1.record k = .retired { toCommon := x.toCommon, cause := .revoked } ∧
      exec (.revoke p) s = .next (s.afterTake p rest (pass retired).1.nextGeneration
        (e.convCompletions (fun j => j == k) revoked ++
          [(p, resultMsg t .ok (.revoke { prior := .held, effect := .retired, holder := x.holder
                                          convEnded := x.conv.isSome, priorCause := none }))] ++
          (pass retired).2 ++ countNotices e (pass retired).1))) ∧
    (∀ w, e.record k = .waiting w → (pass freed).1.record k = .free ∧
      exec (.revoke p) s = .next (s.afterTake p rest (pass freed).1.nextGeneration
        ([(w.holder, .completion w.tag revoked),
          (p, resultMsg t .ok (.revoke { prior := .waiting, effect := .freed, holder := w.holder
                                         convEnded := false, priorCause := none }))] ++
          (pass freed).2 ++ countNotices e (pass freed).1))) ∧
    (∀ x, e.record k = .retired x →
      exec (.revoke p) s = .next (s.afterTake p rest freed.nextGeneration
        ([(p, resultMsg t .ok (.revoke { prior := .retired, effect := .freed, holder := x.holder
                                         convEnded := false, priorCause := some x.cause }))] ++
          countNotices e freed)))

/-- R134: REVOKE_RANGE retires every HELD lease on the region in one event, with REVOKED completions before its result
and one pass after it; without such a lease it changes nothing and runs no pass. -/
def Obligations.RevokeRangeRetiresTheRegion : Prop :=
  ∀ (s : State) (p : Port) (t : Tag) (b : BitVec 24) (l : Half) (rest : List PortMsg),
    s.Offers p t (.revokeRange b l) rest → firstFailing (s.engine.requestChecks p (.revokeRange b l)) = none →
    let e := s.engine
    let hit := fun k => (e.record k).isHeld && (e.record k).overlaps (regionOf b l)
    let told := e.convCompletions hit { outcome := .revoked, time := .none, endCause := .revoked }
    let retired := e.retireWhere hit .revoked
    let passed := if e.freeze.isSome then (retired, []) else retired.grantPass
    ((∃ k, hit k = true) → ∃ flags, (∀ q, pick flags q = allSlots.any fun k => hit k && (e.record k).ownedBy q) ∧
      exec (.revokeRange p) s = .next (s.afterTake p rest passed.1.nextGeneration
        (told ++ [(p, resultMsg t .ok (.revokeRange
          { retired := (allSlots.filter hit).length, conversionsEnded := told.length, ports := flags }))] ++
          passed.2 ++ countNotices e passed.1))) ∧
    ((∀ k, hit k = false) → ∃ flags, (∀ q, pick flags q = false) ∧
      AnswersOnly s p t (.revokeRange b l) rest .ok
        (.revokeRange { retired := 0, conversionsEnded := 0, ports := flags }))

/-! ### The freeze (chapter 8) -/

/-- R140, R141: FREEZE of an unfrozen table makes the port the owner from the settled tick on and tells the four ports; of a
frozen one it is WRONG_STATE for the owner and BUSY for another port; no record changes. R142, R148, R150: the owner's
THAW thaws the table by thaw settlement, with its result between the GONE and TIMEOUT completions and the GRANTED ones,
then the counts, then the freeze notices. The payload counts the leases and the waiting claims that were due, and the
conversions that ended because their lease or their own wait deadline was due. -/
def Obligations.FreezeAndThawTheTable : Prop :=
  (∀ (s : State) (p : Port) (t : Tag) (rest : List PortMsg), s.Offers p t .freeze rest →
     (s.engine.session p).isOpen = true → (s.engine.session p).supervisor = true →
     let e := s.engine
     let payload (f : Freeze) : Payload :=
       .freeze { owner := f.owner, start := f.start, limit := f.start + 512, settled := e.settled }
     (∀ f, e.freeze = some f →
       AnswersOnly s p t .freeze rest (if f.owner = p then .wrongState else .busy) (payload f)) ∧
     (e.freeze = none →
       exec (.freeze p) s = .next (s.afterTake p rest { e with freeze := some { owner := p, start := e.settled } }
         [(p, resultMsg t .ok (payload { owner := p, start := e.settled })), (0, .freeze true (p == 0)),
           (1, .freeze true (p == 1)), (2, .freeze true (p == 2)), (3, .freeze true (p == 3))]))) ∧
    ∀ (s : State) (p : Port) (t : Tag) (rest : List PortMsg) (f : Freeze), s.Offers p t .thaw rest →
      (s.engine.session p).isOpen = true → s.engine.freeze = some f → f.owner = p →
      let e := s.engine
      let x := e.settleThaw f.start
      let e' := e.closeEvent x.engine
      e'.freeze = none ∧
      exec (.thaw p) s = .next (s.afterTake p rest e'
        (x.early ++ [(p, resultMsg t .ok (.thaw
          { start := f.start, frozenTicks := (e.settled - f.start).setWidth 16, expired := x.expired
            timedOut := x.timedOut, conversionsEnded := x.conversionsEnded, granted := x.grants.length }))] ++
          x.grants ++ countNotices e e' ++
          [(0, .freeze false false), (1, .freeze false false), (2, .freeze false false), (3, .freeze false false)])) ∧
      x.expired = (allSlots.filter fun k => (e.record k).leaseDue e.settled).length ∧
      x.timedOut = (allSlots.filter fun k => (e.record k).waitDue e.settled).length ∧
      x.conversionsEnded = (e.convList.filter fun k => (e.record k).conv.isSome &&
        ((e.record k).leaseDue e.settled || (e.record k).convDue e.settled)).length

/-! ### Clock requests (4.3 to 4.5) and forwarded cancels (9.5) -/

/-- R77, R85: an accepted TRIM or READ_CLOCK becomes the engine's clock request and goes to the timebase; READ_CLOCK
records settled tick, generation and frozen flag. Nothing is answered yet. -/
def Obligations.ClockRequestGoesToTheTimebase : Prop :=
  ∀ (s : State) (p : Port) (t : Tag) (rest : List PortMsg),
    let e := s.engine
    (∀ a, s.Offers p t (.trim a) rest → firstFailing (e.requestChecks p (.trim a)) = none →
      exec (.trim p) s = .next { s.afterTake p rest
        { e with clock := some { port := p, tag := t, kind := .trim, late := false, dropped := false } } [] with
        toTimebase := some (.trim a) }) ∧
    (s.Offers p t .readClock rest →
      exec (.readClock p) s = .next { s.afterTake p rest
        { e with clock := some { port := p, tag := t, kind := .readClock e.settled e.generation e.freeze.isSome
                                 late := false, dropped := false } } [] with
        toTimebase := some .readClock })

/-- R78, R79, R82, R86: the timebase answers READ_CLOCK with NOW, phase and debt as they stand. The engine's clock request
ends with the answer: the port gets the result, marked late after a forwarded cancel, or nothing after its port-drop. -/
def Obligations.ClockAnswerCompletesTheRequest : Prop :=
  ∀ s : State, s.resetLow = false →
    (s.toTimebase = some .readClock → exec .timebaseReadClock s = .next { s with
      toTimebase := none
      fromTimebase := s.fromTimebase ++ [.clockAnswer s.timebase.now s.timebase.phase s.timebase.debt] }) ∧
    ∀ (c : ClockRequest) (rest : List TimebaseMsg), s.engine.clock = some c →
      let done (o : ResultCode) (x : Payload) : Prop :=
        exec .clockAnswer s = .next (s.afterTimebase rest { s.engine with clock := none }
          (if c.dropped then [] else [(c.port, .answer c.tag (.result o x c.late))]))
      (∀ busy x, s.fromTimebase = .trimAnswer busy x :: rest → c.kind = .trim →
        done (if busy then .busy else .ok) (.trim x)) ∧
      ∀ now phase debt settled generation frozen, s.fromTimebase = .clockAnswer now phase debt :: rest →
        c.kind = .readClock settled generation frozen →
        done .ok (.clock { now, phase, debt, settled, generation, frozen })

/-- R161: the four cases of a forwarded cancel for tag `t` of port `p`: a waiting claim becomes FREE, a conversion leaves
its lease, each with a CANCELLED completion and one pass unless frozen; the port's clock request is marked late; else a
cancel-late notice is sent. It is taken also while the engine holds a clock request. -/
def Obligations.ForwardedCancelHasFourCases : Prop :=
  ∀ (s : State) (p : Port) (t : Tag) (rest : List PortMsg), s.resetLow = false →
    pick s.toEngine p = .cancel t :: rest →
    let e := s.engine
    let waits := fun k => match e.record k with
      | .waiting w => w.holder == p && w.tag == t
      | _ => false
    let converts := fun k => match e.record k with
      | .held x => x.holder == p && x.conv.any fun c => c.tag == t
      | _ => false
    let cancelled : Out := (p, .completion t { outcome := .cancelled, time := .none, endCause := .none })
    let pass (x : Engine) : Engine × List Out := if e.freeze.isSome then (x, []) else x.grantPass
    (∀ k, IsLowest waits k →
      let x := pass (e.freeWhere fun j => j == k)
      x.1.record k = .free ∧
      exec (.forwardedCancel p) s = .next (s.afterTake p rest x.1.nextGeneration
        ([cancelled] ++ x.2 ++ countNotices e x.1))) ∧
    (∀ k y, (∀ j, waits j = false) → IsLowest converts k → e.record k = .held y →
      let x := pass (e.dropConvWhere fun j => j == k)
      x.1.record k = .held { y with conv := none } ∧
      exec (.forwardedCancel p) s = .next (s.afterTake p rest x.1.nextGeneration
        ([cancelled] ++ x.2 ++ countNotices e x.1))) ∧
    ((∀ j, waits j = false) → (∀ j, converts j = false) →
      (∀ c, e.clock = some c → c.port = p → c.tag = t →
        exec (.forwardedCancel p) s = .next (s.afterTake p rest { e with clock := some { c with late := true } } [])) ∧
      ((∀ c, e.clock = some c → c.port = p → c.tag ≠ t) →
        exec (.forwardedCancel p) s = .next (s.afterTake p rest e [(p, .cancelLate t)])))

/-! ### Messages at the port (chapters 7 to 10) -/

/-- R156: a held context leaves the submission list and becomes DONE with the result, or WAITING with what the waiting notice
carries; the cancel-outstanding mark stays, except for a result that arrives late. R157, R162: a completion makes its
WAITING context DONE with the result joined from what the port kept, and clears cancel-outstanding when it is CANCELLED;
a cancel-late notice sets CANCEL_LATE in its DONE result. For a FREE context all three are discarded. -/
def Obligations.EngineMessagesSettleTheContext : Prop :=
  (∀ (s : State) (p : Port) (t : Tag) (x : Answer) (rest : List EngineMsg), s.resetLow = false →
     pick s.toPort p = .answer t x :: rest →
     let a := s.port p
     (∀ r out, a.context t = .queued r true out →
       let c : Context := match x with
         | .result o y late =>
           .done { outcome := o, code := r.code, payload := y, late } (if late then false else out)
         | .waitingClaim h g => .waiting r (.claim h g) out
         | .waitingUpgrade h => .waiting r (.upgrade h) out
       exec (.portAnswer p) s = .next (s.afterMessage p rest
         { a with contexts := put a.contexts t c, submission := a.submission.filter fun u => u != t })) ∧
     (a.context t = .free → exec (.portAnswer p) s = .next (s.afterMessage p rest a))) ∧
    ∀ (s : State) (p : Port) (t : Tag) (rest : List EngineMsg), s.resetLow = false →
      let a := s.port p
      (∀ c, pick s.toPort p = .completion t c :: rest →
        (∀ r kept out, a.context t = .waiting r kept out →
          let payload : Payload := match kept with
            | .claim h g => .claim { ref := .own h, path := .queued, time := c.time, generation := g }
            | .upgrade h => .upgrade { ref := .own h, path := .queued, time := c.time, endCause := c.endCause }
          exec (.portCompletion p) s = .next (s.afterMessage p rest { a with
            contexts := put a.contexts t (.done { outcome := c.outcome, code := r.code, payload, late := false }
              (if c.outcome = .cancelled then false else out)) })) ∧
        (a.context t = .free → exec (.portCompletion p) s = .next (s.afterMessage p rest a))) ∧
      (pick s.toPort p = .cancelLate t :: rest →
        (∀ x, a.context t = .done x true → exec (.cancelLateNotice p) s = .next (s.afterMessage p rest
          { a with contexts := put a.contexts t (.done { x with late := true } false) })) ∧
        (a.context t = .free → exec (.cancelLateNotice p) s = .next (s.afterMessage p rest a)))

/-- R99, R121, R140: the port holds the last marked-record count, session values and freeze flags that it has taken. R164,
R177: drop-complete frees every context; in IN_RESET the link stays with no drop outstanding, in DRAINING it goes to
STANDBY, or to IGNORE while SELn is low. The submission list is emptied with it (the model's choice: log 16). -/
def Obligations.PortTakesNoticesAndDropComplete : Prop :=
  (∀ (s : State) (p : Port) (rest : List EngineMsg), s.resetLow = false →
     (∀ n, pick s.toPort p = .marked n :: rest →
       exec (.markedCount p) s = .next (s.afterMessage p rest { s.port p with marked := n })) ∧
     (∀ o k l, pick s.toPort p = .session o k l :: rest → exec (.sessionNotice p) s =
       .next (s.afterMessage p rest { s.port p with sessionOpen := o, mask := k, lost := l })) ∧
     ∀ f o, pick s.toPort p = .freeze f o :: rest → exec (.freezeNotice p) s =
       .next (s.afterMessage p rest { s.port p with frozen := f, freezeOwner := o })) ∧
    ∀ (s : State) (p : Port) (rest : List EngineMsg), s.resetLow = false →
      pick s.toPort p = .dropComplete :: rest →
      (s.port p).link = .draining ∨ (s.port p).link = .inReset ∧ (s.port p).dropOutstanding = true →
      let a := s.port p
      ∃ b, exec (.dropComplete p) s = .next (s.afterMessage p rest b) ∧ (∀ t, b.context t = .free) ∧
        b.dropOutstanding = false ∧
        b.link = (if a.link = .inReset then .inReset else if a.selLow then .ignore else .standby) ∧
        b = { a with contexts := b.contexts, submission := [], dropOutstanding := false, link := b.link }

/-! ### The serial link (chapters 9 to 11) -/

/-- R169, R170, R174, R178: a SUBMIT in COMMAND, or one that goes on with the `first` bytes of a frame already collected.
The frame of a request is accepted by a FREE tag, which becomes QUEUED at the tail of the submission list, and is TAG_BUSY
at any other; a wrong check byte is CHECK; a code outside the table is UNKNOWN_REQUEST and sends the link to IGNORE; a
frame that has not reached its check byte is only collected. A bit after the check byte, in the same command or in a later
one, is OVERLONG, and what the frame did stands. A command may carry any number of the frame's bytes (the model's choice:
log 11). -/
def Obligations.SubmitJudgesTheFrame : Prop :=
  ∀ (s : State) (p : Port) (t : Tag), s.resetLow = false →
    let a := s.port p
    (∀ first : List Byte, a.link = .command ∧ first = [] ∨ a.link = .frame t (.collecting first) →
      let sent (bytes : List Byte) (b : AgentPort) : Prop := exec (.submit p t bytes) s = .next (s.afterLink p b [])
      let ends (more : List Byte) (b : AgentPort) : AgentPort := if more = [] then b else b.withFault .overlong
      (∀ (r : Request) (rest more : List Byte), r.covered = first ++ rest →
        (a.context t = .free → sent (rest ++ crc r.covered :: more) (ends more
          { a with link := .frame t .judged, contexts := put a.contexts t (.queued r false false)
                   submission := a.submission ++ [t] })) ∧
        (a.context t ≠ .free → sent (rest ++ crc r.covered :: more)
          (ends more { a.withFault .tagBusy with link := .frame t .judged })) ∧
        ∀ b : Byte, b ≠ crc r.covered → sent (rest ++ b :: more)
          (ends more { a.withFault .check with link := .frame t .judged })) ∧
      (∀ (r : Request) (mid rest : List Byte), r.covered = first ++ mid ++ rest →
        sent mid { a with link := .frame t (.collecting (first ++ mid)) }) ∧
      (first = [] → ∀ (b : Byte) (more : List Byte), (∀ c : ReqCode, c.byte ≠ b) →
        sent (b :: more) { a.withFault .unknownRequest with link := .ignore })) ∧
    (a.link = .frame t .judged →
      exec (.bitAfterCheckByte p) s = .next (s.afterLink p (a.withFault .overlong) []) ∧
      ∀ b more, exec (.submit p t (b :: more)) s = .next (s.afterLink p (a.withFault .overlong) []))

/-- R171: FETCH of a DONE context with cancel-outstanding clear shifts out its record, which becomes FREE with the last
bit of the check byte and not before; FETCH of any other context shifts out NOT_READY and changes nothing. The reply is
held as bytes (the model's choice: log 11). -/
def Obligations.FetchShiftsOutTheRecord : Prop :=
  ∀ (s : State) (p : Port) (t : Tag), s.resetLow = false →
    let a := s.port p
    (a.link = .command →
      (∀ r, a.context t = .done r false →
        let covered := [r.outcome.byte, r.code.byte, (if r.late then 0x80 else 0) + BitVec.ofNat 8 t.val] ++
          r.payload.bytes
        exec (.fetch p t) s =
          .next (s.afterLink p { a with link := .reply (.record t) (covered ++ [crc covered]) } [])) ∧
      ((∀ r, a.context t ≠ .done r false) →
        exec (.fetch p t) s = .next (s.afterLink p { a with link := .reply .plain [0x80] } []))) ∧
    (∀ out, a.link = .reply (.record t) out → exec (.fetchComplete p) s = .next (s.afterLink p
      { a with contexts := put a.contexts t .free, link := .reply .plain [] } []))

/-- R160, R172: CANCEL acts on the context as it finds it, with the reply byte that says what it found; in a port reset
it is ignored. -/
def Obligations.CancelActsOnTheContextFound : Prop :=
  ∀ (s : State) (p : Port) (t : Tag), s.resetLow = false →
    let a := s.port p
    let replied (b : AgentPort) (ms : List PortMsg) (reply : Byte) : Prop :=
      exec (.cancel p t) s = .next (s.afterLink p { b with link := .reply .plain [reply] } ms)
    let withContext (c : Context) : AgentPort := { a with contexts := put a.contexts t c }
    (a.link = .command →
      (a.context t = .free → replied a [] 0x00) ∧
      (∀ r out, a.context t = .queued r false out → replied
        { withContext (.done { outcome := .cancelled, code := r.code, payload := r.code.zeroPayload, late := false }
            false) with
          submission := a.submission.filter fun u => u != t } [] 0x01) ∧
      (∀ r, a.context t = .queued r true false → replied (withContext (.queued r true true)) [.cancel t] 0x02) ∧
      (∀ r k, a.context t = .waiting r k false → replied (withContext (.waiting r k true)) [.cancel t] 0x02) ∧
      (∀ r, a.context t = .queued r true true → replied a [] 0x02) ∧
      (∀ r k, a.context t = .waiting r k true → replied a [] 0x02) ∧
      (∀ r out, a.context t = .done r out → replied a [] 0x00)) ∧
    (a.link = .inReset ∨ a.link = .draining → exec (.cancel p t) s = .next (s.afterLink p a []))

/-- R173, R174, 11.5: STATUS fixes the extended status, with the cause's code; with the last bit of its cause field the
recorded cause becomes NONE. A transaction byte outside the table is UNKNOWN_TRANSACTION and sends the link to IGNORE.
The reply is held as bytes (the model's choice: log 11). -/
def Obligations.StatusShowsAndClearsTheCause : Prop :=
  ∀ (s : State) (p : Port), s.resetLow = false →
    let a := s.port p
    (a.link = .command → ∃ tags flags : Byte,
      let fields := [tags, a.cause.code, BitVec.ofNat 8 a.marked, flags]
      exec (.status p) s =
        .next (s.afterLink p { a with link := .reply .status (fields ++ [crc fields]) } []) ∧
      (∀ t : Tag, (tags >>> (2 * t.val)) &&& 3 = match a.context t with
        | .free => 0
        | .queued _ _ _ => 1
        | .waiting _ _ _ => 2
        | .done _ _ => 3) ∧
      flags.getLsbD 3 = a.frozen ∧ flags.getLsbD 2 = a.supervisor ∧ flags.getLsbD 1 = a.freezeOwner ∧
      flags.getLsbD 0 = a.sessionOpen ∧ flags >>> 4 = 0) ∧
    [LinkFault.none, .unknownTransaction, .unknownRequest, .check, .tagBusy, .shortFrame, .overlong].map LinkFault.code =
      [0, 1, 2, 3, 4, 5, 6] ∧
    (∀ out, a.link = .reply .status out → exec (.linkFaultCauseShiftedOut p) s =
      .next (s.afterLink p { a with cause := .none, link := .reply .plain (out.drop 2) } [])) ∧
    (∀ b : Byte, a.link = .command → (Instr.unknownTransaction p b).wf = true →
      exec (.unknownTransaction p b) s =
        .next (s.afterLink p { a.withFault .unknownTransaction with link := .ignore } []))

/-- R167, R170: while SELn is high, SDOn is in high impedance; while it is low, the port shifts out the captured status
byte in COMMAND and what is left of the reply in REPLY, and drives high for every other bit of a transaction and in a port
reset. R165: ATTNn is low exactly while the link is in no port reset and a DONE mark stands under the DONE bit, the held
marked-record count is above 0 under the NOTICE bit, or SESSION_LOST is set. R167, R168, R170: SELn falling in STANDBY
captures the status byte and enters COMMAND; in a port reset it changes only the level. SELn rising ends the transaction:
a frame without its check byte is SHORT_FRAME, and every other transaction goes to STANDBY without a fault. -/
def Obligations.SelectAndAttentionShowTheMarks : Prop :=
  (∀ a : AgentPort, a.attention = true ↔
     a.link ≠ .inReset ∧ a.link ≠ .draining ∧
       ((a.mask.done = true ∧ ∃ t r, a.context t = .done r false) ∨ (a.mask.notice = true ∧ 0 < a.marked) ∨
         a.lost = true)) ∧
    (∀ a : AgentPort,
      (a.selLow = false → a.sdo = .highImpedance) ∧
      (a.selLow = true →
        (a.link = .command → a.sdo = .bytes [a.shownStatus]) ∧
        (∀ k out, a.link = .reply k out → out ≠ [] → a.sdo = .bytes out) ∧
        ((∃ k, a.link = .reply k []) ∨ (∃ t f, a.link = .frame t f) ∨ a.link = .ignore ∨ a.link = .inReset ∨
          a.link = .draining → a.sdo = .allHigh))) ∧
    ∀ (s : State) (p : Port), s.resetLow = false →
      let a := s.port p
      (a.selLow = false →
        (a.link = .standby → ∃ b, exec (.selectFall p) s = .next (s.afterLink p b []) ∧
          b = { a with selLow := true, link := .command, shownStatus := b.shownStatus } ∧
          b.shownStatus.getLsbD 7 = a.sessionOpen ∧ b.shownStatus.getLsbD 6 = a.lost ∧
          b.shownStatus.getLsbD 5 = decide (0 < a.marked) ∧ b.shownStatus.getLsbD 4 = decide (a.cause ≠ .none) ∧
          ∀ t : Tag, b.shownStatus.getLsbD t.val = true ↔ ∃ r, a.context t = .done r false) ∧
        (a.link = .inReset ∨ a.link = .draining →
          exec (.selectFall p) s = .next (s.afterLink p { a with selLow := true } []))) ∧
      (a.selLow = true →
        (∀ t bytes, a.link = .frame t (.collecting bytes) → exec (.selectRise p) s =
          .next (s.afterLink p { a.withFault .shortFrame with selLow := false, link := .standby } [])) ∧
        ((∃ t, a.link = .frame t .judged) ∨ a.link = .command ∨ (∃ k out, a.link = .reply k out) ∨ a.link = .ignore →
          exec (.selectRise p) s = .next (s.afterLink p { a with selLow := false, link := .standby } [])) ∧
        (a.link = .inReset ∨ a.link = .draining →
          exec (.selectRise p) s = .next (s.afterLink p { a with selLow := false } [])))

/-! ### Formats (chapter 11) -/

/-- R178: the request that a frame's bytes spell is the request whose bytes they are, for every value of every operand, and
a transaction byte names its transaction. 11.2: a frame is the request code, the operands in the table's order and the
check byte. R180, 11.4: a record is outcome, request code, tag byte, the payload's fields in the table's order and the
check byte; one whose payload is of its request's kind has the length that the table gives its request code, whatever the
outcome, and so has the payload with every field 0 or NONE. That the unused bits of packed payload and lease-view bytes are
0 is the model's choice (log 19). 11.2, 11.3: the codes. R175: the check byte, bit by bit, and the worked value of 11.6. -/
def Obligations.FramesAndRecordsKeepTheirFormats : Prop :=
  ((∀ r : Request, Request.ofCovered r.covered = some r ∧ r.frame.length = 2 + r.code.operandLength ∧
       r.covered = layOut ((1, r.code.byte.toNat) :: r.fields) ∧ r.frame = r.covered ++ [crc r.covered]) ∧
     (∀ (bytes : List Byte) (r : Request), Request.ofCovered bytes = some r → bytes = r.covered) ∧
     (∀ (b : Byte) (x : Transaction), decodeTransaction b = some x ↔ b = x.byte) ∧
     ∀ t : Tag, (Transaction.submit t).byte.toNat = 160 + t.val ∧ (Transaction.fetch t).byte.toNat = 176 + t.val ∧
       (Transaction.cancel t).byte.toNat = 192 + t.val ∧ Transaction.status.byte.toNat = 208) ∧
    ((∀ (x : ResultRecord) (t : Tag), x.bytes t = layOut (x.fields t) ++ [crc (layOut (x.fields t))]) ∧
      (∀ (x : ResultRecord) (t : Tag), x.payload.fits x.code = true →
        (x.bytes t).length = x.code.payloadLength + 4) ∧
      ∀ c : ReqCode, c.zeroPayload.fits c = true ∧ c.zeroPayload.bytes = List.replicate c.payloadLength 0) ∧
    ([ReqCode.openSession, .closeSession, .readClock, .noop, .claim, .renew, .release, .downgrade, .upgrade,
        .acknowledge, .notice, .probe, .scanFirst, .scanNext, .limits, .revoke, .revokeRange, .evict, .freeze, .thaw,
        .trim].map ReqCode.byte =
        [0x01, 0x02, 0x03, 0x04, 0x10, 0x11, 0x12, 0x13, 0x14, 0x15, 0x20, 0x21, 0x22, 0x23, 0x30, 0x31, 0x32, 0x33,
         0x34, 0x35, 0x36] ∧
      [ResultCode.ok, .granted, .conflict, .selfConflict, .deadlock, .tableFull, .capReached, .tooLong, .limit, .range,
        .malformed, .stale, .notHolder, .wrongState, .gone, .timeout, .cancelled, .revoked, .noSession, .alreadyOpen,
        .notPermitted, .busy, .inUse, .sequence, .endOfScan, .nothing].map ResultCode.byte =
        (List.range 26).map (BitVec.ofNat 8) ∧
      [RecordState.none, .waiting, .held, .retired].map RecordState.code = [0, 1, 2, 3] ∧
      [TimeKind.none, .deadline, .pinned, .wait, .unlimited].map TimeKind.byte = [0, 1, 2, 3, 4] ∧
      [Mode.shared, .sole].map Mode.bit = [0, 1] ∧ [none, some .expired, some .revoked].map causeCode = [0, 1, 2] ∧
      [PathKind.none, .immediate, .queued].map PathKind.byte = [0, 1, 2] ∧
      [EndCause.none, .released, .expired, .revoked].map EndCause.byte = [0, 1, 2, 3] ∧
      [AckEffect.none, .freed, .cleared].map AckEffect.byte = [0, 1, 2] ∧
      [RevokeEffect.none, .retired, .freed].map RevokeEffect.byte = [0, 1, 2] ∧
      [TrimEffect.none, .carry, .borrow].map TrimEffect.byte = [0, 1, 2] ∧
      (∀ (h : Handle) (d : Tick), [HandleRef.none, .own h, .blocker h].map HandleRef.kindByte = [0, 1, 2] ∧
        [HandleRef.none, .own h, .blocker h].map HandleRef.value = [0, h, h] ∧
        [GrantTime.none, .deadline d, .pinned].map GrantTime.kindByte = [0, 1, 2] ∧
        [GrantTime.none, .deadline d, .pinned].map GrantTime.value = [0, d, 0])) ∧
    crc [] = 0xFF ∧
      (∀ (bytes : List Byte) (b : Byte), crc (bytes ++ [b]) =
        [7, 6, 5, 4, 3, 2, 1, 0].foldl (fun (reg : Byte) i =>
          if xor (reg.getLsbD 7) (b.getLsbD i) then (reg <<< 1) ^^^ 0x07 else reg <<< 1) (crc bytes)) ∧
      crc [0x12, 0x14, 0x01] = 0x5B

/-- R15, R16: a handle is slot × 1024 + issue, and names exactly one slot and issue number. R23, R24: the lease view of a
record, with the overdue mark only in the frozen table. -/
def Obligations.HandlesAndViewsNameTheRecord : Prop :=
  (∀ (k : SlotNo) (i : BitVec 10) (h : Handle),
     (mkHandle k i).toNat = k.val * 1024 + i.toNat ∧ slotOf (mkHandle k i) = k ∧ issueOf (mkHandle k i) = i ∧
       mkHandle (slotOf h) (issueOf h) = h) ∧
    ∀ (e : Engine) (k : SlotNo),
      (e.record k = .free → e.view k = none) ∧
      (∀ x, e.record k = .held x → ∃ v, e.view k = some v ∧ v.handle = e.handle k ∧ v.state = .held ∧
        v.holder = x.holder ∧ v.mode = x.mode ∧ v.region = x.region ∧ v.label = x.label ∧ v.warned = x.warned ∧
        v.convPending = x.conv.isSome ∧ v.cause = none ∧
        (x.term = .pinned → v.kind = .pinned ∧ v.time = 0 ∧ v.remaining = 0 ∧ v.overdue = false) ∧
        ∀ d m, x.term = .timed d m → v.kind = .deadline ∧ v.time = m ∧ v.remaining = m - e.settled ∧
          v.overdue = (e.freeze.isSome && decide ((m - e.settled).toInt ≤ 0))) ∧
      (∀ w, e.record k = .waiting w → ∃ v, e.view k = some v ∧ v.handle = e.handle k ∧ v.state = .waiting ∧
        v.holder = w.holder ∧ v.mode = w.mode ∧ v.region = w.region ∧ v.label = w.label ∧ v.warned = false ∧
        v.convPending = false ∧ v.cause = none ∧
        (w.waitDeadline = none → v.kind = .unlimited ∧ v.time = 0 ∧ v.remaining = 0 ∧ v.overdue = false) ∧
        ∀ m, w.waitDeadline = some m → v.kind = .wait ∧ v.time = m ∧ v.remaining = m - e.settled ∧
          v.overdue = (e.freeze.isSome && decide ((m - e.settled).toInt ≤ 0))) ∧
      ∀ x, e.record k = .retired x → ∃ v, e.view k = some v ∧ v.handle = e.handle k ∧ v.state = .retired ∧
        v.holder = x.holder ∧ v.mode = x.mode ∧ v.region = x.region ∧ v.label = x.label ∧ v.warned = false ∧
        v.convPending = false ∧ v.cause = some x.cause ∧ v.kind = .none ∧ v.time = 0 ∧ v.remaining = 0 ∧
        v.overdue = false

/-! ### Regions and conflict (1.1, 1.2) -/

/-- R2: overlap is sharing a unit; it is symmetric, a region overlaps itself, regions that adjoin do not overlap, and it is
the one test of the conflict relation, of the conversion part of the pass, of PROBE, of the REGION filter and of
REVOKE_RANGE. R3, R4: two parties conflict when their regions overlap and one of the two is SOLE, whatever their holders;
FREE and RETIRED slots take no part, and a lease with a pending conversion takes part as SOLE. -/
def Obligations.OverlapAndConflictOfRegions : Prop :=
  ((∀ a b : Region, (a.overlaps b = true ↔
       ∃ u, a.first ≤ u ∧ u ≤ a.last ∧ b.first ≤ u ∧ u ≤ b.last) ∧
     (a.overlaps b = true ↔ a.first ≤ b.last ∧ b.first ≤ a.last) ∧ a.overlaps b = b.overlaps a ∧
     a.overlaps a = true ∧ (a.last + 1 = b.first → a.overlaps b = false)) ∧
     (∀ a m b n, conflicts a m b n = true → a.overlaps b = true) ∧
     ∀ (e : Engine) (k j : SlotNo) (g : Region) (c : Common), (e.record j).common = some c →
       (j ∈ e.otherHolders k g ↔ j ≠ k ∧ (e.record j).isHeld = true ∧ c.region.overlaps g = true) ∧
       (e.record j).heldOn g = ((e.record j).isHeld && c.region.overlaps g) ∧
       (e.record j).waitingOn g = ((e.record j).isWaiting && c.region.overlaps g) ∧
       (Filter.region g).matches (e.record j) = c.region.overlaps g ∧
       (e.record j).inRange g = ((e.record j).isHeld && c.region.overlaps g)) ∧
    (∀ (a b : Region) (m n : Mode), (conflicts a m b n = true ↔ a.overlaps b = true ∧ (m = .sole ∨ n = .sole)) ∧
      conflicts a m b n = conflicts b n a m) ∧
      ∀ (g : Region) (m : Mode),
        Record.free.blocks g m = false ∧ (∀ x, (Record.retired x).blocks g m = false) ∧
        (∀ w, (Record.waiting w).blocks g m = conflicts g m w.region w.mode) ∧
        (∀ x, x.mode = .sole → (Record.held x).blocks g m = conflicts g m x.region .sole) ∧
        (∀ x, x.mode = .shared → x.conv = none → (Record.held x).blocks g m = conflicts g m x.region .shared) ∧
        (∀ x, x.mode = .shared → x.conv.isSome = true → (Record.held x).blocks g m = conflicts g m x.region .sole) ∧
        (∀ w q, (Record.waiting { w with holder := q }).blocks g m = (Record.waiting w).blocks g m) ∧
        ∀ x q, (Record.held { x with holder := q }).blocks g m = (Record.held x).blocks g m

/-! ### Invariants that every step keeps -/

/-- R5: every step keeps the law that two HELD leases with overlapping regions are both SHARED. -/
def Obligations.StepsKeepOverlappingLeasesShared : Prop :=
  ∀ s s' : State, ExclusionLaw s.engine → step s = .next s' → ExclusionLaw s'.engine

/-- R39, R65, R158: every step keeps the laws of the wait list and of the conversion list, and the match of requests and
waits to contexts. So no two waits name the same port and tag, and once a port has taken every message, its WAITING
contexts are those that a wait names, but for a FREE one after a port reset whose port-drop notice is still on its way. The
premise on FETCH is kept by every step too (`StepsKeepSubmissionListsAndLinks`). The paths that carry what is under way are
the model's representation (log 7). -/
def Obligations.StepsKeepBothLists : Prop :=
  ∀ s s' : State,
    WaitListLaw s.engine ∧ ConvListLaw s.engine ∧ MatchLaw s → (∀ p, FetchLaw (s.port p)) → step s = .next s' →
    (WaitListLaw s'.engine ∧ ConvListLaw s'.engine ∧ MatchLaw s') ∧
      (∀ p t j k, (s'.engine.record j).names p t = true → (s'.engine.record k).names p t = true → j = k) ∧
      ∀ p t, pick s'.toPort p = [] →
        let a := s'.port p
        ((∃ r k c, a.context t = .waiting r k c) → ∃ j, (s'.engine.record j).names p t = true) ∧
          ∀ j, (s'.engine.record j).names p t = true →
            (∃ r k c, a.context t = .waiting r k c) ∨
              (a.context t = .free ∧ a.dropOutstanding = true ∧ PortMsg.portDrop ∈ pick s'.toEngine p)

/-- R1, R10, R11, R95: every step keeps every record's region valid and its term sound, and leaves nothing due in the
unfrozen table. -/
def Obligations.StepsKeepRecordsSoundAndNothingDue : Prop :=
  ∀ s s' : State, RecordLaw s.engine ∧ NothingDue s.engine → step s = .next s' →
    RecordLaw s'.engine ∧ NothingDue s'.engine

/-- R21, R109, R119, R128, R137, R140: every step keeps the laws of sessions, of the freeze owner and of the lease
caps. -/
def Obligations.StepsKeepSessionsFreezeAndCaps : Prop :=
  ∀ s s' : State, SessionLaw s.engine ∧ FreezeLaw s.engine ∧ CapLaw s.engine ∧ ResetLaw s → step s = .next s' →
    SessionLaw s'.engine ∧ FreezeLaw s'.engine ∧ CapLaw s'.engine ∧ ResetLaw s'

/-- R75, R77, R84, R87: every step keeps the notices on the path consecutive from the settled tick up to NOW, and at most
one clock request between engine and timebase. The paths are the model's representation (log 7). -/
def Obligations.StepsKeepTicksAndClockRequestInOrder : Prop :=
  ∀ s s' : State, TickLaw s ∧ ClockLaw s → step s = .next s' → TickLaw s' ∧ ClockLaw s'

/-- R99, R121, R140: every step keeps the ports informed: once a port has taken what is on its way, it holds the engine's
marked-record count, session values and freeze flags. The paths are the model's representation (log 7). -/
def Obligations.StepsKeepPortsInformed : Prop :=
  ∀ s s' : State, InformedLaw s → step s = .next s' → InformedLaw s'

/-- R153, R166, R167, R171: every step keeps each port's submission list equal to its QUEUED contexts with a held one at
the head, the record under a FETCH unchanged, and, while RESETn is high, the link state in step with SELn. -/
def Obligations.StepsKeepSubmissionListsAndLinks : Prop :=
  ∀ s s' : State,
    (∀ p, SubmissionLaw (s.port p) ∧ FetchLaw (s.port p)) ∧
      (s.resetLow = false → ∀ p, SelectLaw (s.port p)) → step s = .next s' →
    (∀ p, SubmissionLaw (s'.port p) ∧ FetchLaw (s'.port p)) ∧
      (s'.resetLow = false → ∀ p, SelectLaw (s'.port p))

/-- Every one of these laws holds of the part right after device reset. That SELn is high then, and that each link is in
STANDBY while RESETn is low, are the model's values (log 5), on which the law of SELn rests; the empty paths are the
model's too (log 7). -/
def Obligations.LawsHoldAfterDeviceReset : Prop :=
  ExclusionLaw State.reset.engine ∧ WaitListLaw State.reset.engine ∧ ConvListLaw State.reset.engine ∧
    RecordLaw State.reset.engine ∧ NothingDue State.reset.engine ∧ SessionLaw State.reset.engine ∧
    FreezeLaw State.reset.engine ∧ CapLaw State.reset.engine ∧ ResetLaw State.reset ∧ TickLaw State.reset ∧
    ClockLaw State.reset ∧ InformedLaw State.reset ∧ MatchLaw State.reset ∧
    ∀ p, SubmissionLaw (State.reset.port p) ∧ FetchLaw (State.reset.port p) ∧ SelectLaw (State.reset.port p)
end

