-- ==== Sys2Proof/Laws/Engine.lean ====
section
/-! SUPPORT. Laws/Engine.lean: one lemma for each field of Engine under each update of the table, and what each
update does to a record and to an issue number. -/

namespace Sys2Proof.Machine

variable (e : Engine)

@[simp] theorem Engine.setRecord_waitList (k : SlotNo) (r : Record) : (e.setRecord k r).waitList = e.waitList := rfl
@[simp] theorem Engine.setRecord_convList (k : SlotNo) (r : Record) : (e.setRecord k r).convList = e.convList := rfl
@[simp] theorem Engine.setRecord_generation (k : SlotNo) (r : Record) : (e.setRecord k r).generation = e.generation := rfl
@[simp] theorem Engine.setRecord_settled (k : SlotNo) (r : Record) : (e.setRecord k r).settled = e.settled := rfl
@[simp] theorem Engine.setRecord_sessions (k : SlotNo) (r : Record) : (e.setRecord k r).sessions = e.sessions := rfl
@[simp] theorem Engine.setRecord_limits (k : SlotNo) (r : Record) : (e.setRecord k r).limits = e.limits := rfl
@[simp] theorem Engine.setRecord_freeze (k : SlotNo) (r : Record) : (e.setRecord k r).freeze = e.freeze := rfl
@[simp] theorem Engine.setRecord_clock (k : SlotNo) (r : Record) : (e.setRecord k r).clock = e.clock := rfl

@[simp] theorem Engine.enter_waitList (k : SlotNo) (r : Record) : (e.enter k r).waitList = e.waitList := rfl
@[simp] theorem Engine.enter_convList (k : SlotNo) (r : Record) : (e.enter k r).convList = e.convList := rfl
@[simp] theorem Engine.enter_generation (k : SlotNo) (r : Record) : (e.enter k r).generation = e.generation := rfl
@[simp] theorem Engine.enter_settled (k : SlotNo) (r : Record) : (e.enter k r).settled = e.settled := rfl
@[simp] theorem Engine.enter_sessions (k : SlotNo) (r : Record) : (e.enter k r).sessions = e.sessions := rfl
@[simp] theorem Engine.enter_limits (k : SlotNo) (r : Record) : (e.enter k r).limits = e.limits := rfl
@[simp] theorem Engine.enter_freeze (k : SlotNo) (r : Record) : (e.enter k r).freeze = e.freeze := rfl
@[simp] theorem Engine.enter_clock (k : SlotNo) (r : Record) : (e.enter k r).clock = e.clock := rfl

@[simp] theorem Engine.mapRecords_waitList (f : SlotNo → Record → Record) : (e.mapRecords f).waitList = e.waitList := rfl
@[simp] theorem Engine.mapRecords_convList (f : SlotNo → Record → Record) : (e.mapRecords f).convList = e.convList := rfl
@[simp] theorem Engine.mapRecords_generation (f : SlotNo → Record → Record) : (e.mapRecords f).generation = e.generation := rfl
@[simp] theorem Engine.mapRecords_settled (f : SlotNo → Record → Record) : (e.mapRecords f).settled = e.settled := rfl
@[simp] theorem Engine.mapRecords_sessions (f : SlotNo → Record → Record) : (e.mapRecords f).sessions = e.sessions := rfl
@[simp] theorem Engine.mapRecords_limits (f : SlotNo → Record → Record) : (e.mapRecords f).limits = e.limits := rfl
@[simp] theorem Engine.mapRecords_freeze (f : SlotNo → Record → Record) : (e.mapRecords f).freeze = e.freeze := rfl
@[simp] theorem Engine.mapRecords_clock (f : SlotNo → Record → Record) : (e.mapRecords f).clock = e.clock := rfl

@[simp] theorem Engine.setSession_slots (p : Port) (x : Session) : (e.setSession p x).slots = e.slots := rfl
@[simp] theorem Engine.setSession_waitList (p : Port) (x : Session) : (e.setSession p x).waitList = e.waitList := rfl
@[simp] theorem Engine.setSession_convList (p : Port) (x : Session) : (e.setSession p x).convList = e.convList := rfl
@[simp] theorem Engine.setSession_generation (p : Port) (x : Session) : (e.setSession p x).generation = e.generation := rfl
@[simp] theorem Engine.setSession_settled (p : Port) (x : Session) : (e.setSession p x).settled = e.settled := rfl
@[simp] theorem Engine.setSession_sessions (p : Port) (x : Session) : (e.setSession p x).sessions = put e.sessions p x := rfl
@[simp] theorem Engine.setSession_limits (p : Port) (x : Session) : (e.setSession p x).limits = e.limits := rfl
@[simp] theorem Engine.setSession_freeze (p : Port) (x : Session) : (e.setSession p x).freeze = e.freeze := rfl
@[simp] theorem Engine.setSession_clock (p : Port) (x : Session) : (e.setSession p x).clock = e.clock := rfl

@[simp] theorem Engine.freeWhere_waitList (which : SlotNo → Bool) : (e.freeWhere which).waitList = dropSlots which e.waitList := rfl
@[simp] theorem Engine.freeWhere_convList (which : SlotNo → Bool) : (e.freeWhere which).convList = dropSlots which e.convList := rfl
@[simp] theorem Engine.freeWhere_generation (which : SlotNo → Bool) : (e.freeWhere which).generation = e.generation := rfl
@[simp] theorem Engine.freeWhere_settled (which : SlotNo → Bool) : (e.freeWhere which).settled = e.settled := rfl
@[simp] theorem Engine.freeWhere_sessions (which : SlotNo → Bool) : (e.freeWhere which).sessions = e.sessions := rfl
@[simp] theorem Engine.freeWhere_limits (which : SlotNo → Bool) : (e.freeWhere which).limits = e.limits := rfl
@[simp] theorem Engine.freeWhere_freeze (which : SlotNo → Bool) : (e.freeWhere which).freeze = e.freeze := rfl
@[simp] theorem Engine.freeWhere_clock (which : SlotNo → Bool) : (e.freeWhere which).clock = e.clock := rfl

@[simp] theorem Engine.retireWhere_waitList (which : SlotNo → Bool) (c : RetireCause) : (e.retireWhere which c).waitList = e.waitList := rfl
@[simp] theorem Engine.retireWhere_convList (which : SlotNo → Bool) (c : RetireCause) : (e.retireWhere which c).convList = dropSlots which e.convList := rfl
@[simp] theorem Engine.retireWhere_generation (which : SlotNo → Bool) (c : RetireCause) : (e.retireWhere which c).generation = e.generation := rfl
@[simp] theorem Engine.retireWhere_settled (which : SlotNo → Bool) (c : RetireCause) : (e.retireWhere which c).settled = e.settled := rfl
@[simp] theorem Engine.retireWhere_sessions (which : SlotNo → Bool) (c : RetireCause) : (e.retireWhere which c).sessions = e.sessions := rfl
@[simp] theorem Engine.retireWhere_limits (which : SlotNo → Bool) (c : RetireCause) : (e.retireWhere which c).limits = e.limits := rfl
@[simp] theorem Engine.retireWhere_freeze (which : SlotNo → Bool) (c : RetireCause) : (e.retireWhere which c).freeze = e.freeze := rfl
@[simp] theorem Engine.retireWhere_clock (which : SlotNo → Bool) (c : RetireCause) : (e.retireWhere which c).clock = e.clock := rfl

@[simp] theorem Engine.dropConvWhere_waitList (which : SlotNo → Bool) : (e.dropConvWhere which).waitList = e.waitList := rfl
@[simp] theorem Engine.dropConvWhere_convList (which : SlotNo → Bool) : (e.dropConvWhere which).convList = dropSlots which e.convList := rfl
@[simp] theorem Engine.dropConvWhere_generation (which : SlotNo → Bool) : (e.dropConvWhere which).generation = e.generation := rfl
@[simp] theorem Engine.dropConvWhere_settled (which : SlotNo → Bool) : (e.dropConvWhere which).settled = e.settled := rfl
@[simp] theorem Engine.dropConvWhere_sessions (which : SlotNo → Bool) : (e.dropConvWhere which).sessions = e.sessions := rfl
@[simp] theorem Engine.dropConvWhere_limits (which : SlotNo → Bool) : (e.dropConvWhere which).limits = e.limits := rfl
@[simp] theorem Engine.dropConvWhere_freeze (which : SlotNo → Bool) : (e.dropConvWhere which).freeze = e.freeze := rfl
@[simp] theorem Engine.dropConvWhere_clock (which : SlotNo → Bool) : (e.dropConvWhere which).clock = e.clock := rfl

@[simp] theorem Engine.warnPart_waitList : (e.warnPart).waitList = e.waitList := rfl
@[simp] theorem Engine.warnPart_convList : (e.warnPart).convList = e.convList := rfl
@[simp] theorem Engine.warnPart_generation : (e.warnPart).generation = e.generation := rfl
@[simp] theorem Engine.warnPart_settled : (e.warnPart).settled = e.settled := rfl
@[simp] theorem Engine.warnPart_sessions : (e.warnPart).sessions = e.sessions := rfl
@[simp] theorem Engine.warnPart_limits : (e.warnPart).limits = e.limits := rfl
@[simp] theorem Engine.warnPart_freeze : (e.warnPart).freeze = e.freeze := rfl
@[simp] theorem Engine.warnPart_clock : (e.warnPart).clock = e.clock := rfl

@[simp] theorem Engine.thawWarnPart_waitList (start : Tick) : (e.thawWarnPart start).waitList = e.waitList := rfl
@[simp] theorem Engine.thawWarnPart_convList (start : Tick) : (e.thawWarnPart start).convList = e.convList := rfl
@[simp] theorem Engine.thawWarnPart_generation (start : Tick) : (e.thawWarnPart start).generation = e.generation := rfl
@[simp] theorem Engine.thawWarnPart_settled (start : Tick) : (e.thawWarnPart start).settled = e.settled := rfl
@[simp] theorem Engine.thawWarnPart_sessions (start : Tick) : (e.thawWarnPart start).sessions = e.sessions := rfl
@[simp] theorem Engine.thawWarnPart_limits (start : Tick) : (e.thawWarnPart start).limits = e.limits := rfl
@[simp] theorem Engine.thawWarnPart_freeze (start : Tick) : (e.thawWarnPart start).freeze = e.freeze := rfl
@[simp] theorem Engine.thawWarnPart_clock (start : Tick) : (e.thawWarnPart start).clock = e.clock := rfl

/-! ### Records and issue numbers -/

/-- Record and issue number depend on the slots alone. -/
theorem Engine.record_congr {a b : Engine} (h : a.slots = b.slots) (k : SlotNo) : a.record k = b.record k := by
  rw [Engine.record, Engine.record, h]

theorem Engine.issue_congr {a b : Engine} (h : a.slots = b.slots) (k : SlotNo) : a.issue k = b.issue k := by
  rw [Engine.issue, Engine.issue, h]

@[simp] theorem Engine.record_setRecord_self (k : SlotNo) (r : Record) : (e.setRecord k r).record k = r := by
  simp [Engine.record, Engine.setRecord]

theorem Engine.record_setRecord (j k : SlotNo) (r : Record) :
    (e.setRecord k r).record j = if j = k then r else e.record j := by
  unfold Engine.record Engine.setRecord
  rw [pick_put]
  split <;> rfl

@[simp] theorem Engine.issue_setRecord (j k : SlotNo) (r : Record) : (e.setRecord k r).issue j = e.issue j := by
  unfold Engine.issue Engine.setRecord
  rw [pick_put]
  split
  · next h => rw [h]
  · rfl

@[simp] theorem Engine.handle_setRecord (j k : SlotNo) (r : Record) :
    (e.setRecord k r).handle j = e.handle j := by
  simp [Engine.handle]

theorem Engine.record_enter (j k : SlotNo) (r : Record) :
    (e.enter k r).record j = if j = k then r else e.record j := by
  unfold Engine.record Engine.enter
  rw [pick_put]
  split <;> rfl

theorem Engine.issue_enter (j k : SlotNo) (r : Record) :
    (e.enter k r).issue j = if j = k then e.issue k + 1 else e.issue j := by
  unfold Engine.issue Engine.enter
  rw [pick_put]
  split <;> rfl

@[simp] theorem Engine.record_mapRecords (f : SlotNo → Record → Record) (k : SlotNo) :
    (e.mapRecords f).record k = f k (e.record k) := by
  simp [Engine.record, Engine.mapRecords]

@[simp] theorem Engine.issue_mapRecords (f : SlotNo → Record → Record) (k : SlotNo) :
    (e.mapRecords f).issue k = e.issue k := by
  simp [Engine.issue, Engine.mapRecords]

@[simp] theorem Engine.record_freeWhere (which : SlotNo → Bool) (k : SlotNo) :
    (e.freeWhere which).record k = if which k then .free else e.record k :=
  Engine.record_mapRecords ..

@[simp] theorem Engine.issue_freeWhere (which : SlotNo → Bool) (k : SlotNo) :
    (e.freeWhere which).issue k = e.issue k :=
  Engine.issue_mapRecords ..

@[simp] theorem Engine.record_retireWhere (which : SlotNo → Bool) (c : RetireCause) (k : SlotNo) :
    (e.retireWhere which c).record k = if which k then (e.record k).retire c else e.record k :=
  Engine.record_mapRecords ..

@[simp] theorem Engine.issue_retireWhere (which : SlotNo → Bool) (c : RetireCause) (k : SlotNo) :
    (e.retireWhere which c).issue k = e.issue k :=
  Engine.issue_mapRecords ..

@[simp] theorem Engine.record_dropConvWhere (which : SlotNo → Bool) (k : SlotNo) :
    (e.dropConvWhere which).record k = if which k then (e.record k).dropConv else e.record k :=
  Engine.record_mapRecords ..

@[simp] theorem Engine.issue_dropConvWhere (which : SlotNo → Bool) (k : SlotNo) :
    (e.dropConvWhere which).issue k = e.issue k :=
  Engine.issue_mapRecords ..

@[simp] theorem Engine.record_setSession (p : Port) (x : Session) (k : SlotNo) :
    (e.setSession p x).record k = e.record k := rfl

@[simp] theorem Engine.issue_setSession (p : Port) (x : Session) (k : SlotNo) :
    (e.setSession p x).issue k = e.issue k := rfl

theorem Engine.session_setSession (p q : Port) (x : Session) :
    (e.setSession q x).session p = if p = q then x else e.session p := pick_put ..

@[simp] theorem Engine.session_setSession_self (p : Port) (x : Session) : (e.setSession p x).session p = x :=
  pick_put_self ..

theorem Engine.session_setSession_ne {p q : Port} (x : Session) (h : p ≠ q) :
    (e.setSession q x).session p = e.session p :=
  pick_put_ne _ _ h

/-- Two tables with the same records and issue numbers have the same slots. -/
theorem Engine.slots_ext {a b : Engine} (hr : ∀ k, a.record k = b.record k) (hi : ∀ k, a.issue k = b.issue k) :
    a.slots = b.slots := by
  refine table_ext fun k => ?_
  have h1 := hr k
  have h2 := hi k
  cases ha : pick a.slots k
  cases hb : pick b.slots k
  simp_all [Engine.record, Engine.issue]

/-- Tables that differ in a record have different slots. -/
theorem Engine.slots_ne_of_record {a b : Engine} (k : SlotNo) (h : a.record k ≠ b.record k) : a.slots ≠ b.slots :=
  fun e => h (Engine.record_congr e k)

/-! ### Closing an event (R19) -/

theorem Engine.closeEvent_same {old new : Engine} (h : new.slots = old.slots) : old.closeEvent new = new := by
  simp [Engine.closeEvent, h]

theorem Engine.closeEvent_changed {old new : Engine} (h : new.slots ≠ old.slots) :
    old.closeEvent new = { new with generation := new.generation + 1 } := by
  simp [Engine.closeEvent, h]

@[simp] theorem Engine.closeEvent_slots (new : Engine) : (e.closeEvent new).slots = new.slots := by
  unfold Engine.closeEvent
  split <;> rfl

@[simp] theorem Engine.closeEvent_waitList (new : Engine) : (e.closeEvent new).waitList = new.waitList := by
  unfold Engine.closeEvent
  split <;> rfl

@[simp] theorem Engine.closeEvent_convList (new : Engine) : (e.closeEvent new).convList = new.convList := by
  unfold Engine.closeEvent
  split <;> rfl

@[simp] theorem Engine.closeEvent_settled (new : Engine) : (e.closeEvent new).settled = new.settled := by
  unfold Engine.closeEvent
  split <;> rfl

@[simp] theorem Engine.closeEvent_sessions (new : Engine) : (e.closeEvent new).sessions = new.sessions := by
  unfold Engine.closeEvent
  split <;> rfl

@[simp] theorem Engine.closeEvent_limits (new : Engine) : (e.closeEvent new).limits = new.limits := by
  unfold Engine.closeEvent
  split <;> rfl

@[simp] theorem Engine.closeEvent_freeze (new : Engine) : (e.closeEvent new).freeze = new.freeze := by
  unfold Engine.closeEvent
  split <;> rfl

@[simp] theorem Engine.closeEvent_clock (new : Engine) : (e.closeEvent new).clock = new.clock := by
  unfold Engine.closeEvent
  split <;> rfl

@[simp] theorem Engine.record_closeEvent (new : Engine) (k : SlotNo) : (e.closeEvent new).record k = new.record k :=
  Engine.record_congr (by simp) k

@[simp] theorem Engine.issue_closeEvent (new : Engine) (k : SlotNo) : (e.closeEvent new).issue k = new.issue k :=
  Engine.issue_congr (by simp) k

theorem Engine.closeEvent_generation (new : Engine) :
    (e.closeEvent new).generation = if new.slots = e.slots then new.generation else new.generation + 1 := by
  unfold Engine.closeEvent
  split <;> rfl

end Sys2Proof.Machine
end

