-- ==== Sys2Proof/Laws/Passes.lean ====
section
/-! SUPPORT. Laws/Passes.lean: everything that a grant pass and the settling of due records can do. -/

namespace Sys2Proof.Machine

/-! ### The grant pass (R43 to R47) -/

/-- What a grant pass over `e` can do to one record. -/
inductive GrantMove (e : Engine) : Record → Record → Prop where
  | same (r : Record) : GrantMove e r r
  | converted (h : Held) (c : Conversion) (hc : h.conv = some c) :
      GrantMove e (.held h) (.held { h with mode := .sole, conv := none })
  | granted (w : Waiting) : GrantMove e (.waiting w) (.held (e.grantedHeld w.toCommon w.duration))

/-- What a grant pass that leads from `a` to `b` leaves as it was, and what it can do to each record. -/
structure PassFrame (a b : Engine) : Prop where
  generation : b.generation = a.generation
  settled : b.settled = a.settled
  sessions : b.sessions = a.sessions
  limits : b.limits = a.limits
  freeze : b.freeze = a.freeze
  clock : b.clock = a.clock
  issue : ∀ k, b.issue k = a.issue k
  waitList : b.waitList.Sublist a.waitList
  convList : b.convList.Sublist a.convList
  record : ∀ k, GrantMove a (a.record k) (b.record k)

/-- The lease that a grant writes depends on the settled tick and the warn margins alone. -/
theorem Engine.grantedHeld_congr {a b : Engine} (hs : b.settled = a.settled) (hm : b.sessions = a.sessions)
    (c : Common) (d : Half) : b.grantedHeld c d = a.grantedHeld c d := by
  simp [Engine.grantedHeld, Engine.margin, Engine.session, hs, hm]

theorem PassFrame.refl (a : Engine) : PassFrame a a :=
  ⟨rfl, rfl, rfl, rfl, rfl, rfl, fun _ => rfl, List.Sublist.refl _, List.Sublist.refl _, fun _ => .same _⟩

theorem GrantMove.trans {a b : Engine} (hs : b.settled = a.settled) (hm : b.sessions = a.sessions) {x y z : Record}
    (h1 : GrantMove a x y) (h2 : GrantMove b y z) : GrantMove a x z := by
  cases h1 with
  | same => 
    cases h2 with
    | same => exact .same _
    | converted h c hc => exact .converted h c hc
    | granted w => rw [Engine.grantedHeld_congr hs hm]; exact .granted w
  | converted h c hc =>
    cases h2 with
    | same => exact .converted h c hc
    | converted _ c' hc' => simp at hc'
  | granted w =>
    cases h2 with
    | same => exact .granted w
    | converted _ c' hc' => simp [Engine.grantedHeld] at hc'

theorem PassFrame.trans {a b c : Engine} (h1 : PassFrame a b) (h2 : PassFrame b c) : PassFrame a c where
  generation := h2.generation.trans h1.generation
  settled := h2.settled.trans h1.settled
  sessions := h2.sessions.trans h1.sessions
  limits := h2.limits.trans h1.limits
  freeze := h2.freeze.trans h1.freeze
  clock := h2.clock.trans h1.clock
  issue := fun k => (h2.issue k).trans (h1.issue k)
  waitList := h2.waitList.trans h1.waitList
  convList := h2.convList.trans h1.convList
  record := fun k => (h1.record k).trans h1.settled h1.sessions (h2.record k)

theorem dropSlots_sublist (f : SlotNo → Bool) (l : List SlotNo) : (dropSlots f l).Sublist l :=
  List.filter_sublist

/-- One entry of the first part of the pass. -/
theorem Engine.grantConversion_frame {e e' : Engine} {k : SlotNo} {m : Out}
    (h : e.grantConversion k = some (e', m)) : PassFrame e e' := by
  unfold Engine.grantConversion at h
  split at h
  next x hx =>
    split at h
    next c hc =>
      split at h
      · obtain ⟨rfl, -⟩ := Prod.mk.inj (Option.some.inj h)
        refine ⟨rfl, rfl, rfl, rfl, rfl, rfl, fun j => ?_, List.Sublist.refl _, dropSlots_sublist _ _, fun j => ?_⟩
        · exact Engine.issue_setRecord ..
        · show GrantMove e (e.record j) ((e.setRecord k _).record j)
          rw [Engine.record_setRecord]
          split
          · next hj => rw [hj, hx]; exact .converted x c hc
          · exact .same _
      · cases h
    · cases h
  · cases h

/-- One entry of the second part of the pass. -/
theorem Engine.grantWaiter_frame {e e' : Engine} {passed : List SlotNo} {k : SlotNo} {m : Out}
    (h : e.grantWaiter passed k = some (e', m)) : PassFrame e e' := by
  unfold Engine.grantWaiter at h
  split at h
  next w hw =>
    split at h
    · cases h
    · obtain ⟨rfl, -⟩ := Prod.mk.inj (Option.some.inj h)
      refine ⟨rfl, rfl, rfl, rfl, rfl, rfl, fun j => ?_, dropSlots_sublist _ _, List.Sublist.refl _, fun j => ?_⟩
      · exact Engine.issue_setRecord ..
      · show GrantMove e (e.record j) ((e.setRecord k _).record j)
        rw [Engine.record_setRecord]
        split
        · next hj => rw [hj, hw]; exact .granted w
        · exact .same _
  · cases h

/-- A property that every grant of a conversion keeps holds after the first part of the pass. -/
theorem Engine.grantConversions_induct {P : Engine → Prop}
    (hc : ∀ e e' k m, P e → e.grantConversion k = some (e', m) → P e') (ks : List SlotNo) :
    ∀ e, P e → P (Engine.grantConversions ks e).1 := by
  induction ks with
  | nil => exact fun e h => h
  | cons k ks ih =>
    intro e h
    simp only [Engine.grantConversions]
    split
    next e1 m he => exact ih e1 (hc e e1 k m h he)
    · exact ih e h

/-- A property that every grant of a waiter keeps holds after the second part of the pass. -/
theorem Engine.grantWaiters_induct {P : Engine → Prop}
    (hw : ∀ e e' passed k m, P e → e.grantWaiter passed k = some (e', m) → P e') (ks : List SlotNo) :
    ∀ passed e, P e → P (Engine.grantWaiters passed ks e).1 := by
  induction ks with
  | nil => exact fun _ e h => h
  | cons k ks ih =>
    intro passed e h
    simp only [Engine.grantWaiters]
    split
    next e1 m he => exact ih passed e1 (hw e e1 passed k m h he)
    · exact ih (passed ++ [k]) e h

/-- A property that every single grant keeps holds after the pass. -/
theorem Engine.grantPass_induct {P : Engine → Prop}
    (hc : ∀ e e' k m, P e → e.grantConversion k = some (e', m) → P e')
    (hw : ∀ e e' passed k m, P e → e.grantWaiter passed k = some (e', m) → P e') (e : Engine) (h : P e) :
    P e.grantPass.1 :=
  Engine.grantWaiters_induct hw _ _ _ (Engine.grantConversions_induct hc _ _ h)

/-- Everything that a grant pass can do. -/
theorem Engine.grantPass_frame (e : Engine) : PassFrame e e.grantPass.1 :=
  Engine.grantPass_induct (P := PassFrame e) (fun _ _ _ _ h hg => h.trans (Engine.grantConversion_frame hg))
    (fun _ _ _ _ _ h hg => h.trans (Engine.grantWaiter_frame hg)) e (.refl e)

/-- Everything that the pass of an ordinary event can do. -/
theorem Engine.passUnlessFrozen_frame (e : Engine) : PassFrame e e.passUnlessFrozen.1 := by
  unfold Engine.passUnlessFrozen
  split
  · exact .refl e
  · exact e.grantPass_frame

/-- A pass leaves FREE and RETIRED records, and a HELD lease without a pending conversion, as they were. -/
theorem GrantMove.eq_of_quiet {e : Engine} {r r' : Record} (h : GrantMove e r r') (hw : r.isWaiting = false)
    (hc : r.conv = none) : r' = r := by
  cases h with
  | same => rfl
  | converted x c hx => simp [Record.conv, hx] at hc
  | granted w => simp [Record.isWaiting] at hw

/-- A pass changes no record's holder. -/
theorem GrantMove.ownedBy {e : Engine} {r r' : Record} (h : GrantMove e r r') (p : Port) :
    r'.ownedBy p = r.ownedBy p := by
  cases h <;> rfl

/-- A pass frees no slot and fills no FREE slot. -/
theorem GrantMove.isFree {e : Engine} {r r' : Record} (h : GrantMove e r r') : r'.isFree = r.isFree := by
  cases h <;> rfl

/-- A HELD lease stays HELD through a pass, with its region, holder, label and term. -/
theorem GrantMove.of_held {e : Engine} {x : Held} {r' : Record} (h : GrantMove e (.held x) r') :
    r' = .held x ∨ r' = .held { x with mode := .sole, conv := none } := by
  cases h with
  | same => exact .inl rfl
  | converted _ c hc => exact .inr rfl

/-! ### Settling what is due (R90 to R93, R148) -/

/-- What parts 2 to 4 of a tick notice, or parts 1 and 2 of thaw settlement, make of one record. -/
def Record.settleDue (r : Record) (settled : Tick) : Record :=
  if r.leaseDue settled then r.retire .expired
  else if r.waitDue settled then .free
  else if r.convDue settled then r.dropConv
  else r

theorem Engine.settleDue_engine (e : Engine) :
    e.settleDue.engine = (e.expirePart.1.waitTimeoutPart.1.convTimeoutPart).1 := rfl

/-- The record of a slot after the due records have settled. -/
theorem Engine.record_settleDue (e : Engine) (k : SlotNo) :
    e.settleDue.engine.record k = (e.record k).settleDue e.settled := by
  simp only [Engine.settleDue_engine, Engine.convTimeoutPart, Engine.waitTimeoutPart, Engine.expirePart,
    Engine.record_dropConvWhere, Engine.record_freeWhere, Engine.record_retireWhere, Engine.freeWhere_settled,
    Engine.retireWhere_settled, Record.settleDue]
  cases hr : e.record k with
  | free => simp [Record.leaseDue, Record.waitDue, Record.convDue, Record.conv]
  | retired x => simp [Record.leaseDue, Record.waitDue, Record.convDue, Record.conv]
  | waiting w => 
    by_cases hw : (Record.waiting w).waitDue e.settled
    · simp [Record.leaseDue, hw, Record.convDue, Record.conv]
    · simp [Record.leaseDue, hw, Record.convDue, Record.conv]
  | held h =>
    have hw : (Record.held h).waitDue e.settled = false := rfl
    by_cases hl : (Record.held h).leaseDue e.settled
    · simp [hl, Record.retire, Record.waitDue, Record.convDue, Record.conv]
    · simp [hl, hw]

/-- Settling what is due leaves the issue numbers as they were. -/
@[simp] theorem Engine.issue_settleDue (e : Engine) (k : SlotNo) : e.settleDue.engine.issue k = e.issue k := by
  simp [Engine.settleDue_engine, Engine.convTimeoutPart, Engine.waitTimeoutPart, Engine.expirePart]

@[simp] theorem Engine.settleDue_settled (e : Engine) : e.settleDue.engine.settled = e.settled := rfl

@[simp] theorem Engine.settleDue_generation (e : Engine) : e.settleDue.engine.generation = e.generation := rfl

@[simp] theorem Engine.settleDue_sessions (e : Engine) : e.settleDue.engine.sessions = e.sessions := rfl

@[simp] theorem Engine.settleDue_limits (e : Engine) : e.settleDue.engine.limits = e.limits := rfl

@[simp] theorem Engine.settleDue_freeze (e : Engine) : e.settleDue.engine.freeze = e.freeze := rfl

@[simp] theorem Engine.settleDue_clock (e : Engine) : e.settleDue.engine.clock = e.clock := rfl

/-- The record of a slot after the warnings of part 5. -/
theorem Engine.record_warnPart (e : Engine) (k : SlotNo) :
    e.warnPart.record k =
      if (e.record k).reachesMargin e.settled (e.marginFor (e.record k)) then (e.record k).warn else e.record k :=
  Engine.record_mapRecords ..

@[simp] theorem Engine.issue_warnPart (e : Engine) (k : SlotNo) : e.warnPart.issue k = e.issue k :=
  Engine.issue_mapRecords ..

/-- The record of a slot after the warnings of thaw settlement. -/
theorem Engine.record_thawWarnPart (e : Engine) (start : Tick) (k : SlotNo) :
    (e.thawWarnPart start).record k =
      if (e.record k).crossedMargin e.settled start (e.marginFor (e.record k)) then (e.record k).warn
      else e.record k :=
  Engine.record_mapRecords ..

@[simp] theorem Engine.issue_thawWarnPart (e : Engine) (start : Tick) (k : SlotNo) :
    (e.thawWarnPart start).issue k = e.issue k :=
  Engine.issue_mapRecords ..

end Sys2Proof.Machine
end

