-- ==== Sys2Proof/Laws/State.lean ====
section
/-! SUPPORT. Laws/State.lean: one lemma for each field of State under each update. -/

namespace Sys2Proof.Machine

variable (s : State)

@[simp] theorem State.setPort_resetLow (p : Port) (a : AgentPort) : (s.setPort p a).resetLow = s.resetLow := rfl
@[simp] theorem State.setPort_engine (p : Port) (a : AgentPort) : (s.setPort p a).engine = s.engine := rfl
@[simp] theorem State.setPort_timebase (p : Port) (a : AgentPort) : (s.setPort p a).timebase = s.timebase := rfl
@[simp] theorem State.setPort_lastServed (p : Port) (a : AgentPort) : (s.setPort p a).lastServed = s.lastServed := rfl
@[simp] theorem State.setPort_ports (p : Port) (a : AgentPort) : (s.setPort p a).ports = put s.ports p a := rfl
@[simp] theorem State.setPort_toEngine (p : Port) (a : AgentPort) : (s.setPort p a).toEngine = s.toEngine := rfl
@[simp] theorem State.setPort_toPort (p : Port) (a : AgentPort) : (s.setPort p a).toPort = s.toPort := rfl
@[simp] theorem State.setPort_toTimebase (p : Port) (a : AgentPort) : (s.setPort p a).toTimebase = s.toTimebase := rfl
@[simp] theorem State.setPort_fromTimebase (p : Port) (a : AgentPort) : (s.setPort p a).fromTimebase = s.fromTimebase := rfl
@[simp] theorem State.setPort_pending (p : Port) (a : AgentPort) : (s.setPort p a).pending = s.pending := rfl

@[simp] theorem State.setEngine_resetLow (e : Engine) : (s.setEngine e).resetLow = s.resetLow := rfl
@[simp] theorem State.setEngine_engine (e : Engine) : (s.setEngine e).engine = e := rfl
@[simp] theorem State.setEngine_timebase (e : Engine) : (s.setEngine e).timebase = s.timebase := rfl
@[simp] theorem State.setEngine_lastServed (e : Engine) : (s.setEngine e).lastServed = s.lastServed := rfl
@[simp] theorem State.setEngine_ports (e : Engine) : (s.setEngine e).ports = s.ports := rfl
@[simp] theorem State.setEngine_toEngine (e : Engine) : (s.setEngine e).toEngine = s.toEngine := rfl
@[simp] theorem State.setEngine_toPort (e : Engine) : (s.setEngine e).toPort = s.toPort := rfl
@[simp] theorem State.setEngine_toTimebase (e : Engine) : (s.setEngine e).toTimebase = s.toTimebase := rfl
@[simp] theorem State.setEngine_fromTimebase (e : Engine) : (s.setEngine e).fromTimebase = s.fromTimebase := rfl
@[simp] theorem State.setEngine_pending (e : Engine) : (s.setEngine e).pending = s.pending := rfl

@[simp] theorem State.setTimebase_resetLow (x : Timebase) : (s.setTimebase x).resetLow = s.resetLow := rfl
@[simp] theorem State.setTimebase_engine (x : Timebase) : (s.setTimebase x).engine = s.engine := rfl
@[simp] theorem State.setTimebase_timebase (x : Timebase) : (s.setTimebase x).timebase = x := rfl
@[simp] theorem State.setTimebase_lastServed (x : Timebase) : (s.setTimebase x).lastServed = s.lastServed := rfl
@[simp] theorem State.setTimebase_ports (x : Timebase) : (s.setTimebase x).ports = s.ports := rfl
@[simp] theorem State.setTimebase_toEngine (x : Timebase) : (s.setTimebase x).toEngine = s.toEngine := rfl
@[simp] theorem State.setTimebase_toPort (x : Timebase) : (s.setTimebase x).toPort = s.toPort := rfl
@[simp] theorem State.setTimebase_toTimebase (x : Timebase) : (s.setTimebase x).toTimebase = s.toTimebase := rfl
@[simp] theorem State.setTimebase_fromTimebase (x : Timebase) : (s.setTimebase x).fromTimebase = s.fromTimebase := rfl
@[simp] theorem State.setTimebase_pending (x : Timebase) : (s.setTimebase x).pending = s.pending := rfl

@[simp] theorem State.send_resetLow (out : List Out) : (s.send out).resetLow = s.resetLow := rfl
@[simp] theorem State.send_engine (out : List Out) : (s.send out).engine = s.engine := rfl
@[simp] theorem State.send_timebase (out : List Out) : (s.send out).timebase = s.timebase := rfl
@[simp] theorem State.send_lastServed (out : List Out) : (s.send out).lastServed = s.lastServed := rfl
@[simp] theorem State.send_ports (out : List Out) : (s.send out).ports = s.ports := rfl
@[simp] theorem State.send_toEngine (out : List Out) : (s.send out).toEngine = s.toEngine := rfl
@[simp] theorem State.send_toPort (out : List Out) : (s.send out).toPort = tab fun p => pick s.toPort p ++ outFor p out := rfl
@[simp] theorem State.send_toTimebase (out : List Out) : (s.send out).toTimebase = s.toTimebase := rfl
@[simp] theorem State.send_fromTimebase (out : List Out) : (s.send out).fromTimebase = s.fromTimebase := rfl
@[simp] theorem State.send_pending (out : List Out) : (s.send out).pending = s.pending := rfl

@[simp] theorem State.sendToEngine_resetLow (p : Port) (ms : List PortMsg) : (s.sendToEngine p ms).resetLow = s.resetLow := rfl
@[simp] theorem State.sendToEngine_engine (p : Port) (ms : List PortMsg) : (s.sendToEngine p ms).engine = s.engine := rfl
@[simp] theorem State.sendToEngine_timebase (p : Port) (ms : List PortMsg) : (s.sendToEngine p ms).timebase = s.timebase := rfl
@[simp] theorem State.sendToEngine_lastServed (p : Port) (ms : List PortMsg) : (s.sendToEngine p ms).lastServed = s.lastServed := rfl
@[simp] theorem State.sendToEngine_ports (p : Port) (ms : List PortMsg) : (s.sendToEngine p ms).ports = s.ports := rfl
@[simp] theorem State.sendToEngine_toEngine (p : Port) (ms : List PortMsg) : (s.sendToEngine p ms).toEngine = put s.toEngine p (pick s.toEngine p ++ ms) := rfl
@[simp] theorem State.sendToEngine_toPort (p : Port) (ms : List PortMsg) : (s.sendToEngine p ms).toPort = s.toPort := rfl
@[simp] theorem State.sendToEngine_toTimebase (p : Port) (ms : List PortMsg) : (s.sendToEngine p ms).toTimebase = s.toTimebase := rfl
@[simp] theorem State.sendToEngine_fromTimebase (p : Port) (ms : List PortMsg) : (s.sendToEngine p ms).fromTimebase = s.fromTimebase := rfl
@[simp] theorem State.sendToEngine_pending (p : Port) (ms : List PortMsg) : (s.sendToEngine p ms).pending = s.pending := rfl

@[simp] theorem State.restToEngine_resetLow (p : Port) (rest : List PortMsg) : (s.restToEngine p rest).resetLow = s.resetLow := rfl
@[simp] theorem State.restToEngine_engine (p : Port) (rest : List PortMsg) : (s.restToEngine p rest).engine = s.engine := rfl
@[simp] theorem State.restToEngine_timebase (p : Port) (rest : List PortMsg) : (s.restToEngine p rest).timebase = s.timebase := rfl
@[simp] theorem State.restToEngine_lastServed (p : Port) (rest : List PortMsg) : (s.restToEngine p rest).lastServed = s.lastServed := rfl
@[simp] theorem State.restToEngine_ports (p : Port) (rest : List PortMsg) : (s.restToEngine p rest).ports = s.ports := rfl
@[simp] theorem State.restToEngine_toEngine (p : Port) (rest : List PortMsg) : (s.restToEngine p rest).toEngine = put s.toEngine p rest := rfl
@[simp] theorem State.restToEngine_toPort (p : Port) (rest : List PortMsg) : (s.restToEngine p rest).toPort = s.toPort := rfl
@[simp] theorem State.restToEngine_toTimebase (p : Port) (rest : List PortMsg) : (s.restToEngine p rest).toTimebase = s.toTimebase := rfl
@[simp] theorem State.restToEngine_fromTimebase (p : Port) (rest : List PortMsg) : (s.restToEngine p rest).fromTimebase = s.fromTimebase := rfl
@[simp] theorem State.restToEngine_pending (p : Port) (rest : List PortMsg) : (s.restToEngine p rest).pending = s.pending := rfl

@[simp] theorem State.restToPort_resetLow (p : Port) (rest : List EngineMsg) : (s.restToPort p rest).resetLow = s.resetLow := rfl
@[simp] theorem State.restToPort_engine (p : Port) (rest : List EngineMsg) : (s.restToPort p rest).engine = s.engine := rfl
@[simp] theorem State.restToPort_timebase (p : Port) (rest : List EngineMsg) : (s.restToPort p rest).timebase = s.timebase := rfl
@[simp] theorem State.restToPort_lastServed (p : Port) (rest : List EngineMsg) : (s.restToPort p rest).lastServed = s.lastServed := rfl
@[simp] theorem State.restToPort_ports (p : Port) (rest : List EngineMsg) : (s.restToPort p rest).ports = s.ports := rfl
@[simp] theorem State.restToPort_toEngine (p : Port) (rest : List EngineMsg) : (s.restToPort p rest).toEngine = s.toEngine := rfl
@[simp] theorem State.restToPort_toPort (p : Port) (rest : List EngineMsg) : (s.restToPort p rest).toPort = put s.toPort p rest := rfl
@[simp] theorem State.restToPort_toTimebase (p : Port) (rest : List EngineMsg) : (s.restToPort p rest).toTimebase = s.toTimebase := rfl
@[simp] theorem State.restToPort_fromTimebase (p : Port) (rest : List EngineMsg) : (s.restToPort p rest).fromTimebase = s.fromTimebase := rfl
@[simp] theorem State.restToPort_pending (p : Port) (rest : List EngineMsg) : (s.restToPort p rest).pending = s.pending := rfl

@[simp] theorem State.restFromTimebase_resetLow (rest : List TimebaseMsg) : (s.restFromTimebase rest).resetLow = s.resetLow := rfl
@[simp] theorem State.restFromTimebase_engine (rest : List TimebaseMsg) : (s.restFromTimebase rest).engine = s.engine := rfl
@[simp] theorem State.restFromTimebase_timebase (rest : List TimebaseMsg) : (s.restFromTimebase rest).timebase = s.timebase := rfl
@[simp] theorem State.restFromTimebase_lastServed (rest : List TimebaseMsg) : (s.restFromTimebase rest).lastServed = s.lastServed := rfl
@[simp] theorem State.restFromTimebase_ports (rest : List TimebaseMsg) : (s.restFromTimebase rest).ports = s.ports := rfl
@[simp] theorem State.restFromTimebase_toEngine (rest : List TimebaseMsg) : (s.restFromTimebase rest).toEngine = s.toEngine := rfl
@[simp] theorem State.restFromTimebase_toPort (rest : List TimebaseMsg) : (s.restFromTimebase rest).toPort = s.toPort := rfl
@[simp] theorem State.restFromTimebase_toTimebase (rest : List TimebaseMsg) : (s.restFromTimebase rest).toTimebase = s.toTimebase := rfl
@[simp] theorem State.restFromTimebase_fromTimebase (rest : List TimebaseMsg) : (s.restFromTimebase rest).fromTimebase = rest := rfl
@[simp] theorem State.restFromTimebase_pending (rest : List TimebaseMsg) : (s.restFromTimebase rest).pending = s.pending := rfl

@[simp] theorem State.sendFromTimebase_resetLow (ms : List TimebaseMsg) : (s.sendFromTimebase ms).resetLow = s.resetLow := rfl
@[simp] theorem State.sendFromTimebase_engine (ms : List TimebaseMsg) : (s.sendFromTimebase ms).engine = s.engine := rfl
@[simp] theorem State.sendFromTimebase_timebase (ms : List TimebaseMsg) : (s.sendFromTimebase ms).timebase = s.timebase := rfl
@[simp] theorem State.sendFromTimebase_lastServed (ms : List TimebaseMsg) : (s.sendFromTimebase ms).lastServed = s.lastServed := rfl
@[simp] theorem State.sendFromTimebase_ports (ms : List TimebaseMsg) : (s.sendFromTimebase ms).ports = s.ports := rfl
@[simp] theorem State.sendFromTimebase_toEngine (ms : List TimebaseMsg) : (s.sendFromTimebase ms).toEngine = s.toEngine := rfl
@[simp] theorem State.sendFromTimebase_toPort (ms : List TimebaseMsg) : (s.sendFromTimebase ms).toPort = s.toPort := rfl
@[simp] theorem State.sendFromTimebase_toTimebase (ms : List TimebaseMsg) : (s.sendFromTimebase ms).toTimebase = s.toTimebase := rfl
@[simp] theorem State.sendFromTimebase_fromTimebase (ms : List TimebaseMsg) : (s.sendFromTimebase ms).fromTimebase = s.fromTimebase ++ ms := rfl
@[simp] theorem State.sendFromTimebase_pending (ms : List TimebaseMsg) : (s.sendFromTimebase ms).pending = s.pending := rfl

@[simp] theorem State.applyEffect_resetLow (f : Effect) : (s.applyEffect f).resetLow = s.resetLow := rfl
@[simp] theorem State.applyEffect_engine (f : Effect) : (s.applyEffect f).engine = f.engine := rfl
@[simp] theorem State.applyEffect_timebase (f : Effect) : (s.applyEffect f).timebase = s.timebase := rfl
@[simp] theorem State.applyEffect_lastServed (f : Effect) : (s.applyEffect f).lastServed = s.lastServed := rfl
@[simp] theorem State.applyEffect_ports (f : Effect) : (s.applyEffect f).ports = s.ports := rfl
@[simp] theorem State.applyEffect_toEngine (f : Effect) : (s.applyEffect f).toEngine = s.toEngine := rfl
@[simp] theorem State.applyEffect_toPort (f : Effect) : (s.applyEffect f).toPort = tab fun p => pick s.toPort p ++ outFor p f.out := rfl
@[simp] theorem State.applyEffect_toTimebase (f : Effect) : (s.applyEffect f).toTimebase = f.call.orElse fun _ => s.toTimebase := rfl
@[simp] theorem State.applyEffect_fromTimebase (f : Effect) : (s.applyEffect f).fromTimebase = s.fromTimebase := rfl
@[simp] theorem State.applyEffect_pending (f : Effect) : (s.applyEffect f).pending = s.pending := rfl

/-- Port `p` after port `q` was replaced. -/
theorem State.port_setPort (p q : Port) (a : AgentPort) :
    (s.setPort q a).port p = if p = q then a else s.port p := pick_put ..

@[simp] theorem State.port_setPort_self (p : Port) (a : AgentPort) : (s.setPort p a).port p = a := pick_put_self ..

theorem State.port_setPort_ne {p q : Port} (a : AgentPort) (h : p ≠ q) : (s.setPort q a).port p = s.port p :=
  pick_put_ne _ _ h

@[simp] theorem State.setEngine_port (e : Engine) (q : Port) : (s.setEngine e).port q = s.port q := rfl
@[simp] theorem State.setTimebase_port (x : Timebase) (q : Port) : (s.setTimebase x).port q = s.port q := rfl
@[simp] theorem State.send_port (out : List Out) (q : Port) : (s.send out).port q = s.port q := rfl
@[simp] theorem State.sendToEngine_port (p : Port) (ms : List PortMsg) (q : Port) : (s.sendToEngine p ms).port q = s.port q := rfl
@[simp] theorem State.restToEngine_port (p : Port) (rest : List PortMsg) (q : Port) : (s.restToEngine p rest).port q = s.port q := rfl
@[simp] theorem State.restToPort_port (p : Port) (rest : List EngineMsg) (q : Port) : (s.restToPort p rest).port q = s.port q := rfl
@[simp] theorem State.restFromTimebase_port (rest : List TimebaseMsg) (q : Port) : (s.restFromTimebase rest).port q = s.port q := rfl
@[simp] theorem State.sendFromTimebase_port (ms : List TimebaseMsg) (q : Port) : (s.sendFromTimebase ms).port q = s.port q := rfl
@[simp] theorem State.applyEffect_port (f : Effect) (q : Port) : (s.applyEffect f).port q = s.port q := rfl

/-- The ports of a state whose ports were all written at once. -/
theorem State.port_of_ports {s : State} {f : Port → AgentPort} (h : s.ports = tab f) (p : Port) : s.port p = f p := by
  rw [State.port, h, pick_tab]

/-- What port `p`'s path holds after the engine has sent `out`. -/
@[simp] theorem State.pick_send_toPort (p : Port) (out : List Out) :
    pick (s.send out).toPort p = pick s.toPort p ++ outFor p out := by simp

@[simp] theorem outFor_nil (p : Port) : outFor p [] = [] := rfl

@[simp] theorem outFor_append (p : Port) (a b : List Out) : outFor p (a ++ b) = outFor p a ++ outFor p b := by
  simp [outFor]

theorem outFor_cons (p : Port) (m : Out) (a : List Out) :
    outFor p (m :: a) = (if m.1 = p then [m.2] else []) ++ outFor p a := by
  unfold outFor
  by_cases h : m.1 = p <;> simp [h]

/-- Sending nothing changes nothing. -/
@[simp] theorem State.send_nil : s.send [] = s := by
  have h : (tab fun p => pick s.toPort p ++ outFor p []) = s.toPort := table_ext fun k => by simp
  rw [State.send, h]

/-- An effect that changes no engine field and sends no clock request only sends its messages. -/
theorem State.applyEffect_eq (e : Engine) (out : List Out) :
    s.applyEffect { engine := e, out := out } = (s.setEngine e).send out := rfl

/-- A reply leaves the engine as it was and sends one answer. -/
theorem State.applyEffect_reply (p : Port) (t : Tag) (o : ResultCode) (x : Payload) :
    s.applyEffect (s.engine.reply p t o x) = s.send [answerTo p t o x] := rfl

end Sys2Proof.Machine
end

