-- ==== Sys2Proof/Laws/Taking.lean ====
section
/-! SUPPORT. Laws/Taking.lean: everything that the shared operations which take an event can answer. -/

namespace Sys2Proof.Machine

variable {s s' : State}

/-! ### Running -/

/-- While RESETn is low the event is not taken. -/
theorem State.whenRunning_low (k : StepResult) (h : s.resetLow = true) : s.whenRunning k = .next s := by
  simp [State.whenRunning, h]

/-- While RESETn is high the event is taken. -/
@[simp] theorem State.whenRunning_high (k : StepResult) (h : s.resetLow = false) : s.whenRunning k = k := by
  simp [State.whenRunning, h]

/-- A next state of `whenRunning` is that of its event, or nothing changed. -/
theorem State.whenRunning_next {k : StepResult} (h : s.whenRunning k = .next s') :
    s' = s ∨ (s.resetLow = false ∧ k = .next s') := by
  unfold State.whenRunning at h
  split at h
  · exact .inl (by injection h with h; exact h.symm)
  · next hr => exact .inr ⟨by simpa using hr, h⟩

/-! ### Messages of a port taken by the engine -/

/-- A head that has an effect is taken. -/
theorem State.takeFromPort_head {p : Port} {f : PortMsg → Option Effect} {m : PortMsg} {rest : List PortMsg}
    {x : Effect} (hr : s.resetLow = false) (hm : pick s.toEngine p = m :: rest) (hx : f m = some x) :
    s.takeFromPort p f = .next ((s.restToEngine p rest).applyEffect x) := by
  simp [State.takeFromPort, hr, hm, hx]

/-- Everything that the taking of a port's message can answer. -/
theorem State.takeFromPort_cases (s : State) (p : Port) (f : PortMsg → Option Effect) :
    s.takeFromPort p f = .next s ∨
      ∃ m rest x, s.resetLow = false ∧ pick s.toEngine p = m :: rest ∧ f m = some x ∧
        s.takeFromPort p f = .next ((s.restToEngine p rest).applyEffect x) := by
  unfold State.takeFromPort State.whenRunning
  split
  · exact .inl rfl
  next hr =>
    split
    · exact .inl rfl
    next m rest hm =>
      split
      next x hx => exact .inr ⟨m, rest, x, by simpa using hr, hm, hx, rfl⟩
      · exact .inl rfl

/-- A request at the head of its path is taken when the engine holds no clock request. -/
theorem State.takeRequest_head {p : Port} {f : Tag → Request → Option Effect} {t : Tag} {r : Request}
    {rest : List PortMsg} {x : Effect} (hr : s.resetLow = false) (hc : s.engine.clock = none)
    (hm : pick s.toEngine p = .request t r :: rest) (hx : f t r = some x) :
    s.takeRequest p f = .next ((s.restToEngine p rest).applyEffect x) := by
  have h : s.engine.clock.isSome = false := by simp [hc]
  rw [State.takeRequest, if_neg (by simp [h])]
  exact State.takeFromPort_head hr hm hx

/-- Everything that the taking of a request can answer. -/
theorem State.takeRequest_cases (s : State) (p : Port) (f : Tag → Request → Option Effect) :
    s.takeRequest p f = .next s ∨
      ∃ t r rest x, s.resetLow = false ∧ s.engine.clock = none ∧ pick s.toEngine p = .request t r :: rest ∧
        f t r = some x ∧ s.takeRequest p f = .next ((s.restToEngine p rest).applyEffect x) := by
  unfold State.takeRequest
  split
  · exact .inl rfl
  next hc =>
    rcases State.takeFromPort_cases s p (fun m => match m with | .request t r => f t r | _ => none) with h | h
    · exact .inl h
    · obtain ⟨m, rest, x, hr, hm, hx, he⟩ := h
      cases m with
      | request t r => exact .inr ⟨t, r, rest, x, hr, by simpa using hc, hm, hx, he⟩
      | cancel t => simp at hx
      | portDrop => simp at hx

/-! ### Tick notices -/

/-- Everything that the taking of a tick notice can answer. -/
theorem State.takeTickIf_cases (s : State) (f : Engine → Tick → Bool) :
    s.takeTickIf f = .next s ∨
      ∃ n rest, s.resetLow = false ∧ s.fromTimebase = .tick n :: rest ∧ f s.engine n = true ∧
        s.takeTickIf f = .next ((s.restFromTimebase rest).applyEffect (s.engine.tick n)) := by
  unfold State.takeTickIf State.whenRunning
  split
  · exact .inl rfl
  next hr =>
    split
    next n rest hm =>
      split
      next hf => exact .inr ⟨n, rest, by simpa using hr, hm, hf, rfl⟩
      · exact .inl rfl
    · exact .inl rfl

/-- The tick notice at the head of the path is taken when the condition holds. -/
theorem State.takeTickIf_head {f : Engine → Tick → Bool} {n : Tick} {rest : List TimebaseMsg}
    (hr : s.resetLow = false) (hm : s.fromTimebase = .tick n :: rest) (hf : f s.engine n = true) :
    s.takeTickIf f = .next ((s.restFromTimebase rest).applyEffect (s.engine.tick n)) := by
  simp [State.takeTickIf, hr, hm, hf]

/-! ### Messages of the engine taken by a port -/

/-- A head of the command's kind is taken. -/
theorem State.takeAtPort_head {p : Port} {f : EngineMsg → Option (Except Fault AgentPort)} {m : EngineMsg}
    {rest : List EngineMsg} {a : AgentPort} (hr : s.resetLow = false) (hm : pick s.toPort p = m :: rest)
    (hx : f m = some (.ok a)) : s.takeAtPort p f = .next ((s.restToPort p rest).setPort p a) := by
  simp [State.takeAtPort, hr, hm, hx]

/-- Everything that the taking of an engine message can answer. -/
theorem State.takeAtPort_cases (s : State) (p : Port) (f : EngineMsg → Option (Except Fault AgentPort)) :
    s.takeAtPort p f = .next s ∨
      ∃ m rest, s.resetLow = false ∧ pick s.toPort p = m :: rest ∧
        ((∃ a, f m = some (.ok a) ∧ s.takeAtPort p f = .next ((s.restToPort p rest).setPort p a)) ∨
          ∃ x, f m = some (.error x) ∧ s.takeAtPort p f = .fault x) := by
  unfold State.takeAtPort State.whenRunning
  split
  · exact .inl rfl
  next hr =>
    split
    · exact .inl rfl
    next m rest hm =>
      split
      next a ha => exact .inr ⟨m, rest, by simpa using hr, hm, .inl ⟨a, ha, rfl⟩⟩
      next x hx => exact .inr ⟨m, rest, by simpa using hr, hm, .inr ⟨x, hx, rfl⟩⟩
      · exact .inl rfl

/-! ### Events at a port -/

/-- Everything that an event at a port's pins or link can answer. -/
theorem State.atPort_cases (s : State) (p : Port) (f : AgentPort → AgentPort × List PortMsg) :
    s.atPort p f = .next s ∨
      (s.resetLow = false ∧
        s.atPort p f = .next ((s.setPort p (f (s.port p)).1).sendToEngine p (f (s.port p)).2)) := by
  unfold State.atPort State.whenRunning
  split
  · exact .inl rfl
  next hr => exact .inr ⟨by simpa using hr, rfl⟩

/-- An event at a port while RESETn is high. -/
theorem State.atPort_running (p : Port) (f : AgentPort → AgentPort × List PortMsg) (hr : s.resetLow = false) :
    s.atPort p f = .next ((s.setPort p (f (s.port p)).1).sendToEngine p (f (s.port p)).2) := by
  simp [State.atPort, hr]

/-- Nothing sent leaves the path as it was. -/
@[simp] theorem State.sendToEngine_nil (p : Port) : s.sendToEngine p [] = s := by
  have h : put s.toEngine p (pick s.toEngine p ++ []) = s.toEngine :=
    table_ext fun k => by
      rw [pick_put, List.append_nil]
      split
      · next e => rw [e]
      · rfl
  rw [State.sendToEngine, h]

end Sys2Proof.Machine
end

