-- ==== Sys2Proof/Laws/Step.lean ====
section
/-! SUPPORT. Laws/Step.lean: everything that a command can do, said once. A proof about every command cites
`exec_next` and goes by cases over `Move`, without unfolding the 55 meanings. -/

namespace Sys2Proof.Machine

/-- The effect of a request `r` of context `t` of port `p` that the engine takes. -/
def Engine.requestEffect (e : Engine) (p : Port) (t : Tag) : Request → Effect
  | .openSession m a => e.openReq p t m a
  | .closeSession => e.closeReq p t
  | .readClock => e.readClockReq p t
  | .noop => e.noopReq p t
  | .claim b l m d w x => e.claimReq p t b l m d w x
  | .renew h d => e.renewReq p t h d
  | .release h => e.releaseReq p t h
  | .downgrade h => e.downgradeReq p t h
  | .upgrade h w => e.upgradeReq p t h w
  | .acknowledge h => e.acknowledgeReq p t h
  | .notice => e.noticeReq p t
  | .probe b l => e.probeReq p t b l
  | .scanFirst f q b l => e.scanFirstReq p t f q b l
  | .scanNext => e.scanNextReq p t
  | .limits q c d m r => e.limitsReq p t q c d m r
  | .revoke h => e.revokeReq p t h
  | .revokeRange b l => e.revokeRangeReq p t b l
  | .evict q => e.evictReq p t q
  | .freeze => e.freezeReq p t
  | .thaw => e.thawReq p t
  | .trim a => e.trimReq p t a

/-- The effect of a message of port `p` that the engine takes. -/
def Engine.portEffect (e : Engine) (p : Port) : PortMsg → Effect
  | .request t r => e.requestEffect p t r
  | .cancel t => e.cancelReq p t
  | .portDrop => e.dropPort p

/-- What a message of the engine makes of the port that takes it. -/
def AgentPort.messageEffect (a : AgentPort) : EngineMsg → Except Fault AgentPort
  | .answer t x => a.takeAnswer t x
  | .completion t c => a.takeCompletion t c
  | .cancelLate t => a.takeCancelLate t
  | .marked n => .ok { a with marked := n }
  | .session o k l => .ok { a with sessionOpen := o, mask := k, lost := l }
  | .freeze f o => .ok { a with frozen := f, freezeOwner := o }
  | .dropComplete => a.takeDropComplete

/-- What a transaction on a port's link can make of the port, and what the port then sends to the engine. -/
inductive LinkMove (a : AgentPort) : AgentPort → List PortMsg → Prop where
  | selectFall : LinkMove a a.selectFall []
  | selectRise : LinkMove a a.selectRise []
  | submit (t : Tag) (bytes : List Byte) : LinkMove a (a.submit t bytes) []
  | bitAfterCheck : LinkMove a a.bitAfterCheck []
  | fetch (t : Tag) : LinkMove a (a.fetch t) []
  | fetchComplete : LinkMove a a.fetchComplete []
  | cancel (t : Tag) : LinkMove a (a.cancel t).1 (a.cancel t).2
  | statusReply : LinkMove a a.statusReply []
  | causeShiftedOut : LinkMove a a.causeShiftedOut []
  | unknownTransaction (b : Byte) : LinkMove a (a.unknownTransaction b) []

/-- Everything that a command can make of the part. -/
inductive Move (s : State) : State → Prop where
  | none : Move s s
  | deviceReset : Move s { State.reset with
      ports := tab fun p => AgentPort.reset (s.port p).selLow
      pending := s.pending }
  | release (straps prst : PinLevels) (low : s.resetLow = true) : Move s { s with
      resetLow := false
      engine := s.engine.atRelease straps
      ports := tab fun p => (s.port p).atRelease (pick straps p) (pick prst p) }
  | selectLevel (p : Port) (level : Bool) (low : s.resetLow = true) :
      Move s (s.setPort p { s.port p with selLow := level })
  | edge (prst : PinLevels) (running : s.resetLow = false) : Move s (s.refclk prst)
  | tick (n : Tick) (rest : List TimebaseMsg) (running : s.resetLow = false)
      (head : s.fromTimebase = .tick n :: rest) :
      Move s ((s.restFromTimebase rest).applyEffect (s.engine.tick n))
  | take (p : Port) (m : PortMsg) (rest : List PortMsg) (running : s.resetLow = false)
      (head : pick s.toEngine p = m :: rest) (free : m.isRequest = true → s.engine.clock = .none) :
      Move s ((s.restToEngine p rest).applyEffect (s.engine.portEffect p m))
  | clockAnswer (m : TimebaseMsg) (rest : List TimebaseMsg) (c : ClockRequest) (o : ResultCode) (x : Payload)
      (running : s.resetLow = false) (head : s.fromTimebase = m :: rest) (held : s.engine.clock = some c)
      (result : c.resultOf m = some (o, x)) :
      Move s ((s.restFromTimebase rest).applyEffect (s.engine.endClock c o x))
  | arbiter (p : Port) (t : Tag) (r : Request) (running : s.resetLow = false) (ready : s.engineReady = true)
      (head : s.takable p = some (t, r)) : Move s (s.arbiterTakes p t r)
  | trim (a : Byte) (running : s.resetLow = false) (call : s.toTimebase = some (.trim a)) :
      Move s { (s.setTimebase (s.timebase.trim a).1).sendFromTimebase (s.timebase.trim a).2 with
        toTimebase := .none }
  | readClock (running : s.resetLow = false) (call : s.toTimebase = some .readClock) :
      Move s { s.sendFromTimebase [.clockAnswer s.timebase.now s.timebase.phase s.timebase.debt] with
        toTimebase := .none }
  | message (p : Port) (m : EngineMsg) (rest : List EngineMsg) (a : AgentPort) (running : s.resetLow = false)
      (head : pick s.toPort p = m :: rest) (taken : (s.port p).messageEffect m = .ok a) :
      Move s ((s.restToPort p rest).setPort p a)
  | link (p : Port) (a : AgentPort) (ms : List PortMsg) (running : s.resetLow = false)
      (moved : LinkMove (s.port p) a ms) : Move s ((s.setPort p a).sendToEngine p ms)

/-! ### Each shared operation as a move -/

variable {s s' : State}

theorem Move.of_takeFromPort {p : Port} {f : PortMsg → Option Effect} (h : s.takeFromPort p f = .next s')
    (hf : ∀ m x, f m = some x → x = s.engine.portEffect p m)
    (hc : ∀ m x, f m = some x → m.isRequest = true → s.engine.clock = Option.none) : Move s s' := by
  rcases State.takeFromPort_cases s p f with h' | h'
  · rw [h] at h'; injection h' with h'; rw [h']; exact .none
  · obtain ⟨m, rest, x, hr, hm, hx, he⟩ := h'
    rw [h] at he; injection he with he
    rw [he, hf m x hx]
    exact .take p m rest hr hm (hc m x hx)

theorem Move.of_takeRequest {p : Port} {f : Tag → Request → Option Effect} (h : s.takeRequest p f = .next s')
    (hf : ∀ t r x, f t r = some x → x = s.engine.requestEffect p t r) : Move s s' := by
  rcases State.takeRequest_cases s p f with h' | h'
  · rw [h] at h'; injection h' with h'; rw [h']; exact .none
  · obtain ⟨t, r, rest, x, hr, hc, hm, hx, he⟩ := h'
    rw [h] at he; injection he with he
    rw [he, hf t r x hx]
    exact .take p (.request t r) rest hr hm fun _ => hc

theorem Move.of_takeTickIf {f : Engine → Tick → Bool} (h : s.takeTickIf f = .next s') : Move s s' := by
  rcases State.takeTickIf_cases s f with h' | h'
  · rw [h] at h'; injection h' with h'; rw [h']; exact .none
  · obtain ⟨n, rest, hr, hm, -, he⟩ := h'
    rw [h] at he; injection he with he
    rw [he]
    exact .tick n rest hr hm

theorem Move.of_takeAtPort {p : Port} {f : EngineMsg → Option (Except Fault AgentPort)}
    (h : s.takeAtPort p f = .next s') (hf : ∀ m x, f m = some x → x = (s.port p).messageEffect m) :
    Move s s' := by
  rcases State.takeAtPort_cases s p f with h' | h'
  · rw [h] at h'; injection h' with h'; rw [h']; exact .none
  · obtain ⟨m, rest, hr, hm, ⟨a, ha, he⟩ | ⟨x, -, he⟩⟩ := h'
    · rw [h] at he; injection he with he
      rw [he]
      exact .message p m rest a hr hm (hf m _ ha).symm
    · rw [h] at he; cases he

theorem Move.of_atPort {p : Port} {f : AgentPort → AgentPort × List PortMsg} (h : s.atPort p f = .next s')
    (hf : LinkMove (s.port p) (f (s.port p)).1 (f (s.port p)).2) : Move s s' := by
  rcases State.atPort_cases s p f with h' | ⟨hr, h'⟩
  · rw [h] at h'; injection h' with h'; rw [h']; exact .none
  · rw [h] at h'; injection h' with h'
    rw [h']
    exact .link p _ _ hr hf

/-! ### Every command -/

/-- Everything that a command which answers a next state can do. -/
theorem exec_next {c : Instr} (h : exec c s = .next s') : Move s s' := by
  cases c with
  | deviceReset => injection h with h; rw [← h]; exact .deviceReset
  | resetRelease straps prst =>
    simp only [exec, execResetRelease] at h
    split at h
    · next hr => injection h with h; rw [← h]; exact .release straps prst hr
    · injection h with h; rw [← h]; exact .none
  | refclkEdge prst =>
    rcases State.whenRunning_next h with h | ⟨hr, h⟩
    · rw [h]; exact .none
    · injection h with h; rw [← h]; exact .edge prst hr
  | portReset p prst =>
    rcases State.whenRunning_next h with h | ⟨hr, h⟩
    · rw [h]; exact .none
    · split at h <;> injection h with h <;> rw [← h]
      · exact .edge prst hr
      · exact .none
  | portRelease p prst =>
    rcases State.whenRunning_next h with h | ⟨hr, h⟩
    · rw [h]; exact .none
    · split at h <;> injection h with h <;> rw [← h]
      · exact .edge prst hr
      · exact .none
  | tickNotice => unfold exec execTickNotice at h; exact .of_takeTickIf h
  | leaseExpiry k => unfold exec execLeaseExpiry at h; exact .of_takeTickIf h
  | waitTimeout k => unfold exec execWaitTimeout at h; exact .of_takeTickIf h
  | conversionTimeout k => unfold exec execConversionTimeout at h; exact .of_takeTickIf h
  | warnMarginReached k => unfold exec execWarnMarginReached at h; exact .of_takeTickIf h
  | freezeLimit => unfold exec execFreezeLimit at h; exact .of_takeTickIf h
  | arbiterTake =>
    rcases State.whenRunning_next h with h | ⟨hr, h⟩
    · rw [h]; exact .none
    · split at h
      next hready =>
        split at h
        next p t r hf =>
          injection h with h; rw [← h]
          obtain ⟨q, -, hq⟩ := List.exists_of_findSome?_eq_some hf
          cases hp : s.takable q with
          | none => simp [hp] at hq
          | some v =>
            simp only [hp, Option.map_some, Option.some.injEq, Prod.mk.injEq] at hq
            obtain ⟨rfl, rfl⟩ := hq
            exact .arbiter _ _ _ hr hready hp
        · injection h with h; rw [← h]; exact .none
      · injection h with h; rw [← h]; exact .none
  | timebaseTrim =>
    rcases State.whenRunning_next h with h | ⟨hr, h⟩
    · rw [h]; exact .none
    · split at h <;> injection h with h <;> rw [← h]
      · next a ha => exact .trim a hr ha
      · exact .none
  | timebaseReadClock =>
    rcases State.whenRunning_next h with h | ⟨hr, h⟩
    · rw [h]; exact .none
    · split at h <;> injection h with h <;> rw [← h]
      · next ha => exact .readClock hr ha
      · exact .none
  | clockAnswer =>
    rcases State.whenRunning_next h with h | ⟨hr, h⟩
    · rw [h]; exact .none
    · split at h
      · injection h with h; rw [← h]; exact .none
      · injection h with h; rw [← h]; exact .none
      next m rest _ hm =>
        split at h
        next c o x hf =>
          injection h with h; rw [← h]
          cases hc : s.engine.clock with
          | none => simp [hc] at hf
          | some d =>
            simp only [hc, Option.bind_some, Option.map_eq_some_iff, Prod.mk.injEq] at hf
            obtain ⟨r, h1, rfl, h2⟩ := hf
            exact .clockAnswer m rest d o x hr hm hc (by rw [h1, h2])
        · cases h
  | forwardedCancel p =>
    exact .of_takeFromPort h (fun m x hx => by cases m <;> simp_all [Engine.portEffect])
      fun m x hx hm => by cases m <;> simp_all [PortMsg.isRequest]
  | portDrop p =>
    exact .of_takeFromPort h (fun m x hx => by cases m <;> simp_all [Engine.portEffect])
      fun m x hx hm => by cases m <;> simp_all [PortMsg.isRequest]
  | portAnswer p => exact .of_takeAtPort h fun m x hx => by cases m <;> simp_all [AgentPort.messageEffect]
  | portCompletion p => exact .of_takeAtPort h fun m x hx => by cases m <;> simp_all [AgentPort.messageEffect]
  | cancelLateNotice p => exact .of_takeAtPort h fun m x hx => by cases m <;> simp_all [AgentPort.messageEffect]
  | markedCount p => exact .of_takeAtPort h fun m x hx => by cases m <;> simp_all [AgentPort.messageEffect]
  | sessionNotice p => exact .of_takeAtPort h fun m x hx => by cases m <;> simp_all [AgentPort.messageEffect]
  | freezeNotice p => exact .of_takeAtPort h fun m x hx => by cases m <;> simp_all [AgentPort.messageEffect]
  | dropComplete p => exact .of_takeAtPort h fun m x hx => by cases m <;> simp_all [AgentPort.messageEffect]
  | selectFall p =>
    simp only [exec, execSelectFall] at h
    split at h
    · next hr => injection h with h; rw [← h]; exact .selectLevel p true hr
    · next hr =>
      injection h with h
      rw [← h, ← State.sendToEngine_nil (s := s.setPort p _) p]
      exact .link p _ _ (by simpa using hr) .selectFall
  | selectRise p =>
    simp only [exec, execSelectRise] at h
    split at h
    · next hr => injection h with h; rw [← h]; exact .selectLevel p false hr
    · next hr =>
      injection h with h
      rw [← h, ← State.sendToEngine_nil (s := s.setPort p _) p]
      exact .link p _ _ (by simpa using hr) .selectRise
  | submit p t bytes => unfold exec execSubmit at h; exact .of_atPort h (.submit t bytes)
  | bitAfterCheckByte p => unfold exec execBitAfterCheckByte at h; exact .of_atPort h .bitAfterCheck
  | fetch p t => unfold exec execFetch at h; exact .of_atPort h (.fetch t)
  | fetchComplete p => unfold exec execFetchComplete at h; exact .of_atPort h .fetchComplete
  | cancel p t => unfold exec execCancel at h; exact .of_atPort h (.cancel t)
  | status p => unfold exec execStatus at h; exact .of_atPort h .statusReply
  | linkFaultCauseShiftedOut p => unfold exec execLinkFaultCauseShiftedOut at h; exact .of_atPort h .causeShiftedOut
  | unknownTransaction p b => unfold exec execUnknownTransaction at h; exact .of_atPort h (.unknownTransaction b)
  | _ p => exact .of_takeRequest h fun t r x hx => by cases r <;> simp_all [Engine.requestEffect]

/-- Everything that a step which answers a next state can do. -/
theorem step_next (h : step s = .next s') :
    (s.pending = [] ∧ s' = s) ∨ ∃ c q, s.pending = c :: q ∧ Move { s with pending := q } s' := by
  unfold step at h
  split at h
  · next hp => injection h with h; exact .inl ⟨hp, h.symm⟩
  · next c q hp => exact .inr ⟨c, q, hp, exec_next h⟩

end Sys2Proof.Machine
end

