-- ==== Sys2Proof/Laws/Edits.lean ====
section
/-! SUPPORT. Laws/Edits.lean: everything that an event of the engine can make of the engine, said once. A proof about
every event of the engine cites `EngineNext.of_portEffect` or `EngineNext.of_tick` and goes by cases over `Edit`. -/

namespace Sys2Proof.Machine

/-- What one event makes of the engine before the event is closed, with what the event's checks have established. -/
inductive Edit (e : Engine) : Engine → Prop where
  | same : Edit e e
  | clock (c : Option ClockRequest) : Edit e { e with clock := c }
  | opened (p : Port) (margin : BitVec 12) (mask : AttnMask) (shut : e.sessionOpen p = false) :
      Edit e (e.setSession p ((e.session p).opened margin mask))
  | cursor (p : Port) (c : Option Cursor) (isOpen : e.sessionOpen p = true) : Edit e (e.setCursor p c)
  | limits (q : Port) (l : Limits) (owned : e.ownedCount q ≤ l.leaseCap.toNat) (low : 1 ≤ l.leaseCap.toNat)
      (high : l.leaseCap.toNat ≤ 64) (duration : l.durationCap ≠ 0) : Edit e (e.setLimits q l)
  | freeze (p : Port) (isOpen : e.sessionOpen p = true) (right : (e.session p).supervisor = true)
      (thawed : e.freeze = none) : Edit e { e with freeze := some { owner := p, start := e.settled } }
  | grant (k : SlotNo) (c : Common) (d : Half) (free : (e.record k).isFree = true)
      (isOpen : e.sessionOpen c.holder = true) (valid : c.region.valid = true)
      (cap : e.ownedCount c.holder < (e.limitsOf c.holder).leaseCap.toNat)
      (clear : ∀ j, (e.record j).blocks c.region c.mode = false) :
      Edit e (e.enter k (.held (e.grantedHeld c d)))
  | queue (k : SlotNo) (w : Waiting) (limit : Half) (free : (e.record k).isFree = true)
      (isOpen : e.sessionOpen w.holder = true) (valid : w.region.valid = true)
      (cap : e.ownedCount w.holder < (e.limitsOf w.holder).leaseCap.toNat) (bounded : limit ≠ 0)
      (deadline : w.waitDeadline = waitDeadlineFrom e.settled limit) : Edit e (e.queued k w)
  | renew (p : Port) (k : SlotNo) (x : Held) (stated stored : Half) (n : Tick) (held : e.record k = .held x)
      (timed : x.term = .timed stored n) :
      Edit e (e.setRecord k (.held (e.renewed p x (effectiveDuration stated stored))))
  | acknowledge (k : SlotNo) (x : Held) (held : e.record k = .held x) (warned : x.warned = true) :
      Edit e (e.setRecord k (.held { x with warned := false }))
  | convert (k : SlotNo) (x : Held) (held : e.record k = .held x) (shared : x.mode = .shared)
      (single : x.conv = none) (clear : e.otherHolders k x.region = []) :
      Edit e (e.setRecord k (.held { x with mode := .sole }))
  | pend (k : SlotNo) (x : Held) (t : Tag) (limit : Half) (held : e.record k = .held x)
      (shared : x.mode = .shared) (single : x.conv = none) (clear : e.overlappingConversions x.region = [])
      (bounded : limit ≠ 0) :
      Edit e
        { e.setRecord k
            (.held { x with conv := some { tag := t, waitDeadline := waitDeadlineFrom e.settled limit } }) with
          convList := e.convList ++ [k] }
  | downgrade (k : SlotNo) (x : Held) (held : e.record k = .held x) (sole : x.mode = .sole) :
      Edit e (e.setRecord k (.held { x with mode := .shared })).passUnlessFrozen.1
  | freeRetired (k : SlotNo) (x : Retired) (retired : e.record k = .retired x) :
      Edit e (e.freeWhere fun j => j == k)
  | freeThenPass (k : SlotNo) (used : (e.record k).isFree = false) :
      Edit e (e.freeWhere fun j => j == k).passUnlessFrozen.1
  | retireThenPass (which : SlotNo → Bool) (held : ∀ k, which k = true → (e.record k).isHeld = true) :
      Edit e (e.retireWhere which .revoked).passUnlessFrozen.1
  | retireNone (which : SlotNo → Bool) (empty : ∀ k, which k = false) : Edit e (e.retireWhere which .revoked)
  | dropConvThenPass (k : SlotNo) (pending : (e.record k).conv.isSome = true) :
      Edit e (e.dropConvWhere fun j => j == k).passUnlessFrozen.1
  | thaw (f : Freeze) (frozen : e.freeze = some f) : Edit e (e.settleThaw f.start).engine
  | endSession (p : Port) (tell : Bool) (isOpen : e.sessionOpen p = true) : Edit e (e.endSession p tell).engine
  | endSessionLost (p : Port) (tell lost : Bool) : Edit e ((e.endSession p tell).engine.setLost p lost)
  | advance (n : Tick) (f : Freeze) (frozen : e.freeze = some f) : Edit e (e.advance n)
  | tick (n : Tick) (thawed : e.freeze = none) : Edit e (e.advance n).settleDue.engine.warnPart
  | tickPass (n : Tick) (thawed : e.freeze = none) : Edit e (e.advance n).settleDue.engine.warnPart.grantPass.1
  | limitThaw (n : Tick) (f : Freeze) (frozen : e.freeze = some f) : Edit e ((e.advance n).settleThaw f.start).engine

/-- What one event makes of the engine: an edit, closed or not by the generation step of R19, and the clock request
written or not. -/
inductive EngineNext (e : Engine) : Engine → Prop where
  | plain (m : Engine) (h : Edit e m) : EngineNext e m
  | closed (m : Engine) (h : Edit e m) : EngineNext e (e.closeEvent m)
  | closedClock (m : Engine) (h : Edit e m) (c : Option ClockRequest) :
      EngineNext e { e.closeEvent m with clock := c }

theorem EngineNext.same (e : Engine) : EngineNext e e := .plain e .same

/-! ### Facts that the checks establish -/

theorem Engine.lowestFree_free {e : Engine} {k : SlotNo} (h : e.lowestFree = some k) :
    (e.record k).isFree = true := by
  have := List.find?_some h
  exact this

theorem Engine.blockers_nil {e : Engine} {g : Region} {m : Mode} (h : e.blockers g m = []) (j : SlotNo) :
    (e.record j).blocks g m = false := by
  have := List.filter_eq_nil_iff.mp h j (mem_allSlots j)
  simpa using this

/-- What an admitted claim has passed (R27 to R33). -/
theorem Engine.admit_ok {e : Engine} {p : Port} {b : BitVec 24} {l : Half} {m : Byte} {d : Half} {m' : Mode}
    {k : SlotNo} (h : e.admission p b l m d = .ok (m', k)) :
    e.sessionOpen p = true ∧ modeOf m = some m' ∧ baseMeaningful b = true ∧ (regionOf b l).valid = true ∧
      (e.limitsOf p).tooLong d = false ∧ e.ownedCount p < (e.limitsOf p).leaseCap.toNat ∧
      e.lowestFree = some k ∧ e.selfBlockers p (regionOf b l) m' = [] := by
  unfold Engine.admission at h
  split at h
  · cases h
  next ho =>
    split at h
    · cases h
    next mm hm =>
      split at h
      · cases h
      next hb =>
        split at h
        · cases h
        next hv =>
          split at h
          · cases h
          next ht =>
            split at h
            · cases h
            next hc =>
              split at h
              · cases h
              · cases h
              next k' hk hs =>
                simp only [Except.ok.injEq, Prod.mk.injEq] at h
                obtain ⟨rfl, rfl⟩ := h
                exact ⟨by simpa using ho, hm, by simpa using hb, by simpa using hv, by simpa using ht,
                  by simpa using hc, hk, hs⟩

/-- What a holder request has passed (R51). -/
theorem Engine.holderCheck_ok {e : Engine} {p : Port} {h : Handle} {k : SlotNo} (hk : e.holderCheck p h = .ok k) :
    e.sessionOpen p = true ∧ e.current h = some k ∧ (e.record k).ownedBy p = true := by
  unfold Engine.holderCheck at hk
  split at hk
  · cases hk
  next ho =>
    split at hk
    · cases hk
    next k' hc =>
      split at hk
      next hb =>
        injection hk with hk
        subst hk
        exact ⟨by simpa using ho, hc, hb⟩
      · cases hk

/-- A current handle names a slot that is not FREE (R17). -/
theorem Engine.current_some {e : Engine} {h : Handle} {k : SlotNo} (hk : e.current h = some k) :
    k = slotOf h ∧ (e.record k).isFree = false ∧ e.issue k = issueOf h := by
  unfold Engine.current at hk
  split at hk
  · cases hk
  next hn =>
    injection hk with hk
    subst hk
    simp only [ne_eq, not_or, not_not, Bool.not_eq_true] at hn
    exact ⟨rfl, hn.1, hn.2⟩

/-- What a supervisor request has passed (R123). -/
theorem Engine.supervisorRefusal_none {e : Engine} {p : Port} (h : e.supervisorRefusal p = none) :
    e.sessionOpen p = true ∧ (e.session p).supervisor = true := by
  unfold Engine.supervisorRefusal at h
  split at h
  · cases h
  next ho =>
    split at h
    · cases h
    next hs => exact ⟨by simpa using ho, by simpa using hs⟩

/-- What the operands of an accepted LIMITS state (R129, R179). -/
theorem limitsOf_some {cap : Byte} {dur : Half} {pin ren : Byte} {l : Limits} (h : limitsOf cap dur pin ren = some l) :
    1 ≤ l.leaseCap.toNat ∧ l.leaseCap.toNat ≤ 64 ∧ l.durationCap ≠ 0 := by
  unfold limitsOf at h
  split at h
  · cases h
  next hn =>
    obtain ⟨f, -, rfl⟩ := Option.map_eq_some_iff.mp h
    simp only [not_or] at hn
    obtain ⟨h1, h2, h3⟩ := hn
    refine ⟨?_, ?_, h3⟩
    · have : cap.toNat ≠ 0 := fun h => h1 (BitVec.eq_of_toNat_eq (by simpa using h))
      show 1 ≤ cap.toNat
      omega
    · have : Config.maxLeaseCap.toNat = 64 := rfl
      show cap.toNat ≤ 64
      omega

/-! ### Requests -/

variable (e : Engine) (p : Port) (t : Tag)

theorem EngineNext.claimReq (b : BitVec 24) (l : Half) (m : Byte) (d w x : Half) :
    EngineNext e (e.claimReq p t b l m d w x).engine := by
  unfold Engine.claimReq
  split
  · exact .same e
  next m' k hk =>
    obtain ⟨ho, -, -, hv, -, hc, hf, -⟩ := Engine.admit_ok hk
    dsimp only
    split
    next hb => exact .closed _ (.grant k _ d (Engine.lowestFree_free hf) ho hv hc (Engine.blockers_nil hb))
    · split
      · exact .same e
      next hw => exact .closed _ (.queue k _ w (Engine.lowestFree_free hf) ho hv hc hw rfl)

theorem EngineNext.renewReq (h : Handle) (d : Half) : EngineNext e (e.renewReq p t h d).engine := by
  unfold Engine.renewReq
  split
  · exact .same e
  next k hk =>
    split
    next x hx =>
      split
      next stored n hn =>
        unfold Engine.renewLease
        dsimp only
        split
        · exact .same e
        · split
          · exact .same e
          · exact .closed _ (.renew p k x d stored n hx hn)
      · exact .same e
    · exact .same e
    · exact .same e

theorem EngineNext.releaseReq (h : Handle) : EngineNext e (e.releaseReq p t h).engine := by
  unfold Engine.releaseReq
  split
  · exact .same e
  next k hk =>
    split
    next x hx => exact .closed _ (.freeThenPass k (by rw [hx]; rfl))
    · exact .same e

theorem EngineNext.downgradeReq (h : Handle) : EngineNext e (e.downgradeReq p t h).engine := by
  unfold Engine.downgradeReq
  split
  · exact .same e
  next k hk =>
    split
    next x hx =>
      split
      next hm => exact .closed _ (.downgrade k x hx hm)
      · exact .same e
    · exact .same e
    · exact .same e

theorem EngineNext.upgradeReq (h : Handle) (w : Half) : EngineNext e (e.upgradeReq p t h w).engine := by
  unfold Engine.upgradeReq
  split
  · exact .same e
  next k hk =>
    split
    next x hx =>
      split
      next hm =>
        unfold Engine.upgradeLease
        split
        next ho => exact .closed _ (.convert k x hx hm.1 hm.2 ho)
        · exact .same e
        next ho =>
          split
          · exact .same e
          next hw => exact .closed _ (.pend k x t w hx hm.1 hm.2 ho hw)
      · exact .same e
    · exact .same e
    · exact .same e

theorem EngineNext.acknowledgeReq (h : Handle) : EngineNext e (e.acknowledgeReq p t h).engine := by
  unfold Engine.acknowledgeReq
  split
  · exact .same e
  next k hk =>
    split
    next x hx => exact .closed _ (.freeRetired k x hx)
    next x hx =>
      split
      next hw => exact .closed _ (.acknowledge k x hx hw)
      · exact .same e
    · exact .same e

theorem EngineNext.openReq (m : Half) (a : Byte) : EngineNext e (e.openReq p t m a).engine := by
  unfold Engine.openReq
  split
  · exact .same e
  next ho =>
    split
    · exact .plain _ (.opened p _ _ (by simpa using ho))
    · exact .same e

theorem EngineNext.closeReq : EngineNext e (e.closeReq p t).engine := by
  unfold Engine.closeReq
  split
  · exact .same e
  next ho => exact .closed _ (.endSession p true (by simpa using ho))

theorem EngineNext.limitsReq (q c : Byte) (d : Half) (m r : Byte) :
    EngineNext e (e.limitsReq p t q c d m r).engine := by
  unfold Engine.limitsReq
  split
  · exact .same e
  · split
    next q' l hq hl =>
      split
      · exact .same e
      next ho =>
        obtain ⟨h1, h2, h3⟩ := limitsOf_some hl
        exact .plain _ (.limits q' l (by omega) h1 h2 h3)
    · exact .same e

theorem EngineNext.evictReq (q : Byte) : EngineNext e (e.evictReq p t q).engine := by
  unfold Engine.evictReq
  split
  · exact .same e
  · split
    · exact .same e
    · split
      · exact .same e
      · split
        · exact .same e
        · exact .closed _ (.endSessionLost _ true true)

theorem EngineNext.dropPort : EngineNext e (e.dropPort p).engine :=
  .closedClock _ (.endSessionLost p false false) _

theorem EngineNext.noticeReq : EngineNext e (e.noticeReq p t).engine := by
  unfold Engine.noticeReq
  split
  · exact .same e
  · split <;> exact .same e

theorem EngineNext.probeReq (b : BitVec 24) (l : Half) : EngineNext e (e.probeReq p t b l).engine := by
  unfold Engine.probeReq
  split
  · exact .same e
  · split
    · exact .same e
    · split <;> exact .same e

theorem EngineNext.scanStep (f : Filter) (g : Half) (n : Nat) (ho : e.sessionOpen p = true) :
    EngineNext e (e.scanStep p t f g n).engine := by
  unfold Engine.scanStep
  split <;> exact .plain _ (.cursor p _ ho)

theorem EngineNext.scanFirstReq (f q : Byte) (b : BitVec 24) (l : Half) :
    EngineNext e (e.scanFirstReq p t f q b l).engine := by
  unfold Engine.scanFirstReq
  split
  · exact .same e
  next ho =>
    split
    · exact .same e
    · split
      · exact .same e
      · split
        · exact .same e
        · exact .scanStep e p t _ _ _ (by simpa using ho)

theorem EngineNext.scanNextReq : EngineNext e (e.scanNextReq p t).engine := by
  unfold Engine.scanNextReq
  split
  · exact .same e
  next ho =>
    split
    · exact .same e
    · exact .scanStep e p t _ _ _ (by simpa using ho)

theorem EngineNext.revokeReq (h : Handle) : EngineNext e (e.revokeReq p t h).engine := by
  unfold Engine.revokeReq
  split
  · exact .same e
  · split
    · exact .same e
    next k hk =>
      unfold Engine.revokeSlot
      split
      next x hx =>
        exact .closed _ (.retireThenPass _ fun j hj => by
          simp only [beq_iff_eq] at hj
          rw [hj, hx]; rfl)
      next x hx => exact .closed _ (.freeThenPass k (by rw [hx]; rfl))
      next x hx => exact .closed _ (.freeRetired k x hx)
      · exact .same e

theorem EngineNext.revokeRangeReq (b : BitVec 24) (l : Half) : EngineNext e (e.revokeRangeReq p t b l).engine := by
  unfold Engine.revokeRangeReq
  split
  · exact .same e
  · split
    · exact .same e
    · split
      · exact .same e
      · unfold Engine.revokeRegion
        dsimp only
        split
        · refine .closed _ (.retireThenPass _ fun j hj => ?_)
          simp only [Record.inRange, Bool.and_eq_true] at hj
          exact hj.1
        next hn =>
          refine .closed _ (.retireNone _ fun k => ?_)
          have hz : (allSlots.filter fun j => (e.record j).inRange (regionOf b l)) = [] := by
            have : (allSlots.filter fun j => (e.record j).inRange (regionOf b l)).length = 0 := by
              simpa [Engine.countSlots] using hn
            exact List.length_eq_zero_iff.mp this
          simpa using List.filter_eq_nil_iff.mp hz k (mem_allSlots k)

theorem EngineNext.freezeReq : EngineNext e (e.freezeReq p t).engine := by
  unfold Engine.freezeReq
  split
  · exact .same e
  next hs =>
    obtain ⟨ho, hr⟩ := Engine.supervisorRefusal_none hs
    split
    · exact .same e
    next hf => exact .plain _ (.freeze p ho hr hf)

theorem EngineNext.thawReq : EngineNext e (e.thawReq p t).engine := by
  unfold Engine.thawReq
  split
  · exact .same e
  · split
    · exact .same e
    next f hf =>
      split
      · exact .closed _ (.thaw f hf)
      · exact .same e

theorem EngineNext.trimReq (a : Byte) : EngineNext e (e.trimReq p t a).engine := by
  unfold Engine.trimReq
  split
  · exact .same e
  · split
    · exact .same e
    · exact .plain _ (.clock _)

theorem EngineNext.cancelReq : EngineNext e (e.cancelReq p t).engine := by
  unfold Engine.cancelReq
  split
  next _ _ k hk =>
    refine .closed _ (.freeThenPass k ?_)
    have := List.find?_some hk
    revert this
    cases e.record k <;> simp [Record.waitsFor, Record.isFree]
  next _ _ k _ hk =>
    refine .closed _ (.dropConvThenPass k ?_)
    have := List.find?_some hk
    simp only [Record.convertsFor, Bool.and_eq_true, Option.any_eq_true] at this
    obtain ⟨-, c, hc, -⟩ := this
    rw [hc]; rfl
  · unfold Engine.cancelLate
    split
    · split
      · exact .plain _ (.clock _)
      · exact .same e
    · exact .same e

/-- Everything that a message of a port can make of the engine. -/
theorem EngineNext.of_portEffect (m : PortMsg) : EngineNext e (e.portEffect p m).engine := by
  cases m with
  | cancel t => exact .cancelReq e p t
  | portDrop => exact .dropPort e p
  | request t r =>
    cases r with
    | openSession m a => exact .openReq e p t m a
    | closeSession => exact .closeReq e p t
    | readClock => exact .plain _ (.clock _)
    | noop => exact .same e
    | claim b l m d w x => exact .claimReq e p t b l m d w x
    | renew h d => exact .renewReq e p t h d
    | release h => exact .releaseReq e p t h
    | downgrade h => exact .downgradeReq e p t h
    | upgrade h w => exact .upgradeReq e p t h w
    | acknowledge h => exact .acknowledgeReq e p t h
    | notice => exact .noticeReq e p t
    | probe b l => exact .probeReq e p t b l
    | scanFirst f q b l => exact .scanFirstReq e p t f q b l
    | scanNext => exact .scanNextReq e p t
    | limits q c d m r => exact .limitsReq e p t q c d m r
    | revoke h => exact .revokeReq e p t h
    | revokeRange b l => exact .revokeRangeReq e p t b l
    | evict q => exact .evictReq e p t q
    | freeze => exact .freezeReq e p t
    | thaw => exact .thawReq e p t
    | trim a => exact .trimReq e p t a

/-- Everything that a tick notice can make of the engine. -/
theorem EngineNext.of_tick (n : Tick) : EngineNext e (e.tick n).engine := by
  unfold Engine.tick
  split
  next f hf =>
    unfold Engine.tickFrozen
    split
    · exact .closed _ (.limitThaw n f hf)
    · exact .plain _ (.advance n f hf)
  next hf =>
    unfold Engine.tickUnfrozen
    dsimp only
    split
    · exact .closed _ (.tickPass n hf)
    · exact .closed _ (.tick n hf)

/-- The answer to the clock request makes nothing of the engine but the end of that request. -/
theorem EngineNext.of_endClock (c : ClockRequest) (o : ResultCode) (x : Payload) :
    EngineNext e (e.endClock c o x).engine :=
  .plain _ (.clock _)

/-- Everything that a command which answers a next state can make of the engine. -/
theorem Move.engine {s s' : State} (h : Move s s') :
    s'.engine = .reset ∨ (s.resetLow = true ∧ ∃ straps, s'.engine = s.engine.atRelease straps) ∨
      EngineNext s.engine s'.engine := by
  cases h with
  | deviceReset => exact .inl rfl
  | release straps prst low => exact .inr (.inl ⟨low, straps, rfl⟩)
  | tick n rest _ _ => exact .inr (.inr (.of_tick s.engine n))
  | take p m rest _ _ _ => exact .inr (.inr (.of_portEffect s.engine p m))
  | clockAnswer m rest c o x _ _ _ _ => exact .inr (.inr (.of_endClock s.engine c o x))
  | none => exact .inr (.inr (.same _))
  | selectLevel p level _ => exact .inr (.inr (.same _))
  | edge prst _ => exact .inr (.inr (.same _))
  | arbiter p t r _ _ _ => exact .inr (.inr (.same _))
  | trim a _ _ => exact .inr (.inr (.same _))
  | readClock _ _ => exact .inr (.inr (.same _))
  | message p m rest a _ _ _ => exact .inr (.inr (.same _))
  | link p a ms _ _ => exact .inr (.inr (.same _))

end Sys2Proof.Machine
end

