-- ==== Sys2Proof/Laws/Grants.lean ====
section
/-! SUPPORT. Laws/Grants.lean: what one grant of a pass does, and which entries of a list a part of the pass grants and
completes. -/

namespace Sys2Proof.Machine

/-- What the grant of entry `k` does: it completes the entry, changes its record and no other, takes it out of the list
`out` and leaves the list `kept`. -/
structure OneGrant (out kept : Engine → List SlotNo) (k : SlotNo) (a b : Engine) (m : Out) : Prop where
  completes : a.grantOf k = some m
  others    : ∀ j, j ≠ k → b.record j = a.record j
  changed   : b.record k ≠ a.record k
  out       : out b = (out a).filter fun j => j != k
  kept      : kept b = kept a
  settled   : b.settled = a.settled

/-- What one part of the pass does to the entries `l`: no other record changes, and the entries whose record changed give
one completion each, in list order, and leave the list `out`. -/
structure GrantsOf (out kept : Engine → List SlotNo) (l : List SlotNo) (a : Engine) (r : Engine × List Out) : Prop where
  others   : ∀ k, k ∉ l → r.1.record k = a.record k
  messages : r.2 = (l.filter fun k => decide (r.1.record k ≠ a.record k)).filterMap a.grantOf
  count    : r.2.length = (l.filter fun k => decide (r.1.record k ≠ a.record k)).length
  out      : out r.1 = (out a).filter fun k => decide (r.1.record k = a.record k)
  kept     : kept r.1 = kept a
  settled  : r.1.settled = a.settled

/-- The completion of a grant depends on the record and the settled tick alone. -/
theorem Engine.grantOf_congr {a b : Engine} {k : SlotNo} (hr : b.record k = a.record k) (hs : b.settled = a.settled) :
    b.grantOf k = a.grantOf k := by
  unfold Engine.grantOf
  rw [hr, hs]

theorem Engine.grantConversion_some {a b : Engine} {k : SlotNo} {m : Out} (h : a.grantConversion k = some (b, m)) :
    OneGrant Engine.convList Engine.waitList k a b m := by
  unfold Engine.grantConversion at h
  split at h
  next x hx =>
    split at h
    next c hc =>
      split at h
      · obtain ⟨rfl, rfl⟩ := Prod.mk.inj (Option.some.inj h)
        refine ⟨?_, fun j hj => ?_, fun hk => ?_, rfl, rfl, rfl⟩
        · unfold Engine.grantOf
          rw [hx]
          simp only [hc, Option.map_some]
          cases x.term <;> rfl
        · change (a.setRecord k _).record j = _
          rw [Engine.record_setRecord, if_neg hj]
        · change (a.setRecord k _).record k = _ at hk
          rw [Engine.record_setRecord, if_pos rfl, hx] at hk
          injection hk with hk
          rw [← hk] at hc
          cases hc
      · cases h
    · cases h
  · cases h

theorem Engine.grantWaiter_some {a b : Engine} {passed : List SlotNo} {k : SlotNo} {m : Out}
    (h : a.grantWaiter passed k = some (b, m)) : OneGrant Engine.waitList Engine.convList k a b m := by
  unfold Engine.grantWaiter at h
  split at h
  next w hw =>
    split at h
    · cases h
    · obtain ⟨rfl, rfl⟩ := Prod.mk.inj (Option.some.inj h)
      refine ⟨?_, fun j hj => ?_, fun hk => ?_, rfl, rfl, rfl⟩
      · unfold Engine.grantOf
        rw [hw]
        simp only [Term.start, termFrom]
        split <;> rfl
      · change (a.setRecord k _).record j = _
        rw [Engine.record_setRecord, if_neg hj]
      · change (a.setRecord k _).record k = _ at hk
        rw [Engine.record_setRecord, if_pos rfl, hw] at hk
        cases hk
  · cases h

variable {out kept : Engine → List SlotNo} {l : List SlotNo} {k : SlotNo} {a b : Engine} {m : Out} {r : Engine × List Out}

theorem GrantsOf.nil : GrantsOf out kept [] a (a, []) :=
  ⟨fun _ _ => rfl, rfl, rfl, by simp, rfl, rfl⟩

/-- A part whose first entry is granted. -/
theorem GrantsOf.grant (hk : k ∉ l) (g : OneGrant out kept k a b m) (h : GrantsOf out kept l b r) :
    GrantsOf out kept (k :: l) a (r.1, m :: r.2) := by
  have hs : r.1.record k = b.record k := h.others k hk
  have hne : r.1.record k ≠ a.record k := fun e => g.changed (hs.symm.trans e)
  have hl : ∀ j ∈ l, b.record j = a.record j := fun j hj => g.others j fun e => hk (e ▸ hj)
  have hf : (l.filter fun j => decide (r.1.record j ≠ b.record j)) =
      l.filter fun j => decide (r.1.record j ≠ a.record j) :=
    List.filter_congr fun j hj => by rw [hl j hj]
  have hc : ((k :: l).filter fun j => decide (r.1.record j ≠ a.record j)) =
      k :: l.filter fun j => decide (r.1.record j ≠ a.record j) := by
    simp [hne]
  refine ⟨fun j hj => ?_, ?_, ?_, ?_, h.kept.trans g.kept, h.settled.trans g.settled⟩
  · simp only [List.mem_cons, not_or] at hj
    exact (h.others j hj.2).trans (g.others j hj.1)
  · dsimp only
    rw [hc, List.filterMap_cons, g.completes, h.messages, hf]
    congr 1
    exact List.filterMap_congr fun j hj => Engine.grantOf_congr (hl j (List.mem_filter.mp hj).1) g.settled
  · dsimp only
    rw [hc, List.length_cons, List.length_cons, h.count, hf]
  · dsimp only
    rw [h.out, g.out, List.filter_filter]
    refine List.filter_congr fun j _ => ?_
    by_cases hj : j = k
    · subst hj
      simp [hne]
    · simp [g.others j hj, hj]

/-- A part whose first entry is left. -/
theorem GrantsOf.leave (hk : k ∉ l) (h : GrantsOf out kept l a r) : GrantsOf out kept (k :: l) a r := by
  have hc : ((k :: l).filter fun j => decide (r.1.record j ≠ a.record j)) =
      l.filter fun j => decide (r.1.record j ≠ a.record j) := by
    simp [h.others k hk]
  exact ⟨fun j hj => h.others j fun e => hj (List.mem_cons_of_mem _ e), by rw [hc]; exact h.messages,
    by rw [hc]; exact h.count, h.out, h.kept, h.settled⟩

/-- Everything that the first part of the pass does to the entries of a list without repeats (R44). -/
theorem Engine.grantConversions_grants : ∀ (l : List SlotNo) (a : Engine), l.Nodup →
    GrantsOf Engine.convList Engine.waitList l a (Engine.grantConversions l a)
  | [], _, _ => .nil
  | k :: l, a, hn => by
    rw [List.nodup_cons] at hn
    simp only [Engine.grantConversions]
    split
    next b m hg => exact .grant hn.1 (Engine.grantConversion_some hg) (grantConversions_grants l b hn.2)
    · exact .leave hn.1 (grantConversions_grants l a hn.2)

/-- Everything that the second part of the pass does to the entries of a list without repeats (R45, R46). -/
theorem Engine.grantWaiters_grants : ∀ (l passed : List SlotNo) (a : Engine), l.Nodup →
    GrantsOf Engine.waitList Engine.convList l a (Engine.grantWaiters passed l a)
  | [], _, _, _ => .nil
  | k :: l, passed, a, hn => by
    rw [List.nodup_cons] at hn
    simp only [Engine.grantWaiters]
    split
    next b m hg => exact .grant hn.1 (Engine.grantWaiter_some hg) (grantWaiters_grants l passed b hn.2)
    · exact .leave hn.1 (grantWaiters_grants l (passed ++ [k]) a hn.2)

end Sys2Proof.Machine
end

