-- ==== Sys2Proof/Laws/Waits.lean ====
section
/-! SUPPORT. Laws/Waits.lean: what an event of the engine does to the clock requests, waits and conversions that name a
context, and to the results, waiting notices and completions sent to it. A proof about every event cites
`Spends.of_request`, `Spends.of_cancel`, `Spends.of_dropPort`, `Spends.of_tick` or `Spends.of_endClock`. -/

namespace Sys2Proof.Machine

/-! ### Messages of an event -/

/-- How many messages of `out` to port `q` meet `f`. -/
def sent (f : EngineMsg → Bool) (q : Port) (out : List Out) : Nat := (outFor q out).countP f

@[simp] theorem sent_nil (f : EngineMsg → Bool) (q : Port) : sent f q [] = 0 := rfl

@[simp] theorem sent_append (f : EngineMsg → Bool) (q : Port) (a b : List Out) :
    sent f q (a ++ b) = sent f q a + sent f q b := by
  simp [sent]

theorem sent_cons (f : EngineMsg → Bool) (q : Port) (m : Out) (a : List Out) :
    sent f q (m :: a) = (if m.1 = q ∧ f m.2 = true then 1 else 0) + sent f q a := by
  unfold sent
  rw [outFor_cons, List.countP_append]
  by_cases h : m.1 = q <;> simp [h, List.countP_cons]

theorem sent_eq_zero {f : EngineMsg → Bool} {q : Port} {out : List Out} (h : ∀ m ∈ out, f m.2 = false) :
    sent f q out = 0 := by
  induction out with
  | nil => rfl
  | cons m out ih =>
    rw [sent_cons, ih fun m hm => h m (List.mem_cons_of_mem _ hm), h m List.mem_cons_self]
    simp

/-- Messages none of which is drop-complete. -/
def NoDrop (out : List Out) : Prop := ∀ m ∈ out, m.2 ≠ .dropComplete

/-- Messages that are completions. -/
def Completions (out : List Out) : Prop := ∀ m ∈ out, ∃ t d, m.2 = .completion t d

/-- Messages that concern no request: no answer, no completion, and not drop-complete. -/
def Quiet (out : List Out) : Prop :=
  ∀ m ∈ out, (∀ u, m.2.results u = false ∧ m.2.notifies u = false ∧ m.2.completes u = false) ∧ m.2 ≠ .dropComplete

variable {a b c : Engine} {o o' : List Out} {x : Port → Tag → Nat}

theorem NoDrop.nil : NoDrop [] := fun _ h => by cases h

theorem NoDrop.append (ha : NoDrop o) (hb : NoDrop o') : NoDrop (o ++ o') := fun m hm =>
  (List.mem_append.mp hm).elim (ha m) (hb m)

theorem NoDrop.left (h : NoDrop (o ++ o')) : NoDrop o := fun m hm => h m (List.mem_append_left _ hm)

theorem NoDrop.right (h : NoDrop (o ++ o')) : NoDrop o' := fun m hm => h m (List.mem_append_right _ hm)

theorem NoDrop.answer (p : Port) (t : Tag) (x : Answer) : NoDrop [(p, .answer t x)] := fun m hm => by
  rw [List.mem_singleton.mp hm]; exact nofun

theorem Completions.nil : Completions [] := fun _ h => by cases h

theorem Completions.append (ha : Completions o) (hb : Completions o') : Completions (o ++ o') := fun m hm =>
  (List.mem_append.mp hm).elim (ha m) (hb m)

theorem Completions.single (p : Port) (t : Tag) (d : Completion) : Completions [(p, .completion t d)] := fun m hm => by
  rw [List.mem_singleton.mp hm]; exact ⟨t, d, rfl⟩

theorem Completions.noDrop (h : Completions o) : NoDrop o := fun m hm => by
  obtain ⟨t, d, h⟩ := h m hm; rw [h]; exact nofun

theorem Completions.results (h : Completions o) (q : Port) (u : Tag) : sent (EngineMsg.results u) q o = 0 :=
  sent_eq_zero fun m hm => by obtain ⟨t, d, h⟩ := h m hm; rw [h]; rfl

theorem Completions.notices (h : Completions o) (q : Port) (u : Tag) : sent (EngineMsg.notifies u) q o = 0 :=
  sent_eq_zero fun m hm => by obtain ⟨t, d, h⟩ := h m hm; rw [h]; rfl

theorem Quiet.nil : Quiet [] := fun _ h => by cases h

theorem Quiet.single {m : Out}
    (h : (∀ u, m.2.results u = false ∧ m.2.notifies u = false ∧ m.2.completes u = false) ∧ m.2 ≠ .dropComplete) :
    Quiet [m] := fun n hn => by rw [List.mem_singleton.mp hn]; exact h

theorem Quiet.noDrop (h : Quiet o) : NoDrop o := fun m hm => (h m hm).2

/-! ### The account of an event -/

/-- An event that leads from `a` to `b` and sends `out`, and with which `extra` requests come. A wait that is gone has been
completed and one that is new has been notified. A request that has come, or a clock request that is gone, has been
answered, with its result or with a waiting notice, or is a clock request. None of the messages is drop-complete. -/
structure Spends (a b : Engine) (out : List Out) (extra : Port → Tag → Nat) : Prop where
  waits  : ∀ q u,
    b.waits q u + sent (EngineMsg.completes u) q out = a.waits q u + sent (EngineMsg.notifies u) q out
  asks   : ∀ q u,
    b.asked q u + sent (EngineMsg.results u) q out + sent (EngineMsg.notifies u) q out = a.asked q u + extra q u
  noDrop : NoDrop out

/-- No request comes with the event. -/
abbrev noExtra : Port → Tag → Nat := fun _ _ => 0

/-- The request of context `t` of port `p` comes with the event. -/
abbrev oneExtra (p : Port) (t : Tag) : Port → Tag → Nat := fun q u => if q = p ∧ u = t then 1 else 0

theorem Spends.trans (h : Spends a b o noExtra) (h' : Spends b c o' x) : Spends a c (o ++ o') x where
  waits q u := by
    have h1 := h.waits q u
    have h2 := h'.waits q u
    simp only [sent_append]
    omega
  asks q u := by
    have h1 : _ = a.asked q u + 0 := h.asks q u
    have h2 := h'.asks q u
    simp only [sent_append]
    omega
  noDrop := h.noDrop.append h'.noDrop

/-- Messages may leave in another order. -/
theorem Spends.of_sent (h : Spends a b o x) (hp : ∀ f q, sent f q o' = sent f q o) (hd : NoDrop o') :
    Spends a b o' x where
  waits q u := by rw [hp, hp]; exact h.waits q u
  asks q u := by rw [hp, hp]; exact h.asks q u
  noDrop := hd

/-- Further messages that concern no request. -/
theorem Spends.quiet (h : Spends a b o x) (hq : Quiet o') : Spends a b (o ++ o') x where
  waits q u := by
    have h1 := h.waits q u
    rw [sent_append, sent_append, sent_eq_zero fun m hm => ((hq m hm).1 u).2.2,
      sent_eq_zero fun m hm => ((hq m hm).1 u).2.1]
    exact h1
  asks q u := by
    have h1 := h.asks q u
    rw [sent_append, sent_append, sent_eq_zero fun m hm => ((hq m hm).1 u).1,
      sent_eq_zero fun m hm => ((hq m hm).1 u).2.1]
    exact h1
  noDrop := h.noDrop.append hq.noDrop

theorem Engine.waits_congr (hr : ∀ k, b.record k = a.record k) (q : Port) (u : Tag) : b.waits q u = a.waits q u := by
  simp only [Engine.waits, Engine.countSlots, hr]

theorem Engine.asked_congr (hc : b.clock = a.clock) (q : Port) (u : Tag) : b.asked q u = a.asked q u := by
  simp only [Engine.asked, hc]

theorem Spends.refl (a : Engine) : Spends a a [] noExtra := ⟨fun _ _ => rfl, fun _ _ => rfl, .nil⟩

/-- The engine may change in anything but records and clock request. -/
theorem Spends.reclosed {d : Engine} (h : Spends a b o x) (hr : ∀ k, d.record k = b.record k) (hc : d.clock = b.clock) :
    Spends a d o x where
  waits q u := by rw [Engine.waits_congr hr]; exact h.waits q u
  asks q u := by rw [Engine.asked_congr hc]; exact h.asks q u
  noDrop := h.noDrop

theorem Spends.same (a b : Engine) (hr : ∀ k, b.record k = a.record k) (hc : b.clock = a.clock) :
    Spends a b [] noExtra := (Spends.refl a).reclosed hr hc

/-- The end of an event changes no record and no clock request. -/
theorem Spends.closed {e : Engine} (h : Spends a b o x) : Spends a (e.closeEvent b) o x :=
  h.reclosed (fun k => by simp) (by simp)

/-! ### Counting slots -/

/-- Slots that meet `m` go, the others stay. -/
theorem countP_split {l : List SlotNo} {n m : SlotNo → Bool} (hm : ∀ k, m k = true → n k = true) :
    l.countP (fun k => n k && !m k) + l.countP m = l.countP n := by
  induction l with
  | nil => rfl
  | cons k l ih =>
    have h := hm k
    simp only [List.countP_cons]
    cases hmk : m k <;> cases hnk : n k <;> simp_all <;> omega

/-- A list without repetitions that holds every slot with a property holds as many as the table. -/
theorem countP_eq_allSlots {l : List SlotNo} {f : SlotNo → Bool} (h : l.Nodup) (hf : ∀ k, f k = true → k ∈ l) :
    l.countP f = allSlots.countP f := by
  rw [List.countP_eq_length_filter, List.countP_eq_length_filter]
  have hall : allSlots.Nodup := List.nodup_finRange 64
  refine List.Perm.length_eq ((List.perm_ext_iff_of_nodup (h.filter _) (hall.filter _)).mpr fun k => ?_)
  simp only [List.mem_filter, mem_allSlots, true_and]
  exact ⟨fun hk => hk.2, fun hk => ⟨hf k hk, hk⟩⟩

/-- One slot with a property. -/
theorem countP_slot (k : SlotNo) (f : SlotNo → Bool) :
    allSlots.countP (fun j => j == k && f j) = if f k = true then 1 else 0 := by
  have h : ∀ l : List SlotNo, l.Nodup →
      l.countP (fun j => j == k && f j) = if k ∈ l ∧ f k = true then 1 else 0 := by
    intro l hl
    induction l with
    | nil => simp
    | cons j l ih =>
      rw [List.nodup_cons] at hl
      rw [List.countP_cons, ih hl.2]
      by_cases hj : j = k
      · subst hj
        simp [hl.1]
      · have : k ≠ j := fun e => hj e.symm
        simp [hj, this]
  rw [h allSlots (List.nodup_finRange 64)]
  simp

/-! ### Changes of the table -/

/-- A change of the table that keeps the clock request and takes the waits of the slots `gone`, each completed. -/
theorem Spends.of_gone {gone : Port → Tag → SlotNo → Bool} (hc : b.clock = a.clock)
    (hn : ∀ q u k, (b.record k).names q u = ((a.record k).names q u && !gone q u k))
    (hg : ∀ q u k, gone q u k = true → (a.record k).names q u = true)
    (hp : ∀ q u, sent (EngineMsg.completes u) q o = allSlots.countP (gone q u)) (ho : Completions o) :
    Spends a b o noExtra where
  waits q u := by
    have h := countP_split (l := allSlots) (hg q u)
    have h' := hp q u
    rw [ho.notices]
    simp only [Engine.waits, Engine.countSlots, ← List.countP_eq_length_filter, hn] at h ⊢
    omega
  asks q u := by rw [ho.results, ho.notices, Engine.asked_congr hc]; rfl
  noDrop := ho.noDrop

/-- A change of the table that keeps the clock request and every wait. -/
theorem Spends.of_kept (a b : Engine) (hc : b.clock = a.clock)
    (hn : ∀ q u k, (b.record k).names q u = (a.record k).names q u) : Spends a b [] noExtra where
  waits q u := by simp [Engine.waits, Engine.countSlots, hn]
  asks q u := by simp [Engine.asked_congr hc]
  noDrop := .nil

/-! ### Completions (R67) -/

/-- What the completions of conversions complete. -/
theorem sent_convCompletions (e : Engine) (which : SlotNo → Bool) (d : Completion) (q : Port) (u : Tag) :
    sent (EngineMsg.completes u) q (e.convCompletions which d) =
      e.convList.countP fun k => which k && ((e.record k).isHeld && (e.record k).names q u) := by
  unfold Engine.convCompletions
  induction e.convList with
  | nil => rfl
  | cons k l ih =>
    rw [List.countP_cons, ← ih, List.filterMap_cons]
    cases hr : e.record k with
    | held h =>
      cases hw : which k <;> cases hc : h.conv <;>
        simp [hc, sent_cons, EngineMsg.completes, Record.names, Record.isHeld, Nat.add_comm]
    | _ => simp [Record.isHeld]

/-- How many completions of conversions there are: one for each entry that `which` names and whose lease has one. -/
theorem length_convCompletions (e : Engine) (which : SlotNo → Bool) (d : Completion) :
    (e.convCompletions which d).length = (e.convList.filter fun k => which k && (e.record k).conv.isSome).length := by
  unfold Engine.convCompletions
  induction e.convList with
  | nil => rfl
  | cons k l ih =>
    rw [List.filterMap_cons, List.filter_cons]
    cases hr : e.record k with
    | held h => cases hw : which k <;> cases hc : h.conv <;> simp [hc, Record.conv, ih]
    | _ => simp [Record.conv, ih]

/-- What the completions of waiting claims complete. -/
theorem sent_waitCompletions (e : Engine) (which : SlotNo → Bool) (d : Completion) (q : Port) (u : Tag) :
    sent (EngineMsg.completes u) q (e.waitCompletions which d) =
      e.waitList.countP fun k => which k && ((e.record k).isWaiting && (e.record k).names q u) := by
  unfold Engine.waitCompletions
  induction e.waitList with
  | nil => rfl
  | cons k l ih =>
    rw [List.countP_cons, ← ih, List.filterMap_cons]
    cases hr : e.record k with
    | waiting w =>
      cases hw : which k <;>
        simp [sent_cons, EngineMsg.completes, Record.names, Record.isWaiting, Nat.add_comm]
    | _ => simp [Record.isWaiting]

theorem completions_conv (e : Engine) (which : SlotNo → Bool) (d : Completion) :
    Completions (e.convCompletions which d) := by
  intro m hm
  obtain ⟨k, -, hk⟩ := List.mem_filterMap.mp hm
  split at hk
  · split at hk
    · obtain ⟨v, -, rfl⟩ := Option.map_eq_some_iff.mp hk
      exact ⟨_, _, rfl⟩
    · cases hk
  · cases hk

theorem completions_wait (e : Engine) (which : SlotNo → Bool) (d : Completion) :
    Completions (e.waitCompletions which d) := by
  intro m hm
  obtain ⟨k, -, hk⟩ := List.mem_filterMap.mp hm
  split at hk
  · split at hk
    · cases hk; exact ⟨_, _, rfl⟩
    · cases hk
  · cases hk

/-! ### The lists (R39, R65) -/

/-- The two lists hold every waiting claim and every lease with a pending conversion, each once. -/
structure ListsExact (e : Engine) : Prop where
  waitsOnce : e.waitList.Nodup
  waitsAll  : ∀ k, (e.record k).isWaiting = true → k ∈ e.waitList
  convsOnce : e.convList.Nodup
  convsAll  : ∀ k, (e.record k).conv.isSome = true → k ∈ e.convList

theorem ListsExact.of_laws {e : Engine} (hw : WaitListLaw e) (hc : ConvListLaw e) : ListsExact e :=
  ⟨hw.1, fun k => (hw.2 k).mpr, hc.1, fun k => (hc.2.1 k).mpr⟩

/-- Every pending conversion that names a context is on the list. -/
theorem ListsExact.convs {e : Engine} (h : ListsExact e) (which : SlotNo → Bool) (d : Completion) (q : Port) (u : Tag) :
    sent (EngineMsg.completes u) q (e.convCompletions which d) =
      allSlots.countP fun k => which k && ((e.record k).isHeld && (e.record k).names q u) := by
  rw [sent_convCompletions]
  refine countP_eq_allSlots h.convsOnce fun k hk => h.convsAll k ?_
  simp only [Bool.and_eq_true] at hk
  cases hr : e.record k with
  | held y =>
    rw [hr] at hk
    cases hy : y.conv <;> simp_all [Record.names, Record.conv]
  | _ => rw [hr] at hk; simp [Record.isHeld] at hk

/-- Every waiting claim is on the list. -/
theorem ListsExact.claims {e : Engine} (h : ListsExact e) (which : SlotNo → Bool) (d : Completion) (q : Port) (u : Tag) :
    sent (EngineMsg.completes u) q (e.waitCompletions which d) =
      allSlots.countP fun k => which k && ((e.record k).isWaiting && (e.record k).names q u) := by
  rw [sent_waitCompletions]
  refine countP_eq_allSlots h.waitsOnce fun k hk => h.waitsAll k ?_
  simp only [Bool.and_eq_true] at hk
  exact hk.2.1

theorem nodup_dropSlots {l : List SlotNo} (f : SlotNo → Bool) (h : l.Nodup) : (dropSlots f l).Nodup :=
  h.sublist (dropSlots_sublist f l)

theorem mem_dropSlots {l : List SlotNo} {f : SlotNo → Bool} {k : SlotNo} : k ∈ dropSlots f l ↔ k ∈ l ∧ f k = false := by
  simp [dropSlots]

theorem ListsExact.freeWhere {e : Engine} (h : ListsExact e) (which : SlotNo → Bool) : ListsExact (e.freeWhere which) where
  waitsOnce := nodup_dropSlots _ h.waitsOnce
  waitsAll k hk := by
    rw [Engine.record_freeWhere] at hk
    split at hk
    · cases hk
    next hw => exact mem_dropSlots.mpr ⟨h.waitsAll k hk, by simpa using hw⟩
  convsOnce := nodup_dropSlots _ h.convsOnce
  convsAll k hk := by
    rw [Engine.record_freeWhere] at hk
    split at hk
    · cases hk
    next hw => exact mem_dropSlots.mpr ⟨h.convsAll k hk, by simpa using hw⟩

theorem ListsExact.retireWhere {e : Engine} (h : ListsExact e) (which : SlotNo → Bool) (cause : RetireCause) :
    ListsExact (e.retireWhere which cause) where
  waitsOnce := h.waitsOnce
  waitsAll k hk := h.waitsAll k <| by
    rw [Engine.record_retireWhere] at hk
    split at hk
    · revert hk; cases e.record k <;> exact id
    · exact hk
  convsOnce := nodup_dropSlots _ h.convsOnce
  convsAll k hk := by
    rw [Engine.record_retireWhere] at hk
    split at hk
    · revert hk; cases e.record k <;> simp [Record.retire, Record.conv]
    next hw => exact mem_dropSlots.mpr ⟨h.convsAll k hk, by simpa using hw⟩

theorem ListsExact.clearPort {e : Engine} (h : ListsExact e) (p : Port) : ListsExact (e.clearPort p) :=
  have h1 := h.freeWhere fun k => (e.record k).ownedBy p
  ⟨h1.waitsOnce, h1.waitsAll, h1.convsOnce, h1.convsAll⟩

/-! ### Messages that concern no request -/

theorem quiet_countNotices (a b : Engine) : Quiet (countNotices a b) := by
  intro m hm
  obtain ⟨k, -, hk⟩ := List.mem_filterMap.mp hm
  split at hk
  · cases hk
  · cases hk; exact ⟨fun _ => ⟨rfl, rfl, rfl⟩, nofun⟩

theorem quiet_freezeNotices (e : Engine) : Quiet e.freezeNotices := by
  intro m hm
  obtain ⟨k, -, rfl⟩ := List.mem_map.mp hm
  exact ⟨fun _ => ⟨rfl, rfl, rfl⟩, nofun⟩

theorem quiet_freezeNoticesIf (e : Engine) (f : Bool) : Quiet (e.freezeNoticesIf f) := by
  unfold Engine.freezeNoticesIf
  split
  · exact quiet_freezeNotices e
  · exact .nil

theorem quiet_sessionNotice (e : Engine) (p : Port) : Quiet [e.sessionNotice p] :=
  .single ⟨fun _ => ⟨rfl, rfl, rfl⟩, nofun⟩

/-- An event that changes the table, closed. -/
theorem Spends.finish (h : Spends a b o x) : Spends a (a.finish b o).engine (a.finish b o).out x :=
  h.closed.quiet (quiet_countNotices a b)

/-- The result of the request that the event takes. -/
theorem Spends.answered (h : Spends a b o noExtra) (p : Port) (t : Tag) (r : ResultCode) (l : Payload) :
    Spends a b (o ++ [answerTo p t r l]) (oneExtra p t) where
  waits q u := by
    have h1 := h.waits q u
    simp only [sent_append, sent_cons, sent_nil, answerTo, EngineMsg.completes, EngineMsg.notifies]
    simpa using h1
  asks q u := by
    have h1 : _ = a.asked q u + 0 := h.asks q u
    simp only [sent_append, sent_cons, sent_nil, answerTo, EngineMsg.results, EngineMsg.notifies, beq_iff_eq, oneExtra,
      @eq_comm _ p q, @eq_comm _ t u]
    simp only [Bool.false_eq_true, and_false, if_false]
    omega
  noDrop := h.noDrop.append (.answer _ _ _)

theorem Spends.reply (e : Engine) (p : Port) (t : Tag) (r : ResultCode) (l : Payload) :
    Spends e (e.reply p t r l).engine (e.reply p t r l).out (oneExtra p t) :=
  (Spends.refl e).answered p t r l

/-! ### The table's moves -/

theorem Spends.of_free {which : SlotNo → Bool} (e : Engine) (ho : Completions o)
    (hp : ∀ q u, sent (EngineMsg.completes u) q o = allSlots.countP fun k => which k && (e.record k).names q u) :
    Spends e (e.freeWhere which) o noExtra := by
  refine .of_gone rfl (fun q u k => ?_) (fun q u k h => (Bool.and_eq_true _ _ ▸ h).2) hp ho
  rw [Engine.record_freeWhere]
  cases hw : which k <;> simp [Record.names]

theorem Spends.of_retire {which : SlotNo → Bool} (e : Engine) (cause : RetireCause) (ho : Completions o)
    (hp : ∀ q u, sent (EngineMsg.completes u) q o =
      allSlots.countP fun k => which k && ((e.record k).isHeld && (e.record k).names q u)) :
    Spends e (e.retireWhere which cause) o noExtra := by
  refine .of_gone rfl (fun q u k => ?_) (fun q u k h => ?_) hp ho
  · rw [Engine.record_retireWhere]
    cases hw : which k <;> cases hr : e.record k <;> simp [Record.retire, Record.names, Record.isHeld]
  · simp only [Bool.and_eq_true] at h
    exact h.2.2

theorem Spends.of_dropConv {which : SlotNo → Bool} (e : Engine) (ho : Completions o)
    (hp : ∀ q u, sent (EngineMsg.completes u) q o =
      allSlots.countP fun k => which k && ((e.record k).isHeld && (e.record k).names q u)) :
    Spends e (e.dropConvWhere which) o noExtra := by
  refine .of_gone rfl (fun q u k => ?_) (fun q u k h => ?_) hp ho
  · rw [Engine.record_dropConvWhere]
    cases hw : which k <;> cases hr : e.record k <;> simp [Record.dropConv, Record.names, Record.isHeld]
  · simp only [Bool.and_eq_true] at h
    exact h.2.2

theorem names_warn (r : Record) (q : Port) (u : Tag) : r.warn.names q u = r.names q u := by cases r <;> rfl

theorem Spends.of_warn (e : Engine) : Spends e e.warnPart [] noExtra :=
  .of_kept _ _ rfl fun q u k => by
    rw [Engine.record_warnPart]
    split
    · exact names_warn ..
    · rfl

theorem Spends.of_thawWarn (e : Engine) (start : Tick) : Spends e (e.thawWarnPart start) [] noExtra :=
  .of_kept _ _ rfl fun q u k => by
    rw [Engine.record_thawWarnPart]
    split
    · exact names_warn ..
    · rfl

/-- A record replaced by one that names the same contexts. -/
theorem Spends.of_setRecord (e : Engine) (k : SlotNo) (r : Record)
    (h : ∀ q u, r.names q u = (e.record k).names q u) : Spends e (e.setRecord k r) [] noExtra :=
  .of_kept _ _ rfl fun q u j => by
    rw [Engine.record_setRecord]
    split
    next hj => rw [hj]; exact h q u
    · rfl

/-! ### The grant pass (R43 to R47) -/

theorem Spends.of_grantConversion {e e' : Engine} {k : SlotNo} {m : Out} (h : e.grantConversion k = some (e', m)) :
    Spends e e' [m] noExtra := by
  unfold Engine.grantConversion at h
  split at h
  next y hy =>
    split at h
    next d hd =>
      split at h
      · obtain ⟨rfl, rfl⟩ := Prod.mk.inj (Option.some.inj h)
        refine .of_gone (gone := fun q u j => j == k && (e.record j).names q u) rfl (fun q u j => ?_)
          (fun q u j hj => (Bool.and_eq_true _ _ ▸ hj).2) (fun q u => ?_) (.single _ _ _)
        · change ((e.setRecord k _).record j).names q u = _
          rw [Engine.record_setRecord]
          by_cases hj : j = k <;> simp [hj, Record.names]
        · rw [countP_slot, sent_cons, hy]
          simp [Record.names, hd, EngineMsg.completes]
      · cases h
    · cases h
  · cases h

theorem Spends.of_grantWaiter {e e' : Engine} {passed : List SlotNo} {k : SlotNo} {m : Out}
    (h : e.grantWaiter passed k = some (e', m)) : Spends e e' [m] noExtra := by
  unfold Engine.grantWaiter at h
  split at h
  next w hw =>
    split at h
    · cases h
    · obtain ⟨rfl, rfl⟩ := Prod.mk.inj (Option.some.inj h)
      refine .of_gone (gone := fun q u j => j == k && (e.record j).names q u) rfl (fun q u j => ?_)
        (fun q u j hj => (Bool.and_eq_true _ _ ▸ hj).2) (fun q u => ?_) (.single _ _ _)
      · change ((e.setRecord k _).record j).names q u = _
        rw [Engine.record_setRecord]
        by_cases hj : j = k <;> simp [hj, Record.names, Engine.grantedHeld]
      · rw [countP_slot, sent_cons, hw]
        simp [Record.names, EngineMsg.completes]
  · cases h

theorem Spends.of_grantConversions : ∀ (l : List SlotNo) (e : Engine),
    Spends e (Engine.grantConversions l e).1 (Engine.grantConversions l e).2 noExtra
  | [], e => .refl e
  | k :: l, e => by
    simp only [Engine.grantConversions]
    split
    next e1 m h => exact (Spends.of_grantConversion h).trans (.of_grantConversions l e1)
    · exact .of_grantConversions l e

theorem Spends.of_grantWaiters : ∀ (l passed : List SlotNo) (e : Engine),
    Spends e (Engine.grantWaiters passed l e).1 (Engine.grantWaiters passed l e).2 noExtra
  | [], _, e => .refl e
  | k :: l, passed, e => by
    simp only [Engine.grantWaiters]
    split
    next e1 m h => exact (Spends.of_grantWaiter h).trans (.of_grantWaiters l passed e1)
    · exact .of_grantWaiters l (passed ++ [k]) e

theorem Spends.of_pass (e : Engine) : Spends e e.grantPass.1 e.grantPass.2 noExtra :=
  (Spends.of_grantConversions _ _).trans (.of_grantWaiters _ _ _)

theorem Spends.of_passUnlessFrozen (e : Engine) :
    Spends e e.passUnlessFrozen.1 e.passUnlessFrozen.2 noExtra := by
  unfold Engine.passUnlessFrozen
  split
  · exact .refl e
  · exact .of_pass e

/-! ### Settling what is due, and session end -/

theorem Spends.of_settleDue {e : Engine} (h : ListsExact e) :
    Spends e e.settleDue.engine (e.settleDue.expired ++ e.settleDue.waitsOut ++ e.settleDue.convsOut) noExtra := by
  have l1 := h.retireWhere (fun k => (e.record k).leaseDue e.settled) .expired
  have l2 := l1.freeWhere fun k => (e.expirePart.1.record k).waitDue e.expirePart.1.settled
  have h1 : Spends e e.expirePart.1 e.expirePart.2 noExtra :=
    .of_retire e .expired (completions_conv _ _ _) fun q u => h.convs _ _ q u
  have h2 : Spends e.expirePart.1 e.expirePart.1.waitTimeoutPart.1 e.expirePart.1.waitTimeoutPart.2 noExtra :=
    .of_free _ (completions_wait _ _ _) fun q u => (l1.claims _ _ q u).trans <| List.countP_congr fun k _ => by
      cases hr : e.expirePart.1.record k <;> simp_all [Engine.expirePart, Record.isWaiting, Record.waitDue]
  have h3 : Spends e.expirePart.1.waitTimeoutPart.1 e.settleDue.engine e.settleDue.convsOut noExtra :=
    .of_dropConv _ (completions_conv _ _ _) fun q u => l2.convs _ _ q u
  exact (h1.trans h2).trans h3

theorem Spends.of_settleThaw {e : Engine} (h : ListsExact e) (start : Tick) :
    Spends e (e.settleThaw start).engine ((e.settleThaw start).early ++ (e.settleThaw start).grants) noExtra := by
  have h1 := ((Spends.of_settleDue h).trans (Spends.of_thawWarn e.settleDue.engine start)).trans (Spends.of_pass _)
  rw [List.append_nil] at h1
  exact h1.reclosed (fun _ => rfl) rfl

theorem Spends.of_afterClear {e : Engine} (h : ListsExact e) (p : Port) :
    Spends e (e.afterClear p).1 (e.afterClear p).2.1 noExtra := by
  unfold Engine.afterClear
  split
  · split
    · exact .of_settleThaw h _
    · exact .refl e
  · exact .of_pass e

/-- Steps 1 to 4 of the session end complete what the port's records named, where it is told (R126). -/
theorem Spends.of_cleared {e : Engine} (h : ListsExact e) (p : Port) :
    Spends e (e.clearPort p) (e.endSession p true).told noExtra := by
  have h1 : Spends e (e.freeWhere fun k => (e.record k).ownedBy p) (e.endSession p true).told noExtra := by
    refine .of_free e ((completions_conv _ _ _).append (completions_wait _ _ _)) fun q u => ?_
    change sent _ q (e.convCompletions _ _ ++ e.waitCompletions _ _) = _
    rw [sent_append, h.convs, h.claims, ← countP_split (n := fun k => (e.record k).ownedBy p && (e.record k).names q u)
      (m := fun k => (e.record k).ownedBy p && ((e.record k).isWaiting && (e.record k).names q u))]
    · congr 1
      refine List.countP_congr fun k _ => ?_
      cases hr : e.record k <;> simp [Record.isHeld, Record.isWaiting, Record.names]
    · intro k hk
      simp only [Bool.and_eq_true] at hk ⊢
      exact ⟨hk.1, hk.2.2⟩
  exact h1.reclosed (fun _ => rfl) rfl

/-! ### Requests -/

/-- What a request `t` of port `p` does to `e`. -/
abbrev Spent (e : Engine) (p : Port) (t : Tag) (f : Effect) : Prop := Spends e f.engine f.out (oneExtra p t)

/-- Completions that leave before the result, the result, and completions after it. -/
theorem Spends.around {d : Engine} {o1 o2 : List Out} (h1 : Spends a b o1 noExtra) (h2 : Spends b d o2 noExtra) (p : Port)
    (t : Tag) (r : ResultCode) (l : Payload) : Spends a d (o1 ++ [answerTo p t r l] ++ o2) (oneExtra p t) :=
  ((h1.trans h2).answered p t r l).of_sent (fun f q => by simp only [sent_append]; omega)
    ((h1.noDrop.append (.answer p t _)).append h2.noDrop)

/-- A claim or conversion of context `t` of port `p` enters slot `k`, which named no context, with its waiting notice. -/
theorem Spends.of_entered (e b : Engine) (k : SlotNo) (p : Port) (t : Tag) (n : Answer) (hc : b.clock = e.clock)
    (hk : ∀ j, j ≠ k → b.record j = e.record j) (he : ∀ q u, (e.record k).names q u = false)
    (hn : ∀ q u, (b.record k).names q u = true ↔ q = p ∧ u = t)
    (hs : ∀ u, EngineMsg.notifies u (.answer t n) = (t == u)) (hr : ∀ u, EngineMsg.results u (.answer t n) = false) :
    Spends e b [(p, .answer t n)] (oneExtra p t) where
  waits q u := by
    have h := countP_split (l := allSlots) (n := fun j => (b.record j).names q u)
      (m := fun j => j == k && (b.record j).names q u) fun j hj => (Bool.and_eq_true _ _ ▸ hj).2
    have h1 : ∀ j, ((b.record j).names q u && !(j == k && (b.record j).names q u)) = (e.record j).names q u := fun j => by
      by_cases hj : j = k
      · subst hj; simp [he]
      · simp [hj, hk j hj]
    simp only [h1, countP_slot, hn] at h
    rw [sent_cons, sent_cons, hs]
    simp only [EngineMsg.completes, sent_nil, Engine.waits, Engine.countSlots, ← List.countP_eq_length_filter, beq_iff_eq,
      @eq_comm _ p q, @eq_comm _ t u, Bool.false_eq_true, and_false, if_false]
    omega
  asks q u := by
    rw [sent_cons, sent_cons, hs, hr, Engine.asked_congr hc]
    simp only [sent_nil, beq_iff_eq, oneExtra, @eq_comm _ p q, @eq_comm _ t u, Bool.false_eq_true, and_false, if_false]
    omega
  noDrop := .answer _ _ _

section requests

variable (e : Engine) (p : Port) (t : Tag)

theorem Spends.refuse (r : ResultCode) (c : ReqCode) : Spent e p t (e.refuse p t r c) := .reply e p t r _

theorem Spends.claimReq (b : BitVec 24) (l : Half) (m : Byte) (d w x : Half) : Spent e p t (e.claimReq p t b l m d w x) := by
  unfold Engine.claimReq
  split
  · exact .reply ..
  next m' k hk =>
    have hf := Engine.lowestFree_free (Engine.admit_ok hk).2.2.2.2.2.2.1
    have hfree : e.record k = .free := by
      cases hr : e.record k <;> simp_all [Record.isFree]
    dsimp only
    split
    · have h : Spends e (e.enter k (.held (e.grantedHeld
          { holder := p, region := regionOf b l, mode := m', label := x } d))) [] noExtra := by
        refine .of_kept _ _ rfl fun q u j => ?_
        rw [Engine.record_enter]
        split
        next hj => rw [hj, hfree]; simp [Record.names, Engine.grantedHeld]
        · rfl
      exact (h.closed.answered p t .granted _).quiet (quiet_countNotices _ _)
    · split
      · exact .reply ..
      · refine (Spends.of_entered e (e.queued k _) k p t (.waitingClaim _ _) rfl (fun j hj => ?_)
          (fun q u => by rw [hfree]; rfl) (fun q u => ?_) (fun _ => rfl) fun _ => rfl).closed
        · change (e.enter k _).record j = _
          rw [Engine.record_enter, if_neg hj]
        · change ((e.enter k _).record k).names q u = true ↔ _
          rw [Engine.record_enter, if_pos rfl]
          simp only [Record.names, Bool.and_eq_true, beq_iff_eq, @eq_comm _ p q, @eq_comm _ t u]

theorem Spends.renewReq (h : Handle) (d : Half) : Spent e p t (e.renewReq p t h d) := by
  unfold Engine.renewReq
  split
  · exact .reply ..
  next k hk =>
    split
    next y hy =>
      split
      · unfold Engine.renewLease
        dsimp only
        split
        · exact .reply ..
        · split
          · exact .reply ..
          · exact (Spends.answered (o := []) (.of_setRecord e k _ fun q u => by rw [hy]; rfl) p t .ok _).finish
      · exact .reply ..
    · exact .reply ..
    · exact .reply ..

theorem sent_convCompletion (y : Held) (c : Completion) (q : Port) (u : Tag) :
    sent (EngineMsg.completes u) q (y.convCompletion c) = if (Record.held y).names q u = true then 1 else 0 := by
  unfold Held.convCompletion
  cases hc : y.conv <;> simp [Record.names, hc, sent_cons, EngineMsg.completes]

theorem completions_convCompletion (y : Held) (c : Completion) : Completions (y.convCompletion c) := by
  unfold Held.convCompletion
  split
  · exact .single _ _ _
  · exact .nil

/-- One slot becomes FREE, and what it named is settled. -/
theorem Spends.free_slot (k : SlotNo) {o : List Out} (ho : Completions o)
    (hp : ∀ q u, sent (EngineMsg.completes u) q o = if (e.record k).names q u = true then 1 else 0) :
    Spends e (e.freeWhere fun j => j == k) o noExtra :=
  .of_free e ho fun q u => by rw [hp, countP_slot]

theorem Spends.releaseReq (h : Handle) : Spent e p t (e.releaseReq p t h) := by
  unfold Engine.releaseReq
  split
  · exact .reply ..
  next k hk =>
    split
    next y hy =>
      exact (Spends.around (Spends.free_slot e k (completions_convCompletion y _) fun q u => by rw [hy, sent_convCompletion])
        (.of_passUnlessFrozen _) p t .ok .empty).finish
    · exact .reply ..

theorem Spends.downgradeReq (h : Handle) : Spent e p t (e.downgradeReq p t h) := by
  unfold Engine.downgradeReq
  split
  · exact .reply ..
  next k hk =>
    split
    next y hy =>
      split
      · exact (Spends.around (o1 := []) (.of_setRecord e k _ fun q u => by rw [hy]; rfl)
          (.of_passUnlessFrozen _) p t .ok _).finish
      · exact .reply ..
    · exact .reply ..
    · exact .reply ..

theorem Spends.upgradeReq (h : Handle) (w : Half) : Spent e p t (e.upgradeReq p t h w) := by
  unfold Engine.upgradeReq
  split
  · exact .reply ..
  next k hk =>
    split
    next y hy =>
      split
      next hm =>
        unfold Engine.upgradeLease
        split
        · exact (Spends.answered (o := []) (.of_setRecord e k _ fun q u => by rw [hy]; rfl) p t .granted
            _).finish
        · exact .reply ..
        · split
          · exact .reply ..
          · refine (Spends.of_entered e { e.setRecord k _ with convList := _ } k p t (.waitingUpgrade _) rfl
              (fun j hj => ?_) (fun q u => ?_) (fun q u => ?_) (fun _ => rfl) fun _ => rfl).finish
            · change (e.setRecord k _).record j = _
              rw [Engine.record_setRecord, if_neg hj]
            · rw [hy]; simp [Record.names, hm.2]
            · change ((e.setRecord k _).record k).names q u = true ↔ _
              rw [Engine.record_setRecord, if_pos rfl]
              have ho := (Engine.holderCheck_ok hk).2.2
              rw [hy] at ho
              simp only [Record.ownedBy, Record.common, beq_iff_eq] at ho
              simp only [Record.names, Option.any_some, Bool.and_eq_true, beq_iff_eq, ho, @eq_comm _ p q, @eq_comm _ t u]
      · exact .reply ..
    · exact .reply ..
    · exact .reply ..

theorem Spends.acknowledgeReq (h : Handle) : Spent e p t (e.acknowledgeReq p t h) := by
  unfold Engine.acknowledgeReq
  split
  · exact .reply ..
  next k hk =>
    split
    next y hy =>
      exact (Spends.answered (Spends.free_slot e k .nil fun q u => by rw [hy]; rfl) p t .ok _).finish
    next y hy =>
      split
      · exact (Spends.answered (o := []) (.of_setRecord e k _ fun q u => by rw [hy]; rfl) p t .ok _).finish
      · exact .reply ..
    · exact .reply ..

theorem Spends.openReq (m : Half) (n : Byte) : Spent e p t (e.openReq p t m n) := by
  unfold Engine.openReq
  split
  · exact .reply ..
  · split
    · exact Spends.quiet (o := [_]) (Spends.answered (o := []) (.same e (e.setSession p _) (fun _ => rfl) rfl) p t .ok _)
        (quiet_sessionNotice _ _)
    · exact .reply ..

theorem Spends.endSessionFor (q : Port) (d : Ended) {m : Engine} (h1 : Spends e m d.told noExtra)
    (h2 : Spends m d.engine d.passed noExtra) : Spent e p t (e.endSessionFor p t q d) :=
  Spends.quiet (Spends.quiet (Spends.quiet (Spends.around h1 h2 p t .ok _).closed (quiet_countNotices _ _))
    (quiet_sessionNotice _ _)) (quiet_freezeNoticesIf _ _)

/-- The session end that is told, in two parts: what is told, and what the pass or the settlement sends. -/
theorem Spends.of_ended {e : Engine} (h : ListsExact e) (p : Port) :
    Spends e (e.clearPort p) (e.endSession p true).told noExtra ∧
      Spends (e.clearPort p) (e.endSession p true).engine (e.endSession p true).passed noExtra :=
  ⟨.of_cleared h p, .of_afterClear (h.clearPort p) p⟩

theorem Spends.closeReq (h : ListsExact e) : Spent e p t (e.closeReq p t) := by
  unfold Engine.closeReq
  split
  · exact .reply ..
  · exact .endSessionFor e p t p _ (Spends.of_ended h p).1 (Spends.of_ended h p).2

theorem Spends.evictReq (h : ListsExact e) (n : Byte) : Spent e p t (e.evictReq p t n) := by
  unfold Engine.evictReq
  split
  · exact .reply ..
  · split
    · exact .reply ..
    next q _ =>
      split
      · exact .reply ..
      · split
        · exact .reply ..
        · exact .endSessionFor e p t q _ (Spends.of_ended h q).1
            ((Spends.of_ended h q).2.reclosed (fun _ => rfl) rfl)

theorem Spends.limitsReq (q c : Byte) (d : Half) (m r : Byte) : Spent e p t (e.limitsReq p t q c d m r) := by
  unfold Engine.limitsReq
  split
  · exact .reply ..
  · split
    · split
      · exact .reply ..
      · exact Spends.answered (o := []) (.same e (e.setLimits _ _) (fun _ => rfl) rfl) p t .ok _
    · exact .reply ..

theorem Spends.noticeReq : Spent e p t (e.noticeReq p t) := by
  unfold Engine.noticeReq
  split
  · exact .reply ..
  · split <;> exact .reply ..

theorem Spends.probeReq (b : BitVec 24) (l : Half) : Spent e p t (e.probeReq p t b l) := by
  unfold Engine.probeReq
  split
  · exact .reply ..
  · split
    · exact .reply ..
    · split <;> exact .reply ..

theorem Spends.scanStep (f : Filter) (g : Half) (n : Nat) : Spent e p t (e.scanStep p t f g n) := by
  unfold Engine.scanStep
  split <;> exact Spends.answered (o := []) (.same e (e.setCursor p _) (fun _ => rfl) rfl) p t _ _

theorem Spends.scanFirstReq (f q : Byte) (b : BitVec 24) (l : Half) : Spent e p t (e.scanFirstReq p t f q b l) := by
  unfold Engine.scanFirstReq
  split
  · exact .reply ..
  · split
    · exact .reply ..
    · split
      · exact .reply ..
      · split
        · exact .reply ..
        · exact .scanStep ..

theorem Spends.scanNextReq : Spent e p t (e.scanNextReq p t) := by
  unfold Engine.scanNextReq
  split
  · exact .reply ..
  · split
    · exact .reply ..
    · exact .scanStep ..

theorem Spends.revokeReq (hl : ListsExact e) (h : Handle) : Spent e p t (e.revokeReq p t h) := by
  unfold Engine.revokeReq
  split
  · exact .reply ..
  · split
    · exact .reply ..
    next k hk =>
      unfold Engine.revokeSlot
      split
      next y hy =>
        exact (Spends.around (.of_retire e .revoked (completions_conv _ _ _) fun q u => hl.convs _ _ q u) (.of_passUnlessFrozen _) p t .ok _).finish
      next y hy =>
        refine (Spends.around (o1 := [_]) (Spends.free_slot e k (.single _ _ _) fun q u => ?_) (.of_passUnlessFrozen _)
          p t .ok _).finish
        rw [hy, sent_cons]
        simp [Record.names, EngineMsg.completes]
      next y hy => exact (Spends.answered (Spends.free_slot e k .nil fun q u => by rw [hy]; rfl) p t .ok _).finish
      · exact .reply ..

theorem Spends.revokeRangeReq (hl : ListsExact e) (b : BitVec 24) (l : Half) : Spent e p t (e.revokeRangeReq p t b l) := by
  unfold Engine.revokeRangeReq
  split
  · exact .reply ..
  · split
    · exact .reply ..
    · split
      · exact .reply ..
      · unfold Engine.revokeRegion
        dsimp only
        refine (Spends.around (b := e.retireWhere _ .revoked) (.of_retire e .revoked (completions_conv _ _ _)
          fun q u => hl.convs _ _ q u) ?_ p t .ok _).finish
        split
        · exact .of_passUnlessFrozen _
        · exact .refl _

theorem Spends.freezeReq : Spent e p t (e.freezeReq p t) := by
  unfold Engine.freezeReq
  split
  · exact .reply ..
  · split
    · exact .reply ..
    · exact (Spends.answered (o := []) (.same e { e with freeze := some _ } (fun _ => rfl) rfl) p t .ok _).quiet
        (quiet_freezeNotices _)

theorem Spends.thawReq (hl : ListsExact e) : Spent e p t (e.thawReq p t) := by
  unfold Engine.thawReq
  split
  · exact .reply ..
  · split
    · exact .reply ..
    next f hf =>
      split
      · refine Spends.quiet (Spends.quiet ?_ (quiet_countNotices _ _)) (quiet_freezeNotices _)
        have h := (Spends.of_settleThaw hl f.start).closed (e := e)
        exact (h.answered p t .ok (e.thawPayload f.start (e.settleThaw f.start))).of_sent
          (fun g q => by simp only [sent_append]; omega)
          ((h.noDrop.left.append (.answer p t _)).append h.noDrop.right)
      · exact .reply ..

theorem Spends.sendClock (free : e.clock = none) (k : ClockKind) (c : ClockCall) : Spent e p t (e.sendClock p t k c) where
  waits _ _ := rfl
  asks q u := by
    have h : e.asked q u = 0 := by rw [Engine.asked, free]; rfl
    rw [h]
    by_cases hq : q = p <;> by_cases hu : u = t <;>
      simp [Engine.sendClock, Engine.asked, ClockRequest.names, oneExtra, hq, hu, Ne.symm]
  noDrop := .nil

theorem Spends.trimReq (free : e.clock = none) (n : Byte) : Spent e p t (e.trimReq p t n) := by
  unfold Engine.trimReq
  split
  · exact .reply ..
  · split
    · exact .reply ..
    · exact .sendClock e p t free _ _

/-- Everything that a request makes of the uses of contexts. -/
theorem Spends.of_request (hl : ListsExact e) (free : e.clock = none) (r : Request) :
    Spent e p t (e.requestEffect p t r) := by
  cases r with
  | openSession m n => exact .openReq e p t m n
  | closeSession => exact .closeReq e p t hl
  | readClock => exact .sendClock e p t free _ _
  | noop => exact .reply ..
  | claim b l m d w x => exact .claimReq e p t b l m d w x
  | renew h d => exact .renewReq e p t h d
  | release h => exact .releaseReq e p t h
  | downgrade h => exact .downgradeReq e p t h
  | upgrade h w => exact .upgradeReq e p t h w
  | acknowledge h => exact .acknowledgeReq e p t h
  | notice => exact .noticeReq e p t
  | probe b l => exact .probeReq e p t b l
  | scanFirst f q b l => exact .scanFirstReq e p t f q b l
  | scanNext => exact .scanNextReq e p t
  | limits q c d m r => exact .limitsReq e p t q c d m r
  | revoke h => exact .revokeReq e p t hl h
  | revokeRange b l => exact .revokeRangeReq e p t hl b l
  | evict q => exact .evictReq e p t hl q
  | freeze => exact .freezeReq e p t
  | thaw => exact .thawReq e p t hl
  | trim n => exact .trimReq e p t free n

end requests

/-! ### Forwarded cancels, port-drops, tick notices and clock answers -/

/-- A forwarded cancel settles the wait that it ends (R161). -/
theorem Spends.of_cancel (e : Engine) (p : Port) (t : Tag) :
    Spends e (e.cancelReq p t).engine (e.cancelReq p t).out noExtra := by
  unfold Engine.cancelReq
  split
  next _ _ k hk =>
    refine (Spends.trans (Spends.free_slot e k (.single _ _ _) fun q u => ?_) (.of_passUnlessFrozen _)).finish
    have h := List.find?_some hk
    cases hr : e.record k with
    | waiting w =>
      rw [hr] at h
      simp only [Record.waitsFor, Bool.and_eq_true, beq_iff_eq] at h
      simp [sent_cons, EngineMsg.completes, Record.names, h.1, h.2]
    | _ => rw [hr] at h; cases h
  next _ _ k _ hk =>
    refine (Spends.trans (.of_dropConv e (.single _ _ _) fun q u => ?_) (.of_passUnlessFrozen _)).finish
    have h := List.find?_some hk
    rw [countP_slot]
    cases hr : e.record k with
    | held y =>
      rw [hr] at h
      simp only [Record.convertsFor, Record.ownedBy, Record.common, Record.conv, Bool.and_eq_true, beq_iff_eq,
        Option.any_eq_true] at h
      obtain ⟨h1, c, h2, h3⟩ := h
      simp [sent_cons, EngineMsg.completes, Record.names, Record.isHeld, h1, h2, h3]
    | _ => rw [hr] at h; simp [Record.convertsFor, Record.conv] at h
  · unfold Engine.cancelLate
    have late : Quiet [(p, EngineMsg.cancelLate t)] := .single ⟨fun _ => ⟨rfl, rfl, rfl⟩, nofun⟩
    split
    next c hc =>
      split
      · exact ⟨fun _ _ => rfl, fun q u => by simp [Engine.asked, hc, ClockRequest.names], .nil⟩
      · exact (Spends.refl e).quiet late
    · exact (Spends.refl e).quiet late

/-- A tick notice settles the waits that it ends (R90, R146). -/
theorem Spends.of_tick {e : Engine} (h : ListsExact e) (n : Tick) :
    Spends e (e.tick n).engine (e.tick n).out noExtra := by
  have h0 : Spends e (e.advance n) [] noExtra := .same _ _ (fun _ => rfl) rfl
  have hl : ListsExact (e.advance n) := ⟨h.waitsOnce, h.waitsAll, h.convsOnce, h.convsAll⟩
  unfold Engine.tick
  split
  next f hf =>
    unfold Engine.tickFrozen
    split
    · exact ((h0.trans (Spends.of_settleThaw hl f.start)).closed.quiet (quiet_countNotices _ _)).quiet
        (quiet_freezeNotices _)
    · exact h0
  next hf =>
    unfold Engine.tickUnfrozen
    dsimp only
    refine Spends.finish ?_
    have h1 := (h0.trans (Spends.of_settleDue hl)).trans (Spends.of_warn _)
    rw [List.append_nil] at h1
    refine h1.trans (c := _) ?_
    split
    · exact .of_pass _
    · exact .refl _

/-- The timebase's answer answers the clock request, unless it was dropped (R78, R79). -/
theorem Spends.of_endClock {e : Engine} {c : ClockRequest} (hc : e.clock = some c) (r : ResultCode) (l : Payload) :
    Spends e (e.endClock c r l).engine (e.endClock c r l).out noExtra where
  waits q u := by
    unfold Engine.endClock
    dsimp only
    split
    · rfl
    · simp only [sent_cons, EngineMsg.completes, EngineMsg.notifies, sent_nil, Bool.false_eq_true, and_false, if_false]
      rfl
  asks q u := by
    have h : (e.endClock c r l).engine.asked q u = 0 := rfl
    have h' : e.asked q u = if c.names q u = true then 1 else 0 := by simp [Engine.asked, hc, List.countP_cons]
    rw [h, h']
    unfold Engine.endClock
    cases hd : c.dropped <;>
      simp [ClockRequest.names, hd, sent_cons, EngineMsg.results, EngineMsg.notifies]
  noDrop := by
    unfold Engine.endClock
    dsimp only
    split
    · exact .nil
    · exact .answer _ _ _

/-- A record that names no context of `p` once `p` owns nothing. -/
theorem names_of_not_owned {r : Record} {p : Port} {u : Tag} (h : r.ownedBy p = false) : r.names p u = false := by
  cases r <;> simp_all [Record.ownedBy, Record.common, Record.names]

/-- Steps 1 to 4 of the session end of port `p` (R126). -/
theorem Engine.record_clearPort (e : Engine) (p : Port) (k : SlotNo) :
    (e.clearPort p).record k = if (e.record k).ownedBy p then .free else e.record k :=
  (Engine.record_setSession ..).trans (Engine.record_freeWhere ..)

theorem Engine.waits_clearPort (e : Engine) (p : Port) (u : Tag) : (e.clearPort p).waits p u = 0 := by
  have h : ∀ k, ((e.clearPort p).record k).names p u = false := fun k => by
    rw [Engine.record_clearPort]
    split
    · rfl
    next hn => exact names_of_not_owned (by simpa using hn)
  simp [Engine.waits, Engine.countSlots, h]

theorem Engine.waits_clearPort_ne (e : Engine) {p q : Port} (hq : q ≠ p) (u : Tag) :
    (e.clearPort p).waits q u = e.waits q u := by
  have h : ∀ k, ((e.clearPort p).record k).names q u = (e.record k).names q u := fun k => by
    rw [Engine.record_clearPort]
    split
    next ho =>
      cases hr : e.record k <;> simp_all [Record.ownedBy, Record.common, Record.names, Ne.symm hq]
    · rfl
  simp [Engine.waits, Engine.countSlots, h]

/-- What a port-drop notice does: the waits and the clock request of port `p` go untold (`cleared`), the rest of the event
is accounted for, and drop-complete leaves last (R138). -/
theorem Spends.of_dropPort {e : Engine} (h : ListsExact e) (p : Port) :
    ∃ cleared o, (e.dropPort p).out = o ++ [(p, .dropComplete)] ∧
      Spends cleared (e.dropPort p).engine o noExtra ∧ (∀ u, cleared.waits p u = 0 ∧ cleared.asked p u = 0) ∧
      ∀ q u, q ≠ p → cleared.waits q u = e.waits q u ∧ cleared.asked q u = e.asked q u := by
  have hd : ∀ c : ClockRequest, ∀ q u, (c.dropFor p).names q u = (c.names q u && !(q == p)) := fun c q u => by
    unfold ClockRequest.dropFor
    by_cases hq : q = p <;> by_cases hc : c.port = p <;> simp_all [ClockRequest.names]
  have hc : (e.endSession p false).engine.clock = e.clock := by
    change ((e.clearPort p).afterClear p).1.clock = _
    unfold Engine.afterClear
    split
    · split
      · exact (Engine.settleDue_clock _ ▸ (Engine.grantPass_frame _).clock)
      · rfl
    · exact (Engine.grantPass_frame _).clock
  refine ⟨{ e.clearPort p with clock := e.clock.map fun c => c.dropFor p }, _, rfl, ?_, fun u => ⟨?_, ?_⟩,
    fun q u hq => ⟨?_, ?_⟩⟩
  · refine Spends.quiet (Spends.quiet (Spends.quiet (o := (e.endSession p false).passed) ?_ (quiet_countNotices _ _))
      (quiet_sessionNotice _ _)) (quiet_freezeNoticesIf _ _)
    have h1 : Spends (e.clearPort p) (e.endSession p false).engine (e.endSession p false).passed noExtra :=
      .of_afterClear (h.clearPort p) p
    have hr : ∀ k, (e.dropPort p).engine.record k = (e.endSession p false).engine.record k := fun k =>
      (Engine.record_closeEvent ..).trans (Engine.record_setSession ..)
    refine ⟨fun q u => ?_, fun q u => ?_, h1.noDrop⟩
    · rw [Engine.waits_congr hr]
      exact h1.waits q u
    · have h2 : _ = (e.clearPort p).asked q u + 0 := h1.asks q u
      have h3 : (e.endSession p false).engine.asked q u = (e.clearPort p).asked q u := Engine.asked_congr hc q u
      have h4 : (e.dropPort p).engine.asked q u =
          ({ e.clearPort p with clock := e.clock.map fun c => c.dropFor p } : Engine).asked q u := rfl
      rw [h4]
      show _ = _ + 0
      omega
  · exact Engine.waits_clearPort e p u
  · simp only [Engine.asked]
    cases e.clock with
    | none => rfl
    | some c => simp [hd]
  · exact Engine.waits_clearPort_ne e hq u
  · simp only [Engine.asked]
    cases e.clock with
    | none => rfl
    | some c => simp [List.countP_cons, hd, hq]

/-- A port without a drop outstanding, outside a port reset, with nothing on its paths: each context is WAITING with one
wait, or the engine holds it in nothing and it is FREE or DONE or QUEUED and not held. -/
theorem PortMatch.of_quiet {a : AgentPort} {waits : Tag → Nat} (hd : a.dropOutstanding = false) (hi : a.link ≠ .inReset)
    (hr : a.link ≠ .draining)
    (hc : ∀ t, ((∃ r k c, a.context t = .waiting r k c) ∧ waits t = 1) ∨
      (waits t = 0 ∧ (a.context t).isQueued = false ∧ ∀ r k c, a.context t ≠ .waiting r k c)) :
    PortMatch a [] (fun _ => 0) waits [] where
  once t := by rcases hc t with ⟨-, h⟩ | ⟨h, -⟩ <;> simp [underWay, inWait, h]
  matched t := by
    rcases hc t with ⟨⟨r, k, c, h⟩, hw⟩ | ⟨hw, hq, hn⟩
    · rw [h]; exact ⟨fun _ => by simp [inWait, hw], rfl⟩
    · have h0 : underWay [] (fun _ => 0) waits [] t = 0 := by simp [underWay, inWait, hw]
      cases hx : a.context t with
      | queued r b c => rw [hx] at hq; cases hq
      | waiting r k c => exact absurd hx (hn r k c)
      | done => exact ⟨h0, rfl⟩
      | free => exact fun _ => ⟨h0, rfl⟩
  drops := by rw [hd]; rfl
  inReset h := by rw [hd] at h; cases h
  draining h := absurd h hr
  released _ := hi
  lastAsk b _ h := by cases b <;> cases h
  lastWord b _ h := by cases b <;> cases h

end Sys2Proof.Machine
end

