-- ==== Sys2Proof/Laws/Matches.lean ====
section
/-! SUPPORT. Laws/Matches.lean: everything that one event does to the match of requests and waits to a port's contexts
(`PortMatch`). A proof about every step cites `MatchLaw.spends`, `MatchLaw.portMessage`, `PortMatch.message`,
`PortMatch.asks`, `PortMatch.linkMove` and `PortMatch.sample`. -/

namespace Sys2Proof.Machine

/-- Context `t` replaced, the others as they were. -/
theorem AgentPort.context_setContext (a : AgentPort) (t u : Tag) (c : Context) :
    (a.setContext t c).context u = if u = t then c else a.context u := pick_put ..

theorem AgentPort.recordFault_same (a : AgentPort) (c : LinkFault) :
    (a.recordFault c).contexts = a.contexts ∧ (a.recordFault c).submission = a.submission ∧
      (a.recordFault c).link = a.link ∧ (a.recordFault c).selLow = a.selLow := by
  unfold AgentPort.recordFault
  split <;> exact ⟨rfl, rfl, rfl, rfl⟩

theorem AgentPort.judge_link (a : AgentPort) (t : Tag) (bs : List Byte) (b : Byte) :
    (a.judge t bs b).link = a.link ∧ (a.judge t bs b).selLow = a.selLow := by
  unfold AgentPort.judge
  split
  · split
    · exact ⟨rfl, rfl⟩
    · exact (a.recordFault_same _).2.2
  · exact (a.recordFault_same _).2.2

theorem Engine.record_reset (k : SlotNo) : Engine.reset.record k = .free := by
  simp [Engine.record, Engine.reset, Slot.reset]

/-- The port changes and the paths stay: each context is as it was, or matches in its new state. -/
theorem PortMatch.of_port {a b : AgentPort} {up k w dn} (hm : PortMatch a up k w dn)
    (hd : b.dropOutstanding = a.dropOutstanding)
    (hc : ∀ t, b.context t = a.context t ∨
      ((b.context t).Matches (b.dropOutstanding = false) (EngineMsg.dropComplete ∉ dn) (underWay up k w dn t)
          (inWait w dn t) (dn.countP (EngineMsg.notifies t)) ∧
        (b.dropOutstanding = true → (b.context t).isQueued = false)))
    (hl : b.link = a.link ∨
      (a.link ≠ .inReset ∧ a.link ≠ .draining ∧ b.link ≠ .inReset ∧ b.link ≠ .draining))
    (hf : b.filter = a.filter) : PortMatch b up k w dn where
  once := hm.once
  matched t := by
    rcases hc t with h1 | ⟨h1, -⟩
    · rw [h1, hd]; exact hm.matched t
    · exact h1
  drops := by rw [hd]; exact hm.drops
  inReset hx := by
    have := hm.inReset (hd ▸ hx)
    refine ⟨?_, fun t => ?_⟩
    · rcases hl with hl | hl
      · rw [hl]; exact this.1
      · rcases this.1 with h | h
        · exact absurd h hl.1
        · exact absurd h hl.2.1
    · rcases hc t with h1 | ⟨-, h1⟩
      · rw [h1]; exact this.2 t
      · exact h1 hx
  draining hx := by
    rcases hl with hl | hl
    · rw [hd]; exact hm.draining (hl ▸ hx)
    · exact absurd hx hl.2.2.2
  released hx := by
    rcases hl with hl | hl
    · rw [hl]; exact hm.released (hf ▸ hx)
    · exact hl.2.2.1
  lastAsk := hm.lastAsk
  lastWord := hm.lastWord

/-- A list holds a word once, so it parts there in one way only. -/
theorem split_unique {α} [DecidableEq α] {x : α} {a b c d : List α} (h : a ++ x :: b = c ++ x :: d)
    (hc : (a ++ x :: b).count x ≤ 1) : a = c ∧ b = d := by
  rw [List.count_append, List.count_cons_self] at hc
  have ha : x ∉ a := fun hx => by have := List.count_pos_iff.mpr hx; omega
  have hb : x ∉ b := fun hx => by have := List.count_pos_iff.mpr hx; omega
  rw [List.append_eq_append_iff] at h
  rcases h with ⟨l, h1, h2⟩ | ⟨l, h1, h2⟩
  · cases l with
    | nil => simp at h1 h2; exact ⟨h1.symm, h2⟩
    | cons y l =>
      simp only [List.cons_append, List.cons.injEq] at h2
      obtain ⟨rfl, h2⟩ := h2
      exact absurd (h2 ▸ by simp) hb
  · cases l with
    | nil => simp at h1 h2; exact ⟨h1, h2.symm⟩
    | cons y l =>
      simp only [List.cons_append, List.cons.injEq] at h2
      obtain ⟨rfl, h2⟩ := h2
      exact absurd (h1 ▸ by simp) ha

/-- A drop-complete of a longer path stood on the path before. -/
theorem split_before {dn o : List EngineMsg} {b f} (hn : EngineMsg.dropComplete ∉ o)
    (hf : dn ++ o = b ++ .dropComplete :: f) :
    ∃ f', dn = b ++ .dropComplete :: f' ∧ f = f' ++ o := by
  rw [List.append_eq_append_iff] at hf
  rcases hf with ⟨l, h1, h2⟩ | ⟨l, h1, h2⟩
  · exact absurd (h2 ▸ by simp) hn
  · cases l with
    | nil => simp at h2; exact absurd (h2 ▸ by simp) hn
    | cons y l =>
      simp only [List.cons_append, List.cons.injEq] at h2
      obtain ⟨rfl, h2⟩ := h2
      exact ⟨l, h1, h2⟩

/-- An event of the engine that does not take drop-complete's place: its messages join the path to the port. -/
theorem PortMatch.event {a : AgentPort} {up k w dn} {k' w' : Tag → Nat} {o : List EngineMsg}
    (hm : PortMatch a up k w dn)
    (hw : ∀ t, w' t + o.countP (EngineMsg.completes t) = w t + o.countP (EngineMsg.notifies t))
    (hk : ∀ t, k' t + o.countP (EngineMsg.results t) + o.countP (EngineMsg.notifies t) = k t)
    (hn : .dropComplete ∉ o) : PortMatch a up k' w' (dn ++ o) := by
  have hu : ∀ d t, underWay up k' w' (d ++ o) t = underWay up k w d t := fun d t => by
    have := hw t
    have := hk t
    simp only [underWay, inWait, List.countP_append]; omega
  have hk0 : ∀ t, k t = 0 → o.countP (EngineMsg.notifies t) = 0 := fun t h => by have := hk t; omega
  have hword : ∀ t, .dropComplete ∈ dn → k t = 0 := fun t h => by
    obtain ⟨b, f, hf⟩ := List.append_of_mem h
    have := (hm.lastWord b f hf t).1
    simp only [underWay] at this; omega
  refine ⟨fun t => by rw [hu]; exact hm.once t, fun t => ?_, ?_, hm.inReset, hm.draining, hm.released, hm.lastAsk, ?_⟩
  · have h1 := hm.matched t
    have h2 := hm.once t
    have h3 := hw t
    have h4 := hk0 t
    have h5 := hword t
    rw [hu]
    have hi : inWait w' (dn ++ o) t = inWait w dn t + o.countP (EngineMsg.notifies t) := by
      simp only [inWait, List.countP_append]; omega
    rw [hi, List.countP_append]
    have hk1 : underWay up k w dn t = 0 → k t = 0 := fun h => by simp only [underWay] at h; omega
    have hk2 : inWait w dn t = 1 → k t = 0 := fun h => by simp only [underWay] at h2; omega
    cases hc : a.context t with
    | queued r b x =>
      rw [hc] at h1
      cases b with
      | false => simp only [Context.Matches] at h1 ⊢; have := h4 (hk1 h1.1); omega
      | true => simp only [Context.Matches] at h1 ⊢; omega
    | done => rw [hc] at h1; simp only [Context.Matches] at h1 ⊢; have := h4 (hk1 h1.1); omega
    | free => rw [hc] at h1; simp only [Context.Matches] at h1 ⊢; intro hx; have := h1 hx; have := h4 (hk1 this.1); omega
    | waiting =>
      rw [hc] at h1; simp only [Context.Matches] at h1 ⊢
      have hz : o.countP (EngineMsg.notifies t) = 0 := by
        by_cases hd : EngineMsg.dropComplete ∈ dn
        · exact h4 (h5 hd)
        · exact h4 (hk2 (h1.1 hd))
      refine ⟨fun hx => ?_, by omega⟩
      have := h1.1 fun h => hx (List.mem_append_left _ h)
      omega
  · rw [List.count_append, List.count_eq_zero.mpr hn]; exact hm.drops
  · intro b f hf t
    obtain ⟨f', h1, rfl⟩ := split_before hn hf
    obtain ⟨h2, h3⟩ := hm.lastWord b f' h1 t
    rw [hu]
    refine ⟨h2, ?_⟩
    rw [List.countP_append, h3, hk0 t (by simp only [underWay] at h2; omega)]

/-- The head of the port's path is taken: a request counts with the event that takes it. -/
theorem PortMatch.taken {a : AgentPort} {m : PortMsg} {up k w dn} (hm : PortMatch a (m :: up) k w dn)
    (hd : m ≠ .portDrop) :
    PortMatch a up (fun t => k t + if m.asksFor t then 1 else 0) w dn := by
  have hu : ∀ d t, underWay up (fun t => k t + if m.asksFor t then 1 else 0) w d t = underWay (m :: up) k w d t := by
    intro d t
    simp only [underWay, List.countP_cons]; omega
  refine ⟨fun t => by rw [hu]; exact hm.once t, fun t => by simp only [hu]; exact hm.matched t, ?_, hm.inReset,
      hm.draining, hm.released, ?_, ?_⟩
  · have := hm.drops
    rwa [List.count_cons_of_ne hd] at this
  · intro b f hf
    exact hm.lastAsk (m :: b) f (by rw [hf]; rfl)
  · intro b f hf t
    rw [hu]; exact hm.lastWord b f hf t

/-- No drop-complete reaches a port when none is sent. -/
theorem outFor_noDrop {q : Port} {o : List Out} (h : NoDrop o) : .dropComplete ∉ outFor q o := by
  intro hx
  unfold outFor at hx
  obtain ⟨m, hm, he⟩ := List.mem_filterMap.mp hx
  split at he
  · injection he with he; exact h m hm he
  · cases he

/-- The port-drop notice is taken, and drop-complete joins the path to the port last (R138, R164). -/
theorem PortMatch.dropTaken {a : AgentPort} {up k w dn} {k' w' : Tag → Nat} {o : List EngineMsg}
    (hm : PortMatch a (.portDrop :: up) k w dn)
    (hw : ∀ t, w' t + o.countP (EngineMsg.completes t) = o.countP (EngineMsg.notifies t))
    (hk : ∀ t, k' t + o.countP (EngineMsg.results t) + o.countP (EngineMsg.notifies t) = 0)
    (hn : .dropComplete ∉ o) :
    PortMatch a up k' w' (dn ++ (o ++ [.dropComplete])) := by
  have hask : ∀ t, up.countP (PortMsg.asksFor t) = 0 := hm.lastAsk [] up rfl
  have hdr := hm.drops
  rw [List.count_cons_self] at hdr
  have hout : a.dropOutstanding = true := by
    cases h : a.dropOutstanding with
    | true => rfl
    | false => rw [h] at hdr; simp at hdr
  have hc1 : up.count .portDrop = 0 := by rw [hout] at hdr; simp only [if_true] at hdr; omega
  have hc2 : dn.count .dropComplete = 0 := by rw [hout] at hdr; simp only [if_true] at hdr; omega
  have hu : ∀ t, underWay up k' w' (dn ++ (o ++ [.dropComplete])) t ≤ underWay (.portDrop :: up) k w dn t := fun t => by
    have := hw t
    have := hk t
    have := hask t
    simp only [underWay, inWait, List.countP_append, List.countP_cons, EngineMsg.results,
      EngineMsg.completes]
    simp only [Bool.false_eq_true, if_false, Nat.add_zero, List.countP_nil]
    omega
  have hz : ∀ t, (dn ++ (o ++ [EngineMsg.dropComplete])).countP (EngineMsg.notifies t) =
      dn.countP (EngineMsg.notifies t) := by
    intro t
    have := hk t
    simp only [List.countP_append, List.countP_cons, EngineMsg.notifies]
    simp only [Bool.false_eq_true, if_false, Nat.add_zero, List.countP_nil]
    omega
  have hq := hm.inReset hout
  refine ⟨fun t => Nat.le_trans (hu t) (hm.once t), fun t => ?_, ?_, hm.inReset, hm.draining, hm.released, ?_, ?_⟩
  · have h1 := hm.matched t
    have h2 := hu t
    rw [hz]
    cases hc : a.context t with
    | queued => have := hq.2 t; rw [hc] at this; cases this
    | done => rw [hc] at h1; simp only [Context.Matches] at h1 ⊢; omega
    | free => rw [hout]; exact nofun
    | waiting => rw [hc] at h1; exact ⟨fun hx => absurd (by simp) hx, h1.2⟩
  · rw [List.count_append, List.count_append, List.count_eq_zero.mpr hn, hc1, hc2, hout]; simp
  · intro b f hf
    exact absurd (hf ▸ by simp : PortMsg.portDrop ∈ up) (List.count_eq_zero.mp hc1)
  · intro b f hf t
    have hcc : (b ++ EngineMsg.dropComplete :: f).count .dropComplete ≤ 1 := by
      rw [← hf, List.count_append, List.count_append, List.count_eq_zero.mpr hn, hc2]; simp
    have hf' : b ++ EngineMsg.dropComplete :: f = (dn ++ o) ++ .dropComplete :: [] := by rw [← hf]; simp
    obtain ⟨-, rfl⟩ := split_unique hf' hcc
    have := hw t
    have := hk t
    have := hask t
    have e0 : ∀ g : EngineMsg → Bool, List.countP g [] = 0 := fun _ => rfl
    simp only [underWay, inWait, e0]
    exact ⟨by omega, trivial⟩

/-- An event of the engine by its account. -/
theorem PortMatch.spends {s : State} {b : Engine} {o : List Out} {q : Port} {a' up k dn} {x}
    (h : Spends s.engine b o x) (hk : ∀ u, k u = s.engine.asked q u + x q u)
    (hm : PortMatch a' up k (s.engine.waits q) dn) :
    PortMatch a' up (b.asked q) (b.waits q) (dn ++ outFor q o) :=
  PortMatch.event hm (fun t => h.waits q t) (fun t => by rw [hk]; exact h.asks q t) (outFor_noDrop h.noDrop)

/-- An event of the engine that takes no port's message keeps the match at every port. -/
theorem MatchLaw.spends {s : State} {b : Engine} {o : List Out} (hm : MatchLaw s) (h : Spends s.engine b o noExtra)
    (q : Port) :
    PortMatch (s.port q) (pick s.toEngine q) (b.asked q) (b.waits q) (pick s.toPort q ++ outFor q o) :=
  PortMatch.spends h (fun _ => rfl) (hm q).1

/-- A port's message taken by the engine keeps the match at every port. -/
theorem MatchLaw.portMessage {s : State} {p m rest} (hm : MatchLaw s) (hl : ListsExact s.engine)
    (head : pick s.toEngine p = m :: rest) (free : m.isRequest = true → s.engine.clock = none)
    (q : Port) : PortMatch (s.port q) (pick (put s.toEngine p rest) q) ((s.engine.portEffect p m).engine.asked q)
        ((s.engine.portEffect p m).engine.waits q) (pick s.toPort q ++ outFor q (s.engine.portEffect p m).out) := by
  have hq := (hm q).1
  cases m with
  | request t r =>
    have hs := Spends.of_request s.engine p t hl (free rfl) r
    rw [pick_put]
    split
    · next hqp =>
      subst hqp
      rw [head] at hq
      refine PortMatch.spends hs (fun u => ?_) (PortMatch.taken hq nofun)
      simp only [oneExtra, PortMsg.asksFor, beq_iff_eq, true_and, @eq_comm _ t u]
    · next hqp =>
      exact PortMatch.spends hs (fun u => by simp only [oneExtra, hqp, false_and, if_false, Nat.add_zero]) hq
  | cancel t =>
    have hs := Spends.of_cancel s.engine p t
    rw [pick_put]
    split
    · next hqp =>
      subst hqp
      rw [head] at hq
      exact PortMatch.spends hs (fun u => rfl) (PortMatch.taken hq nofun)
    · exact PortMatch.spends hs (fun u => rfl) hq
  | portDrop =>
    obtain ⟨mid, o, ho, hs, h0, h1⟩ := Spends.of_dropPort hl p
    change PortMatch _ _ ((s.engine.dropPort p).engine.asked q) ((s.engine.dropPort p).engine.waits q)
        (_ ++ outFor q (s.engine.dropPort p).out)
    rw [ho, outFor_append, pick_put]
    split
    · next hqp =>
      subst hqp
      rw [head] at hq
      have : outFor q [(q, EngineMsg.dropComplete)] = [.dropComplete] := by simp [outFor]
      rw [this]
      refine PortMatch.dropTaken hq (fun u => ?_) (fun u => ?_) (outFor_noDrop hs.noDrop)
      · have := hs.waits q u
        rw [(h0 u).1, Nat.zero_add] at this; exact this
      · have := hs.asks q u
        rw [(h0 u).2] at this; exact this
    · next hqp =>
      have : outFor q [(p, EngineMsg.dropComplete)] = [] := by simp [outFor, Ne.symm hqp]
      rw [this, List.append_nil]
      refine PortMatch.event hq (fun u => ?_) (fun u => ?_) (outFor_noDrop hs.noDrop)
      · have := hs.waits q u
        rw [(h1 q u hqp).1] at this; exact this
      · have := hs.asks q u
        rw [(h1 q u hqp).2] at this; exact this

/-- A message leaves the path to the port, and each context matches what is left. -/
theorem PortMatch.popped {a b : AgentPort} {m up k w dn} (hm : PortMatch a up k w (m :: dn)) (hd : m ≠ .dropComplete)
    (hb : b.dropOutstanding = a.dropOutstanding) (hl : b.link = a.link) (hf : b.filter = a.filter)
    (hq : ∀ t, a.context t = .free ∨ (∃ r x, a.context t = .done r x) ∨ (∃ r y x, a.context t = .waiting r y x) →
        (b.context t).isQueued = false)
    (hc : ∀ t, (b.context t).Matches (b.dropOutstanding = false) (EngineMsg.dropComplete ∉ dn)
        (underWay up k w dn t) (inWait w dn t) (dn.countP (EngineMsg.notifies t))) :
    PortMatch b up k w dn := by
  have hle : ∀ t, underWay up k w dn t ≤ underWay up k w (m :: dn) t := fun t => by
    simp only [underWay, inWait, List.countP_cons]; omega
  refine ⟨fun t => Nat.le_trans (hle t) (hm.once t), hc, ?_, fun hx => ?_, fun hx => ?_, fun hx => ?_, hm.lastAsk, ?_⟩
  · have := hm.drops
    rw [List.count_cons_of_ne hd] at this
    rw [hb]; exact this
  · have := hm.inReset (hb ▸ hx)
    rw [hl]
    refine ⟨this.1, fun t => hq t ?_⟩
    have := this.2 t
    cases hx : a.context t with
    | free => exact .inl rfl
    | queued => rw [hx] at this; cases this
    | waiting r y x => exact .inr (.inr ⟨r, y, x, rfl⟩)
    | done r x => exact .inr (.inl ⟨r, x, rfl⟩)
  · rw [hb]; exact hm.draining (hl ▸ hx)
  · rw [hl]; exact hm.released (hf ▸ hx)
  · intro b f hf
    exact hm.lastWord (m :: b) f (by rw [hf]; rfl)

/-- A message that says nothing of a context leaves its match as it was. -/
theorem PortMatch.matched_other {a : AgentPort} {m up k w dn} (hm : PortMatch a up k w (m :: dn))
    (hd : m ≠ .dropComplete) (t : Tag)
    (h : m.results t = false ∧ m.notifies t = false ∧ m.completes t = false) :
    (a.context t).Matches (a.dropOutstanding = false) (EngineMsg.dropComplete ∉ dn) (underWay up k w dn t)
        (inWait w dn t) (dn.countP (EngineMsg.notifies t)) := by
  have h1 := hm.matched t
  have e1 : underWay up k w (m :: dn) t = underWay up k w dn t := by simp [underWay, inWait, h.1, h.2.2]
  have e2 : inWait w (m :: dn) t = inWait w dn t := by simp [inWait, h.2.2]
  have e3 : (m :: dn).countP (EngineMsg.notifies t) = dn.countP (EngineMsg.notifies t) := by simp [h.2.1]
  have e4 : (EngineMsg.dropComplete ∉ m :: dn) = (EngineMsg.dropComplete ∉ dn) := by simp [Ne.symm hd]
  rw [e1, e2, e3, e4] at h1
  exact h1

/-- A message that leaves the path leaves a FREE context matched. -/
theorem PortMatch.matched_free {a : AgentPort} {m up k w dn} (hm : PortMatch a up k w (m :: dn)) (t : Tag)
    (hc : a.context t = .free) :
    (a.context t).Matches (a.dropOutstanding = false) (EngineMsg.dropComplete ∉ dn) (underWay up k w dn t)
        (inWait w dn t) (dn.countP (EngineMsg.notifies t)) := by
  have h1 := hm.matched t
  rw [hc] at h1 ⊢
  intro hx
  obtain ⟨h2, h3⟩ := h1 hx
  simp only [underWay, inWait, List.countP_cons] at h2 h3 ⊢
  omega

/-- A message that concerns no request leaves the path to the port. -/
theorem PortMatch.quietMessage {a b : AgentPort} {m up k w dn} (hm : PortMatch a up k w (m :: dn))
    (hd : m ≠ .dropComplete)
   (hq : ∀ t, m.results t = false ∧ m.notifies t = false ∧ m.completes t = false)
   (hb : b.dropOutstanding = a.dropOutstanding) (hl : b.link = a.link) (hf : b.filter = a.filter)
   (hc : ∀ t, b.context t = a.context t ∨ ∃ r x r' y, a.context t = .done r x ∧ b.context t = .done r' y) :
       PortMatch b up k w dn := by
  refine PortMatch.popped hm hd hb hl hf (fun t ht => ?_) fun t => ?_
  · rcases hc t with h | ⟨r, x, r', y, -, h⟩
    · rw [h]
      rcases ht with h | ⟨_, _, h⟩ | ⟨_, _, _, h⟩ <;> rw [h] <;> rfl
    · rw [h]; rfl
  · have := PortMatch.matched_other hm hd t (hq t)
    rw [hb]
    rcases hc t with h | ⟨r, x, r', y, h1, h⟩
    · rw [h]; exact this
    · rw [h]; rw [h1] at this; exact this

/-- The port takes a message of the engine (R156, R157, R163, R164). -/
theorem PortMatch.message {a b : AgentPort} {m up k w dn} (hm : PortMatch a up k w (m :: dn))
    (hb : a.messageEffect m = .ok b) : PortMatch b up k w dn := by
  cases m with
  | answer t x =>
    have oth : ∀ u, u ≠ t → (EngineMsg.answer t x).results u = false ∧ (EngineMsg.answer t x).notifies u = false ∧
        (EngineMsg.answer t x).completes u = false := fun u hu => by
      cases x <;> simp [EngineMsg.results, EngineMsg.notifies, EngineMsg.completes, Ne.symm hu]
    simp only [AgentPort.messageEffect, AgentPort.takeAnswer] at hb
    split at hb
    · next r co hc =>
      injection hb with hb; subst hb
      have h1 := hm.matched t
      have h2 := hm.once t
      rw [hc] at h1
      simp only [Context.Matches] at h1
      refine PortMatch.popped hm nofun rfl rfl rfl (fun u hu => ?_) fun u => ?_
      · rw [show ((_ : AgentPort).context u) = _ from AgentPort.context_setContext ..]
        split
        · cases x <;> rfl
        · change (a.context u).isQueued = false
          rcases hu with h | ⟨_, _, h⟩ | ⟨_, _, _, h⟩ <;> rw [h] <;> rfl
      · rw [show ((_ : AgentPort).context u) = _ from AgentPort.context_setContext ..]
        split
        · next hut =>
          subst hut
          cases x with
          | result o y late =>
            simp only [underWay, inWait, List.countP_cons, EngineMsg.results, EngineMsg.completes,
              EngineMsg.notifies, beq_self_eq_true, if_true] at h1
            simp only [Bool.false_eq_true, if_false, Nat.add_zero] at h1
            change underWay up k w dn u = 0 ∧ _ = 0
            simp only [underWay, inWait]
            omega
          | waitingClaim =>
            simp only [underWay, inWait, List.countP_cons, EngineMsg.results, EngineMsg.completes,
              EngineMsg.notifies, beq_self_eq_true, if_true] at h1
            simp only [Bool.false_eq_true, if_false, Nat.add_zero] at h1
            change (_ → inWait w dn u = 1) ∧ _ = 0
            simp only [inWait]
            refine ⟨fun _ => ?_, ?_⟩ <;> omega
          | waitingUpgrade =>
            simp only [underWay, inWait, List.countP_cons, EngineMsg.results, EngineMsg.completes,
              EngineMsg.notifies, beq_self_eq_true, if_true] at h1
            simp only [Bool.false_eq_true, if_false, Nat.add_zero] at h1
            change (_ → inWait w dn u = 1) ∧ _ = 0
            simp only [inWait]
            refine ⟨fun _ => ?_, ?_⟩ <;> omega
        · next hut => exact PortMatch.matched_other hm nofun u (oth u hut)
    · next hc =>
      injection hb with hb; subst hb
      refine PortMatch.popped hm nofun rfl rfl rfl (fun u hu => ?_) fun u => ?_
      · rcases hu with h | ⟨_, _, h⟩ | ⟨_, _, _, h⟩ <;> rw [h] <;> rfl
      by_cases hut : u = t
      · subst hut; exact PortMatch.matched_free hm u hc
      · exact PortMatch.matched_other hm nofun u (oth u hut)
    · cases hb
  | completion t x =>
    have oth : ∀ u, u ≠ t → (EngineMsg.completion t x).results u = false ∧
        (EngineMsg.completion t x).notifies u = false ∧ (EngineMsg.completion t x).completes u = false := fun u hu => by
      simp [EngineMsg.results, EngineMsg.notifies, EngineMsg.completes, Ne.symm hu]
    simp only [AgentPort.messageEffect, AgentPort.takeCompletion] at hb
    split at hb
    · next hc =>
      injection hb with hb; subst hb
      have h1 := hm.matched t
      have h2 := hm.once t
      rw [hc] at h1
      refine PortMatch.popped hm nofun rfl rfl rfl (fun u hu => ?_) fun u => ?_
      · rw [show ((_ : AgentPort).context u) = _ from AgentPort.context_setContext ..]
        split
        · rfl
        · rcases hu with h | ⟨_, _, h⟩ | ⟨_, _, _, h⟩ <;> rw [h] <;> rfl
      · rw [show ((_ : AgentPort).context u) = _ from AgentPort.context_setContext ..]
        split
        · next hut =>
          subst hut
          have h3 := h1.2
          simp only [underWay, inWait, List.countP_cons, EngineMsg.results, EngineMsg.completes,
            EngineMsg.notifies, beq_self_eq_true, if_true] at h2 h3
          simp only [Bool.false_eq_true, if_false, Nat.add_zero] at h2 h3
          change underWay up k w dn u = 0 ∧ _ = 0
          simp only [underWay, inWait]
          omega
        · next hut => exact PortMatch.matched_other hm nofun u (oth u hut)
    · next hc =>
      injection hb with hb; subst hb
      refine PortMatch.popped hm nofun rfl rfl rfl (fun u hu => ?_) fun u => ?_
      · rcases hu with h | ⟨_, _, h⟩ | ⟨_, _, _, h⟩ <;> rw [h] <;> rfl
      by_cases hut : u = t
      · subst hut; exact PortMatch.matched_free hm u hc
      · exact PortMatch.matched_other hm nofun u (oth u hut)
    · cases hb
  | cancelLate t =>
    simp only [AgentPort.messageEffect, AgentPort.takeCancelLate] at hb
    split at hb
    · next r hc =>
      injection hb with hb; subst hb
      refine PortMatch.quietMessage hm nofun (fun u => ⟨rfl, rfl, rfl⟩) rfl rfl rfl fun u => ?_
      rw [show ((_ : AgentPort).context u) = _ from AgentPort.context_setContext ..]
      split
      · next hut => subst hut; exact .inr ⟨_, _, _, _, hc, rfl⟩
      · exact .inl rfl
    · injection hb with hb
      subst hb
      exact PortMatch.quietMessage hm nofun (fun u => ⟨rfl, rfl, rfl⟩) rfl rfl rfl fun u => .inl rfl
    · cases hb
  | marked n => 
    injection hb with hb
    subst hb
    exact PortMatch.quietMessage hm nofun (fun u => ⟨rfl, rfl, rfl⟩) rfl rfl rfl fun u => .inl rfl
  | session => 
    injection hb with hb
    subst hb
    exact PortMatch.quietMessage hm nofun (fun u => ⟨rfl, rfl, rfl⟩) rfl rfl rfl fun u => .inl rfl
  | freeze => 
    injection hb with hb
    subst hb
    exact PortMatch.quietMessage hm nofun (fun u => ⟨rfl, rfl, rfl⟩) rfl rfl rfl fun u => .inl rfl
  | dropComplete =>
    have hz := hm.lastWord [] dn rfl
    have hdr := hm.drops
    rw [List.count_cons_self] at hdr
    have hout : a.dropOutstanding = true := by
      cases h : a.dropOutstanding with
      | true => rfl
      | false => rw [h] at hdr; simp at hdr
    rw [hout] at hdr; simp only [if_true] at hdr
    have hc1 : up.count .portDrop = 0 := by omega
    have hc2 : dn.count .dropComplete = 0 := by omega
    have fin : ∀ b : AgentPort, (∀ t, b.context t = .free) → b.dropOutstanding = false → b.link ≠ .draining →
        (b.filter.asserted = false → b.link ≠ .inReset) → PortMatch b up k w dn := fun b hb1 hb2 hb3 hb4 => by
      refine ⟨fun t => by rw [(hz t).1]; omega, fun t => by rw [hb1]; exact fun _ => hz t, by rw [hb2, hc1, hc2]; rfl,
        fun hx => by (rw [hb2] at hx; cases hx), fun hx => absurd hx hb3, hb4, ?_, ?_⟩
      · intro b f hf; exact absurd (hf ▸ by simp : PortMsg.portDrop ∈ up) (List.count_eq_zero.mp hc1)
      · intro b f hf; exact absurd (hf ▸ by simp : EngineMsg.dropComplete ∈ dn) (List.count_eq_zero.mp hc2)
    have hfree : ∀ t, a.freed.context t = .free := fun t => pick_tab ..
    simp only [AgentPort.messageEffect, AgentPort.takeDropComplete] at hb
    split at hb
    · next hl _ =>
      injection hb with hb; subst hb
      refine fin _ hfree rfl (by show a.link ≠ _; rw [hl]; nofun) (fun hx => hm.released hx)
    · next hl =>
      injection hb with hb; subst hb
      refine fin _ hfree rfl ?_ ?_ <;> (simp only [AgentPort.leaveReset]; split <;> simp)
    · cases hb

/-- The arbiter takes a request: it joins the path to the engine (R154). -/
theorem PortMatch.asks {a : AgentPort} {t r c up k w dn} (hm : PortMatch a up k w dn)
    (hc : a.context t = .queued r false c) : PortMatch (a.held t r) (up ++ [.request t r]) k w dn := by
  have h0 := hm.matched t
  rw [hc] at h0; simp only [Context.Matches] at h0
  have hnd : a.dropOutstanding = false := by
    cases hx : a.dropOutstanding with
    | false => rfl
    | true => have := (hm.inReset hx).2 t; rw [hc] at this; cases this
  have hdr := hm.drops
  rw [hnd] at hdr
  have hc1 : up.count .portDrop = 0 := by simp only [Bool.false_eq_true, if_false] at hdr; omega
  have hc2 : dn.count .dropComplete = 0 := by simp only [Bool.false_eq_true, if_false] at hdr; omega
  have hu : ∀ u, underWay (up ++ [.request t r]) k w dn u = underWay up k w dn u + if t = u then 1 else 0 := fun u => by
    simp only [underWay, List.countP_append, List.countP_cons, List.countP_nil, PortMsg.asksFor, beq_iff_eq]; omega
  refine ⟨fun u => ?_, fun u => ?_, ?_, fun hx => ?_, hm.draining, hm.released, ?_, ?_⟩
  · rw [hu]
    split
    · next e => subst e; omega
    · exact hm.once u
  · have hx : (a.held t r).context u = if u = t then .queued r true false else a.context u := AgentPort.context_setContext ..
    rw [hx]
    by_cases hut : u = t
    · subst hut
      rw [if_pos rfl, hu, if_pos rfl]
      simp only [Context.Matches]
      obtain ⟨h1, h2⟩ := h0
      simp only [underWay] at h1 ⊢
      omega
    · rw [if_neg hut]
      have := hm.matched u
      simp only [hu, if_neg (Ne.symm hut)]; exact this
  · rw [List.count_append, hc1, hc2]; show _ = if a.dropOutstanding then 1 else 0; rw [hnd]; simp
  · rw [show (a.held t r).dropOutstanding = a.dropOutstanding from rfl, hnd] at hx; cases hx
  · intro b f hf
    have : PortMsg.portDrop ∈ up ++ [.request t r] := by rw [hf]; simp
    simp at this; exact absurd this (List.count_eq_zero.mp hc1)
  · intro b f hf; exact absurd (hf ▸ by simp : EngineMsg.dropComplete ∈ dn) (List.count_eq_zero.mp hc2)

/-- A forwarded cancel joins the path to the engine (R160). -/
theorem PortMatch.cancelSent {a : AgentPort} {t up k w dn} (hm : PortMatch a up k w dn) :
    PortMatch a (up ++ [.cancel t]) k w dn := by
  have hu : ∀ d u, underWay (up ++ [.cancel t]) k w d u = underWay up k w d u := fun d u => by
    simp [underWay, PortMsg.asksFor]
  refine ⟨fun u => by rw [hu]; exact hm.once u, fun u => by simp only [hu]; exact hm.matched u, ?_, hm.inReset,
      hm.draining, hm.released, ?_, ?_⟩
  · have := hm.drops
    rw [List.count_append]; simpa using this
  · intro b f hf
    rcases List.eq_nil_or_concat f with rfl | ⟨f', x, rfl⟩
    · intro t; rfl
    · have hx : up ++ [PortMsg.cancel t] = (b ++ .portDrop :: f') ++ [x] := by rw [hf]; simp
      obtain ⟨h1, h2⟩ := List.append_inj' hx rfl
      injection h2 with h2
      intro u
      have := hm.lastAsk b f' h1 u
      rw [List.concat_eq_append, List.countP_append, this, ← h2]; rfl
  · intro b f hf u
    rw [hu]; exact hm.lastWord b f hf u

/-- Outside a port reset no drop is outstanding. -/
theorem PortMatch.notOutstanding {a : AgentPort} {up k w dn} (hm : PortMatch a up k w dn) (hl : a.link ≠ .inReset ∧
    a.link ≠ .draining) : a.dropOutstanding = false := by
  cases hx : a.dropOutstanding with
  | false => rfl
  | true => rcases (hm.inReset hx).1 with h | h <;> simp_all

/-- A fault leaves drop and filter as they were. -/
theorem AgentPort.recordFault_kept (a : AgentPort) (c) : (a.recordFault c).dropOutstanding = a.dropOutstanding ∧
    (a.recordFault c).filter = a.filter := by
  unfold AgentPort.recordFault; split <;> exact ⟨rfl, rfl⟩

/-- The port records a link fault (R174). -/
theorem PortMatch.fault {a : AgentPort} {up k w dn} (c) (hm : PortMatch a up k w dn) :
    PortMatch (a.recordFault c) up k w dn :=
  PortMatch.of_port hm (AgentPort.recordFault_kept a c).1 (fun t => .inl
      (by rw [AgentPort.context, AgentPort.context, (AgentPort.recordFault_same a c).1]))
          (.inl (AgentPort.recordFault_same a c).2.2.1) (AgentPort.recordFault_kept a c).2

/-- The link changes outside a port reset. -/
theorem PortMatch.linked {a : AgentPort} {up k w dn} (l) (hm : PortMatch a up k w dn) (hl : a.link ≠ .inReset ∧
    a.link ≠ .draining ∧ l ≠ .inReset ∧ l ≠ .draining) : PortMatch { a with link := l } up k w dn :=
  PortMatch.of_port hm rfl (fun _ => .inl rfl) (.inr hl) rfl

/-- The port judges a frame (R170). -/
theorem PortMatch.judge {a : AgentPort} {up k w dn} (t bs b) (hl : a.link ≠ .inReset ∧ a.link ≠ .draining)
    (hm : PortMatch a up k w dn) : PortMatch (a.judge t bs b) up k w dn := by
  have := PortMatch.notOutstanding hm hl
  unfold AgentPort.judge
  split
  · split
    · next r hf _ =>
      refine PortMatch.of_port hm rfl (fun u => ?_) (.inl rfl) rfl
      change (a.setContext t _).context u = _ ∨ (((a.setContext t _).context u).Matches _ _ _ _ _ ∧ (_ →
          ((a.setContext t _).context u).isQueued = _))
      rw [AgentPort.context_setContext]
      split
      · next hut =>
        subst hut
        have h0 := hm.matched u
        rw [hf] at h0
        refine .inr ⟨h0 this, fun hx => ?_⟩
        rw [show (a.accept u r).dropOutstanding = a.dropOutstanding from rfl, this] at hx
        cases hx
      · exact .inl rfl
    · exact PortMatch.fault _ hm
  · exact PortMatch.fault _ hm

/-- The port takes a byte of a frame. -/
theorem PortMatch.frameByte {a : AgentPort} {up k w dn} (x : Byte) (hm : PortMatch a up k w dn) :
    PortMatch (a.frameByte x) up k w dn := by
  unfold AgentPort.frameByte
  split
  · next hl =>
    split
    · exact PortMatch.linked _ hm (by rw [hl]; exact ⟨nofun, nofun, nofun, nofun⟩)
    · exact PortMatch.linked _ (PortMatch.fault _ hm)
        (by rw [(AgentPort.recordFault_same a _).2.2.1, hl]; exact ⟨nofun, nofun, nofun, nofun⟩)
  · next hl =>
    split
    · split
      · exact PortMatch.linked _ hm (by rw [hl]; exact ⟨nofun, nofun, nofun, nofun⟩)
      · exact PortMatch.linked _ (PortMatch.judge _ _ _ (by rw [hl]; exact ⟨nofun, nofun⟩) hm)
          (by rw [(AgentPort.judge_link ..).1, hl]; exact ⟨nofun, nofun, nofun, nofun⟩)
    · exact PortMatch.linked _ (PortMatch.fault _ hm)
        (by rw [(AgentPort.recordFault_same a _).2.2.1, hl]; exact ⟨nofun, nofun, nofun, nofun⟩)
  · exact PortMatch.fault _ hm
  · exact hm

/-- The port takes bytes of a frame. -/
theorem PortMatch.frameBytes {up k w dn} (bs : List Byte) : ∀ {a : AgentPort}, PortMatch a up k w dn →
    PortMatch (a.frameBytes bs) up k w dn := by
  induction bs with
  | nil => exact fun h => h
  | cons b bs ih => exact fun h => ih (PortMatch.frameByte b h)

/-- Everything that an event at the port's link does to the match. -/
theorem PortMatch.linkMove {a b : AgentPort} {ms up k w dn} (hm : PortMatch a up k w dn) (hf : FetchLaw a)
    (hl : LinkMove a b ms) : PortMatch b (up ++ ms) k w dn := by
  cases hl with
  | selectFall =>
    rw [List.append_nil]
    unfold AgentPort.selectFall
    split
    · exact hm
    · split
      · next hl =>
          exact PortMatch.of_port hm rfl (fun _ => .inl rfl) (.inr (by rw [hl]; exact ⟨nofun, nofun, nofun, nofun⟩)) rfl
      · exact PortMatch.of_port hm rfl (fun _ => .inl rfl) (.inl rfl) rfl
  | selectRise =>
    rw [List.append_nil]
    unfold AgentPort.selectRise
    split
    · split
      · next hl =>
          exact PortMatch.of_port (PortMatch.fault .shortFrame hm) rfl (fun _ => .inl rfl) (.inr
              (by rw [(AgentPort.recordFault_same a _).2.2.1, hl]; exact ⟨nofun, nofun, nofun, nofun⟩)) rfl
      all_goals first
        | exact PortMatch.of_port hm rfl (fun _ => .inl rfl) (.inl rfl) rfl
        | next hl => exact PortMatch.of_port hm rfl (fun _ => .inl rfl) (.inr (by rw [hl]; exact ⟨nofun, nofun,
            nofun, nofun⟩)) rfl
    · exact hm
  | submit t bs =>
    rw [List.append_nil]
    unfold AgentPort.submit
    split
    · next hl =>
        exact PortMatch.frameBytes bs (PortMatch.linked _ hm (by rw [hl]; exact ⟨nofun, nofun, nofun, nofun⟩))
    · split
      · exact PortMatch.frameBytes bs hm
      · exact hm
    · exact hm
  | bitAfterCheck =>
    rw [List.append_nil]
    unfold AgentPort.bitAfterCheck
    split
    · exact PortMatch.fault _ hm
    · exact hm
  | fetch t =>
    rw [List.append_nil]
    unfold AgentPort.fetch
    split
    · next hl _ => exact PortMatch.linked _ hm (by rw [hl]; exact ⟨nofun, nofun, nofun, nofun⟩)
    · next hl _ => exact PortMatch.linked _ hm (by rw [hl]; exact ⟨nofun, nofun, nofun, nofun⟩)
    · exact hm
  | fetchComplete =>
    rw [List.append_nil]
    unfold AgentPort.fetchComplete
    split
    · next t o hl =>
      obtain ⟨r, hr, -⟩ := hf t o hl
      have hno := PortMatch.notOutstanding hm (by rw [hl]; exact ⟨nofun, nofun⟩)
      refine PortMatch.of_port hm rfl (fun u => ?_) (.inr (by rw [hl]; exact ⟨nofun, nofun, nofun, nofun⟩)) rfl
      change (a.setContext t _).context u = _ ∨ (((a.setContext t _).context u).Matches _ _ _ _ _ ∧ (_ →
          ((a.setContext t _).context u).isQueued = _))
      rw [AgentPort.context_setContext]
      split
      · next hut =>
        subst hut
        have h0 := hm.matched u
        rw [hr] at h0
        exact .inr ⟨fun _ => h0, fun _ => rfl⟩
      · exact .inl rfl
    · exact hm
  | cancel t =>
    unfold AgentPort.cancel
    split
    · next hl =>
      have hno := PortMatch.notOutstanding hm (by rw [hl]; exact ⟨nofun, nofun⟩)
      have cx : ∀ b : AgentPort, (∀ u, b.context u = if u = t then b.context t else a.context u) →
          b.link = a.link → b.dropOutstanding = a.dropOutstanding → b.filter = a.filter →
          (b.context t = a.context t ∨
            (b.context t).Matches (b.dropOutstanding = false) (EngineMsg.dropComplete ∉ dn) (underWay up k w dn t)
              (inWait w dn t) (dn.countP (EngineMsg.notifies t))) →
          ∀ x, PortMatch { b with link := .reply .plain [x] } up k w dn := by
        intro b hb1 hb2 hb3 hb4 hb5 x
        refine PortMatch.of_port hm hb3 (fun u => ?_) (.inr (by rw [hl]; exact ⟨nofun, nofun, nofun, nofun⟩)) hb4
        change b.context u = _ ∨ ((b.context u).Matches _ _ _ _ _ ∧ (b.dropOutstanding = true →
            (b.context u).isQueued = _))
        by_cases hut : u = t
        · subst hut
          rcases hb5 with h | h
          · exact .inl h
          · exact .inr ⟨h, fun hx => by (rw [hb3, hno] at hx; cases hx)⟩
        · rw [hb1 u, if_neg hut]; exact .inl rfl
      have sx : ∀ c u, (a.setContext t c).context u =
          if u = t then (a.setContext t c).context t else a.context u := by
        intro c u
        rw [AgentPort.context_setContext, AgentPort.context_setContext]; simp
      have sy : ∀ c, (a.setContext t c).context t = c := fun c => by rw [AgentPort.context_setContext]; simp
      dsimp only
      unfold AgentPort.cancelContext
      split
      · rw [List.append_nil]
        exact cx a (fun u => by split; · next h => rw [h]
                                · rfl) rfl rfl rfl (.inl rfl) _
      · next r c hc =>
        rw [List.append_nil]
        have h0 := hm.matched t
        rw [hc] at h0
        exact cx ((a.unlist t).setContext t (.done r.cancelledRecord false)) (sx _) rfl rfl rfl (.inr
            (by rw [show ((a.unlist t).setContext t _).context t = _ from sy _]; exact h0)) _
      · next r hc =>
          exact PortMatch.cancelSent (cx (a.setContext t (.queued r true true)) (sx _) rfl rfl rfl (.inr
              (by have h0 := hm.matched t; rw [hc] at h0; rw [sy]; exact h0)) _)
      · rw [List.append_nil]
        exact cx a (fun u => by split; · next h => rw [h]
                                · rfl) rfl rfl rfl (.inl rfl) _
      · next r k hc =>
          exact PortMatch.cancelSent (cx (a.setContext t (.waiting r k true)) (sx _) rfl rfl rfl (.inr
              (by have h0 := hm.matched t; rw [hc] at h0; rw [sy]; exact h0)) _)
      · rw [List.append_nil]
        exact cx a (fun u => by split; · next h => rw [h]
                                · rfl) rfl rfl rfl (.inl rfl) _
      · rw [List.append_nil]
        exact cx a (fun u => by split; · next h => rw [h]
                                · rfl) rfl rfl rfl (.inl rfl) _
    · rw [List.append_nil]; exact hm
  | statusReply =>
    rw [List.append_nil]
    unfold AgentPort.statusReply
    split
    · next hl => exact PortMatch.linked _ hm (by rw [hl]; exact ⟨nofun, nofun, nofun, nofun⟩)
    · exact hm
  | causeShiftedOut =>
    rw [List.append_nil]
    unfold AgentPort.causeShiftedOut
    split
    · next hl =>
        exact PortMatch.of_port hm rfl (fun _ => .inl rfl) (.inr (by rw [hl]; exact ⟨nofun, nofun, nofun, nofun⟩)) rfl
    · exact hm
  | unknownTransaction b =>
    rw [List.append_nil]
    unfold AgentPort.unknownTransaction
    split
    · next hl _ =>
        exact PortMatch.linked _ (PortMatch.fault _ hm)
          (by rw [(AgentPort.recordFault_same a _).2.2.1, hl]; exact ⟨nofun, nofun, nofun, nofun⟩)
    · exact hm

/-- The count of the filter plays no part. -/
theorem PortMatch.filtered {a : AgentPort} {f : PrstFilter} {up k w dn} (hm : PortMatch a up k w dn)
    (hf : f.asserted = a.filter.asserted) : PortMatch { a with filter := f } up k w dn :=
  ⟨hm.once, hm.matched, hm.drops, hm.inReset, hm.draining, fun hx => hm.released (hf ▸ hx), hm.lastAsk, hm.lastWord⟩

/-- A port reset frees a QUEUED context, whose request may be on its way still. -/
theorem Context.Matches.atPortReset {c d : Context} {p q : Prop} {n m l : Nat} {b : Bool} (h : d = c.atPortReset)
    (hb : b = true) (hm : c.Matches p q n m l) : d.Matches (b = false) q n m l := by
  subst h hb
  cases c with
  | queued => exact nofun
  | free => exact nofun
  | waiting => exact hm
  | done => exact hm

/-- A sample of PRSTn, with the port reset and the release that it brings about (R176, R177). -/
theorem PortMatch.sample {a : AgentPort} {hi up k w dn} (hm : PortMatch a up k w dn) :
    PortMatch (a.samplePrst hi).1 (up ++ (a.samplePrst hi).2) k w dn := by
  unfold AgentPort.samplePrst PrstFilter.sample
  by_cases h1 : hi = a.filter.asserted
  · simp only [h1, if_true]
    by_cases h2 : a.filter.count = 2
    · simp only [h2, if_true]
      cases h3 : a.filter.asserted with
      | false =>
        simp only [Bool.false_eq_true, if_false, Bool.not_false]
        have hnr := hm.released h3
        unfold AgentPort.resetEvent
        have hfree : ∀ t, pick (tab fun t => (a.context t).atPortReset) t = (a.context t).atPortReset :=
          fun t => pick_tab ..
        have hq : ∀ t, ((a.context t).atPortReset).isQueued = false := fun t => by cases a.context t <;> rfl
        dsimp only
        split
        · next hd =>
          have hout := hm.draining hd
          rw [List.append_nil]
          refine ⟨hm.once, fun t => ?_, hm.drops, fun _ => ⟨.inl rfl, fun t => ?_⟩, nofun, nofun, hm.lastAsk,
              hm.lastWord⟩
          · exact Context.Matches.atPortReset (hfree t) hout (hm.matched t)
          · rw [← hq t, ← hfree t]; rfl
        · next hd =>
          have hno := PortMatch.notOutstanding hm ⟨hnr, hd⟩
          have hdr := hm.drops
          rw [hno] at hdr
          have hc1 : up.count .portDrop = 0 := by simp only [Bool.false_eq_true, if_false] at hdr; omega
          have hc2 : dn.count .dropComplete = 0 := by simp only [Bool.false_eq_true, if_false] at hdr; omega
          have hu : ∀ d u, underWay (up ++ [.portDrop]) k w d u = underWay up k w d u := fun d u => by
            simp [underWay, PortMsg.asksFor]
          refine ⟨fun t => by rw [hu]; exact hm.once t, fun t => ?_, ?_, fun _ => ⟨.inl rfl, fun t => ?_⟩,
              nofun, nofun, ?_, ?_⟩
          · rw [hu]; exact Context.Matches.atPortReset (hfree t) rfl (hm.matched t)
          · rw [List.count_append, hc1, hc2]; simp
          · rw [← hq t, ← hfree t]; rfl
          · intro b f hf
            have : b ++ PortMsg.portDrop :: f = up ++ .portDrop :: [] := hf.symm
            obtain ⟨-, rfl⟩ := split_unique this (by rw [this, List.count_append, hc1]; simp)
            intro t; rfl
          · intro b f hf; exact absurd (hf ▸ by simp : EngineMsg.dropComplete ∈ dn) (List.count_eq_zero.mp hc2)
      | true =>
        simp only [if_true, Bool.not_true, List.append_nil]
        unfold AgentPort.releaseEvent
        split
        · next hl =>
          split
          · next ho =>
            exact ⟨hm.once, hm.matched, hm.drops, fun hx => ⟨.inr rfl, (hm.inReset hx).2⟩, fun _ => ho, nofun,
                hm.lastAsk, hm.lastWord⟩
          · next ho =>
            have ho : a.dropOutstanding = false := by simpa using ho
            refine ⟨hm.once, hm.matched, hm.drops, fun hx => ?_, ?_, ?_, hm.lastAsk, hm.lastWord⟩
            · change a.dropOutstanding = true at hx; rw [ho] at hx; cases hx
            · unfold AgentPort.leaveReset; dsimp only; split <;> nofun
            · unfold AgentPort.leaveReset; dsimp only; split <;> nofun
        · next hl =>
            exact ⟨hm.once, hm.matched, hm.drops, hm.inReset, hm.draining, fun _ => hl, hm.lastAsk, hm.lastWord⟩
    · simp only [h2, if_false, List.append_nil]
      exact PortMatch.filtered hm rfl
  · simp only [h1, if_false, List.append_nil]
    exact PortMatch.filtered hm rfl

/-- A port out of reset with all contexts FREE and nothing on its way. -/
theorem PortMatch.fresh {a : AgentPort} (hc : ∀ t, a.context t = .free) (hd : a.dropOutstanding = false)
    (hl : a.link ≠ .inReset ∧ a.link ≠ .draining) : PortMatch a [] (fun _ => 0) (fun _ => 0) [] :=
  ⟨fun _ => Nat.zero_le _, fun t => by rw [hc]; exact fun _ => ⟨rfl, rfl⟩, by rw [hd]; rfl,
      fun hx => by (rw [hd] at hx; cases hx), fun hx => absurd hx hl.2, fun _ => hl.1,
   fun b f hf => by simp at hf, fun b f hf => by simp at hf⟩

/-- A port right after device reset. -/
theorem PortMatch.reset (sel) : PortMatch (AgentPort.reset sel) [] (fun _ => 0) (fun _ => 0) [] :=
  PortMatch.fresh (fun _ => pick_tab ..) rfl ⟨nofun, nofun⟩

/-- No context is in a wait after device reset. -/
theorem Engine.reset_waits (p) : Engine.reset.waits p = fun _ => 0 := funext fun _ => by
  simp [Engine.waits, Engine.countSlots, Engine.record_reset, Record.names]

/-- No clock request stands after device reset. -/
theorem Engine.reset_asked (p) : Engine.reset.asked p = fun _ => 0 := rfl

end Sys2Proof.Machine
end

