-- ==== Sys2Proof/Laws/PerInstr.lean ====
section
/-! SUPPORT. Laws/PerInstr.lean: the family of statements that are made command by command. -/

namespace Sys2Proof.Laws.IllFormed

/-- A command that is not well-formed is an UNKNOWN_TRANSACTION, a PORT_RESET or a PORT_RELEASE; the operands of every
other command agree with its name whatever they are. -/
def Statement (i : Instr) : Prop :=
  i.wf = false → (∃ p b, i = .unknownTransaction p b) ∨ (∃ p prst, i = .portReset p prst) ∨
    ∃ p prst, i = .portRelease p prst

theorem deviceReset : Statement .deviceReset := nofun
theorem resetRelease (straps : PinLevels) (prst : PinLevels) : Statement (.resetRelease straps prst) := nofun
theorem refclkEdge (prst : PinLevels) : Statement (.refclkEdge prst) := nofun
theorem tickNotice : Statement .tickNotice := nofun
theorem leaseExpiry (k : SlotNo) : Statement (.leaseExpiry k) := nofun
theorem waitTimeout (k : SlotNo) : Statement (.waitTimeout k) := nofun
theorem conversionTimeout (k : SlotNo) : Statement (.conversionTimeout k) := nofun
theorem warnMarginReached (k : SlotNo) : Statement (.warnMarginReached k) := nofun
theorem freezeLimit : Statement .freezeLimit := nofun
theorem arbiterTake : Statement .arbiterTake := nofun
theorem openSession (p : Port) : Statement (.openSession p) := nofun
theorem closeSession (p : Port) : Statement (.closeSession p) := nofun
theorem noop (p : Port) : Statement (.noop p) := nofun
theorem claim (p : Port) : Statement (.claim p) := nofun
theorem renew (p : Port) : Statement (.renew p) := nofun
theorem release (p : Port) : Statement (.release p) := nofun
theorem downgrade (p : Port) : Statement (.downgrade p) := nofun
theorem upgrade (p : Port) : Statement (.upgrade p) := nofun
theorem acknowledge (p : Port) : Statement (.acknowledge p) := nofun
theorem notice (p : Port) : Statement (.notice p) := nofun
theorem probe (p : Port) : Statement (.probe p) := nofun
theorem scanFirst (p : Port) : Statement (.scanFirst p) := nofun
theorem scanNext (p : Port) : Statement (.scanNext p) := nofun
theorem limits (p : Port) : Statement (.limits p) := nofun
theorem revoke (p : Port) : Statement (.revoke p) := nofun
theorem revokeRange (p : Port) : Statement (.revokeRange p) := nofun
theorem evict (p : Port) : Statement (.evict p) := nofun
theorem freeze (p : Port) : Statement (.freeze p) := nofun
theorem thaw (p : Port) : Statement (.thaw p) := nofun
theorem trim (p : Port) : Statement (.trim p) := nofun
theorem readClock (p : Port) : Statement (.readClock p) := nofun
theorem timebaseTrim : Statement .timebaseTrim := nofun
theorem timebaseReadClock : Statement .timebaseReadClock := nofun
theorem clockAnswer : Statement .clockAnswer := nofun
theorem forwardedCancel (p : Port) : Statement (.forwardedCancel p) := nofun
theorem portDrop (p : Port) : Statement (.portDrop p) := nofun
theorem portAnswer (p : Port) : Statement (.portAnswer p) := nofun
theorem portCompletion (p : Port) : Statement (.portCompletion p) := nofun
theorem cancelLateNotice (p : Port) : Statement (.cancelLateNotice p) := nofun
theorem markedCount (p : Port) : Statement (.markedCount p) := nofun
theorem sessionNotice (p : Port) : Statement (.sessionNotice p) := nofun
theorem freezeNotice (p : Port) : Statement (.freezeNotice p) := nofun
theorem dropComplete (p : Port) : Statement (.dropComplete p) := nofun
theorem selectFall (p : Port) : Statement (.selectFall p) := nofun
theorem selectRise (p : Port) : Statement (.selectRise p) := nofun
theorem submit (p : Port) (t : Tag) (bytes : List Byte) : Statement (.submit p t bytes) := nofun
theorem fetch (p : Port) (t : Tag) : Statement (.fetch p t) := nofun
theorem fetchComplete (p : Port) : Statement (.fetchComplete p) := nofun
theorem cancel (p : Port) (t : Tag) : Statement (.cancel p t) := nofun
theorem status (p : Port) : Statement (.status p) := nofun
theorem unknownTransaction (p : Port) (b : Byte) : Statement (.unknownTransaction p b) := fun _ => .inl ⟨p, b, rfl⟩
theorem portReset (p : Port) (prst : PinLevels) : Statement (.portReset p prst) := fun _ => .inr (.inl ⟨p, prst, rfl⟩)
theorem portRelease (p : Port) (prst : PinLevels) : Statement (.portRelease p prst) := fun _ => .inr (.inr ⟨p, prst, rfl⟩)
theorem linkFaultCauseShiftedOut (p : Port) : Statement (.linkFaultCauseShiftedOut p) := nofun
theorem bitAfterCheckByte (p : Port) : Statement (.bitAfterCheckByte p) := nofun

end Sys2Proof.Laws.IllFormed
end

