-- ==== Sys2Proof/Laws/Words.lean ====
section
/-! SUPPORT. Laws/Words.lean: the shared operations of the commands in the words of the statements, once each. -/

namespace Sys2Proof.Machine

variable {s : State} {p : Port} {t : Tag} {r : Request} {rest : List PortMsg}

/-- The engine has taken a port's message, in the words of the statements. -/
theorem State.applyEffect_afterTake (s : State) (p : Port) (rest : List PortMsg) (e : Engine) (out : List Out) :
    (s.restToEngine p rest).applyEffect { engine := e, out := out } = s.afterTake p rest e out := rfl

/-- The engine has taken a message of the timebase, in the words of the statements. -/
theorem State.applyEffect_afterTimebase (s : State) (rest : List TimebaseMsg) (e : Engine) (out : List Out) :
    (s.restFromTimebase rest).applyEffect { engine := e, out := out } = s.afterTimebase rest e out := rfl

/-- A port has taken a message of the engine, in the words of the statements. -/
theorem State.setPort_afterMessage (s : State) (p : Port) (rest : List EngineMsg) (a : AgentPort) :
    (s.restToPort p rest).setPort p a = s.afterMessage p rest a := rfl

/-- An event at a port's pins or link, in the words of the statements. -/
theorem State.sendToEngine_afterLink (s : State) (p : Port) (a : AgentPort) (ms : List PortMsg) :
    (s.setPort p a).sendToEngine p ms = s.afterLink p a ms := rfl

/-- An offered request is taken, and its effect is the request's. -/
theorem exec_command (h : s.Offers p t r rest) :
    exec (r.command p) s = .next ((s.restToEngine p rest).applyEffect (s.engine.requestEffect p t r)) := by
  cases r <;> exact State.takeRequest_head h.running h.free h.head rfl

/-- An offered request whose effect is this engine and these messages. -/
theorem exec_command_eq {e : Engine} {out : List Out} (h : s.Offers p t r rest)
    (he : s.engine.requestEffect p t r = { engine := e, out := out }) :
    exec (r.command p) s = .next (s.afterTake p rest e out) := by
  rw [exec_command h, he]
  rfl

/-- An offered request that is answered and changes nothing else. -/
theorem AnswersOnly.of_reply {o : ResultCode} {x : Payload} (h : s.Offers p t r rest)
    (he : s.engine.requestEffect p t r = s.engine.reply p t o x) : AnswersOnly s p t r rest o x :=
  exec_command_eq h he

/-- The first of a list of checks fails. -/
theorem firstFailing_cons_false {o : ResultCode} {rest : List Check} : firstFailing ((false, o) :: rest) = some o := rfl

/-- The first of a list of checks passes. -/
theorem firstFailing_cons_true {o : ResultCode} {rest : List Check} :
    firstFailing ((true, o) :: rest) = firstFailing rest := rfl

/-- No check fails exactly when every check passes. -/
theorem firstFailing_none {l : List Check} : firstFailing l = none ↔ ∀ c ∈ l, c.1 = true := by
  induction l with
  | nil => simp [firstFailing]
  | cons c l ih =>
    obtain ⟨b, o⟩ := c
    cases b <;> simp [firstFailing, ih]

/-! ### Fields of the layouts (chapter 11) -/

theorem fieldBytes_one (value : Nat) : fieldBytes 1 value = [BitVec.ofNat 8 value] := by
  simp [fieldBytes, List.range_succ]

/-- A field of one byte that holds a byte. -/
theorem fieldBytes_byte (x : Byte) : fieldBytes 1 x.toNat = [x] := by simp [fieldBytes_one]

/-- The byte of a value at a place that counts in bytes. -/
theorem extract_byte {w : Nat} (x : BitVec w) (i : Nat) : x.extractLsb' (8 * i) 8 = BitVec.ofNat 8 (x.toNat / 256 ^ i) := by
  apply BitVec.eq_of_toNat_eq
  simp [BitVec.extractLsb'_toNat, Nat.shiftRight_eq_div_pow, Nat.pow_mul]

theorem bytes2_eq (x : BitVec 16) : bytes2 x = fieldBytes 2 x.toNat := by
  simp [fieldBytes, List.range_succ, bytes2, ← extract_byte]

theorem bytes3_eq (x : BitVec 24) : bytes3 x = fieldBytes 3 x.toNat := by
  simp [fieldBytes, List.range_succ, bytes3, ← extract_byte]

theorem bytes4_eq (x : BitVec 32) : bytes4 x = fieldBytes 4 x.toNat := by
  simp [fieldBytes, List.range_succ, bytes4, ← extract_byte]

@[simp] theorem layOut_nil : layOut [] = [] := rfl

@[simp] theorem layOut_cons (f : Nat × Nat) (fields : List (Nat × Nat)) :
    layOut (f :: fields) = fieldBytes f.1 f.2 ++ layOut fields := rfl

@[simp] theorem layOut_append (a b : List (Nat × Nat)) : layOut (a ++ b) = layOut a ++ layOut b := by
  simp [layOut]

end Sys2Proof.Machine
end

