-- ==== Sys2Proof/Tests/Slice0.lean ====
section
/-! SUPPORT. Tests/Slice0.lean: the model's own tests: ill-formed commands, values that the spec works out, and for every
statement with hypotheses a state and operands that meet them, at the ends of each clause's range. -/

namespace Sys2Proof.Tests

-- One test after the other: the kernel evaluations of many tests at once take one thread each.
set_option Elab.async false

open Sys2Proof.Machine

/-! ### Ill-formed commands -/

theorem test_ill_formed_unknown_transaction :
    (Instr.unknownTransaction 0 0xA0).wf = false ∧ (Instr.unknownTransaction 0 0xB3).wf = false ∧
      (Instr.unknownTransaction 3 0xC0).wf = false ∧ (Instr.unknownTransaction 0 0xD0).wf = false ∧
      (Instr.unknownTransaction 0 0x9F).wf = true ∧ (Instr.unknownTransaction 0 0xA4).wf = true ∧
      (Instr.unknownTransaction 0 0xD1).wf = true := by decide

theorem test_ill_formed_port_reset : (Instr.portReset 2 (tab fun _ => true)).wf = false := by decide +kernel

theorem test_ill_formed_port_release : (Instr.portRelease 2 (tab fun _ => false)).wf = false := by decide +kernel

/-! ### Values that the spec works out -/

/-- The worked check value of 11.6: the frame of RENEW or RELEASE begins with its code; here the three bytes 0x12 0x14
0x01. -/
theorem test_check_byte : crc [0x12, 0x14, 0x01] = 0x5B := by decide +kernel

theorem test_regions_of_1_1 :
    Region.overlaps { base := 100, lenM1 := 19 } { base := 120, lenM1 := 0 } = false ∧
      Region.overlaps { base := 100, lenM1 := 20 } { base := 120, lenM1 := 0 } = true ∧
      Region.valid { base := 1048575, lenM1 := 0 } = true ∧ Region.valid { base := 1048575, lenM1 := 1 } = false := by
  decide

theorem test_handle : mkHandle 5 1 = 0x1401 ∧ slotOf 0x1401 = 5 ∧ issueOf 0x1401 = 1 := by decide +kernel

/-- Events 1, 12 and 15 of 4.6. -/
theorem test_trims_of_4_6 :
    (Timebase.trim { phase := 20, now := 7000, debt := false } 15).1 = { phase := 3, now := 7001, debt := false } ∧
      (Timebase.trim { phase := 13, now := 7001, debt := false } 0xF0).1 =
        { phase := 29, now := 7001, debt := true } ∧
      (Timebase.trim { phase := 30, now := 7001, debt := true } 0xFB).1 =
        { phase := 30, now := 7001, debt := true } := by decide

theorem test_transaction_bytes :
    decodeTransaction 0xA1 = some (.submit 1) ∧ decodeTransaction 0xB2 = some (.fetch 2) ∧
      decodeTransaction 0xC3 = some (.cancel 3) ∧ decodeTransaction 0xD0 = some .status ∧
      decodeTransaction 0x00 = none := by decide

/-- The record of 11.6 for a RELEASE answered OK on tag 0, and the same with CANCEL_LATE. -/
theorem test_release_record :
    ResultRecord.bytes { outcome := .ok, code := .release, payload := .empty, late := false } 0 =
        [0x00, 0x12, 0x00, crc [0x00, 0x12, 0x00]] ∧
      ResultRecord.bytes { outcome := .ok, code := .release, payload := .empty, late := true } 0 =
        [0x00, 0x12, 0x80, crc [0x00, 0x12, 0x80]] := by decide +kernel

theorem test_release_frame : Request.ofCovered [0x12, 0x14, 0x01] = some (.release 0x1401) := by decide

/-! ### States for the witnesses -/

/-- All four sessions open, supervisor right at port 1, settled tick 100. -/
def openEngine : Engine :=
  { Engine.reset with
    settled := 100
    sessions := tab fun p => { Session.reset (p == 1) with isOpen := true }
    limits := tab fun p => Limits.reset (p == 1) }

/-- A lease of port `p` that ends at tick 200. -/
def lease (p : Port) (base : BitVec 20) (m : Mode) : Held :=
  { holder := p, region := { base, lenM1 := 9 }, mode := m, label := 0, term := .timed 100 200, renewals := 0
    warned := false, conv := none }

/-- A waiting claim of port 2 with tag 2. -/
def waiter : Waiting :=
  { holder := 2, region := { base := 0, lenM1 := 4 }, mode := .shared, label := 0, duration := 50
    waitDeadline := some 150, tag := 2 }

/-- A conversion that waits without limit. -/
def wish : Conversion := { tag := 1, waitDeadline := none }

/-- Slot 0 HELD SOLE, slots 1 and 2 HELD SHARED on the same units, slot 2 converting, slot 3 WAITING behind slot 0,
slot 4 RETIRED, slot 5 warned, slot 6 pinned. -/
def full : Engine :=
  { ((((((openEngine.setRecord 0 (.held (lease 0 0 .sole))).setRecord 1 (.held (lease 2 100 .shared))).setRecord 2
      (.held { lease 0 100 .shared with conv := some wish })).setRecord 3 (.waiting waiter)).setRecord 4
      (.retired { toCommon := (lease 0 300 .sole).toCommon, cause := .expired })).setRecord 5
      (.held { lease 0 400 .shared with warned := true })).setRecord 6
      (.held { lease 3 500 .shared with term := .pinned }) with
    waitList := [3], convList := [2] }

/-- `full` frozen by port 1 at tick 90. -/
def frozenFull : Engine := { full with freeze := some { owner := 1, start := 90 } }

/-- RESETn high, the engine as given, nothing on any path. -/
def running (e : Engine) : State := { State.reset with resetLow := false, engine := e }

/-- Request `r` of context `t` at the head of port `p`'s path. -/
def offer (e : Engine) (p : Port) (t : Tag) (r : Request) : State :=
  { running e with toEngine := put (tab fun _ => []) p [.request t r] }

theorem offer_offers {e : Engine} {p : Port} {t : Tag} {r : Request} (h : e.clock = none) :
    (offer e p t r).Offers p t r [] :=
  ⟨rfl, h, pick_put_self _ _ _⟩

/-- A tick notice at the head of the timebase's path. -/
def ticking (e : Engine) (n : Tick) : State := { running e with fromTimebase := [.tick n] }

/-- Port 0 as given. -/
def withPort (a : AgentPort) : State := (running openEngine).setPort 0 a

/-- A port in the link state `l`, SELn low. -/
def linked (l : Link) : AgentPort := { AgentPort.reset true with link := l }

/-- A port whose context 1 is `c`. -/
def holding (c : Context) (l : Link) : AgentPort := (linked l).setContext 1 c

/-- Message `m` at the head of the engine's path to port 0, which is `a`. -/
def receiving (a : AgentPort) (m : EngineMsg) : State :=
  { withPort a with toPort := put (tab fun _ => []) 0 [m] }

/-- A result record. -/
def okRecord : ResultRecord := { outcome := .ok, code := .noop, payload := .empty, late := false }

theorem receiving_head (a : AgentPort) (m : EngineMsg) :
    (receiving a m).resetLow = false ∧ pick (receiving a m).toPort 0 = [m] ∧ (receiving a m).port 0 = a :=
  ⟨rfl, pick_put_self _ _ _, pick_put_self _ _ _⟩

theorem withPort_port (a : AgentPort) : (withPort a).resetLow = false ∧ (withPort a).port 0 = a :=
  ⟨rfl, pick_put_self _ _ _⟩

/-- An outcome that is a fault. -/
theorem faulted {o : StepResult} {f : Fault}
    (h : (match o with | .fault g => decide (g = f) | _ => false) = true) : o = .fault f := by
  cases o <;> simp_all

/-- An outcome that is a next state. -/
theorem completed {o : StepResult} (h : (match o with | .next _ => true | _ => false) = true) :
    ∃ s', o = .next s' := by
  cases o <;> simp_all

/-- A condition on every HELD lease, read slot by slot. -/
theorem held_forall {e : Engine} {P : SlotNo → Held → Bool}
    (h : ∀ j, (match e.record j with | .held y => P j y | _ => true) = true) :
    ∀ j y, e.record j = .held y → P j y = true := by
  intro j y hj
  have := h j
  rwa [hj] at this

/-! ### The hypotheses of the statements are met -/

theorem test_StepTakesFrontCommand_met : ∃ (c : Instr) (q : List Instr) (s : State), s.pending = c :: q :=
  ⟨.tickNotice, [], { State.reset with pending := [.tickNotice] }, rfl⟩

/-- An absent event of each kind: a request of another code at the head, a request while the engine holds a clock
request, a release of RESETn that is high, a third sample of the other level, a notice before anything is due, a message
of another kind, a SELn that is low already, and a link in IGNORE. -/
theorem test_QueueIdlesAndAbsentEventsChangeNothing_met :
    (State.reset.pending = [] ∧ ∃ s', exec .deviceReset State.reset = .next s') ∧
      EventAbsent (.freeze 0) (offer openEngine 0 0 .noop) ∧
      EventAbsent (.noop 0)
        (offer { openEngine with clock := some { port := 0, tag := 0, kind := .trim, late := false, dropped := false } }
          0 0 .noop) ∧
      (∀ straps prst, EventAbsent (.resetRelease straps prst) (running openEngine)) ∧
      EventAbsent (.portReset 0 (tab fun _ => false))
        (withPort { AgentPort.reset false with filter := { asserted := true, count := 2 } }) ∧
      EventAbsent .tickNotice (running full) ∧ EventAbsent (.leaseExpiry 0) (ticking full 199) ∧
      EventAbsent (.markedCount 0) (receiving (linked .command) (.cancelLate 1)) ∧
      EventAbsent (.selectFall 0) (withPort (linked .standby)) ∧ EventAbsent (.fetch 0 1) (withPort (linked .ignore)) := by
  refine ⟨⟨rfl, _, rfl⟩, .inr fun t r rest h => ?_, .inl rfl, fun _ _ => rfl, fun h => ?_, fun n rest h => ?_,
    fun n rest h => ?_, fun m rest h => ?_, ?_, ?_⟩
  · have : pick (offer openEngine 0 0 .noop).toEngine 0 = [.request 0 .noop] := pick_put_self _ _ _
    rw [this] at h
    injection h with h
    injection h with _ h
    rw [← h]
    decide
  · have h2 := h.2
    rw [(withPort_port _).2] at h2
    exact absurd h2 (by decide)
  · cases h
  · injection h with h
    injection h with h
    rw [← h]
    exact fun hd => absurd hd.2 (by decide +kernel)
  · rw [(receiving_head _ _).2.1] at h
    injection h with h
    rw [← h]
    exact nofun
  · exact congrArg AgentPort.selLow (withPort_port _).2
  · exact fun h => absurd ((congrArg AgentPort.link (withPort_port (linked .ignore)).2).symm.trans h) nofun

/-- Each of the five faults is met. -/
theorem test_OnlyUnexpectedMessagesStop_met :
    exec (.portAnswer 0) (receiving (holding (.queued .noop false false) .standby)
      (.answer 1 (.result .ok .empty false))) = .fault .answerUnexpected ∧
    exec (.portCompletion 0) (receiving (holding (.done okRecord false) .standby)
      (.completion 1 .timedOut)) = .fault .completionUnexpected ∧
    exec (.cancelLateNotice 0) (receiving (holding (.done okRecord false) .standby) (.cancelLate 1)) =
      .fault .cancelLateUnexpected ∧
    exec (.dropComplete 0) (receiving (linked .command) .dropComplete) = .fault .dropCompleteUnexpected ∧
    exec .clockAnswer { running openEngine with fromTimebase := [.clockAnswer 0 0 false] } =
      .fault .clockAnswerUnexpected :=
  ⟨faulted (by decide +kernel), faulted (by decide +kernel), faulted (by decide +kernel),
    faulted (by decide +kernel), faulted (by decide +kernel)⟩

theorem test_ReleaseCapturesStrapsAndPortResets_met : State.reset.resetLow = true := rfl

theorem test_LowResetTakesNoEvent_met : State.reset.resetLow = true := rfl

/-- Phase 30, the wrap of a tick, the withheld wrap, and a command that changes the timebase. -/
theorem test_RefclkEdgeCountsPhase_met :
    (∀ x : Timebase, ({ running openEngine with timebase := x } : State).resetLow = false) ∧
      ((30 : BitVec 5) ≠ 31) ∧
      (∃ s', exec (.refclkEdge (tab fun _ => true)) (running openEngine) = .next s' ∧
        s'.timebase ≠ (running openEngine).timebase) := by
  refine ⟨fun _ => rfl, by decide, _, rfl, ?_⟩
  decide +kernel

/-- A port whose filter is `f`. -/
def filtered (f : PrstFilter) (l : Link) : AgentPort := { linked l with filter := f }

/-- Every combination of sample, condition and count that the clauses name. -/
theorem test_PortResetNeedsThreeSamples_met :
    (∀ a : AgentPort, (withPort a).resetLow = false ∧ (withPort a).port 0 = a) ∧
      (∀ b : Bool, pick (tab fun _ : Port => b) 0 = b) ∧
      (filtered { asserted := false, count := 1 } .standby).filter.count ≠ 2 ∧
      (filtered { asserted := false, count := 2 } .draining).filter = { asserted := false, count := 2 } ∧
      (filtered { asserted := true, count := 2 } .inReset).filter = { asserted := true, count := 2 } :=
  ⟨withPort_port, fun _ => pick_tab _ _, by decide, rfl, rfl⟩

/-- A TRIM on its way to the timebase. -/
def trimming (x : Timebase) (a : Byte) : State := { running openEngine with timebase := x, toTimebase := some (.trim a) }

/-- Sums 46, 32, 31, 0, −1 and −16, the debt and the adjustment 0. -/
theorem test_TrimMovesPhaseOrIsBusy_met :
    (∀ x a, (trimming x a).resetLow = false ∧ (trimming x a).toTimebase = some (.trim a) ∧ (trimming x a).timebase = x) ∧
      (∀ a ∈ [15, 1, 0, 0xFF, (0xF0 : Byte)], -16 ≤ a.toInt ∧ a.toInt ≤ 15) ∧
      ((31 : BitVec 5).toNat : Int) + (15 : Byte).toInt = 46 ∧ ((31 : BitVec 5).toNat : Int) + (1 : Byte).toInt = 32 ∧
      ((31 : BitVec 5).toNat : Int) + (0 : Byte).toInt = 31 ∧ ((1 : BitVec 5).toNat : Int) + (0xFF : Byte).toInt = 0 ∧
      ((0 : BitVec 5).toNat : Int) + (0xFF : Byte).toInt = -1 ∧
      ((0 : BitVec 5).toNat : Int) + (0xF0 : Byte).toInt = -16 :=
  ⟨fun _ _ => ⟨rfl, rfl, rfl⟩, by decide, by decide, by decide, by decide, by decide, by decide, by decide⟩

/-- The notice before the freeze limit, and the one after it. -/
theorem test_FrozenTickOnlyAdvances_met :
    (ticking frozenFull 601).fromTimebase = [.tick 601] ∧
      (ticking frozenFull 601).engine.freeze = some { owner := 1, start := 90 } ∧ (601 : Tick) ≠ 90 + 512 ∧
      (603 : Tick) ≠ 90 + 512 := by decide +kernel

/-- A notice at which something is due, and one at which nothing is. -/
theorem test_UnfrozenTickRunsItsParts_met :
    (ticking full 150).resetLow = false ∧ (ticking full 150).engine.freeze = none ∧
      (∃ k, (full.record k).waitDue 150 = true) ∧
      ∀ k, (full.record k).leaseDue 149 = false ∧ (full.record k).waitDue 149 = false ∧
        (full.record k).convDue 149 = false := by
  refine ⟨rfl, rfl, ⟨3, ?_⟩, ?_⟩ <;> decide +kernel

/-- `full` with a conversion that waits until tick 160, and a warn margin of 40 at port 0. -/
def duesEngine : Engine :=
  { full.setRecord 2 (.held { lease 0 100 .shared with conv := some { tag := 1, waitDeadline := some 160 } }) with
    sessions := put full.sessions 0 { Session.reset false with isOpen := true, warnMargin := 40 } }

/-- A lease due at tick 200, a wait at 150, a conversion at 160 under a lease that is not due, and a margin at 160. -/
theorem test_DueRecordsSettleAtTheirNotice_met :
    (duesEngine.record 0 = .held (lease 0 0 .sole) ∧ (lease 0 0 .sole).term = .timed 100 200 ∧
        ((200 : Tick) - 200).toInt ≤ 0) ∧
      (duesEngine.record 3 = .waiting waiter ∧ waiter.waitDeadline = some 150 ∧ ((150 : Tick) - 150).toInt ≤ 0) ∧
      ((duesEngine.record 2).conv = some { tag := 1, waitDeadline := some 160 } ∧ ((160 : Tick) - 160).toInt ≤ 0 ∧
        0 < ((200 : Tick) - 160).toInt) ∧
      ((lease 0 0 .sole).warned = false ∧ 0 < (duesEngine.session 0).warnMargin.toNat ∧
        (200 : Tick) - 160 = (duesEngine.session 0).warnMargin.setWidth 32) ∧
      2 ∈ duesEngine.convList ∧ 3 ∈ duesEngine.waitList ∧ duesEngine.freeze = none := by decide +kernel

/-- The freeze limit; and in thaw settlement a lease whose margin point fell within the freeze and one whose did not. -/
theorem test_FreezeLimitThawsBySettlement_met :
    (ticking frozenFull 602).fromTimebase = [.tick (90 + 512)] ∧
      (ticking frozenFull 602).engine.freeze = some { owner := 1, start := 90 } ∧
      (duesEngine.settleDue.engine.record 0 = .held (lease 0 0 .sole) ∧
        0 < (duesEngine.session 0).warnMargin.toNat ∧
        ¬((200 - duesEngine.settled : Tick)).toInt ≤ (duesEngine.session 0).warnMargin.toNat ∧
        ((200 : Tick) - 160).toInt ≤ (duesEngine.session 0).warnMargin.toNat ∧
        ((duesEngine.session 0).warnMargin.toNat : Int) < ((200 : Tick) - 159).toInt) := by decide +kernel

/-- A slot that each move is about, one that it is not, and two engines that differ in a record. -/
theorem test_SlotsMoveAndGenerationStepsOnce_met :
    full.record 0 = .held (lease 0 0 .sole) ∧ (full.record 3).isHeld = false ∧
      (openEngine.record 0 ≠ full.record 0) ∧ openEngine.record 9 = full.record 9 := by decide +kernel

/-- A conversion and a waiter that are granted, and ones that are not. -/
theorem test_EntriesOfAPassAreGranted_met :
    full.record 2 = .held { lease 0 100 .shared with conv := some wish } ∧
      (∃ j y, j ≠ 2 ∧ full.record j = .held y ∧ y.region.overlaps (lease 0 100 .shared).region = true) ∧
      (∀ j y, (full.freeWhere fun k => k == 1).record j = .held y →
        (j == 2 || !y.region.overlaps (lease 0 100 .shared).region) = true) ∧
      full.record 3 = .waiting waiter ∧ full.heldBack [] waiter = true ∧
      (full.freeWhere fun k => k == 0).heldBack [] waiter = false := by
  refine ⟨by decide +kernel, ⟨1, lease 2 100 .shared, by decide +kernel⟩, ?_, by decide +kernel, by decide +kernel,
    by decide +kernel⟩
  exact held_forall (P := fun j y => j == 2 || !y.region.overlaps (lease 0 100 .shared).region) (by decide +kernel)

/-- The laws of both lists hold where the pass leaves a conversion and a waiter. -/
theorem test_GrantPassLeavesNothingGrantable_met :
    (full.waitList.Nodup ∧ ∀ k, k ∈ full.waitList ↔ (full.record k).isWaiting = true) ∧
      (full.convList.Nodup ∧ (∀ k, k ∈ full.convList ↔ (full.record k).conv.isSome = true)) ∧
      full.grantPass.1.record 2 = .held { lease 0 100 .shared with conv := some wish } ∧
      full.grantPass.1.waitList = [] ++ 3 :: [] ∧ full.grantPass.1.record 3 = .waiting waiter := by
  decide +kernel

/-- A pass that grants a conversion and a waiter completes the conversion first and empties both lists. -/
theorem test_GrantPassLeavesNothingGrantable_grants :
    let e := full.freeWhere fun k => k == 0 || k == 1
    (e.waitList = [3] ∧ e.convList = [2] ∧ e.grantPass.1.waitList = [] ∧ e.grantPass.1.convList = []) ∧
      e.grantPass.2 =
        [(0, .completion 1 { outcome := .granted, time := .deadline 200, endCause := .none }),
          (2, .completion 2 { outcome := .granted, time := .deadline 150, endCause := .none })] := by
  decide +kernel

/-- A port whose submission list holds context 1 with request `r`. -/
def submitted (r : Request) : AgentPort := { holding (.queued r false false) .standby with submission := [1] }

/-- A take from the port after the last-served one and from the last-served one itself; and no take, from empty lists,
from a request that the freeze holds back, and while the engine holds a clock request. -/
theorem test_ArbiterTakesFirstPortInItsRound_met :
    (withPort (submitted .notice)).takable 0 = some (1, .notice) ∧ (withPort (submitted .notice)).engineReady = true ∧
      (withPort (submitted .notice)).place 0 = 0 ∧
      ({ withPort (submitted .notice) with lastServed := 0 } : State).place 0 = 3 ∧
      (∀ q, q ≠ 0 → (withPort (submitted .notice)).takable q = none) ∧
      (∀ q, (running openEngine).takable q = none) ∧
      ({ withPort (submitted (.release 0)) with engine := frozenFull } : State).takable 0 = none ∧
      ({ withPort (submitted .notice) with
        engine := { full with clock := some { port := 0, tag := 0, kind := .trim, late := false, dropped := false } } } :
          State).engineReady = false := by decide +kernel

/-! #### Checks of requests -/

/-- `full` with a lease cap of 4 at port 0, which owns four records. -/
def capped : Engine := { full with limits := put full.limits 0 { Limits.reset false with leaseCap := 4 } }

/-- A table with no FREE slot. -/
def crowded : Engine := openEngine.mapRecords fun _ _ => .held (lease 3 900 .shared)

/-- Every outcome of the admission checks is met. -/
theorem test_ClaimChecksInOrder_met :
    firstFailing (Engine.reset.claimChecks 0 0 0 0 1 0 0) = some .noSession ∧
      firstFailing (full.claimChecks 0 0x100000 0 0 1 0 0) = some .malformed ∧
      firstFailing (full.claimChecks 0 0 0 2 1 0 0) = some .malformed ∧
      firstFailing (full.claimChecks 0 0x0FFFFF 1 0 1 0 0) = some .range ∧
      firstFailing (full.claimChecks 0 0x0FFFFF 0 0 0 0 0) = some .tooLong ∧
      firstFailing (full.claimChecks 0 0x0FFFFF 0 0 8193 0 0) = some .tooLong ∧
      firstFailing (capped.claimChecks 0 700 9 1 8192 0 0) = some .capReached ∧
      firstFailing (crowded.claimChecks 0 700 9 1 1 0 0) = some .tableFull ∧
      firstFailing (full.claimChecks 0 9 0 0 1 0 0) = some .selfConflict ∧
      (full.ownConflict 0 (regionOf 9 0) (claimMode 0) 0 = true ∧
        ∀ j, j < 0 → full.ownConflict 0 (regionOf 9 0) (claimMode 0) j = false) := by decide +kernel

/-- Every check of a holder request, and an answer by each state of the record. -/
theorem test_HolderChecksInOrder_met :
    firstFailing (Engine.reset.holderChecks 0 0) = some .noSession ∧
      firstFailing (full.holderChecks 0 (mkHandle 63 0)) = some .stale ∧
      firstFailing (full.holderChecks 0 (mkHandle 0 1)) = some .stale ∧
      firstFailing (full.holderChecks 0 (mkHandle 1 0)) = some .notHolder ∧
      firstFailing (full.holderChecks 0 (mkHandle 4 0)) = none ∧
      stateAnswer .renew (full.record 4) = some .gone ∧ stateAnswer .release (full.record 4) = some .wrongState ∧
      firstFailing (full.holderChecks 2 (mkHandle 3 0)) = none ∧
      stateAnswer .acknowledge (full.record 3) = some .wrongState ∧
      firstFailing (full.holderChecks 3 (mkHandle 6 0)) = none ∧
      stateAnswer .renew (full.record 6) = some .wrongState ∧
      firstFailing (full.holderChecks 0 (mkHandle 0 0)) = none ∧
      stateAnswer .upgrade (full.record 0) = some .wrongState ∧
      stateAnswer .downgrade (full.record 5) = some .wrongState := by decide +kernel

/-- An outcome of the checks of every request that has some. -/
theorem test_RequestChecksInOrder_met :
    firstFailing (Engine.reset.requestChecks 0 .notice) = some .noSession ∧
      firstFailing (full.requestChecks 0 (.probe 0x100000 0)) = some .malformed ∧
      firstFailing (full.requestChecks 0 (.probe 0x0FFFFF 1)) = some .range ∧
      firstFailing (full.requestChecks 0 (.scanFirst 3 0 0 0)) = some .notPermitted ∧
      firstFailing (full.requestChecks 1 (.scanFirst 4 0 0 0)) = some .malformed ∧
      firstFailing (full.requestChecks 1 (.scanFirst 2 0 0x0FFFFF 1)) = some .range ∧
      firstFailing (full.requestChecks 0 .scanNext) = some .sequence ∧
      firstFailing (full.requestChecks 0 (.limits 0 16 1 0 0)) = some .notPermitted ∧
      firstFailing (full.requestChecks 1 (.limits 0 65 1 0 0)) = some .malformed ∧
      firstFailing (full.requestChecks 1 (.revoke (mkHandle 63 0))) = some .stale ∧
      firstFailing (full.requestChecks 1 (.revokeRange 0x0FFFFF 1)) = some .range ∧
      firstFailing (full.requestChecks 1 (.evict 1)) = some .notPermitted ∧
      firstFailing (full.requestChecks 1 (.evict 4)) = some .malformed ∧
      firstFailing (full.requestChecks 0 .freeze) = some .notPermitted ∧
      firstFailing (full.requestChecks 0 .thaw) = some .wrongState ∧
      firstFailing (frozenFull.requestChecks 0 .thaw) = some .notPermitted ∧
      firstFailing (full.requestChecks 1 (.trim 16)) = some .malformed := by decide +kernel

/-- A request whose operands have a meaning, and a MALFORMED answer that stands on the path already. -/
theorem test_MeaningfulOperandsAreNotMalformed_met :
    (offer full 1 0 (.trim 15)).Offers 1 0 (.trim 15) [] ∧ (Request.trim 15).meaningless = false ∧
      (∃ s', exec ((Request.trim 15).command 1) (offer full 1 0 (.trim 15)) = .next s') :=
  ⟨offer_offers rfl, by decide, completed (by decide +kernel)⟩

/-! #### Claims and holder requests -/

/-- A claim that conflicts with nothing. -/
theorem test_ClearClaimIsGrantedAtOnce_met :
    (offer full 0 0 (.claim 700 9 1 8192 0 0)).Offers 0 0 (.claim 700 9 1 8192 0 0) [] ∧
      firstFailing (full.claimChecks 0 700 9 1 8192 0 0) = none ∧
      ((full.record 7).isFree = true ∧ ∀ j, j < 7 → (full.record j).isFree = false) ∧
      ∀ j, (full.record j).blocks (regionOf 700 9) (claimMode 1) = false := by
  refine ⟨offer_offers rfl, ?_⟩
  decide +kernel

/-- A claim that conflicts with slot 1, with wait limits 0, 1 and 65,535. -/
theorem test_BlockedClaimIsRefusedOrQueued_met :
    (∀ w, (offer full 3 0 (.claim 100 9 1 1 w 0)).Offers 3 0 (.claim 100 9 1 1 w 0) []) ∧
      (firstFailing (full.claimChecks 3 100 9 1 1 0 0) = none ∧
        firstFailing (full.claimChecks 3 100 9 1 1 1 0) = none ∧
        firstFailing (full.claimChecks 3 100 9 1 1 65535 0) = none) ∧
      ((full.record 7).isFree = true ∧ ∀ j, j < 7 → (full.record j).isFree = false) ∧
      (full.record 1).blocks (regionOf 100 9) (claimMode 1) = true ∧
      ∀ j, j < 1 → (full.record j).blocks (regionOf 100 9) (claimMode 1) = false := by
  refine ⟨fun w => offer_offers rfl, ?_⟩
  decide +kernel

/-- Slot 5 with a renewal cap of 1 and one renewal made. -/
def renewed : Engine :=
  { full.setRecord 5 (.held { lease 0 400 .shared with renewals := 1 }) with
    limits := put full.limits 0 { Limits.reset false with renewalCap := 1 } }

/-- LIMIT, TOO_LONG one above the duration cap, and accepted at the cap and with the stored duration. -/
theorem test_RenewRestartsTheDeadline_met :
    (∀ e d, e.clock = none → (offer e 0 0 (.renew (mkHandle 5 0) d)).Offers 0 0 (.renew (mkHandle 5 0) d) []) ∧
      firstFailing (full.holderChecks 0 (mkHandle 5 0)) = none ∧
      full.record (slotOf (mkHandle 5 0)) = .held { lease 0 400 .shared with warned := true } ∧
      renewed.record (slotOf (mkHandle 5 0)) = .held { lease 0 400 .shared with renewals := 1 } ∧
      ((renewed.limitsOf 0).renewalCap ≠ 0 ∧ (renewed.limitsOf 0).renewalCap.toNat ≤ (1 : Byte).toNat) ∧
      (full.limitsOf 0).renewalCap = 0 ∧ (full.limitsOf 0).durationCap.toNat < (8193 : Half).toNat ∧
      ¬(full.limitsOf 0).durationCap.toNat < (8192 : Half).toNat := by
  refine ⟨fun e d h => offer_offers h, ?_⟩
  decide +kernel

/-- A lease with a conversion, in the frozen and in the unfrozen table. -/
theorem test_ReleaseFreesTheSlot_met :
    (offer full 0 0 (.release (mkHandle 2 0))).Offers 0 0 (.release (mkHandle 2 0)) [] ∧
      (offer frozenFull 0 0 (.release (mkHandle 2 0))).Offers 0 0 (.release (mkHandle 2 0)) [] ∧
      firstFailing (full.holderChecks 0 (mkHandle 2 0)) = none ∧
      firstFailing (frozenFull.holderChecks 0 (mkHandle 2 0)) = none ∧
      full.record (slotOf (mkHandle 2 0)) = .held { lease 0 100 .shared with conv := some wish } := by
  refine ⟨offer_offers rfl, offer_offers rfl, ?_⟩
  decide +kernel

theorem test_DowngradeMakesTheLeaseShared_met :
    (offer full 0 0 (.downgrade (mkHandle 0 0))).Offers 0 0 (.downgrade (mkHandle 0 0)) [] ∧
      firstFailing (full.holderChecks 0 (mkHandle 0 0)) = none ∧
      full.record (slotOf (mkHandle 0 0)) = .held (lease 0 0 .sole) ∧ (lease 0 0 .sole).conv = none := by
  refine ⟨offer_offers rfl, ?_⟩
  decide +kernel

/-- `full` without its pending conversion. -/
def calm : Engine := full.dropConvWhere fun k => k == 2

/-- An upgrade made at once (slot 5), one that meets a deadlock, and one that waits or is refused (slot 1). -/
theorem test_UpgradeConvertsWaitsOrIsRefused_met :
    (∀ e p h w, e.clock = none → (offer e p 0 (.upgrade h w)).Offers p 0 (.upgrade h w) []) ∧
      (firstFailing (full.holderChecks 0 (mkHandle 5 0)) = none ∧
        ∀ j : SlotNo, (j != 5 && ((full.record j).isHeld && (full.record j).overlaps (lease 0 400 .shared).region)) =
          false) ∧
      (firstFailing (full.holderChecks 2 (mkHandle 1 0)) = none ∧
        full.record (slotOf (mkHandle 1 0)) = .held (lease 2 100 .shared) ∧
        (full.convList.contains 2 && ((full.record 2).isHeld && (full.record 2).overlaps (lease 2 100 .shared).region)) =
          true ∧
        ∀ j : SlotNo, j < 2 → (full.convList.contains j && ((full.record j).isHeld &&
          (full.record j).overlaps (lease 2 100 .shared).region)) = false) ∧
      firstFailing (calm.holderChecks 2 (mkHandle 1 0)) = none ∧
      ((calm.record 2).isHeld && (calm.record 2).overlaps (lease 2 100 .shared).region) = true ∧
      (∀ j : SlotNo, j < 2 → (j != 1 && ((calm.record j).isHeld &&
        (calm.record j).overlaps (lease 2 100 .shared).region)) = false) ∧
      ∀ j : SlotNo, (calm.convList.contains j && ((calm.record j).isHeld &&
        (calm.record j).overlaps (lease 2 100 .shared).region)) = false := by
  refine ⟨fun e p h w hc => offer_offers hc, ?_⟩
  decide +kernel

theorem test_AcknowledgeTakesTheMarkOff_met :
    (∀ h, (offer full 0 0 (.acknowledge h)).Offers 0 0 (.acknowledge h) []) ∧
      firstFailing (full.holderChecks 0 (mkHandle 4 0)) = none ∧
      full.record (slotOf (mkHandle 4 0)) = .retired { toCommon := (lease 0 300 .sole).toCommon, cause := .expired } ∧
      firstFailing (full.holderChecks 0 (mkHandle 5 0)) = none ∧
      full.record (slotOf (mkHandle 5 0)) = .held { lease 0 400 .shared with warned := true } := by
  refine ⟨fun h => offer_offers rfl, ?_⟩
  decide +kernel

/-! #### Lookup, sessions, supervision and the freeze -/

/-- Port 0 has marked records, slot 4 first; port 3 has none. -/
theorem test_NoticeShowsLowestMarkedRecord_met :
    (∀ p, (offer full p 0 .notice).Offers p 0 .notice []) ∧ (full.session 0).isOpen = true ∧
      full.markedSlots 0 = [4, 5] ∧ (full.session 3).isOpen = true ∧ full.markedSlots 3 = [] := by
  refine ⟨fun p => offer_offers rfl, ?_⟩
  decide +kernel

/-- A region with HELD leases and one without. -/
theorem test_ProbeCountsRecordsOnTheRegion_met :
    (∀ b l, (offer full 0 0 (.probe b l)).Offers 0 0 (.probe b l) []) ∧
      firstFailing (full.requestChecks 0 (.probe 0 65535)) = none ∧
      ((full.record 0).isHeld && (full.record 0).overlaps (regionOf 0 65535)) = true ∧
      firstFailing (full.requestChecks 0 (.probe 0x0FFFFF 0)) = none ∧
      ∀ k, ((full.record k).isHeld && (full.record k).overlaps (regionOf 0x0FFFFF 0)) = false := by
  refine ⟨fun b l => offer_offers rfl, ?_⟩
  decide +kernel

/-- `e` with port 1's cursor at slot `n`, all records. -/
def scanning (e : Engine) (n : SlotNo) : Engine :=
  { e with sessions := put e.sessions 1 { e.session 1 with cursor := some { filter := .all, next := n, startGen := 0 } } }

/-- SCAN_FIRST of each filter; SCAN_NEXT that finds a slot, that finds slot 63, and that finds none. -/
theorem test_ScanStepsWalkTheTable_met :
    (∀ e p r, e.clock = none → (offer e p 0 r).Offers p 0 r []) ∧
      firstFailing (full.requestChecks 0 (.scanFirst 0 0 0 0)) = none ∧
      firstFailing (full.requestChecks 1 (.scanFirst 1 3 0 0)) = none ∧ portOf 3 = some 3 ∧
      firstFailing (full.requestChecks 1 (.scanFirst 2 0 0 9)) = none ∧
      firstFailing (full.requestChecks 1 (.scanFirst 3 0 0 0)) = none ∧
      ((scanning full 6).session 1).isOpen = true ∧
      ((scanning full 6).session 1).cursor = some { filter := .all, next := 6, startGen := 0 } ∧
      full.search .all 6 = some 6 ∧ full.search .all 7 = none ∧ crowded.search .all 63 = some 63 := by
  refine ⟨fun e p r h => offer_offers h, ?_⟩
  decide +kernel

/-- OPEN on an OPEN session, and on a CLOSED one with the largest margin and mask and with one above each. -/
theorem test_NoopAnswersAndOpenOpens_met :
    (∀ e r, e.clock = none → (offer e 0 0 r).Offers 0 0 r []) ∧ (openEngine.session 0).isOpen = true ∧
      (Engine.reset.session 0).isOpen = false ∧ (Request.openSession 4095 3).meaningless = false ∧
      (Request.openSession 4096 3).meaningless = true ∧ (Request.openSession 4095 4).meaningless = true := by
  refine ⟨fun e r h => offer_offers h, ?_⟩
  decide +kernel

/-- A record of the port and a pending conversion of it, a table that is not frozen, and a freeze that the port owns and
one that it does not. -/
theorem test_SessionEndFreesThePortsRecords_met :
    (full.record 0).ownedBy 0 = true ∧ (full.record 1).ownedBy 0 = false ∧
      (full.convList.filter fun k => (full.record k).ownedBy 0 && (full.record k).conv.isSome) = [2] ∧
      full.freeze = none ∧ frozenFull.freeze = some { owner := 1, start := 90 } ∧ (1 : Port) ≠ 0 := by decide +kernel

theorem test_CloseAndEvictEndASession_met :
    (offer full 0 0 .closeSession).Offers 0 0 .closeSession [] ∧ (full.session 0).isOpen = true ∧
      (offer full 1 0 (.evict 3)).Offers 1 0 (.evict 3) [] ∧ portOf 3 = some 3 ∧
      firstFailing (full.requestChecks 1 (.evict 3)) = none ∧
      (offer Engine.reset 0 0 .closeSession).Offers 0 0 .closeSession [] ∧ (Engine.reset.session 0).isOpen = false := by
  refine ⟨offer_offers rfl, by decide +kernel, offer_offers rfl, by decide +kernel, by decide +kernel, offer_offers rfl,
    by decide +kernel⟩

/-- A port-drop notice at the head of port 1's path. -/
def dropping (e : Engine) : State := { running e with toEngine := put (tab fun _ => []) 1 [.portDrop] }

theorem test_PortDropEndsTheSession_met :
    (dropping frozenFull).resetLow = false ∧ pick (dropping frozenFull).toEngine 1 = [.portDrop] :=
  ⟨rfl, pick_put_self _ _ _⟩

/-- The lease caps 4 and 3 for port 0, which owns four records. -/
theorem test_LimitsWritesFourLimits_met :
    (∀ r, (offer full 1 0 r).Offers 1 0 r []) ∧ firstFailing (full.requestChecks 1 (.limits 0 3 1 1 255)) = none ∧
      firstFailing (full.requestChecks 1 (.limits 0 4 1 1 255)) = none ∧ (0 : Byte).toNat = (0 : Port).val ∧
      (3 : Byte).toNat < full.ownedCount 0 ∧ full.ownedCount 0 ≤ (4 : Byte).toNat := by
  refine ⟨fun r => offer_offers rfl, ?_⟩
  decide +kernel

/-- A HELD, a WAITING and a RETIRED record. -/
theorem test_RevokeRetiresOrFrees_met :
    (∀ h, (offer full 1 0 (.revoke h)).Offers 1 0 (.revoke h) []) ∧
      firstFailing (full.requestChecks 1 (.revoke (mkHandle 2 0))) = none ∧
      firstFailing (full.requestChecks 1 (.revoke (mkHandle 3 0))) = none ∧
      firstFailing (full.requestChecks 1 (.revoke (mkHandle 4 0))) = none ∧
      full.record (slotOf (mkHandle 2 0)) = .held { lease 0 100 .shared with conv := some wish } ∧
      full.record (slotOf (mkHandle 3 0)) = .waiting waiter ∧
      full.record (slotOf (mkHandle 4 0)) = .retired { toCommon := (lease 0 300 .sole).toCommon, cause := .expired } := by
  refine ⟨fun h => offer_offers rfl, ?_⟩
  decide +kernel

/-- A region with HELD leases, and one with a WAITING record alone in a table whose slot 0 is FREE. -/
theorem test_RevokeRangeRetiresTheRegion_met :
    (∀ e b l, e.clock = none → (offer e 1 0 (.revokeRange b l)).Offers 1 0 (.revokeRange b l) []) ∧
      firstFailing (full.requestChecks 1 (.revokeRange 100 9)) = none ∧
      ((full.record 1).isHeld && (full.record 1).overlaps (regionOf 100 9)) = true ∧
      firstFailing ((full.freeWhere fun k => k == 0).requestChecks 1 (.revokeRange 0 9)) = none ∧
      ∀ k, (((full.freeWhere fun k => k == 0).record k).isHeld &&
        ((full.freeWhere fun k => k == 0).record k).overlaps (regionOf 0 9)) = false := by
  refine ⟨fun e b l h => offer_offers h, ?_⟩
  decide +kernel

/-- FREEZE of the frozen and of the unfrozen table, and THAW by the owner. -/
theorem test_FreezeAndThawTheTable_met :
    (∀ e r, e.clock = none → (offer e 1 0 r).Offers 1 0 r []) ∧ (full.session 1).isOpen = true ∧
      (full.session 1).supervisor = true ∧ full.freeze = none ∧ (frozenFull.session 1).isOpen = true ∧
      (frozenFull.session 1).supervisor = true ∧ frozenFull.freeze = some { owner := 1, start := 90 } := by
  refine ⟨fun e r h => offer_offers h, ?_⟩
  decide +kernel

/-! #### Clock requests and forwarded cancels -/

theorem test_ClockRequestGoesToTheTimebase_met :
    (∀ r, (offer full 1 0 r).Offers 1 0 r []) ∧ firstFailing (full.requestChecks 1 (.trim 0xF0)) = none ∧
      firstFailing (full.requestChecks 1 (.trim 15)) = none := by
  refine ⟨fun r => offer_offers rfl, ?_⟩
  decide +kernel

/-- The engine with a clock request of port 1. -/
def clocked (kind : ClockKind) : Engine :=
  { full with clock := some { port := 1, tag := 0, kind, late := true, dropped := false } }

theorem test_ClockAnswerCompletesTheRequest_met :
    ({ running full with toTimebase := some .readClock } : State).toTimebase = some .readClock ∧
      (∀ kind m, ({ running (clocked kind) with fromTimebase := [m] } : State).resetLow = false ∧
        ({ running (clocked kind) with fromTimebase := [m] } : State).fromTimebase = [m] ∧
        (clocked kind).clock = some { port := 1, tag := 0, kind, late := true, dropped := false }) :=
  ⟨rfl, fun _ _ => ⟨rfl, rfl, rfl⟩⟩

/-- A forwarded cancel for tag `t` at the head of port `p`'s path. -/
def cancelling (e : Engine) (p : Port) (t : Tag) : State :=
  { running e with toEngine := put (tab fun _ => []) p [.cancel t] }

/-- A cancel of the waiting claim, of the conversion, of the clock request and of nothing. -/
theorem test_ForwardedCancelHasFourCases_met :
    (∀ e p t, (cancelling e p t).resetLow = false ∧ pick (cancelling e p t).toEngine p = [.cancel t]) ∧
      (allSlots.filter fun k => (full.record k).waitsFor 2 2) = [3] ∧
      (allSlots.filter fun k => (full.record k).waitsFor 0 1) = [] ∧
      (allSlots.filter fun k => (full.record k).convertsFor 0 1) = [2] ∧
      (allSlots.filter fun k => ((clocked .trim).record k).waitsFor 1 0) = [] ∧
      (allSlots.filter fun k => ((clocked .trim).record k).convertsFor 1 0) = [] := by
  refine ⟨fun e p t => ⟨rfl, pick_put_self _ _ _⟩, ?_⟩
  decide +kernel

/-! #### Ports and links -/

/-- Every context that the clauses name, with every message. -/
theorem test_EngineMessagesSettleTheContext_met :
    (∀ a m, (receiving a m).resetLow = false ∧ pick (receiving a m).toPort 0 = [m] ∧ (receiving a m).port 0 = a) ∧
      ∀ c l, (holding c l).context 1 = c :=
  ⟨receiving_head, fun _ _ => pick_put_self _ _ _⟩

/-- Drop-complete in IN_RESET with a drop outstanding and in DRAINING. -/
theorem test_PortTakesNoticesAndDropComplete_met :
    (∀ a m, (receiving a m).resetLow = false ∧ pick (receiving a m).toPort 0 = [m] ∧ (receiving a m).port 0 = a) ∧
      (linked .draining).link = .draining ∧
      ({ linked .inReset with dropOutstanding := true } : AgentPort).link = .inReset :=
  ⟨receiving_head, rfl, rfl⟩

/-- A FREE and a QUEUED context, a wrong check byte, an unknown code, a frame from its first byte on, one that goes on
after two bytes, one cut short, and a judged frame. -/
theorem test_SubmitJudgesTheFrame_met :
    (∀ a, (withPort a).resetLow = false ∧ (withPort a).port 0 = a) ∧ (holding .free .command).context 1 = .free ∧
      (holding (.queued .noop false false) .command).context 1 ≠ .free ∧ (0x5A : Byte) ≠ crc (Request.release 0x1401).covered ∧
      (∀ c : ReqCode, c.byte ≠ 0x05) ∧ (linked (.frame 1 (.collecting [0x12, 0x14]))).link =
        .frame 1 (.collecting [0x12, 0x14]) ∧
      (Request.release 0x1401).covered = [] ++ [0x12, 0x14, 0x01] ∧
      (Request.release 0x1401).covered = [0x12, 0x14] ++ [0x01] ∧
      (Request.release 0x1401).covered = [0x12] ++ [0x14] ++ [0x01] ∧
      (linked (.frame 1 .judged)).link = .frame 1 .judged := by
  refine ⟨withPort_port, pick_put_self _ _ _, ?_, by decide +kernel, ?_, rfl, by decide, by decide, by decide, rfl⟩
  · rw [holding, AgentPort.context, AgentPort.setContext, pick_put_self]
    exact nofun
  · intro c
    cases c <;> decide

theorem test_FetchShiftsOutTheRecord_met :
    (∀ a, (withPort a).resetLow = false ∧ (withPort a).port 0 = a) ∧ (∀ c l, (holding c l).context 1 = c) ∧
      ∀ c l, (holding c l).link = l :=
  ⟨withPort_port, fun _ _ => pick_put_self _ _ _, fun _ _ => rfl⟩

theorem test_CancelActsOnTheContextFound_met :
    (∀ a, (withPort a).resetLow = false ∧ (withPort a).port 0 = a) ∧ (∀ c l, (holding c l).context 1 = c) ∧
      ∀ c l, (holding c l).link = l :=
  ⟨withPort_port, fun _ _ => pick_put_self _ _ _, fun _ _ => rfl⟩

theorem test_StatusShowsAndClearsTheCause_met :
    (∀ a, (withPort a).resetLow = false ∧ (withPort a).port 0 = a) ∧ (linked .command).link = .command ∧
      (linked (.reply .status [])).link = .reply .status [] ∧ (Instr.unknownTransaction 0 0xD1).wf = true :=
  ⟨withPort_port, rfl, rfl, by decide⟩

/-- Every link state that the clauses name, with SELn at the level that they name. -/
theorem test_SelectAndAttentionShowTheMarks_met :
    (∀ a, (withPort a).resetLow = false ∧ (withPort a).port 0 = a) ∧ (AgentPort.reset false).selLow = false ∧
      (AgentPort.reset false).link = .standby ∧
      ({ AgentPort.reset false with link := .inReset } : AgentPort).selLow = false ∧
      ∀ l, (linked l).selLow = true ∧ (linked l).link = l :=
  ⟨withPort_port, rfl, rfl, rfl, fun _ => ⟨rfl, rfl⟩⟩

/-! #### Formats, records and regions -/

theorem test_FramesAndRecordsKeepTheirFormats_met :
    Request.ofCovered [0x12, 0x14, 0x01] = some (.release 0x1401) ∧ okRecord.payload.fits okRecord.code = true := by
  decide

theorem test_HandlesAndViewsNameTheRecord_met :
    full.record 63 = .free ∧ full.record 0 = .held (lease 0 0 .sole) ∧
      full.record 6 = .held { lease 3 500 .shared with term := .pinned } ∧ full.record 3 = .waiting waiter ∧
      full.record 4 = .retired { toCommon := (lease 0 300 .sole).toCommon, cause := .expired } := by decide +kernel

/-- Regions that overlap, regions that adjoin, and a lease of each kind that the clauses name. -/
theorem test_OverlapAndConflictOfRegions_met :
    (Region.last { base := 100, lenM1 := 19 } + 1 = Region.first { base := 120, lenM1 := 0 }) ∧
      conflicts { base := 0, lenM1 := 9 } .sole { base := 9, lenM1 := 0 } .shared = true ∧
      (full.record 0).common = some (lease 0 0 .sole).toCommon ∧ (lease 0 0 .sole).mode = .sole ∧
      ((lease 2 100 .shared).mode = .shared ∧ (lease 2 100 .shared).conv = none) ∧
      ({ lease 0 100 .shared with conv := some wish } : Held).conv.isSome = true := by decide +kernel

/-! #### Invariants -/

/-- The table with the waiting claim of context 2 of port 2 alone. -/
def queueing : Engine := { openEngine.setRecord 3 (.waiting waiter) with waitList := [3] }

/-- That context, WAITING at its port, as the only one in use. -/
def waitingState : State :=
  (running queueing).setPort 2 ((AgentPort.reset false).setContext 2 (.waiting .noop (.claim (mkHandle 3 0) 1) false))

/-- The laws of both lists and the law of the contexts hold where a claim waits, and no FETCH is under way. -/
theorem test_StepsKeepBothLists_met :
    WaitListLaw waitingState.engine ∧ ConvListLaw waitingState.engine ∧ MatchLaw waitingState ∧
      (∀ p, FetchLaw (waitingState.port p)) ∧ ∃ s', step waitingState = .next s' := by
  have held : ∀ k x, waitingState.engine.record k ≠ .held x := by
    intro k x h
    have : ∀ k, (queueing.record k).isHeld = false := by decide +kernel
    have h' := this k
    rw [show queueing.record k = .held x from h] at h'
    cases h'
  have ports : ∀ p, waitingState.port p = AgentPort.reset false ∨
      p = 2 ∧ waitingState.port p =
        (AgentPort.reset false).setContext 2 (.waiting .noop (.claim (mkHandle 3 0) 1) false) := by
    intro p
    by_cases hp : p = 2
    · rw [hp]; exact .inr ⟨rfl, pick_put_self ..⟩
    · exact .inl ((pick_put_ne _ _ hp).trans (pick_tab ..))
  have waits : ∀ (p : Port) (t : Tag), waitingState.engine.waits p t = if p = 2 ∧ t = 2 then 1 else 0 := by
    decide +kernel
  have up : ∀ p, pick waitingState.toEngine p = [] := fun p => pick_tab ..
  have down : ∀ p, pick waitingState.toPort p = [] := fun p => pick_tab ..
  refine ⟨⟨by decide +kernel, by decide +kernel⟩, ⟨by decide +kernel, by decide +kernel, fun k x h => absurd h (held k x),
    fun j k x y _ h => absurd h (held j x)⟩, fun p => ⟨?_, nofun⟩, fun p t out h => ?_, ⟨_, rfl⟩⟩
  · rw [up, down]
    have free : ∀ t, (AgentPort.reset false).context t = .free := fun t => pick_tab ..
    rcases ports p with h | ⟨rfl, h⟩
    · rw [h]
      refine .of_quiet rfl nofun nofun fun t => .inr ⟨?_, by rw [free]; rfl, by rw [free]; exact nofun⟩
      rw [waits, if_neg]
      rintro ⟨rfl, -⟩
      exact absurd (congrArg (fun a => (a.context 2).isQueued || (a.context 2) == .free) h) (by decide +kernel)
    · rw [h]
      refine .of_quiet rfl nofun nofun fun t => ?_
      by_cases ht : t = 2
      · rw [ht]; exact .inl ⟨⟨_, _, _, pick_put_self ..⟩, waits 2 2⟩
      · have hf : ((AgentPort.reset false).setContext 2 (.waiting .noop (.claim (mkHandle 3 0) 1) false)).context t =
            .free := (pick_put_ne _ _ ht).trans (free t)
        exact .inr ⟨by rw [waits, if_neg fun h => ht h.2], by rw [hf]; rfl, by rw [hf]; exact nofun⟩
  · rcases ports p with hp | ⟨-, hp⟩ <;> rw [hp] at h <;> cases h

/-- The laws hold right after device reset (LawsHoldAfterDeviceReset), and a step from there answers a next state. -/
theorem test_Invariants_met : ∃ s', step State.reset = .next s' := ⟨_, rfl⟩

end Sys2Proof.Tests
end

/-! ## Regions and conflict: proofs about Machine/Operands.lean (R2) and Machine/Ops.lean (R3, R4) -/

namespace Sys2Proof.Machine

/-! ### Overlap of two regions (R2) -/

/-- R2's working form of overlap: two comparisons of a base with a last unit. -/
theorem Region.overlaps_iff {a b : Region} : a.overlaps b = true ↔ a.first ≤ b.last ∧ b.first ≤ a.last :=
  decide_eq_true_iff

/-- A length is at least 1, so no region is empty. -/
theorem Region.first_le_last (a : Region) : a.first ≤ a.last := Nat.le_add_right ..

/-- R2's definition of overlap: a unit shared by both. The later of the two bases is one when there is any. -/
theorem Region.overlaps_iff_shares_unit {a b : Region} :
    a.overlaps b = true ↔ ∃ u, a.first ≤ u ∧ u ≤ a.last ∧ b.first ≤ u ∧ u ≤ b.last := by
  rw [overlaps_iff]
  constructor
  · rintro ⟨hab, hba⟩
    exact ⟨max a.first b.first, le_max_left .., max_le a.first_le_last hba, le_max_right .., max_le hab b.first_le_last⟩
  · rintro ⟨u, hau, hua, hbu, hub⟩
    exact ⟨hau.trans hub, hbu.trans hua⟩

theorem Region.overlaps_comm (a b : Region) : a.overlaps b = b.overlaps a := by
  rw [Bool.eq_iff_iff, overlaps_iff, overlaps_iff, and_comm]

theorem Region.overlaps_self (a : Region) : a.overlaps a = true :=
  overlaps_iff.mpr ⟨a.first_le_last, a.first_le_last⟩

theorem Region.overlaps_of_adjoin {a b : Region} (h : a.last + 1 = b.first) : a.overlaps b = false := by
  rw [Bool.eq_false_iff, Ne, overlaps_iff]
  rintro ⟨-, hba⟩
  omega

/-! ### Where overlap is tested: the slots of the table -/

/-- A record that is not FREE overlaps by its region, in whatever state it is. -/
theorem Record.overlaps_of_common {r : Record} {c : Common} (h : r.common = some c) (g : Region) :
    r.overlaps g = c.region.overlaps g := by
  unfold Record.overlaps
  rw [h]

theorem Engine.mem_otherHolders {e : Engine} {k j : SlotNo} {g : Region} :
    j ∈ e.otherHolders k g ↔ j ≠ k ∧ (e.record j).isHeld = true ∧ (e.record j).overlaps g = true := by
  simp [Engine.otherHolders, and_assoc]

/-! ### Conflict of two parties (R3) -/

theorem conflicts_iff {a b : Region} {m n : Mode} :
    conflicts a m b n = true ↔ a.overlaps b = true ∧ (m = .sole ∨ n = .sole) := by
  simp [conflicts]

theorem conflicts_comm (a b : Region) (m n : Mode) : conflicts a m b n = conflicts b n a m := by
  rw [Bool.eq_iff_iff, conflicts_iff, conflicts_iff, a.overlaps_comm, or_comm]

/-! ### The effective mode of a slot in a conflict test (R4) -/

theorem Record.blocks_free (g : Region) (m : Mode) : Record.free.blocks g m = false := rfl

theorem Record.blocks_retired (x : Retired) (g : Region) (m : Mode) : (Record.retired x).blocks g m = false := rfl

theorem Record.blocks_waiting (w : Waiting) (g : Region) (m : Mode) :
    (Record.waiting w).blocks g m = conflicts g m w.region w.mode := rfl

theorem Record.blocks_held (x : Held) (g : Region) (m : Mode) :
    (Record.held x).blocks g m = conflicts g m x.region (if x.conv.isSome then .sole else x.mode) := rfl

theorem Record.blocks_held_sole {x : Held} (h : x.mode = .sole) (g : Region) (m : Mode) :
    (Record.held x).blocks g m = conflicts g m x.region .sole := by
  rw [blocks_held, h, ite_self]

theorem Record.blocks_held_single {x : Held} (h : x.conv = none) (g : Region) (m : Mode) :
    (Record.held x).blocks g m = conflicts g m x.region x.mode := by
  rw [blocks_held, h, Option.isSome_none, if_neg Bool.false_ne_true]

theorem Record.blocks_held_converting {x : Held} (h : x.conv.isSome = true) (g : Region) (m : Mode) :
    (Record.held x).blocks g m = conflicts g m x.region .sole := by
  rw [blocks_held, if_pos h]

/-- Settles O52: overlap of two regions and the tests that use it (R2), conflict of two parties (R3), and the part that
each slot takes in a conflict test (R4). -/
theorem overlapAndConflictOfRegions : Obligations.OverlapAndConflictOfRegions := by
  refine ⟨⟨fun a b => ⟨Region.overlaps_iff_shares_unit, Region.overlaps_iff, a.overlaps_comm b, a.overlaps_self,
      Region.overlaps_of_adjoin⟩, fun a m b n h => (conflicts_iff.mp h).1, fun e k j g c hc => ?_⟩,
    fun a b m n => ⟨conflicts_iff, conflicts_comm a b m n⟩, fun g m => ?_⟩
  · have hover : (e.record j).overlaps g = c.region.overlaps g := Record.overlaps_of_common hc g
    refine ⟨?_, ?_, ?_, hover, ?_⟩
    · rw [Engine.mem_otherHolders, hover]
    · rw [Record.heldOn, hover]
    · rw [Record.waitingOn, hover]
    · rw [Record.inRange, hover]
  · refine ⟨Record.blocks_free g m, fun x => Record.blocks_retired x g m, fun w => Record.blocks_waiting w g m,
      fun x hsole => Record.blocks_held_sole hsole g m, fun x hshared hsingle => ?_,
      fun x _ hconv => Record.blocks_held_converting hconv g m, fun w q => ?_, fun x q => ?_⟩
    · rw [Record.blocks_held_single hsingle, hshared]
    · rw [Record.blocks_waiting, Record.blocks_waiting]
    · rw [Record.blocks_held, Record.blocks_held]

end Sys2Proof.Machine

/-! ## UPGRADE: proofs about Machine/Holders.lean (R51, R59 to R63) -/

namespace Sys2Proof.Machine

/-! ### Slots that meet a condition, lowest first -/

theorem filter_allSlots_eq_nil {f : SlotNo → Bool} (h : ∀ j, f j = false) : allSlots.filter f = [] :=
  List.filter_eq_nil_iff.mpr fun j _ => by simp [h j]

theorem filter_allSlots_eq_cons {f : SlotNo → Bool} {i : SlotNo} (h : f i = true) :
    ∃ j js, allSlots.filter f = j :: js :=
  List.exists_cons_of_ne_nil (List.ne_nil_of_mem (List.mem_filter.mpr ⟨mem_allSlots i, h⟩))

/-- The slots are listed by rising number, so the lowest one that meets the condition stands first. -/
theorem IsLowest.filter_allSlots {f : SlotNo → Bool} {i : SlotNo} (h : IsLowest f i) :
    ∃ js, allSlots.filter f = i :: js := by
  obtain ⟨hi, hbelow⟩ := h
  obtain ⟨j, js, hjs⟩ := filter_allSlots_eq_cons hi
  have hj : f j = true := List.of_mem_filter (hjs ▸ List.mem_cons_self)
  have hrising : (j :: js).Pairwise (· < ·) := hjs ▸ (List.pairwise_lt_finRange 64).filter f
  have hmem : i ∈ j :: js := hjs ▸ List.mem_filter.mpr ⟨mem_allSlots i, hi⟩
  rcases List.mem_cons.mp hmem with rfl | htail
  · exact ⟨js, hjs⟩
  · have hlt : j < i := List.rel_of_pairwise_cons hrising htail
    rw [hbelow j hlt] at hj
    cases hj

theorem Engine.otherHolders_eq_filter (e : Engine) (k : SlotNo) (g : Region) :
    e.otherHolders k g = allSlots.filter fun j => j != k && ((e.record j).isHeld && (e.record j).overlaps g) := by
  simp only [Engine.otherHolders, Bool.and_assoc]

theorem Engine.overlappingConversions_eq_filter (e : Engine) (g : Region) :
    e.overlappingConversions g =
      allSlots.filter fun j => e.convList.contains j && ((e.record j).isHeld && (e.record j).overlaps g) := by
  simp only [Engine.overlappingConversions, Bool.and_assoc]

/-! ### A current handle (R16, R17) and the checks of a holder request (R51) -/

theorem mkHandle_slotOf_issueOf (h : Handle) : mkHandle (slotOf h) (issueOf h) = h := by
  apply BitVec.eq_of_toNat_eq
  simp only [mkHandle, slotOf, issueOf, BitVec.toNat_ofNat]
  have := h.isLt
  omega

theorem Engine.isCurrent_iff {e : Engine} {h : Handle} :
    e.isCurrent h = true ↔ (e.record (slotOf h)).isFree = false ∧ e.issue (slotOf h) = issueOf h := by
  simp [Engine.isCurrent]

theorem Engine.current_of_isCurrent {e : Engine} {h : Handle} (hcur : e.isCurrent h = true) :
    e.current h = some (slotOf h) := by
  obtain ⟨hfree, hissue⟩ := Engine.isCurrent_iff.mp hcur
  simp [Engine.current, hfree, hissue]

theorem Engine.handle_of_isCurrent {e : Engine} {h : Handle} (hcur : e.isCurrent h = true) :
    e.handle (slotOf h) = h := by
  rw [Engine.handle, (Engine.isCurrent_iff.mp hcur).2, mkHandle_slotOf_issueOf]

theorem Engine.holderChecks_pass {e : Engine} {p : Port} {h : Handle} :
    firstFailing (e.holderChecks p h) = none ↔
      e.sessionOpen p = true ∧ e.isCurrent h = true ∧ (e.record (slotOf h)).ownedBy p = true := by
  simp [firstFailing_none, Engine.holderChecks, Engine.sessionOpen]

/-- A holder request whose checks pass is about the slot that its handle names. -/
theorem Engine.holderCheck_of_checks {e : Engine} {p : Port} {h : Handle}
    (hpass : firstFailing (e.holderChecks p h) = none) : e.holderCheck p h = .ok (slotOf h) := by
  obtain ⟨hopen, hcur, hown⟩ := Engine.holderChecks_pass.mp hpass
  simp [Engine.holderCheck, hopen, Engine.current_of_isCurrent hcur, hown]

/-! ### Times in the words of the statements -/

theorem Term.grantTime_eq_reported (x : Term) : x.grantTime = x.reported := by
  cases x <;> rfl

theorem waitDeadlineFrom_eq_waitFrom (n : Tick) (limit : Half) : waitDeadlineFrom n limit = waitFrom n limit := rfl

/-! ### Closing an event that changes no mark (R19, R99) -/

/-- A port whose marked records stand in the same slots gets no new count. -/
theorem countNotices_of_same_marks {a b : Engine}
    (h : ∀ j p, ((b.record j).ownedBy p && (b.record j).isMarked) =
      ((a.record j).ownedBy p && (a.record j).isMarked)) :
    countNotices a b = [] := by
  have hcount : ∀ p, b.markedCount p = a.markedCount p := fun p => by
    simp only [Engine.markedCount, Engine.countSlots, h]
  simp [countNotices, hcount]

/-- An event that writes a lease anew, with its holder and warned mark kept, leaves every port's marked count; the
lists of the table may change with it. -/
theorem Engine.finish_held {old new : Engine} {k : SlotNo} {x : Held} (y : Held) (out : List Out)
    (hslots : new.slots = (old.setRecord k (.held y)).slots) (hx : old.record k = .held x)
    (hholder : y.holder = x.holder) (hwarned : y.warned = x.warned) (hne : y ≠ x) :
    old.finish new out = { engine := new.nextGeneration, out := out } := by
  have hrecord : ∀ j, new.record j = if j = k then .held y else old.record j := fun j => by
    rw [Engine.record_congr hslots, Engine.record_setRecord]
  have hchanged : new.slots ≠ old.slots := Engine.slots_ne_of_record k (by simp [hrecord, hx, hne])
  have hnotices : countNotices old new = [] := countNotices_of_same_marks fun j p => by
    rw [hrecord]
    split
    · next hj => simp [hj, hx, Record.ownedBy, Record.common, Record.isMarked, hholder, hwarned]
    · rfl
  rw [Engine.finish, hnotices, List.append_nil, Engine.closeEvent_changed hchanged]
  rfl

/-! ### The three outcomes of an UPGRADE's tests (R59) -/

section
variable {e : Engine} {p : Port} {t : Tag} {k : SlotNo} {x : Held} {limit : Half}

theorem Engine.convertNow_eq (hx : e.record k = .held x) (hshared : x.mode = .shared) :
    e.convertNow p t k x =
      { engine := (e.setRecord k (.held { x with mode := .sole })).nextGeneration
        out := [(p, resultMsg t .granted (.upgrade
          { ref := .own (e.handle k), path := .immediate, time := x.term.reported, endCause := .none }))] } := by
  have hne : { x with mode := .sole } ≠ x := fun h =>
    nomatch (congrArg (fun y : Held => y.mode) h).trans hshared
  rw [Engine.convertNow, Engine.finish_held { x with mode := .sole } _ rfl hx rfl rfl hne, Term.grantTime_eq_reported]
  rfl

theorem Engine.convertLater_eq (hx : e.record k = .held x) (hconv : x.conv = none) :
    e.convertLater p t k x limit =
      { engine := { (e.setRecord k (.held { x with
            conv := some { tag := t, waitDeadline := waitFrom e.settled limit } })).nextGeneration with
          convList := e.convList ++ [k] }
        out := [(p, .answer t (.waitingUpgrade (e.handle k)))] } := by
  have hne : { x with conv := some { tag := t, waitDeadline := waitFrom e.settled limit } } ≠ x := fun h =>
    nomatch (congrArg (fun y : Held => y.conv) h).trans hconv
  exact Engine.finish_held _ _ rfl hx rfl rfl hne

theorem Engine.upgradeLease_of_alone (halone : e.otherHolders k x.region = []) :
    e.upgradeLease p t k x limit = e.convertNow p t k x := by
  rw [Engine.upgradeLease, halone]

theorem Engine.upgradeLease_of_converting {i j : SlotNo} {is js : List SlotNo}
    (hother : e.otherHolders k x.region = i :: is) (hconverting : e.overlappingConversions x.region = j :: js) :
    e.upgradeLease p t k x limit = e.refuseUpgrade p t .deadlock j := by
  rw [Engine.upgradeLease, hother, hconverting]

theorem Engine.upgradeLease_of_blocked {i : SlotNo} {is : List SlotNo}
    (hother : e.otherHolders k x.region = i :: is) (hconverting : e.overlappingConversions x.region = []) :
    e.upgradeLease p t k x limit =
      if limit = 0 then e.refuseUpgrade p t .conflict i else e.convertLater p t k x limit := by
  rw [Engine.upgradeLease, hother, hconverting]

end

/-- An UPGRADE whose checks pass, of a SHARED lease without a conversion, comes to the tests of R59. -/
theorem Engine.upgradeReq_of_shared {e : Engine} {p : Port} {t : Tag} {h : Handle} {x : Held} {limit : Half}
    (hpass : firstFailing (e.holderChecks p h) = none) (hx : e.record (slotOf h) = .held x)
    (hshared : x.mode = .shared) (hconv : x.conv = none) :
    e.upgradeReq p t h limit = e.upgradeLease p t (slotOf h) x limit := by
  simp only [Engine.upgradeReq, Engine.holderCheck_of_checks hpass, hx, hshared, hconv, and_self, if_true]

/-- Settles O27: the tests of R59 go by whether another HELD lease overlaps, then by whether a converting one does, then
by the wait limit; each clause is one branch of them. -/
theorem upgradeConvertsWaitsOrIsRefused : Obligations.UpgradeConvertsWaitsOrIsRefused := by
  intro s p t h limit x rest hoffers hpass hx hshared hconv e k other converting refusal sole pending
  have hhandle : e.handle k = h := Engine.handle_of_isCurrent (Engine.holderChecks_pass.mp hpass).2.1
  have heffect : e.requestEffect p t (.upgrade h limit) = e.upgradeLease p t k x limit :=
    Engine.upgradeReq_of_shared hpass hx hshared hconv
  have hothers : e.otherHolders k x.region = allSlots.filter other := e.otherHolders_eq_filter k x.region
  have hconvs : e.overlappingConversions x.region = allSlots.filter converting :=
    e.overlappingConversions_eq_filter x.region
  refine ⟨fun halone => ?immediate, fun i j hi hj => ?deadlock, fun i hi hnone hzero => ?conflict,
    fun i hi hnone hwait => ?waits⟩
  case immediate =>
    refine exec_command_eq hoffers (heffect.trans ?_)
    rw [Engine.upgradeLease_of_alone (hothers.trans (filter_allSlots_eq_nil halone)), Engine.convertNow_eq hx hshared,
      hhandle]
  case deadlock =>
    obtain ⟨i', is, his⟩ := filter_allSlots_eq_cons hi
    obtain ⟨js, hjs⟩ := hj.filter_allSlots
    exact .of_reply hoffers
      (heffect.trans (Engine.upgradeLease_of_converting (hothers.trans his) (hconvs.trans hjs)))
  case conflict =>
    obtain ⟨is, his⟩ := hi.filter_allSlots
    refine .of_reply hoffers (heffect.trans ?_)
    rw [Engine.upgradeLease_of_blocked (hothers.trans his) (hconvs.trans (filter_allSlots_eq_nil hnone)), if_pos hzero]
    rfl
  case waits =>
    obtain ⟨i', is, his⟩ := filter_allSlots_eq_cons hi
    refine exec_command_eq hoffers (heffect.trans ?_)
    rw [Engine.upgradeLease_of_blocked (hothers.trans his) (hconvs.trans (filter_allSlots_eq_nil hnone)),
      if_neg hwait, Engine.convertLater_eq hx hconv, hhandle]

end Sys2Proof.Machine

/-! ## The timebase: proofs about Machine/Timebase.lean (R73, R74, R80, R81) -/

namespace Sys2Proof.Machine

/-! ### One edge of REFCLK (R74) -/

section

variable {x : Timebase}

theorem Timebase.edge_of_ne_last (h : x.phase ≠ 31) : x.edge = ({ x with phase := x.phase + 1 }, []) := by
  rw [edge, if_neg h]

theorem Timebase.edge_of_wrap (h : x.phase = 31) (hdebt : x.debt = false) :
    x.edge = ({ phase := 0, debt := false, now := x.now + 1 }, [.tick (x.now + 1)]) := by
  simp [edge, h, hdebt, tick]

theorem Timebase.edge_of_wrap_in_debt (h : x.phase = 31) (hdebt : x.debt = true) :
    x.edge = ({ phase := 0, debt := false, now := x.now }, []) := by
  simp [edge, h, hdebt]

/-! ### The life of a tick debt (R81) -/

/-- An edge makes no debt. -/
theorem Timebase.edge_debt_of_clear (hdebt : x.debt = false) : x.edge.1.debt = false := by
  by_cases hlast : x.phase = 31
  · rw [edge_of_wrap hlast hdebt]
  · rw [edge_of_ne_last hlast]
    exact hdebt

theorem Timebase.edges_debt_of_clear (hdebt : x.debt = false) (n : Nat) :
    ((fun z : Timebase => z.edge.1)^[n] x).debt = false := by
  induction n generalizing x with
  | zero => exact hdebt
  | succ n ih => exact ih (edge_debt_of_clear hdebt)

theorem phase_succ_toNat {phase : BitVec 5} (h : phase ≠ 31) : (phase + 1).toNat = phase.toNat + 1 := by
  bv_omega

/-- A debt stands until the phase wraps: the edge that takes phase 31 to 0 clears it, and no later one makes it
again. -/
theorem Timebase.edges_debt_iff (hdebt : x.debt = true) (n : Nat) :
    ((fun z : Timebase => z.edge.1)^[n] x).debt = true ↔ n < 32 - x.phase.toNat := by
  induction n generalizing x with
  | zero =>
    have := x.phase.isLt
    exact iff_of_true hdebt (by omega)
  | succ n ih =>
    rw [Function.iterate_succ_apply]
    by_cases hlast : x.phase = 31
    · rw [edge_of_wrap_in_debt hlast hdebt, edges_debt_of_clear rfl, hlast]
      simp
    · have hnext := phase_succ_toNat hlast
      have hrest := ih (x := { x with phase := x.phase + 1 }) hdebt
      rw [edge_of_ne_last hlast, hrest, hnext]
      omega

/-! ### A TRIM at the timebase: one equation for each case of R80 and R81 -/

variable {a : Byte}

theorem Timebase.trim_of_debt (hdebt : x.debt = true) : x.trim a = (x, [trimAnswer x x a true .none]) := by
  rw [trim, if_pos hdebt]

theorem Timebase.trim_of_carry (hdebt : x.debt = false) (hsum : 32 ≤ x.trimSum a) :
    x.trim a =
      let y : Timebase := { x with phase := BitVec.ofInt 5 (x.trimSum a - 32), now := x.now + 1 }
      (y, [.tick (x.now + 1), trimAnswer x y a false .carry]) := by
  rw [trim, if_neg (by simp [hdebt]), if_pos hsum]
  rfl

theorem Timebase.trim_of_fit (hdebt : x.debt = false) (hlow : 0 ≤ x.trimSum a) (hhigh : x.trimSum a ≤ 31) :
    x.trim a =
      let y : Timebase := { x with phase := BitVec.ofInt 5 (x.trimSum a) }
      (y, [trimAnswer x y a false .none]) := by
  rw [trim, if_neg (by simp [hdebt]), if_neg (by omega), if_pos hlow]

theorem Timebase.trim_of_borrow (hdebt : x.debt = false) (hsum : x.trimSum a < 0) :
    x.trim a =
      let y : Timebase := { x with phase := BitVec.ofInt 5 (x.trimSum a + 32), debt := true }
      (y, [trimAnswer x y a false .borrow]) := by
  rw [trim, if_neg (by simp [hdebt]), if_neg (by omega), if_neg (by omega)]

/-! ### The sum of phase and adjustment (R80) -/

theorem Timebase.trimSum_bounds (hlow : -16 ≤ a.toInt) (hhigh : a.toInt ≤ 15) :
    -16 ≤ x.trimSum a ∧ x.trimSum a ≤ 46 := by
  have := x.phase.isLt
  unfold trimSum
  omega

theorem Timebase.trimSum_zero : x.trimSum 0 = x.phase.toNat := Int.add_zero _

theorem phase_ofInt_toNat {n : Int} (hlow : 0 ≤ n) (hhigh : n ≤ 31) : ((BitVec.ofInt 5 n).toNat : Int) = n := by
  rw [BitVec.toNat_ofInt]
  omega

/-- A TRIM of 0 without debt moves nothing. -/
theorem Timebase.trim_zero (hdebt : x.debt = false) : x.trim 0 = (x, [trimAnswer x x 0 false .none]) := by
  have := x.phase.isLt
  rw [trim_of_fit hdebt (by rw [trimSum_zero]; omega) (by rw [trimSum_zero]; omega), trimSum_zero,
    BitVec.ofInt_natCast, BitVec.ofNat_toNat, BitVec.setWidth_eq]

end

/-! ### The two commands of the timebase while RESETn is high -/

section

variable {s : State}

theorem exec_refclkEdge (hrun : s.resetLow = false) (prst : PinLevels) :
    exec (.refclkEdge prst) s = .next (s.refclk prst) :=
  State.whenRunning_high _ hrun

theorem State.refclk_timebase (prst : PinLevels) : (s.refclk prst).timebase = s.timebase.edge.1 := rfl

theorem State.refclk_fromTimebase (prst : PinLevels) :
    (s.refclk prst).fromTimebase = s.fromTimebase ++ s.timebase.edge.2 := rfl

theorem exec_timebaseTrim {a : Byte} (hrun : s.resetLow = false) (hcall : s.toTimebase = some (.trim a)) :
    exec .timebaseTrim s = .next
      { (s.setTimebase (s.timebase.trim a).1).sendFromTimebase (s.timebase.trim a).2 with toTimebase := none } := by
  simp [exec, execTimebaseTrim, hrun, hcall]

end

/-! ### The commands that leave the timebase as it is -/

/-- Whatever next state `k` answers has the timebase of `s`. -/
def KeepsTimebase (s : State) (k : StepResult) : Prop := ∀ s', k = .next s' → s'.timebase = s.timebase

/-- The commands that reach the timebase's state: the edges of REFCLK, a TRIM at the timebase, and device reset. -/
inductive MovesTimebase : Instr → Prop where
  | refclkEdge (prst : PinLevels) : MovesTimebase (.refclkEdge prst)
  | portReset (p : Port) (prst : PinLevels) : MovesTimebase (.portReset p prst)
  | portRelease (p : Port) (prst : PinLevels) : MovesTimebase (.portRelease p prst)
  | timebaseTrim : MovesTimebase .timebaseTrim
  | deviceReset : MovesTimebase .deviceReset

section

variable {s : State}

theorem KeepsTimebase.next {s' : State} (h : s'.timebase = s.timebase) : KeepsTimebase s (.next s') := by
  intro s'' hs
  injection hs with hs
  rw [← hs, h]

theorem KeepsTimebase.fault (f : Fault) : KeepsTimebase s (.fault f) := nofun

theorem KeepsTimebase.whenRunning {k : StepResult} (h : KeepsTimebase s k) : KeepsTimebase s (s.whenRunning k) := by
  intro s' hs
  rcases State.whenRunning_next hs with rfl | ⟨-, hk⟩
  · rfl
  · exact h s' hk

theorem KeepsTimebase.takeTickIf (f : Engine → Tick → Bool) : KeepsTimebase s (s.takeTickIf f) := by
  rcases State.takeTickIf_cases s f with h | ⟨n, rest, -, -, -, h⟩ <;> rw [h] <;> exact .next rfl

theorem KeepsTimebase.takeFromPort (p : Port) (f : PortMsg → Option Effect) :
    KeepsTimebase s (s.takeFromPort p f) := by
  rcases State.takeFromPort_cases s p f with h | ⟨m, rest, x, -, -, -, h⟩ <;> rw [h] <;> exact .next rfl

theorem KeepsTimebase.takeRequest (p : Port) (f : Tag → Request → Option Effect) :
    KeepsTimebase s (s.takeRequest p f) := by
  rcases State.takeRequest_cases s p f with h | ⟨t, r, rest, x, -, -, -, -, h⟩ <;> rw [h] <;> exact .next rfl

theorem KeepsTimebase.takeAtPort (p : Port) (f : EngineMsg → Option (Except Fault AgentPort)) :
    KeepsTimebase s (s.takeAtPort p f) := by
  rcases State.takeAtPort_cases s p f with h | ⟨m, rest, -, -, ⟨a, -, h⟩ | ⟨x, -, h⟩⟩ <;> rw [h]
  · exact .next rfl
  · exact .next rfl
  · exact .fault x

theorem KeepsTimebase.atPort (p : Port) (f : AgentPort → AgentPort × List PortMsg) :
    KeepsTimebase s (s.atPort p f) := by
  rcases State.atPort_cases s p f with h | ⟨-, h⟩ <;> rw [h] <;> exact .next rfl

theorem KeepsTimebase.resetRelease (straps prst : PinLevels) : KeepsTimebase s (execResetRelease straps prst s) := by
  unfold execResetRelease
  split <;> exact .next rfl

theorem KeepsTimebase.arbiterTake : KeepsTimebase s (execArbiterTake s) := by
  refine .whenRunning ?_
  split
  · split <;> exact .next rfl
  · exact .next rfl

theorem KeepsTimebase.timebaseReadClock : KeepsTimebase s (execTimebaseReadClock s) := by
  refine .whenRunning ?_
  split <;> exact .next rfl

theorem KeepsTimebase.clockAnswer : KeepsTimebase s (execClockAnswer s) := by
  refine .whenRunning ?_
  split
  · exact .next rfl
  · exact .next rfl
  · split
    · exact .next rfl
    · exact .fault _

theorem KeepsTimebase.selectFall (p : Port) : KeepsTimebase s (execSelectFall p s) := by
  unfold execSelectFall
  split <;> exact .next rfl

theorem KeepsTimebase.selectRise (p : Port) : KeepsTimebase s (execSelectRise p s) := by
  unfold execSelectRise
  split <;> exact .next rfl

/-- Every command that is none of the five keeps the timebase: it is a taking of a message, an event at a port's link,
or one of six of its own. -/
theorem movesTimebase_or_keeps (c : Instr) (s : State) : MovesTimebase c ∨ KeepsTimebase s (exec c s) := by
  cases c with
  | refclkEdge prst => exact .inl (.refclkEdge prst)
  | portReset p prst => exact .inl (.portReset p prst)
  | portRelease p prst => exact .inl (.portRelease p prst)
  | timebaseTrim => exact .inl .timebaseTrim
  | deviceReset => exact .inl .deviceReset
  | resetRelease straps prst => exact .inr (.resetRelease straps prst)
  | arbiterTake => exact .inr .arbiterTake
  | timebaseReadClock => exact .inr .timebaseReadClock
  | clockAnswer => exact .inr .clockAnswer
  | selectFall p => exact .inr (.selectFall p)
  | selectRise p => exact .inr (.selectRise p)
  | tickNotice => unfold exec execTickNotice; exact .inr (.takeTickIf _)
  | leaseExpiry k => unfold exec execLeaseExpiry; exact .inr (.takeTickIf _)
  | waitTimeout k => unfold exec execWaitTimeout; exact .inr (.takeTickIf _)
  | conversionTimeout k => unfold exec execConversionTimeout; exact .inr (.takeTickIf _)
  | warnMarginReached k => unfold exec execWarnMarginReached; exact .inr (.takeTickIf _)
  | freezeLimit => unfold exec execFreezeLimit; exact .inr (.takeTickIf _)
  | forwardedCancel p | portDrop p => exact .inr (.takeFromPort p _)
  | portAnswer p | portCompletion p | cancelLateNotice p | markedCount p | sessionNotice p | freezeNotice p
  | dropComplete p =>
    exact .inr (.takeAtPort p _)
  | submit p t bytes => unfold exec execSubmit; exact .inr (.atPort p _)
  | bitAfterCheckByte p => unfold exec execBitAfterCheckByte; exact .inr (.atPort p _)
  | fetch p t => unfold exec execFetch; exact .inr (.atPort p _)
  | fetchComplete p => unfold exec execFetchComplete; exact .inr (.atPort p _)
  | cancel p t => unfold exec execCancel; exact .inr (.atPort p _)
  | status p => unfold exec execStatus; exact .inr (.atPort p _)
  | linkFaultCauseShiftedOut p => unfold exec execLinkFaultCauseShiftedOut; exact .inr (.atPort p _)
  | unknownTransaction p b => unfold exec execUnknownTransaction; exact .inr (.atPort p _)
  | _ p => exact .inr (.takeRequest p _)

end

/-! ### The obligations -/

/-- Settles O7: R74's table is the three equations of `Timebase.edge`, and only the commands of `MovesTimebase` reach
the timebase. -/
theorem refclkEdgeCountsPhase : Obligations.RefclkEdgeCountsPhase := by
  refine ⟨fun s prst hrun => ⟨s.refclk prst, exec_refclkEdge hrun prst, fun hphase => ?counts,
    fun hphase hdebt => ?ticks, fun hphase hdebt => ?withheld, rfl, rfl, rfl, rfl, fun x s2 hs2 => ?ports⟩,
    fun c s s' hexec hmoved => ?others⟩
  case counts =>
    rw [State.refclk_timebase, State.refclk_fromTimebase, Timebase.edge_of_ne_last hphase, List.append_nil]
    exact ⟨rfl, rfl⟩
  case ticks =>
    rw [State.refclk_timebase, State.refclk_fromTimebase, Timebase.edge_of_wrap hphase hdebt]
    exact ⟨rfl, rfl⟩
  case withheld =>
    rw [State.refclk_timebase, State.refclk_fromTimebase, Timebase.edge_of_wrap_in_debt hphase hdebt, List.append_nil]
    exact ⟨rfl, rfl⟩
  case ports =>
    injection (exec_refclkEdge (s := { s with timebase := x }) hrun prst).symm.trans hs2 with hs2
    rw [← hs2]
    exact ⟨rfl, rfl⟩
  case others =>
    rcases movesTimebase_or_keeps c s with hmoves | hkeeps
    · cases hmoves <;> exact trivial
    · exact absurd (hkeeps s' hexec) hmoved

/-- Settles O9: each clause is one equation of `Timebase.trim`; the bounds of the sum keep the new phase from
wrapping. -/
theorem trimMovesPhaseOrIsBusy : Obligations.TrimMovesPhaseOrIsBusy := by
  intro s a hrun hcall hlow hhigh
  obtain ⟨hleast, hmost⟩ := Timebase.trimSum_bounds (x := s.timebase) hlow hhigh
  refine ⟨_, exec_timebaseTrim hrun hcall, rfl, rfl, rfl, rfl, rfl, rfl, fun hdebt => ?busy,
    fun _ => ⟨hleast, hmost⟩, fun hdebt (hsum : 32 ≤ s.timebase.trimSum a) => ?carry, fun hdebt hnonneg hfits => ?fit,
    fun hdebt (hsum : s.timebase.trimSum a < 0) => ?borrow, fun hdebt hzero => ?zero⟩
  case busy =>
    rw [Timebase.trim_of_debt hdebt]
    exact ⟨rfl, rfl⟩
  case carry =>
    rw [Timebase.trim_of_carry hdebt hsum]
    exact ⟨phase_ofInt_toNat (by omega) (by omega), hdebt, rfl, rfl⟩
  case fit =>
    rw [Timebase.trim_of_fit hdebt hnonneg hfits]
    exact ⟨phase_ofInt_toNat hnonneg hfits, hdebt, rfl, rfl⟩
  case borrow =>
    rw [Timebase.trim_of_borrow hdebt hsum]
    have hphase := phase_ofInt_toNat (n := s.timebase.trimSum a + 32) (by omega) (by omega)
    have hhalf : 16 ≤ (BitVec.ofInt 5 (s.timebase.trimSum a + 32)).toNat := by omega
    exact ⟨hphase, hhalf, rfl, rfl, rfl, Timebase.edges_debt_iff rfl⟩
  case zero =>
    subst hzero
    rw [Timebase.trim_zero hdebt]
    exact ⟨rfl, rfl⟩

end Sys2Proof.Machine

/-! ## CANCEL: proofs about Machine/Serial.lean (R160, R167, R172) -/

namespace Sys2Proof.Machine

section
variable {a : AgentPort} {t : Tag} {r : Request} {k : Kept} {out : Bool} {x : ResultRecord}

/-! ### What CANCEL does to a context: one equation for each row of R160's table -/

theorem AgentPort.cancelContext_of_free (h : a.context t = .free) : a.cancelContext t = (a, [], replyNothing) := by
  rw [cancelContext, h]

/-- The request is still at the port, so the port itself ends it; no cancel-outstanding mark is asked about. -/
theorem AgentPort.cancelContext_of_queued (h : a.context t = .queued r false out) :
    a.cancelContext t = ((a.unlist t).setContext t (.done r.cancelledRecord false), [], replyCancelled) := by
  rw [cancelContext, h]

theorem AgentPort.cancelContext_of_held (h : a.context t = .queued r true false) :
    a.cancelContext t = (a.setContext t (.queued r true true), [.cancel t], replyForwarded) := by
  rw [cancelContext, h]

/-- A cancel for the held request is under way already, and no second one is sent. -/
theorem AgentPort.cancelContext_of_held_marked (h : a.context t = .queued r true true) :
    a.cancelContext t = (a, [], replyForwarded) := by
  rw [cancelContext, h]

theorem AgentPort.cancelContext_of_waiting (h : a.context t = .waiting r k false) :
    a.cancelContext t = (a.setContext t (.waiting r k true), [.cancel t], replyForwarded) := by
  rw [cancelContext, h]

/-- A cancel for the wait is under way already, and no second one is sent. -/
theorem AgentPort.cancelContext_of_waiting_marked (h : a.context t = .waiting r k true) :
    a.cancelContext t = (a, [], replyForwarded) := by
  rw [cancelContext, h]

theorem AgentPort.cancelContext_of_done (h : a.context t = .done x out) :
    a.cancelContext t = (a, [], replyNothing) := by
  rw [cancelContext, h]

/-! ### What the link state makes of the transaction (R167, R172) -/

theorem AgentPort.cancel_of_command (hlink : a.link = .command) :
    a.cancel t =
      ({ (a.cancelContext t).1 with link := .reply .plain [(a.cancelContext t).2.2] }, (a.cancelContext t).2.1) := by
  rw [cancel, hlink]

/-- Only COMMAND takes a transaction byte. -/
theorem AgentPort.cancel_of_not_command (hlink : a.link ≠ .command) : a.cancel t = (a, []) := by
  rw [cancel]
  split
  next hcommand => exact absurd hcommand hlink
  next => rfl

end

/-! ### The command while RESETn is high -/

section
variable {s : State} {p : Port} {t : Tag}

theorem exec_cancel (hrun : s.resetLow = false) :
    exec (.cancel p t) s = .next (s.afterLink p ((s.port p).cancel t).1 ((s.port p).cancel t).2) :=
  State.atPort_running p (fun a => a.cancel t) hrun

/-- In COMMAND the port becomes what CANCEL makes of the context, and replies with the byte that says what it found. -/
theorem exec_cancel_of_command {b : AgentPort} {ms : List PortMsg} {reply : Byte} (hrun : s.resetLow = false)
    (hlink : (s.port p).link = .command) (hcancel : (s.port p).cancelContext t = (b, ms, reply)) :
    exec (.cancel p t) s = .next (s.afterLink p { b with link := .reply .plain [reply] } ms) := by
  rw [exec_cancel hrun, AgentPort.cancel_of_command hlink, hcancel]

theorem exec_cancel_of_not_command (hrun : s.resetLow = false) (hlink : (s.port p).link ≠ .command) :
    exec (.cancel p t) s = .next (s.afterLink p (s.port p) []) := by
  rw [exec_cancel hrun, AgentPort.cancel_of_not_command hlink]

end

/-- Settles O47: each row of the table is one equation of `AgentPort.cancelContext`; a port in reset is not in
COMMAND. -/
theorem cancelActsOnTheContextFound : Obligations.CancelActsOnTheContextFound := by
  intro s p t hrun a replied withContext
  refine ⟨fun hlink => ?command, fun hreset => ?inReset⟩
  case command =>
    have acts {b ms reply} (h : a.cancelContext t = (b, ms, reply)) : replied b ms reply :=
      exec_cancel_of_command hrun hlink h
    exact ⟨fun hfree => acts (AgentPort.cancelContext_of_free hfree),
      fun _ _ hqueued => acts (AgentPort.cancelContext_of_queued hqueued),
      fun _ hheld => acts (AgentPort.cancelContext_of_held hheld),
      fun _ _ hwaiting => acts (AgentPort.cancelContext_of_waiting hwaiting),
      fun _ hheld => acts (AgentPort.cancelContext_of_held_marked hheld),
      fun _ _ hwaiting => acts (AgentPort.cancelContext_of_waiting_marked hwaiting),
      fun _ _ hdone => acts (AgentPort.cancelContext_of_done hdone)⟩
  case inReset =>
    refine exec_cancel_of_not_command hrun fun hcommand => ?_
    rcases hreset with hin | hdraining
    · cases hcommand.symm.trans hin
    · cases hcommand.symm.trans hdraining

end Sys2Proof.Machine

/-! ## What an edit makes of the records: proofs about Laws/Edits.lean -/

namespace Sys2Proof.Machine

/-! ### Changes that grant nothing -/

/-- What a part of an event that grants nothing can make of one record. -/
inductive Record.Eases : Record → Record → Prop where
  | same (r : Record) : Eases r r
  | freed (r : Record) : Eases r .free
  | retired (r : Record) (cause : RetireCause) : Eases r (r.retire cause)
  | unconverted (r : Record) : Eases r r.dropConv
  | warned (x : Held) (d : Half) (n : Tick) (timed : x.term = .timed d n) : Eases (.held x) (.held { x with warned := true })
  | unwarned (x : Held) : Eases (.held x) (.held { x with warned := false })
  | downgraded (x : Held) : Eases (.held x) (.held { x with mode := .shared })

/-- How the records come to stand by parts that grant nothing and by single grants, the settled tick and the sessions
kept. -/
inductive TableMove : Engine → Engine → Prop where
  | eased {a b : Engine} (h : ∀ k, (a.record k).Eases (b.record k)) (settled : b.settled = a.settled) : TableMove a b
  | conversion {a b : Engine} {k : SlotNo} {m : Out} (h : a.grantConversion k = some (b, m)) : TableMove a b
  | waiter {a b : Engine} {passed : List SlotNo} {k : SlotNo} {m : Out} (h : a.grantWaiter passed k = some (b, m)) :
      TableMove a b
  | trans {a b c : Engine} (hab : TableMove a b) (hbc : TableMove b c) : TableMove a c

section
variable {a b e : Engine}

theorem TableMove.of_same_records (h : ∀ k, b.record k = a.record k) (settled : b.settled = a.settled) : TableMove a b :=
  .eased (fun k => by rw [h k]; exact .same _) settled

theorem TableMove.refl (e : Engine) : TableMove e e := .of_same_records (fun _ => rfl) rfl

theorem TableMove.grantPass (e : Engine) : TableMove e e.grantPass.1 :=
  Engine.grantPass_induct (P := TableMove e) (fun _ _ _ _ h hg => h.trans (.conversion hg))
    (fun _ _ _ _ _ h hg => h.trans (.waiter hg)) e (.refl e)

theorem TableMove.passUnlessFrozen (e : Engine) : TableMove e e.passUnlessFrozen.1 := by
  unfold Engine.passUnlessFrozen
  split
  · exact .refl e
  · exact .grantPass e

theorem TableMove.freeWhere (e : Engine) (which : SlotNo → Bool) : TableMove e (e.freeWhere which) :=
  .eased (fun k => by
    rw [Engine.record_freeWhere]
    split
    · exact .freed _
    · exact .same _) rfl

theorem TableMove.retireWhere (e : Engine) (which : SlotNo → Bool) (cause : RetireCause) :
    TableMove e (e.retireWhere which cause) :=
  .eased (fun k => by
    rw [Engine.record_retireWhere]
    split
    · exact .retired _ _
    · exact .same _) rfl

theorem TableMove.dropConvWhere (e : Engine) (which : SlotNo → Bool) : TableMove e (e.dropConvWhere which) :=
  .eased (fun k => by
    rw [Engine.record_dropConvWhere]
    split
    · exact .unconverted _
    · exact .same _) rfl

/-- The settling of what is due is three parts, each of which frees, retires or ends conversions. -/
theorem TableMove.settleDue (e : Engine) : TableMove e e.settleDue.engine :=
  ((TableMove.retireWhere e _ _).trans (.freeWhere _ _)).trans (.dropConvWhere _ _)

/-- Only a timed lease can reach a margin, at a tick or within a freeze. -/
theorem Record.Eases.warn_if {r : Record} {c : Bool} (h : ∀ x, r = .held x → c = true → x.term ≠ .pinned) :
    r.Eases (if c then r.warn else r) := by
  split
  next hc =>
    cases r with
    | held x =>
      cases hx : x.term with
      | pinned => exact absurd hx (h x rfl hc)
      | timed d n => exact .warned x d n hx
    | free => exact .same _
    | waiting w => exact .same _
    | retired x => exact .same _
  · exact .same _

theorem TableMove.warnPart (e : Engine) : TableMove e e.warnPart :=
  .eased (fun k => by
    rw [Engine.record_warnPart]
    refine .warn_if fun x hx hc hpin => ?_
    simp [Record.reachesMargin, hx, hpin] at hc) rfl

theorem TableMove.thawWarnPart (e : Engine) (start : Tick) : TableMove e (e.thawWarnPart start) :=
  .eased (fun k => by
    rw [Engine.record_thawWarnPart]
    refine .warn_if fun x hx hc hpin => ?_
    simp [Record.crossedMargin, hx, hpin] at hc) rfl

theorem TableMove.settleThaw (e : Engine) (start : Tick) : TableMove e (e.settleThaw start).engine :=
  (((TableMove.settleDue e).trans (.thawWarnPart _ start)).trans (.grantPass _)).trans
    (.of_same_records (fun _ => rfl) rfl)

theorem TableMove.clearPort (e : Engine) (p : Port) : TableMove e (e.clearPort p) :=
  (TableMove.freeWhere e _).trans (.of_same_records (fun _ => rfl) rfl)

theorem TableMove.afterClear (e : Engine) (p : Port) : TableMove e (e.afterClear p).1 := by
  unfold Engine.afterClear
  split
  next f hf =>
    split
    · exact .settleThaw e f.start
    · exact .refl e
  · exact .grantPass e

theorem TableMove.endSession (e : Engine) (p : Port) (tell : Bool) : TableMove e (e.endSession p tell).engine :=
  (TableMove.clearPort e p).trans (.afterClear _ p)

theorem TableMove.setRecord {k : SlotNo} {r : Record} (h : (e.record k).Eases r) : TableMove e (e.setRecord k r) :=
  .eased (fun j => by
    rw [Engine.record_setRecord]
    split
    next hj => rw [hj]; exact h
    · exact .same _) rfl

end

/-! ### Changes that write one record -/

/-- The record `r` that an event writes into slot `k`, where it grants, queues, renews or converts, with what the event's
checks have established. -/
inductive Written (e : Engine) (k : SlotNo) : Record → Prop where
  | grant (c : Common) (d : Half) (free : (e.record k).isFree = true) (isOpen : e.sessionOpen c.holder = true)
      (valid : c.region.valid = true) (cap : e.ownedCount c.holder < (e.limitsOf c.holder).leaseCap.toNat)
      (clear : ∀ j, (e.record j).blocks c.region c.mode = false) : Written e k (.held (e.grantedHeld c d))
  | queue (w : Waiting) (limit : Half) (free : (e.record k).isFree = true) (isOpen : e.sessionOpen w.holder = true)
      (valid : w.region.valid = true) (cap : e.ownedCount w.holder < (e.limitsOf w.holder).leaseCap.toNat)
      (bounded : limit ≠ 0) (deadline : w.waitDeadline = waitDeadlineFrom e.settled limit) : Written e k (.waiting w)
  | renew (p : Port) (x : Held) (stated stored : Half) (n : Tick) (held : e.record k = .held x)
      (timed : x.term = .timed stored n) : Written e k (.held (e.renewed p x (effectiveDuration stated stored)))
  | convert (x : Held) (held : e.record k = .held x) (clear : e.otherHolders k x.region = []) :
      Written e k (.held { x with mode := .sole })
  | pend (x : Held) (t : Tag) (limit : Half) (held : e.record k = .held x) (bounded : limit ≠ 0) :
      Written e k (.held { x with conv := some { tag := t, waitDeadline := waitDeadlineFrom e.settled limit } })

/-- Everything that an edit can make of the records: parts that grant nothing and single grants,
where a tick notice is taken at the tick that it carries, or one record written. -/
theorem Edit.records {e m : Engine} (h : Edit e m) :
    (∃ n, TableMove (e.advance n) m) ∨
      ∃ k r, Written e k r ∧ m.settled = e.settled ∧ ∀ j, m.record j = if j = k then r else e.record j := by
  cases h with
  | same => exact .inl ⟨e.settled, .refl e⟩
  | clock c => exact .inl ⟨e.settled, .of_same_records (fun _ => rfl) rfl⟩
  | opened p margin mask _ => exact .inl ⟨e.settled, .of_same_records (fun _ => rfl) rfl⟩
  | cursor p c _ => exact .inl ⟨e.settled, .of_same_records (fun _ => rfl) rfl⟩
  | limits q l _ _ _ _ => exact .inl ⟨e.settled, .of_same_records (fun _ => rfl) rfl⟩
  | freeze p _ _ _ => exact .inl ⟨e.settled, .of_same_records (fun _ => rfl) rfl⟩
  | grant k c d free isOpen valid cap clear =>
    exact .inr ⟨k, _, .grant c d free isOpen valid cap clear, rfl, fun j => Engine.record_enter ..⟩
  | queue k w limit free isOpen valid cap bounded deadline =>
    exact .inr ⟨k, _, .queue w limit free isOpen valid cap bounded deadline, rfl, fun j => Engine.record_enter ..⟩
  | renew p k x stated stored n held timed =>
    exact .inr ⟨k, _, .renew p x stated stored n held timed, rfl, fun j => Engine.record_setRecord ..⟩
  | convert k x held _ _ clear =>
    exact .inr ⟨k, _, .convert x held clear, rfl, fun j => Engine.record_setRecord ..⟩
  | pend k x t limit held _ _ _ bounded =>
    exact .inr ⟨k, _, .pend x t limit held bounded, rfl, fun j => Engine.record_setRecord ..⟩
  | acknowledge k x held _ => exact .inl ⟨e.settled, .setRecord (by change (e.record k).Eases _; rw [held]; exact .unwarned x)⟩
  | downgrade k x held _ =>
    exact .inl ⟨e.settled, (TableMove.setRecord (by change (e.record k).Eases _; rw [held]; exact .downgraded x)).trans (.passUnlessFrozen _)⟩
  | freeRetired k x _ => exact .inl ⟨e.settled, .freeWhere e _⟩
  | freeThenPass k _ => exact .inl ⟨e.settled, (TableMove.freeWhere e _).trans (.passUnlessFrozen _)⟩
  | retireThenPass which _ => exact .inl ⟨e.settled, (TableMove.retireWhere e _ _).trans (.passUnlessFrozen _)⟩
  | retireNone which _ => exact .inl ⟨e.settled, .retireWhere e _ _⟩
  | dropConvThenPass k _ => exact .inl ⟨e.settled, (TableMove.dropConvWhere e _).trans (.passUnlessFrozen _)⟩
  | thaw f _ => exact .inl ⟨e.settled, .settleThaw e _⟩
  | endSession p tell _ => exact .inl ⟨e.settled, .endSession e p tell⟩
  | endSessionLost p tell lost =>
    exact .inl ⟨e.settled, (TableMove.endSession e p tell).trans (.of_same_records (fun _ => rfl) rfl)⟩
  | advance n f _ => exact .inl ⟨n, .refl _⟩
  | tick n _ => exact .inl ⟨n, (TableMove.settleDue _).trans (.warnPart _)⟩
  | tickPass n _ => exact .inl ⟨n, ((TableMove.settleDue _).trans (.warnPart _)).trans (.grantPass _)⟩
  | limitThaw n f _ => exact .inl ⟨n, .settleThaw _ _⟩

/-- Two engines that differ at most in the generation, the clock request and what the release of RESETn writes. -/
structure SameTable (a b : Engine) : Prop where
  records : ∀ k, b.record k = a.record k
  settled : b.settled = a.settled
  freeze  : b.freeze = a.freeze

/-- A law of the records, the settled tick and the freeze is kept by every step when every edit keeps it: device reset
makes every record FREE, the release of RESETn changes none of them, and an event of the engine makes an edit. -/
theorem Move.keeps {s s' : State} (h : Move s s') {P : Engine → Prop}
    (congr : ∀ a b : Engine, SameTable a b → P a → P b) (reset : P .reset)
    (edit : ∀ m, Edit s.engine m → P m) (hP : P s.engine) : P s'.engine := by
  rcases h.engine with hreset | ⟨-, straps, hrelease⟩ | hnext
  · rw [hreset]; exact reset
  · rw [hrelease]; exact congr s.engine _ ⟨fun _ => rfl, rfl, rfl⟩ hP
  · generalize s'.engine = e' at hnext
    cases hnext with
    | plain _ h => exact edit _ h
    | closed m h => exact congr m _ ⟨fun k => Engine.record_closeEvent .., by simp, by simp⟩ (edit m h)
    | closedClock m h c => exact congr m _ ⟨fun k => Engine.record_closeEvent _ m k, Engine.closeEvent_settled _ m, Engine.closeEvent_freeze _ m⟩ (edit m h)

/-- A law of the engine that every move keeps holds after every step; the queue of commands plays no part. -/
theorem step_keeps {P : State → Prop} (hqueue : ∀ (s : State) (q : List Instr), P s → P { s with pending := q })
    (hmove : ∀ s s', Move s s' → P s → P s') {s s' : State} (hP : P s) (h : step s = .next s') : P s' := by
  rcases step_next h with ⟨-, rfl⟩ | ⟨c, q, -, hm⟩
  · exact hP
  · exact hmove _ _ hm (hqueue s q hP)

end Sys2Proof.Machine

/-! ## Leases that overlap: the law of R5 -/

namespace Sys2Proof.Machine

section
variable {a b : Engine}

theorem ExclusionLaw.congr (h : ∀ k, b.record k = a.record k) (ha : ExclusionLaw a) : ExclusionLaw b := by
  intro j k x y hjk hj hk
  exact ha j k x y hjk (by rw [← h, hj]) (by rw [← h, hk])

/-- A lease that stands after a change that grants nothing stood before it on the same region, and is SHARED when it was. -/
theorem Record.Eases.of_held {r : Record} {y : Held} (h : r.Eases (.held y)) :
    ∃ x, r = .held x ∧ y.region = x.region ∧ (x.mode = .shared → y.mode = .shared) := by
  generalize hr : Record.held y = r' at h
  cases h with
  | same => exact ⟨y, hr.symm, rfl, id⟩
  | freed => cases hr
  | retired _ cause => cases r <;> cases hr
  | unconverted =>
    cases r with
    | held x => cases hr; exact ⟨x, rfl, rfl, id⟩
    | _ => cases hr
  | warned x => cases hr; exact ⟨x, rfl, rfl, id⟩
  | unwarned x => cases hr; exact ⟨x, rfl, rfl, id⟩
  | downgraded x => cases hr; exact ⟨x, rfl, rfl, fun _ => rfl⟩

theorem ExclusionLaw.eased (ha : ExclusionLaw a) (h : ∀ k, (a.record k).Eases (b.record k)) : ExclusionLaw b := by
  intro j k x y hjk hj hk hover
  obtain ⟨x', hx', hgx, hmx⟩ := (hj ▸ h j).of_held
  obtain ⟨y', hy', hgy, hmy⟩ := (hk ▸ h k).of_held
  rw [hgx, hgy] at hover
  obtain ⟨hsx, hsy⟩ := ha j k x' y' hjk hx' hy' hover
  exact ⟨hmx hsx, hmy hsy⟩

/-- A record written into one slot keeps the law when it is no lease, or one that is SHARED like every lease it
overlaps. -/
theorem ExclusionLaw.written {k : SlotNo} {r : Record} (ha : ExclusionLaw a)
    (h : ∀ j, b.record j = if j = k then r else a.record j)
    (hr : ∀ y j x, r = .held y → j ≠ k → a.record j = .held x → x.region.overlaps y.region = true →
      x.mode = .shared ∧ y.mode = .shared) : ExclusionLaw b := by
  intro i j x y hij hi hj hover
  rw [h] at hi hj
  split at hi
  next hik =>
    rw [if_neg (fun hjk => hij (hik.trans hjk.symm))] at hj
    rw [Region.overlaps_comm] at hover
    exact (hr x j y hi (fun hjk => hij (hik.trans hjk.symm)) hj hover).symm
  next hik =>
    split at hj
    · exact hr y i x hj hik hi hover
    · exact ha i j x y hij hi hj hover

/-- No lease overlaps a region that no other HELD lease overlaps. -/
theorem Engine.not_overlaps_of_alone {k j : SlotNo} {g : Region} {x : Held} (h : a.otherHolders k g = []) (hj : j ≠ k)
    (hx : a.record j = .held x) : x.region.overlaps g = false := by
  by_contra hover
  rw [Bool.not_eq_false] at hover
  have hmem : j ∈ a.otherHolders k g := Engine.mem_otherHolders.mpr ⟨hj, by rw [hx]; rfl, by rw [hx]; exact hover⟩
  rw [h] at hmem
  cases hmem

/-- A lease that blocks no claim of mode `m` on a region that it overlaps is SHARED, and so is the claim. -/
theorem Record.shared_of_not_blocks {x : Held} {g : Region} {m : Mode} (h : (Record.held x).blocks g m = false)
    (hover : x.region.overlaps g = true) : x.mode = .shared ∧ m = .shared := by
  rw [Record.blocks_held, Bool.eq_false_iff, Ne, conflicts_iff, Region.overlaps_comm] at h
  cases m <;> cases hm : x.mode <;> simp_all

/-- A waiter that is not held back is blocked by no HELD lease. -/
theorem Engine.not_blocks_of_not_heldBack {passed : List SlotNo} {w : Waiting} {j : SlotNo} {x : Held}
    (h : a.heldBack passed w = false) (hx : a.record j = .held x) :
    (Record.held x).blocks w.region w.mode = false := by
  simp only [Engine.heldBack, Bool.or_eq_false_iff, List.any_eq_false, Bool.and_eq_true, not_and,
    Bool.not_eq_true] at h
  have := h.1 j (mem_allSlots j)
  rw [hx] at this
  exact this rfl

theorem ExclusionLaw.conversion {k : SlotNo} {m : Out} (ha : ExclusionLaw a) (h : a.grantConversion k = some (b, m)) :
    ExclusionLaw b := by
  unfold Engine.grantConversion at h
  split at h
  next x hx =>
    split at h
    next c hc =>
      split at h
      next halone =>
        obtain ⟨rfl, -⟩ := Prod.mk.inj (Option.some.inj h)
        refine ha.written (k := k) (fun j => Engine.record_setRecord ..) fun y j z hy hj hz hover => ?_
        cases hy
        rw [Engine.not_overlaps_of_alone halone hj hz] at hover
        cases hover
      · cases h
    · cases h
  · cases h

theorem ExclusionLaw.waiter {passed : List SlotNo} {k : SlotNo} {m : Out} (ha : ExclusionLaw a)
    (h : a.grantWaiter passed k = some (b, m)) : ExclusionLaw b := by
  unfold Engine.grantWaiter at h
  split at h
  next w hw =>
    split at h
    · cases h
    next hback =>
      obtain ⟨rfl, -⟩ := Prod.mk.inj (Option.some.inj h)
      refine ha.written (k := k) (fun j => Engine.record_setRecord ..) fun y j z hy hj hz hover => ?_
      cases hy
      exact Record.shared_of_not_blocks (Engine.not_blocks_of_not_heldBack (by simpa using hback) hz) hover
  · cases h

theorem ExclusionLaw.moved (ha : ExclusionLaw a) (h : TableMove a b) : ExclusionLaw b := by
  induction h with
  | eased h _ => exact ha.eased h
  | conversion h => exact ha.conversion h
  | waiter h => exact ha.waiter h
  | trans _ _ ihab ihbc => exact ihbc (ihab ha)

/-- A record that an edit writes is no lease, a lease on the region and in the mode of one that stood in its slot, or one
that no other lease blocks. -/
theorem ExclusionLaw.writtenByEdit {k : SlotNo} {r : Record} (ha : ExclusionLaw a) (hr : Written a k r)
    (h : ∀ j, b.record j = if j = k then r else a.record j) : ExclusionLaw b := by
  refine ha.written h fun y j z hy hj hz hover => ?_
  cases hr with
  | grant c d _ _ _ _ clear =>
    cases hy
    exact Record.shared_of_not_blocks (hz ▸ clear j) hover
  | queue => cases hy
  | renew p x stated stored n held _ => cases hy; exact ha j k z x hj hz held hover
  | convert x held clear =>
    cases hy
    rw [Engine.not_overlaps_of_alone clear hj hz] at hover
    cases hover
  | pend x t limit held _ => cases hy; exact ha j k z x hj hz held hover

theorem ExclusionLaw.edited (ha : ExclusionLaw a) (h : Edit a b) : ExclusionLaw b := by
  rcases h.records with ⟨n, hm⟩ | ⟨k, r, hw, -, hr⟩
  · exact .moved (a := a.advance n) (.congr (a := a) (fun _ => rfl) ha) hm
  · exact ha.writtenByEdit hw hr

theorem ExclusionLaw.reset : ExclusionLaw .reset := by
  intro j k x y _ hx
  rw [Engine.record_reset] at hx
  cases hx

end

/-- Settles O53: parts of an event that grant nothing keep a lease's region and never take SHARED from it; a grant, a
conversion and an immediate claim are made only where no other lease stands in the way. -/
theorem stepsKeepOverlappingLeasesShared : Obligations.StepsKeepOverlappingLeasesShared := by
  intro s s' hlaw hstep
  refine step_keeps (P := fun s => ExclusionLaw s.engine) (fun _ _ h => h) (fun s s' hmove hs => ?_) hlaw hstep
  exact hmove.keeps (fun _ _ same ha => ha.congr same.records) .reset (fun m hedit => hs.edited hedit) hs

end Sys2Proof.Machine

/-! ## Sound records and nothing due: the laws of R1, R10, R11 and R95 -/

namespace Sys2Proof.Machine

/-! ### The two laws, record by record -/

/-- The term of a lease is timed with a duration, or pinned without the warned mark (R10, R11). -/
def Held.TermSound (x : Held) : Prop := (∀ d n, x.term = .timed d n → d ≠ 0) ∧ (x.term = .pinned → x.warned = false)

/-- `RecordLaw` for one record. -/
def Record.Sound (r : Record) : Prop :=
  (∀ c, r.common = some c → c.region.valid = true) ∧ ∀ x, r = .held x → x.TermSound

theorem Record.sound_held {x : Held} : (Record.held x).Sound ↔ x.region.valid = true ∧ x.TermSound :=
  ⟨fun h => ⟨h.1 x.toCommon rfl, h.2 x rfl⟩, fun h => ⟨fun _ hc => by cases hc; exact h.1, fun _ hy => by cases hy; exact h.2⟩⟩

theorem Record.Sound.rewritten {x y : Held} (h : (Record.held x).Sound) (region : y.region = x.region)
    (term : y.term = x.term) (warned : y.warned = x.warned) : (Record.held y).Sound := by
  rw [Record.sound_held, Held.TermSound] at h ⊢
  rwa [region, term, warned]

theorem recordLaw_iff {e : Engine} : RecordLaw e ↔ ∀ k, (e.record k).Sound := by
  constructor
  · rintro ⟨hregion, htimed, hpinned⟩ k
    exact ⟨hregion k, fun x hx => ⟨fun d n => htimed k x d n hx, hpinned k x hx⟩⟩
  · intro h
    exact ⟨fun k => (h k).1, fun k x d n hx => ((h k).2 x hx).1 d n, fun k x hx => ((h k).2 x hx).2⟩

/-- Whether a lease, a waiting claim or a pending conversion is due at the tick `n`. -/
def Record.due (r : Record) (n : Tick) : Bool := r.leaseDue n || r.waitDue n || r.convDue n

/-- No record is due at the settled tick. -/
def Engine.NoneDue (e : Engine) : Prop := ∀ k, (e.record k).due e.settled = false

theorem nothingDue_iff {e : Engine} : NothingDue e ↔ (e.freeze = none → e.NoneDue) := by
  simp [NothingDue, Engine.NoneDue, Record.due, and_assoc]

/-! ### What is written with a deadline from the settled tick (R89) -/

/-- A deadline that lies a 16-bit number of ticks ahead is not due. -/
theorem not_isDue_deadlineFrom {n : Tick} {d : Half} (h : d ≠ 0) : isDue (deadlineFrom n d) n = false := by
  have hd : d.toNat ≠ 0 := fun hz => h (BitVec.eq_of_toNat_eq hz)
  have hsum : n + d.setWidth 32 - n = d.setWidth 32 := by rw [BitVec.add_comm, BitVec.add_sub_cancel]
  simp only [isDue, remaining, deadlineFrom, hsum, decide_eq_false_iff_not, Int.not_le]
  rw [BitVec.toInt_eq_toNat_of_lt (by simp; omega)]
  simp
  omega

theorem not_waitIsDue_waitDeadlineFrom {n : Tick} {limit : Half} (h : limit ≠ 0) :
    waitIsDue (waitDeadlineFrom n limit) n = false := by
  unfold waitDeadlineFrom
  split
  · rfl
  · exact not_isDue_deadlineFrom h

theorem Term.start_zero (n : Tick) : Term.start n 0 = .pinned := if_pos rfl

theorem Term.start_of_ne (n : Tick) {d : Half} (h : d ≠ 0) : Term.start n d = .timed d (deadlineFrom n d) := if_neg h

/-- A lease granted now is sound: it is pinned for the duration field 0, without the warned mark. -/
theorem Engine.grantedHeld_termSound (e : Engine) (c : Common) (d : Half) : (e.grantedHeld c d).TermSound := by
  by_cases hd : d = 0
  · subst hd
    exact ⟨fun d n hd => (nomatch (Term.start_zero e.settled).symm.trans hd), fun _ => rfl⟩
  · have hterm : (e.grantedHeld c d).term = .timed d (deadlineFrom e.settled d) := Term.start_of_ne _ hd
    exact ⟨fun d' n h => by cases hterm.symm.trans h; exact hd, fun h => nomatch hterm.symm.trans h⟩

/-- A lease without a pending conversion is due by its deadline alone. -/
theorem Record.due_held_of_single {x : Held} (h : x.conv = none) (n : Tick) :
    (Record.held x).due n = (Record.held x).leaseDue n := by
  simp [Record.due, Record.waitDue, Record.convDue, Record.conv, h]

theorem Record.leaseDue_of_pinned {x : Held} (h : x.term = .pinned) (n : Tick) : (Record.held x).leaseDue n = false := by
  simp [Record.leaseDue, h]

theorem Record.leaseDue_of_timed {x : Held} {d : Half} {l : Tick} (h : x.term = .timed d l) (n : Tick) :
    (Record.held x).leaseDue n = isDue l n := by
  simp [Record.leaseDue, h]

theorem Engine.grantedHeld_not_due (e : Engine) (c : Common) (d : Half) :
    (Record.held (e.grantedHeld c d)).due e.settled = false := by
  rw [Record.due_held_of_single rfl]
  by_cases hd : d = 0
  · subst hd
    exact Record.leaseDue_of_pinned (Term.start_zero e.settled) _
  · rw [Record.leaseDue_of_timed (Term.start_of_ne _ hd)]
    exact not_isDue_deadlineFrom hd

/-! ### Changes that grant nothing -/

theorem Record.Eases.sound {r r' : Record} (h : r.Eases r') (hr : r.Sound) : r'.Sound := by
  cases h with
  | same => exact hr
  | freed => exact ⟨nofun, nofun⟩
  | retired _ cause =>
    cases r with
    | held x => exact ⟨hr.1, nofun⟩
    | _ => exact hr
  | unconverted =>
    cases r with
    | held x => exact hr.rewritten rfl rfl rfl
    | _ => exact hr
  | warned x d n timed =>
    obtain ⟨hregion, htimed, -⟩ := Record.sound_held.mp hr
    exact Record.sound_held.mpr ⟨hregion, htimed, fun hpin => nomatch hpin.symm.trans timed⟩
  | unwarned x =>
    obtain ⟨hregion, htimed, -⟩ := Record.sound_held.mp hr
    exact Record.sound_held.mpr ⟨hregion, htimed, fun _ => rfl⟩
  | downgraded x => exact hr.rewritten rfl rfl rfl

theorem Record.Eases.not_due {r r' : Record} (h : r.Eases r') {n : Tick} (hr : r.due n = false) : r'.due n = false := by
  cases h with
  | same => exact hr
  | freed => rfl
  | retired _ cause =>
    cases r with
    | held x => rfl
    | _ => exact hr
  | unconverted =>
    cases r with
    | held x =>
      simp only [Record.due, Bool.or_eq_false_iff] at hr ⊢
      exact ⟨hr.1, rfl⟩
    | _ => exact hr
  | warned => exact hr
  | unwarned => exact hr
  | downgraded => exact hr

/-! ### Single grants -/

section
variable {a b : Engine}

theorem GrantMove.sound {r r' : Record} (h : GrantMove a r r') (hr : r.Sound) : r'.Sound := by
  cases h with
  | same => exact hr
  | converted x c _ => exact hr.rewritten rfl rfl rfl
  | granted w => exact Record.sound_held.mpr ⟨hr.1 w.toCommon rfl, a.grantedHeld_termSound _ _⟩

theorem GrantMove.not_due {r r' : Record} (h : GrantMove a r r') (hr : r.due a.settled = false) :
    r'.due a.settled = false := by
  cases h with
  | same => exact hr
  | converted x c _ =>
    simp only [Record.due, Bool.or_eq_false_iff] at hr ⊢
    exact ⟨hr.1, rfl⟩
  | granted w => exact a.grantedHeld_not_due _ _

theorem TableMove.sound (h : TableMove a b) (ha : ∀ k, (a.record k).Sound) : ∀ k, (b.record k).Sound := by
  induction h with
  | eased h _ => exact fun k => (h k).sound (ha k)
  | conversion h => exact fun k => ((Engine.grantConversion_frame h).record k).sound (ha k)
  | waiter h => exact fun k => ((Engine.grantWaiter_frame h).record k).sound (ha k)
  | trans _ _ ihab ihbc => exact ihbc (ihab ha)

theorem TableMove.settled (h : TableMove a b) : b.settled = a.settled := by
  induction h with
  | eased _ settled => exact settled
  | conversion h => exact (Engine.grantConversion_frame h).settled
  | waiter h => exact (Engine.grantWaiter_frame h).settled
  | trans _ _ ihab ihbc => exact ihbc.trans ihab

theorem TableMove.noneDue (h : TableMove a b) (ha : a.NoneDue) : b.NoneDue := by
  induction h with
  | eased h settled => exact fun k => by rw [settled]; exact (h k).not_due (ha k)
  | conversion h =>
    have hframe := Engine.grantConversion_frame h
    exact fun k => by rw [hframe.settled]; exact (hframe.record k).not_due (ha k)
  | waiter h =>
    have hframe := Engine.grantWaiter_frame h
    exact fun k => by rw [hframe.settled]; exact (hframe.record k).not_due (ha k)
  | trans _ _ ihab ihbc => exact ihbc (ihab ha)

/-- Once what is due has settled, nothing is due (R95). -/
theorem Record.settleDue_not_due (r : Record) (n : Tick) : (r.settleDue n).due n = false := by
  unfold Record.settleDue
  split
  next hlease =>
    cases r with
    | held x => rfl
    | _ => cases hlease
  next hlease =>
    split
    · rfl
    next hwait =>
      split
      next hconv =>
        cases r with
        | held x =>
          have hsingle : (Record.held x).dropConv.due n = (Record.held x).dropConv.leaseDue n :=
            Record.due_held_of_single rfl n
          have hkept : (Record.held x).dropConv.leaseDue n = (Record.held x).leaseDue n := rfl
          rw [hsingle, hkept]
          simpa using hlease
        | _ => cases hconv
      next hconv => simp [Record.due, hlease, hwait, hconv]

theorem Engine.settleDue_noneDue (e : Engine) : e.settleDue.engine.NoneDue := fun k => by
  rw [Engine.record_settleDue, Engine.settleDue_settled]
  exact Record.settleDue_not_due _ _

theorem Engine.settleThaw_noneDue (e : Engine) (start : Tick) : (e.settleThaw start).engine.NoneDue :=
  have hpass : (e.settleDue.engine.thawWarnPart start).grantPass.1.NoneDue :=
    ((TableMove.thawWarnPart _ start).trans (.grantPass _)).noneDue e.settleDue_noneDue
  hpass

/-! ### Records that an edit writes -/

theorem Written.sound {k : SlotNo} {r : Record} (h : Written a k r) (ha : ∀ k, (a.record k).Sound) : r.Sound := by
  have hold := ha k
  cases h with
  | grant c d _ _ valid _ _ => exact Record.sound_held.mpr ⟨valid, a.grantedHeld_termSound c d⟩
  | queue w limit _ _ valid _ _ _ => exact ⟨fun _ hc => by cases hc; exact valid, nofun⟩
  | renew p x stated stored n held timed =>
    rw [held] at hold
    obtain ⟨hregion, htimed, -⟩ := Record.sound_held.mp hold
    have heff : effectiveDuration stated stored ≠ 0 := by
      unfold effectiveDuration
      split
      · exact htimed stored n timed
      · assumption
    exact Record.sound_held.mpr ⟨hregion, fun d m hd => by cases hd; exact heff, nofun⟩
  | convert x held _ =>
    rw [held] at hold
    exact hold.rewritten rfl rfl rfl
  | pend x t limit held _ =>
    rw [held] at hold
    exact hold.rewritten rfl rfl rfl

theorem Written.not_due {k : SlotNo} {r : Record} (h : Written a k r) (hsound : ∀ k, (a.record k).Sound)
    (ha : a.NoneDue) : r.due a.settled = false := by
  have hdue := ha k
  cases h with
  | grant c d _ _ _ _ _ => exact a.grantedHeld_not_due c d
  | queue w limit _ _ _ _ bounded deadline =>
    simp [Record.due, Record.leaseDue, Record.convDue, Record.conv, Record.waitDue, deadline,
      not_waitIsDue_waitDeadlineFrom bounded]
  | renew p x stated stored n held timed =>
    have hwritten := (Written.renew p x stated stored n held timed).sound hsound
    have heff := (Record.sound_held.mp hwritten).2.1 _ _ rfl
    rw [held] at hdue
    simp only [Record.due, Bool.or_eq_false_iff] at hdue ⊢
    exact ⟨⟨(Record.leaseDue_of_timed rfl _).trans (not_isDue_deadlineFrom heff), rfl⟩, hdue.2⟩
  | convert x held _ => rw [held] at hdue; exact hdue
  | pend x t limit held bounded =>
    rw [held] at hdue
    simp only [Record.due, Bool.or_eq_false_iff] at hdue ⊢
    exact ⟨hdue.1, not_waitIsDue_waitDeadlineFrom bounded⟩

/-! ### Every edit -/

theorem RecordLaw.edited (ha : RecordLaw a) (h : Edit a b) : RecordLaw b := by
  rw [recordLaw_iff] at ha ⊢
  rcases h.records with ⟨n, hm⟩ | ⟨k, r, hw, -, hr⟩
  · exact hm.sound (a := a.advance n) ha
  · intro j
    rw [hr]
    split
    · exact hw.sound ha
    · exact ha j

/-- An edit at the same settled tick leaves nothing due where nothing was. -/
theorem Engine.NoneDue.edited (hsound : ∀ k, (a.record k).Sound) (ha : a.NoneDue) (h : Edit a b)
    (settled : b.settled = a.settled) : b.NoneDue := by
  rcases h.records with ⟨n, hm⟩ | ⟨k, r, hw, -, hr⟩
  · have hn : a.advance n = a := by rw [← show b.settled = n from hm.settled, settled]; rfl
    exact (hn ▸ hm).noneDue ha
  · intro j
    rw [hr, settled]
    split
    · exact hw.not_due hsound ha
    · exact ha j

/-- After the end of a session nothing is due, where the table is not frozen: the owner's session end settles what is. -/
theorem Engine.endSession_noneDue (e : Engine) (p : Port) (tell : Bool) (he : e.freeze = none → e.NoneDue)
    (hthawed : (e.endSession p tell).engine.freeze = none) : (e.endSession p tell).engine.NoneDue := by
  change ((e.clearPort p).afterClear p).1.freeze = none at hthawed
  change ((e.clearPort p).afterClear p).1.NoneDue
  have hkept : (e.clearPort p).freeze = e.freeze := rfl
  unfold Engine.afterClear at hthawed ⊢
  split at hthawed
  next f hf =>
    split at hthawed
    next howner => rw [if_pos howner]; exact Engine.settleThaw_noneDue _ _
    · exact nomatch hthawed.symm.trans hf
  next hf => exact ((TableMove.clearPort e p).trans (.grantPass _)).noneDue (he (hkept ▸ hf))

theorem NothingDue.edited (hsound : RecordLaw a) (ha : NothingDue a) (h : Edit a b) : NothingDue b := by
  rw [nothingDue_iff] at ha ⊢
  rw [recordLaw_iff] at hsound
  have hsame (hfreeze : b.freeze = a.freeze) (hsettled : b.settled = a.settled) : b.freeze = none → b.NoneDue :=
    fun hb => (ha (hfreeze ▸ hb)).edited hsound h hsettled
  have hpassed {c : Engine} (hb : b = c.passUnlessFrozen.1) (hfreeze : c.freeze = a.freeze)
      (hsettled : c.settled = a.settled) : b.freeze = none → b.NoneDue := by
    have hframe := Engine.passUnlessFrozen_frame c
    rw [← hb] at hframe
    exact hsame (hframe.freeze.trans hfreeze) (hframe.settled.trans hsettled)
  cases h with
  | thaw f _ => exact fun _ => a.settleThaw_noneDue f.start
  | limitThaw n f _ => exact fun _ => (a.advance n).settleThaw_noneDue f.start
  | tick n _ => exact fun _ => (TableMove.warnPart _).noneDue (Engine.settleDue_noneDue _)
  | tickPass n _ => exact fun _ => ((TableMove.warnPart _).trans (.grantPass _)).noneDue (Engine.settleDue_noneDue _)
  | endSession p tell _ => exact a.endSession_noneDue p tell ha
  | endSessionLost p tell lost => exact a.endSession_noneDue p tell ha
  | freeze p _ _ _ => exact nofun
  | advance n f frozen => exact fun hthawed => nomatch frozen.symm.trans hthawed
  | downgrade | freeThenPass | retireThenPass | dropConvThenPass => exact hpassed rfl rfl rfl
  | _ => exact hsame rfl rfl

theorem RecordLaw.congr (h : ∀ k, b.record k = a.record k) (ha : RecordLaw a) : RecordLaw b := by
  rw [recordLaw_iff] at ha ⊢
  exact fun k => (h k).symm ▸ ha k

theorem NothingDue.congr (h : ∀ k, b.record k = a.record k) (hfreeze : b.freeze = a.freeze)
    (hsettled : b.settled = a.settled) (ha : NothingDue a) : NothingDue b := by
  rw [nothingDue_iff] at ha ⊢
  intro hb k
  rw [h, hsettled]
  exact ha (hfreeze ▸ hb) k

theorem RecordLaw.reset : RecordLaw .reset :=
  recordLaw_iff.mpr fun k => by rw [Engine.record_reset]; exact ⟨nofun, nofun⟩

theorem NothingDue.reset : NothingDue .reset :=
  nothingDue_iff.mpr fun _ k => by rw [Engine.record_reset]; rfl

end

/-- Settles O55: what is written has a duration or wait limit that is not 0, so its deadline lies ahead; what a tick notice
or a thaw settlement finds due has settled before anything is granted. -/
theorem stepsKeepRecordsSoundAndNothingDue : Obligations.StepsKeepRecordsSoundAndNothingDue := by
  intro s s' hlaws hstep
  refine step_keeps (P := fun s => RecordLaw s.engine ∧ NothingDue s.engine) (fun _ _ h => h)
    (fun s s' hmove ⟨hsound, hdue⟩ => ?_) hlaws hstep
  exact hmove.keeps (P := fun e => RecordLaw e ∧ NothingDue e) (fun _ _ same ⟨hs, hd⟩ => ⟨hs.congr same.records, hd.congr same.records same.freeze same.settled⟩)
    ⟨.reset, .reset⟩ (fun m hedit => ⟨hsound.edited hedit, hdue.edited hsound hedit⟩) ⟨hsound, hdue⟩

end Sys2Proof.Machine

/-! ## Sessions, the freeze owner and the lease caps: the laws of R21, R109, R119, R128, R137 and R140 -/

namespace Sys2Proof.Machine

section
variable {a b e : Engine}

/-! ### Who owns the records -/

/-- Every record of `b` is owned by a port that owned the slot's record in `a`. -/
def OwnsLess (a b : Engine) : Prop := ∀ k p, (b.record k).ownedBy p = true → (a.record k).ownedBy p = true

theorem Record.Eases.ownedBy {r r' : Record} (h : r.Eases r') {p : Port} (hp : r'.ownedBy p = true) :
    r.ownedBy p = true := by
  cases h with
  | freed => cases hp
  | retired _ cause => cases r <;> exact hp
  | unconverted => cases r <;> exact hp
  | same | warned | unwarned | downgraded => exact hp

theorem TableMove.ownsLess (h : TableMove a b) : OwnsLess a b := by
  induction h with
  | eased h _ => exact fun k p => (h k).ownedBy
  | conversion h => exact fun k p => by rw [((Engine.grantConversion_frame h).record k).ownedBy p]; exact id
  | waiter h => exact fun k p => by rw [((Engine.grantWaiter_frame h).record k).ownedBy p]; exact id
  | trans _ _ ihab ihbc => exact fun k p hp => ihab k p (ihbc k p hp)

theorem Engine.ownedCount_eq_countP (e : Engine) (p : Port) :
    e.ownedCount p = allSlots.countP fun k => (e.record k).ownedBy p := by
  rw [Engine.ownedCount, Engine.countSlots, List.countP_eq_length_filter]

theorem OwnsLess.ownedCount_le (h : OwnsLess a b) (p : Port) : b.ownedCount p ≤ a.ownedCount p := by
  rw [Engine.ownedCount_eq_countP, Engine.ownedCount_eq_countP]
  exact List.countP_mono_left fun k _ => h k p

/-- A record written into one slot adds at most itself to its holder's count. -/
theorem Engine.ownedCount_written {k : SlotNo} {r : Record} (h : ∀ j, b.record j = if j = k then r else a.record j)
    (p : Port) : b.ownedCount p ≤ a.ownedCount p + if r.ownedBy p = true then 1 else 0 := by
  rw [Engine.ownedCount_eq_countP, Engine.ownedCount_eq_countP,
    ← countP_split (m := fun j => j == k && (b.record j).ownedBy p) fun j hj => (Bool.and_eq_true _ _ ▸ hj).2,
    countP_slot k fun j => (b.record j).ownedBy p]
  have hk : b.record k = r := by rw [h, if_pos rfl]
  rw [hk]
  refine Nat.add_le_add_right (List.countP_mono_left fun j _ hj => ?_) _
  rw [h] at hj
  split at hj
  next hjk => simp [hjk] at hj
  next hjk => simpa [hjk, h] using hj

/-! ### The end of a session -/

theorem Engine.settleThaw_sessions (e : Engine) (start : Tick) : (e.settleThaw start).engine.sessions = e.sessions :=
  (Engine.grantPass_frame _).sessions

theorem Engine.settleThaw_limits (e : Engine) (start : Tick) : (e.settleThaw start).engine.limits = e.limits :=
  (Engine.grantPass_frame _).limits

theorem Engine.afterClear_sessions (e : Engine) (p : Port) : (e.afterClear p).1.sessions = e.sessions := by
  unfold Engine.afterClear
  split
  · split
    · exact e.settleThaw_sessions _
    · rfl
  · exact e.grantPass_frame.sessions

theorem Engine.afterClear_limits (e : Engine) (p : Port) : (e.afterClear p).1.limits = e.limits := by
  unfold Engine.afterClear
  split
  · split
    · exact e.settleThaw_limits _
    · rfl
  · exact e.grantPass_frame.limits

/-- The freeze ends with its owner's session and stays with every other. -/
theorem Engine.afterClear_freeze (e : Engine) (p : Port) :
    (e.afterClear p).1.freeze = if e.freeze.any (fun f => f.owner == p) then none else e.freeze := by
  unfold Engine.afterClear
  split
  next f hf =>
    by_cases howner : f.owner = p
    · rw [if_pos howner]
      simp [hf, howner, Engine.settleThaw]
    · rw [if_neg howner]
      simp [hf, howner]
  next hf =>
    rw [show e.grantPass.1.freeze = e.freeze from e.grantPass_frame.freeze]
    simp [hf]

theorem Engine.endSession_sessions (e : Engine) (p : Port) (tell : Bool) :
    (e.endSession p tell).engine.sessions = put e.sessions p (e.session p).ended :=
  (e.clearPort p).afterClear_sessions p

theorem Engine.endSession_limits (e : Engine) (p : Port) (tell : Bool) :
    (e.endSession p tell).engine.limits = e.limits :=
  (e.clearPort p).afterClear_limits p

theorem Engine.endSession_freeze (e : Engine) (p : Port) (tell : Bool) :
    (e.endSession p tell).engine.freeze = if e.freeze.any (fun f => f.owner == p) then none else e.freeze :=
  (e.clearPort p).afterClear_freeze p

theorem Engine.endSession_session (e : Engine) (p q : Port) (tell : Bool) :
    (e.endSession p tell).engine.session q = if q = p then (e.session p).ended else e.session q := by
  rw [Engine.session, Engine.endSession_sessions, pick_put]
  rfl

/-- After its session end a port owns nothing. -/
theorem Engine.endSession_owns_nothing (e : Engine) (p : Port) (tell : Bool) (k : SlotNo) :
    ((e.endSession p tell).engine.record k).ownedBy p = false := by
  by_contra h
  rw [Bool.not_eq_false] at h
  have hcleared : ((e.clearPort p).record k).ownedBy p = true := (TableMove.afterClear (e.clearPort p) p).ownsLess k p h
  rw [Engine.record_clearPort] at hcleared
  split at hcleared
  · cases hcleared
  next hp => exact hp hcleared

/-! ### The three laws together -/

/-- The laws of sessions, of the freeze owner and of the lease caps. -/
structure PortLaws (e : Engine) : Prop where
  session : SessionLaw e
  freeze  : FreezeLaw e
  cap     : CapLaw e

/-- Where records only lose their owners, sessions and limits stay, and the freeze stays or ends. -/
theorem PortLaws.of_ownsLess (ha : PortLaws a) (hless : OwnsLess a b) (hsessions : b.sessions = a.sessions)
    (hlimits : b.limits = a.limits) (hfreeze : b.freeze = a.freeze ∨ b.freeze = none) : PortLaws b where
  session p := by
    rw [show b.session p = a.session p by rw [Engine.session, hsessions]; rfl]
    refine ⟨fun hclosed => ?_, (ha.session p).2⟩
    obtain ⟨hcursor, hnone⟩ := (ha.session p).1 hclosed
    refine ⟨hcursor, fun k => ?_⟩
    by_contra hk
    rw [Bool.not_eq_false] at hk
    exact absurd (hless k p hk) (by simp [hnone k])
  freeze f hf := by
    rw [show b.session f.owner = a.session f.owner by rw [Engine.session, hsessions]; rfl]
    rcases hfreeze with hfreeze | hfreeze
    · exact ha.freeze f (hfreeze ▸ hf)
    · rw [hfreeze] at hf
      cases hf
  cap p := by
    rw [show b.limitsOf p = a.limitsOf p by rw [Engine.limitsOf, hlimits]; rfl]
    exact ⟨(hless.ownedCount_le p).trans (ha.cap p).1, (ha.cap p).2⟩

/-- A pass over a table that meets the laws. -/
theorem PortLaws.passed {c : Engine} (ha : PortLaws a) (hm : TableMove a c) (hsessions : c.sessions = a.sessions)
    (hlimits : c.limits = a.limits) (hfreeze : c.freeze = a.freeze) : PortLaws c.passUnlessFrozen.1 :=
  have hframe := Engine.passUnlessFrozen_frame c
  ha.of_ownsLess (hm.trans (.passUnlessFrozen c)).ownsLess (hframe.sessions.trans hsessions)
    (hframe.limits.trans hlimits) (.inl (hframe.freeze.trans hfreeze))

/-- One record is written for a port with an open session, below its cap where the slot was FREE. -/
theorem PortLaws.of_written {k : SlotNo} {r : Record} (ha : PortLaws a) (hsessions : b.sessions = a.sessions)
    (hlimits : b.limits = a.limits) (hfreeze : b.freeze = a.freeze)
    (hrecord : ∀ j, b.record j = if j = k then r else a.record j)
    (hr : ∀ p, r.ownedBy p = true → (a.session p).isOpen = true ∧ a.ownedCount p < (a.limitsOf p).leaseCap.toNat) :
    PortLaws b where
  session p := by
    rw [show b.session p = a.session p by rw [Engine.session, hsessions]; rfl]
    refine ⟨fun hclosed => ⟨((ha.session p).1 hclosed).1, fun j => ?_⟩, (ha.session p).2⟩
    rw [hrecord]
    split
    · by_contra hp
      rw [Bool.not_eq_false] at hp
      exact absurd (hr p hp).1 (by simp [hclosed])
    · exact ((ha.session p).1 hclosed).2 j
  freeze f hf := by
    rw [show b.session f.owner = a.session f.owner by rw [Engine.session, hsessions]; rfl]
    exact ha.freeze f (hfreeze ▸ hf)
  cap p := by
    rw [show b.limitsOf p = a.limitsOf p by rw [Engine.limitsOf, hlimits]; rfl]
    refine ⟨(Engine.ownedCount_written hrecord p).trans ?_, (ha.cap p).2⟩
    split
    next hp => exact (hr p hp).2
    · exact (ha.cap p).1

/-- A session is written, with the laws of its entry, and nothing else. -/
theorem PortLaws.setSession {p : Port} {x : Session} (ha : PortLaws a) (hsession : x.isOpen = true ∧ x.lost = false)
    (hright : x.supervisor = (a.session p).supervisor) : PortLaws (a.setSession p x) where
  session q := by
    rw [Engine.session_setSession]
    split
    next hq =>
      exact ⟨fun hclosed => (nomatch hsession.1.symm.trans hclosed), fun hlost => (nomatch hsession.2.symm.trans hlost)⟩
    · exact ha.session q
  freeze f hf := by
    rw [Engine.session_setSession]
    obtain ⟨hopen, hsup⟩ := ha.freeze f hf
    split
    next howner => exact ⟨hsession.1, hright.trans (howner ▸ hsup)⟩
    · exact ⟨hopen, hsup⟩
  cap := ha.cap

/-- The laws after a session end, whatever it leaves in SESSION_LOST. -/
theorem PortLaws.endSession {p : Port} {tell : Bool} {x : Session} (ha : PortLaws a) (hclosed : x.isOpen = false)
    (hcursor : x.cursor = none) : PortLaws ((a.endSession p tell).engine.setSession p x) := by
  have hless : OwnsLess a (a.endSession p tell).engine := (TableMove.endSession a p tell).ownsLess
  have hother {q : Port} (hq : q ≠ p) :
      ((a.endSession p tell).engine.setSession p x).session q = a.session q := by
    rw [Engine.session_setSession_ne _ _ hq, Engine.endSession_session, if_neg hq]
  refine ⟨fun q => ?session, fun f hf => ?freeze, fun q => ?cap⟩
  case session =>
    by_cases hq : q = p
    · subst hq
      rw [Engine.session_setSession_self]
      exact ⟨fun _ => ⟨hcursor, fun k => a.endSession_owns_nothing q tell k⟩, fun _ => hclosed⟩
    · rw [hother hq]
      refine ⟨fun hclosed => ⟨((ha.session q).1 hclosed).1, fun k => ?_⟩, (ha.session q).2⟩
      by_contra hk
      rw [Bool.not_eq_false] at hk
      exact absurd (hless k q hk) (by simp [((ha.session q).1 hclosed).2 k])
  case freeze =>
    have hfreeze : (a.endSession p tell).engine.freeze = some f := hf
    rw [Engine.endSession_freeze] at hfreeze
    split at hfreeze
    · cases hfreeze
    next howner =>
      rw [hother (by simpa [hfreeze] using howner)]
      exact ha.freeze f hfreeze
  case cap =>
    have hlimits : ((a.endSession p tell).engine.setSession p x).limitsOf q = a.limitsOf q := by
      rw [Engine.limitsOf, Engine.setSession_limits, Engine.endSession_limits]
      rfl
    rw [hlimits]
    exact ⟨(hless.ownedCount_le q).trans (ha.cap q).1, (ha.cap q).2⟩

/-- Writing a session entry as it stands changes nothing. -/
theorem Engine.setSession_same (e : Engine) (p : Port) : e.setSession p (e.session p) = e := by
  have hsessions : put e.sessions p (e.session p) = e.sessions := table_ext fun q => by
    rw [pick_put]
    split
    next hq => rw [hq]; rfl
    · rfl
  rw [Engine.setSession, hsessions]

/-- The holder of a record that an edit writes has an open session, and room below its cap where the slot was FREE. -/
theorem PortLaws.writtenByEdit {k : SlotNo} {r : Record} (ha : PortLaws a) (hr : Written a k r)
    (hsessions : b.sessions = a.sessions) (hlimits : b.limits = a.limits) (hfreeze : b.freeze = a.freeze)
    (h : ∀ j, b.record j = if j = k then r else a.record j) : PortLaws b := by
  have hkept {x y : Held} (held : a.record k = .held x) (hy : r = .held y) (hholder : y.holder = x.holder) :
      PortLaws b := by
    refine ha.of_ownsLess (fun j p hp => ?_) hsessions hlimits (.inl hfreeze)
    rw [h] at hp
    split at hp
    next hj =>
      rw [hj, held]
      rw [hy] at hp
      simpa [Record.ownedBy, Record.common, hholder] using hp
    · exact hp
  cases hr with
  | grant c d _ isOpen _ cap _ =>
    refine ha.of_written hsessions hlimits hfreeze h fun p hp => ?_
    obtain rfl : c.holder = p := by simpa [Record.ownedBy, Record.common, Engine.grantedHeld] using hp
    exact ⟨isOpen, cap⟩
  | queue w limit _ isOpen _ cap _ _ =>
    refine ha.of_written hsessions hlimits hfreeze h fun p hp => ?_
    obtain rfl : w.holder = p := by simpa [Record.ownedBy, Record.common] using hp
    exact ⟨isOpen, cap⟩
  | renew p x stated stored n held _ => exact hkept held rfl rfl
  | convert x held _ => exact hkept held rfl rfl
  | pend x t limit held _ => exact hkept held rfl rfl

theorem PortLaws.edited (ha : PortLaws a) (h : Edit a b) : PortLaws b := by
  have hkeeps {c : Engine} (hm : TableMove a c) (hs : c.sessions = a.sessions) (hl : c.limits = a.limits)
      (hf : c.freeze = a.freeze ∨ c.freeze = none) : PortLaws c := ha.of_ownsLess hm.ownsLess hs hl hf
  -- An event at a tick begins from the same records, sessions, limits and freeze at another settled tick.
  have hadvance (n : Tick) : PortLaws (a.advance n) := ⟨ha.session, ha.freeze, ha.cap⟩
  cases h with
  | same => exact ha
  | clock c => exact ⟨ha.session, ha.freeze, ha.cap⟩
  | advance n f _ => exact hadvance n
  | opened p margin mask _ => exact ha.setSession ⟨rfl, rfl⟩ rfl
  | cursor p c isOpen =>
    refine ha.setSession ⟨isOpen, ?_⟩ rfl
    by_contra hlost
    rw [Bool.not_eq_false] at hlost
    exact nomatch isOpen.symm.trans ((ha.session p).2 hlost)
  | limits q l owned low high duration =>
    refine ⟨ha.session, ha.freeze, fun p => ?_⟩
    change a.ownedCount p ≤ (pick (put a.limits q l) p).leaseCap.toNat ∧ _
    rw [Engine.limitsOf, Engine.setLimits, pick_put]
    split
    next hp => exact ⟨hp ▸ owned, low, high, duration⟩
    · exact ha.cap p
  | freeze p isOpen right _ => exact ⟨ha.session, fun f hf => by cases hf; exact ⟨isOpen, right⟩, ha.cap⟩
  | grant k c d free isOpen valid cap clear =>
    exact ha.writtenByEdit (.grant c d free isOpen valid cap clear) rfl rfl rfl fun j => Engine.record_enter ..
  | queue k w limit free isOpen valid cap bounded deadline =>
    exact ha.writtenByEdit (.queue w limit free isOpen valid cap bounded deadline) rfl rfl rfl
      fun j => Engine.record_enter ..
  | renew p k x stated stored n held timed =>
    exact ha.writtenByEdit (.renew p x stated stored n held timed) rfl rfl rfl fun j => Engine.record_setRecord ..
  | convert k x held _ _ clear =>
    exact ha.writtenByEdit (.convert x held clear) rfl rfl rfl fun j => Engine.record_setRecord ..
  | pend k x t limit held _ _ _ bounded =>
    exact ha.writtenByEdit (.pend x t limit held bounded) rfl rfl rfl fun j => Engine.record_setRecord ..
  | acknowledge k x held _ =>
    exact hkeeps (.setRecord (by rw [held]; exact .unwarned x)) rfl rfl (.inl rfl)
  | downgrade k x held _ => exact ha.passed (.setRecord (by rw [held]; exact .downgraded x)) rfl rfl rfl
  | freeRetired k x _ => exact hkeeps (.freeWhere a _) rfl rfl (.inl rfl)
  | freeThenPass k _ => exact ha.passed (.freeWhere a _) rfl rfl rfl
  | retireThenPass which _ => exact ha.passed (.retireWhere a _ _) rfl rfl rfl
  | retireNone which _ => exact hkeeps (.retireWhere a _ _) rfl rfl (.inl rfl)
  | dropConvThenPass k _ => exact ha.passed (.dropConvWhere a _) rfl rfl rfl
  | thaw f _ => exact hkeeps (.settleThaw a _) (a.settleThaw_sessions _) (a.settleThaw_limits _) (.inr rfl)
  | endSession p tell _ =>
    rw [← Engine.setSession_same (a.endSession p tell).engine p]
    exact ha.endSession (by rw [Engine.endSession_session, if_pos rfl]; rfl)
      (by rw [Engine.endSession_session, if_pos rfl]; rfl)
  | endSessionLost p tell lost =>
    exact ha.endSession (by rw [Engine.endSession_session, if_pos rfl]; rfl)
      (by rw [Engine.endSession_session, if_pos rfl]; rfl)
  | tick n _ =>
    exact (hadvance n).of_ownsLess ((TableMove.settleDue _).trans (.warnPart _)).ownsLess rfl rfl (.inl rfl)
  | tickPass n _ =>
    have hframe := (a.advance n).settleDue.engine.warnPart.grantPass_frame
    exact (hadvance n).of_ownsLess (((TableMove.settleDue _).trans (.warnPart _)).trans (.grantPass _)).ownsLess
      hframe.sessions hframe.limits (.inl hframe.freeze)
  | limitThaw n f _ =>
    exact (hadvance n).of_ownsLess (TableMove.settleThaw _ _).ownsLess (Engine.settleThaw_sessions _ _)
      (Engine.settleThaw_limits _ _) (.inr rfl)

/-- The end of an event changes neither records nor sessions, limits and freeze. -/
theorem PortLaws.closed (ha : PortLaws a) : PortLaws (e.closeEvent a) :=
  ha.of_ownsLess (fun k p hp => by rwa [Engine.record_closeEvent] at hp) (by simp) (by simp) (.inl (by simp))

theorem PortLaws.next (ha : PortLaws a) (h : EngineNext a b) : PortLaws b := by
  cases h with
  | plain _ h => exact ha.edited h
  | closed m h => exact (ha.edited h).closed
  | closedClock m h c => exact ⟨(ha.edited h).closed.session, (ha.edited h).closed.freeze, (ha.edited h).closed.cap⟩

theorem Engine.reset_ownedCount (p : Port) : Engine.reset.ownedCount p = 0 := by
  simp [Engine.ownedCount, Engine.countSlots, Engine.record_reset, Record.ownedBy, Record.common]

theorem PortLaws.reset : PortLaws .reset where
  session p := by
    rw [show Engine.reset.session p = .reset false from pick_tab ..]
    exact ⟨fun _ => ⟨rfl, fun k => by rw [Engine.record_reset]; rfl⟩, nofun⟩
  freeze := nofun
  cap p := by
    rw [Engine.reset_ownedCount, show Engine.reset.limitsOf p = .reset false from pick_tab ..]
    decide

/-- The straps write supervisor right and may-pin only; nothing is frozen then. -/
theorem PortLaws.atRelease (ha : PortLaws a) (hfreeze : a.freeze = none) (straps : PinLevels) :
    PortLaws (a.atRelease straps) where
  session p := by
    rw [show (a.atRelease straps).session p = { a.session p with supervisor := pick straps p } from pick_tab ..]
    exact ha.session p
  freeze f hf := nomatch hfreeze.symm.trans hf
  cap p := by
    rw [show (a.atRelease straps).limitsOf p = { a.limitsOf p with mayPin := pick straps p } from pick_tab ..]
    exact ha.cap p

end

/-- While RESETn is low only device reset changes the freeze. -/
theorem ResetLaw.moved {s s' : State} (h : Move s s') (hs : ResetLaw s) : ResetLaw s' := by
  intro hlow
  cases h with
  | deviceReset => rfl
  | none | selectLevel => exact hs hlow
  | release => cases hlow
  | edge _ running | tick _ _ running | take _ _ _ running | clockAnswer _ _ _ _ _ running | arbiter _ _ _ running
  | trim _ running | readClock running | message _ _ _ _ running | link _ _ _ running =>
    exact nomatch running.symm.trans hlow

/-- Settles O56: records change owner only by a claim that its port's cap and open session admit, a session that closes
leaves its port nothing, and the freeze goes with its owner's session. -/
theorem stepsKeepSessionsFreezeAndCaps : Obligations.StepsKeepSessionsFreezeAndCaps := by
  intro s s' ⟨hsession, hfreeze, hcap, hreset⟩ hstep
  have hkept : PortLaws s'.engine ∧ ResetLaw s' := by
    refine step_keeps (P := fun s => PortLaws s.engine ∧ ResetLaw s) (fun _ _ h => h)
      (fun s s' hmove ⟨hlaws, hlow⟩ => ⟨?_, hlow.moved hmove⟩) ⟨⟨hsession, hfreeze, hcap⟩, hreset⟩ hstep
    rcases hmove.engine with hreset | ⟨hrl, straps, hrelease⟩ | hnext
    · rw [hreset]; exact .reset
    · rw [hrelease]; exact hlaws.atRelease (hlow hrl) straps
    · exact hlaws.next hnext
  exact ⟨hkept.1.session, hkept.1.freeze, hkept.1.cap, hkept.2⟩

end Sys2Proof.Machine

/-! ## What an event of the engine reports: notices of marked counts, sessions and the freeze (R99, R121, R140) -/

namespace Sys2Proof.Machine

/-! ### The last value on a path -/

section
variable {α : Type} {f : EngineMsg → Option α}

theorem lastOr_append (path more : List EngineMsg) (held : α) :
    lastOr f (path ++ more) held = lastOr f more (lastOr f path held) := by
  simp only [lastOr, List.filterMap_append, List.getLast?_append]
  cases (more.filterMap f).getLast? <;> rfl

theorem lastOr_cons (m : EngineMsg) (path : List EngineMsg) (held : α) :
    lastOr f (m :: path) held = lastOr f path ((f m).getD held) := by
  rw [← List.singleton_append, lastOr_append]
  cases h : f m <;> simp [lastOr, h]

@[simp] theorem lastOr_nil (held : α) : lastOr f [] held = held := rfl

theorem lastOr_of_mute {path : List EngineMsg} (h : ∀ m ∈ path, f m = none) (held : α) : lastOr f path held = held := by
  rw [lastOr, List.filterMap_eq_nil_iff.mpr h]
  rfl

end

/-- Messages that carry no marked count, session notice or freeze notice. -/
def Silent (out : List Out) : Prop :=
  ∀ m ∈ out, m.2.markedOf = none ∧ m.2.sessionOf = none ∧ m.2.freezeOf = none

theorem Silent.nil : Silent [] := fun _ h => by cases h

theorem Silent.append {o o' : List Out} (h : Silent o) (h' : Silent o') : Silent (o ++ o') := fun m hm =>
  (List.mem_append.mp hm).elim (h m) (h' m)

theorem Silent.single {m : Out} (h : m.2.markedOf = none ∧ m.2.sessionOf = none ∧ m.2.freezeOf = none) : Silent [m] :=
  fun _ hm => List.mem_singleton.mp hm ▸ h

theorem Silent.answerTo (p : Port) (t : Tag) (o : ResultCode) (x : Payload) : Silent [answerTo p t o x] :=
  .single ⟨rfl, rfl, rfl⟩

theorem Completions.silent {o : List Out} (h : Completions o) : Silent o := fun m hm => by
  obtain ⟨t, d, hd⟩ := h m hm
  rw [hd]
  exact ⟨rfl, rfl, rfl⟩

theorem mem_outFor {p : Port} {out : List Out} {m : EngineMsg} (h : m ∈ outFor p out) : (p, m) ∈ out := by
  obtain ⟨x, hx, hm⟩ := List.mem_filterMap.mp h
  split at hm
  next hp => cases hm; subst hp; exact hx
  · cases hm

/-- Where a list without repeats is searched for one entry, at most that entry answers. -/
theorem filterMap_only {α β : Type} [DecidableEq α] {l : List α} (h : l.Nodup) {p : α} (hp : p ∈ l) (g : α → Option β) :
    (l.filterMap fun q => if q = p then g q else none) = (g p).toList := by
  obtain ⟨before, after, rfl⟩ := List.append_of_mem hp
  have hother : ∀ q ∈ before ++ after, q ≠ p := fun q hq hqp => (List.nodup_middle.mp h).notMem (hqp ▸ hq)
  have hnone (side : List α) (hside : ∀ q ∈ side, q ≠ p) :
      (side.filterMap fun q => if q = p then g q else none) = [] :=
    List.filterMap_eq_nil_iff.mpr fun q hq => if_neg (hside q hq)
  rw [List.filterMap_append, hnone before fun q hq => hother q (List.mem_append_left _ hq), List.nil_append,
    List.filterMap_cons, if_pos rfl, hnone after fun q hq => hother q (List.mem_append_right _ hq)]
  cases g p <;> rfl

/-- What one message to each of some ports puts on the path of port `p`. -/
theorem outFor_allPorts (p : Port) (g : Port → Option EngineMsg) :
    outFor p (allPorts.filterMap fun q => (g q).map fun m => (q, m)) = (g p).toList := by
  rw [outFor, List.filterMap_filterMap, ← filterMap_only (List.nodup_finRange 4) (mem_allPorts p) g]
  refine List.filterMap_congr fun q _ => ?_
  cases g q with
  | none => simp
  | some m => rfl

theorem outFor_countNotices (a b : Engine) (p : Port) :
    outFor p (countNotices a b) = if b.markedCount p = a.markedCount p then [] else [.marked (b.markedCount p)] := by
  have hnotices : countNotices a b = allPorts.filterMap fun q =>
      (if b.markedCount q = a.markedCount q then none else some (EngineMsg.marked (b.markedCount q))).map
        fun m => (q, m) :=
    List.filterMap_congr fun q _ => by split <;> rfl
  rw [hnotices, outFor_allPorts]
  split <;> rfl

/-- The flags that a freeze notice to port `p` carries. -/
def Engine.shownFreeze (e : Engine) (p : Port) : Bool × Bool := (e.isFrozen, e.freeze.any fun f => f.owner == p)

/-- The values that a session notice to port `p` carries. -/
def Engine.shownSession (e : Engine) (p : Port) : Bool × AttnMask × Bool :=
  ((e.session p).isOpen, (e.session p).mask, (e.session p).lost)

theorem outFor_freezeNotices (e : Engine) (p : Port) :
    outFor p e.freezeNotices = [.freeze (e.shownFreeze p).1 (e.shownFreeze p).2] := by
  have hnotices : e.freezeNotices = allPorts.filterMap fun q =>
      (some (EngineMsg.freeze (e.shownFreeze q).1 (e.shownFreeze q).2)).map fun m => (q, m) := by
    rw [Engine.freezeNotices, ← List.filterMap_eq_map]
    rfl
  rw [hnotices, outFor_allPorts]
  rfl

theorem outFor_single (p : Port) (m : Out) : outFor p [m] = if m.1 = p then [m.2] else [] := by
  rw [outFor_cons, outFor_nil, List.append_nil]

/-! ### The account of an event -/

/-- The messages `out` of an event that leads from `a` to `b` tell each port what has changed of its marked count, its
session and its freeze flags. -/
structure Informs (a b : Engine) (out : List Out) : Prop where
  marked  : ∀ p, lastOr EngineMsg.markedOf (outFor p out) (a.markedCount p) = b.markedCount p
  session : ∀ p, lastOr EngineMsg.sessionOf (outFor p out) (a.shownSession p) = b.shownSession p
  freeze  : ∀ p, lastOr EngineMsg.freezeOf (outFor p out) (a.shownFreeze p) = b.shownFreeze p

section
variable {a b c : Engine} {o o' talk : List Out}

theorem Informs.trans (h : Informs a b o) (h' : Informs b c o') : Informs a c (o ++ o') where
  marked p := by rw [outFor_append, lastOr_append, h.marked, h'.marked]
  session p := by rw [outFor_append, lastOr_append, h.session, h'.session]
  freeze p := by rw [outFor_append, lastOr_append, h.freeze, h'.freeze]

/-- Nothing that a port is told of has changed. -/
theorem Informs.silent (h : Silent o) (marked : ∀ p, b.markedCount p = a.markedCount p)
    (session : ∀ p, b.shownSession p = a.shownSession p) (freeze : ∀ p, b.shownFreeze p = a.shownFreeze p) :
    Informs a b o where
  marked p := by rw [lastOr_of_mute fun m hm => (h _ (mem_outFor hm)).1, marked]
  session p := by rw [lastOr_of_mute fun m hm => (h _ (mem_outFor hm)).2.1, session]
  freeze p := by rw [lastOr_of_mute fun m hm => (h _ (mem_outFor hm)).2.2, freeze]

theorem Engine.markedCount_congr (h : ∀ k, b.record k = a.record k) (p : Port) : b.markedCount p = a.markedCount p := by
  simp only [Engine.markedCount, Engine.countSlots, h]

theorem Engine.shownSession_congr (h : b.sessions = a.sessions) (p : Port) : b.shownSession p = a.shownSession p := by
  simp only [Engine.shownSession, Engine.session, h]

theorem Engine.shownFreeze_congr (h : b.freeze = a.freeze) (p : Port) : b.shownFreeze p = a.shownFreeze p := by
  simp only [Engine.shownFreeze, Engine.isFrozen, h]

/-- What comes last in the order of an event's messages: the new counts, then the session notice of the port whose session
the event wrote, then the freeze notices where the event set or cleared Frozen. -/
theorem Informs.of_notices {sess frz : List Out}
    (hsess : (sess = [] ∧ ∀ p, b.shownSession p = a.shownSession p) ∨
      ∃ q, sess = [b.sessionNotice q] ∧ ∀ p, p ≠ q → b.shownSession p = a.shownSession p)
    (hfrz : (frz = [] ∧ ∀ p, b.shownFreeze p = a.shownFreeze p) ∨ frz = b.freezeNotices) :
    Informs a b (countNotices a b ++ sess ++ frz) where
  marked p := by
    have hs : lastOr EngineMsg.markedOf (outFor p sess) (b.markedCount p) = b.markedCount p := by
      rcases hsess with ⟨rfl, -⟩ | ⟨q, rfl, -⟩
      · rfl
      · rw [outFor_single]; split <;> rfl
    have hf : lastOr EngineMsg.markedOf (outFor p frz) (b.markedCount p) = b.markedCount p := by
      rcases hfrz with ⟨rfl, -⟩ | rfl
      · rfl
      · rw [outFor_freezeNotices]; rfl
    have hc : lastOr EngineMsg.markedOf (outFor p (countNotices a b)) (a.markedCount p) = b.markedCount p := by
      rw [outFor_countNotices]
      split
      next h => exact h.symm
      · rfl
    rw [outFor_append, outFor_append, lastOr_append, lastOr_append, hc, hs, hf]
  session p := by
    have hc : lastOr EngineMsg.sessionOf (outFor p (countNotices a b)) (a.shownSession p) = a.shownSession p := by
      rw [outFor_countNotices]
      split <;> rfl
    have hs : lastOr EngineMsg.sessionOf (outFor p sess) (a.shownSession p) = b.shownSession p := by
      rcases hsess with ⟨rfl, hsame⟩ | ⟨q, rfl, hsame⟩
      · exact (hsame p).symm
      · rw [outFor_single]
        split
        next hq => subst hq; rfl
        next hq => exact (hsame p fun hp => hq hp.symm).symm
    have hf : lastOr EngineMsg.sessionOf (outFor p frz) (b.shownSession p) = b.shownSession p := by
      rcases hfrz with ⟨rfl, -⟩ | rfl
      · rfl
      · rw [outFor_freezeNotices]; rfl
    rw [outFor_append, outFor_append, lastOr_append, lastOr_append, hc, hs, hf]
  freeze p := by
    have hc : lastOr EngineMsg.freezeOf (outFor p (countNotices a b)) (a.shownFreeze p) = a.shownFreeze p := by
      rw [outFor_countNotices]
      split <;> rfl
    have hs : lastOr EngineMsg.freezeOf (outFor p sess) (a.shownFreeze p) = a.shownFreeze p := by
      rcases hsess with ⟨rfl, -⟩ | ⟨q, rfl, -⟩
      · rfl
      · rw [outFor_single]; split <;> rfl
    have hf : lastOr EngineMsg.freezeOf (outFor p frz) (a.shownFreeze p) = b.shownFreeze p := by
      rcases hfrz with ⟨rfl, hsame⟩ | rfl
      · exact (hsame p).symm
      · rw [outFor_freezeNotices]; rfl
    rw [outFor_append, outFor_append, lastOr_append, lastOr_append, hc, hs, hf]

/-- An event's answer and completions, then its notices in their order. -/
theorem Informs.of_parts {sess frz : List Out} (htalk : Silent talk)
    (hsess : (sess = [] ∧ ∀ p, b.shownSession p = a.shownSession p) ∨
      ∃ q, sess = [b.sessionNotice q] ∧ ∀ p, p ≠ q → b.shownSession p = a.shownSession p)
    (hfrz : (frz = [] ∧ ∀ p, b.shownFreeze p = a.shownFreeze p) ∨ frz = b.freezeNotices) :
    Informs a b (talk ++ countNotices a b ++ sess ++ frz) := by
  rw [List.append_assoc talk, List.append_assoc talk]
  exact (Informs.silent htalk (fun _ => rfl) (fun _ => rfl) fun _ => rfl).trans (.of_notices hsess hfrz)

/-- An event that changes no mark, with its answer and its notices. -/
theorem Informs.of_unmarked {sess frz : List Out} (hmarks : ∀ p, b.markedCount p = a.markedCount p)
    (htalk : Silent talk)
    (hsess : (sess = [] ∧ ∀ p, b.shownSession p = a.shownSession p) ∨
      ∃ q, sess = [b.sessionNotice q] ∧ ∀ p, p ≠ q → b.shownSession p = a.shownSession p)
    (hfrz : (frz = [] ∧ ∀ p, b.shownFreeze p = a.shownFreeze p) ∨ frz = b.freezeNotices) :
    Informs a b (talk ++ sess ++ frz) := by
  have hnone : countNotices a b = [] := by simp [countNotices, hmarks]
  have hparts := Informs.of_parts htalk hsess hfrz
  rwa [hnone, List.append_nil] at hparts

/-- What an event of the engine does to the clock request and its call: none ends and none changes its kind, or one comes
with its call. -/
def ClockStep (e : Engine) (f : Effect) : Prop :=
  (f.call = none ∧ f.engine.clock.map (fun c => c.kind) = e.clock.map fun c => c.kind) ∨
    (e.clock = none ∧ ∃ c call, f.engine.clock = some c ∧ f.call = some call ∧ c.kind.calledBy call = true)

/-- The account of an event at the settled tick `n` that it leaves. -/
structure Reports (n : Tick) (e : Engine) (f : Effect) : Prop where
  settled : f.engine.settled = n
  clock   : ClockStep e f
  informs : Informs e f.engine f.out

/-- What events of the table leave as it was, at the settled tick `n`. -/
structure SameSides (n : Tick) (a b : Engine) : Prop where
  settled  : b.settled = n
  clock    : b.clock = a.clock
  sessions : b.sessions = a.sessions
  freeze   : b.freeze = a.freeze

theorem PassFrame.sameSides (h : PassFrame a b) : SameSides a.settled a b :=
  ⟨h.settled, h.clock, h.sessions, h.freeze⟩

theorem SameSides.trans {n k : Tick} (h : SameSides n a b) (h' : SameSides k b c) : SameSides k a c :=
  ⟨h'.settled, h'.clock.trans h.clock, h'.sessions.trans h.sessions, h'.freeze.trans h.freeze⟩

theorem SameSides.closed {e : Engine} {n : Tick} (h : SameSides n a b) : SameSides n a (e.closeEvent b) :=
  h.trans ⟨by simp [h.settled], by simp, by simp, by simp⟩

theorem ClockStep.kept {e m : Engine} {out : List Out} (h : m.clock = e.clock) : ClockStep e { engine := m, out } :=
  .inl ⟨rfl, by rw [h]⟩

theorem Reports.of_table {e m : Engine} {n : Tick} (htalk : Silent talk) (h : SameSides n e m) :
    Reports n e { engine := m, out := talk ++ countNotices e m } where
  settled := h.settled
  clock := .kept h.clock
  informs := by
    have hparts := Informs.of_parts (a := e) (b := m) (sess := []) (frz := []) htalk
      (.inl ⟨rfl, Engine.shownSession_congr h.sessions⟩) (.inl ⟨rfl, Engine.shownFreeze_congr h.freeze⟩)
    rwa [List.append_nil, List.append_nil] at hparts

/-- The counts of a closed event are those of the table that it closes. -/
theorem countNotices_closeEvent (e m : Engine) : countNotices e (e.closeEvent m) = countNotices e m := by
  simp only [countNotices, Engine.markedCount_congr (fun k => Engine.record_closeEvent e m k)]

theorem Reports.finish {e m : Engine} {n : Tick} (htalk : Silent talk) (h : SameSides n e m) :
    Reports n e (e.finish m talk) := by
  rw [Engine.finish, ← countNotices_closeEvent]
  exact .of_table htalk h.closed

theorem Reports.reply (e : Engine) (p : Port) (t : Tag) (o : ResultCode) (x : Payload) :
    Reports e.settled e (e.reply p t o x) where
  settled := rfl
  clock := .kept rfl
  informs := .silent (.answerTo p t o x) (fun _ => rfl) (fun _ => rfl) fun _ => rfl

/-! ### The messages of passes and settlements -/

theorem Engine.grantConversion_completion {k : SlotNo} {m : Out} (h : a.grantConversion k = some (b, m)) :
    Completions [m] := by
  have hm := (Engine.grantConversion_some h).completes
  unfold Engine.grantOf at hm
  dsimp only at hm
  split at hm
  · obtain ⟨v, -, rfl⟩ := Option.map_eq_some_iff.mp hm
    exact .single _ _ _
  · cases hm
    exact .single _ _ _
  · cases hm

theorem Engine.grantWaiter_completion {passed : List SlotNo} {k : SlotNo} {m : Out}
    (h : a.grantWaiter passed k = some (b, m)) : Completions [m] := by
  unfold Engine.grantWaiter at h
  split at h
  · split at h
    · cases h
    · obtain ⟨-, rfl⟩ := Prod.mk.inj (Option.some.inj h)
      exact .single _ _ _
  · cases h

theorem completions_grantConversions (l : List SlotNo) (e : Engine) : Completions (Engine.grantConversions l e).2 := by
  induction l generalizing e with
  | nil => exact .nil
  | cons k l ih =>
    rw [Engine.grantConversions]
    split
    next b m h => exact (Engine.grantConversion_completion h).append (ih b)
    · exact ih e

theorem completions_grantWaiters (l passed : List SlotNo) (e : Engine) :
    Completions (Engine.grantWaiters passed l e).2 := by
  induction l generalizing passed e with
  | nil => exact .nil
  | cons k l ih =>
    rw [Engine.grantWaiters]
    split
    next b m h => exact (Engine.grantWaiter_completion h).append (ih passed b)
    · exact ih (passed ++ [k]) e

theorem completions_grantPass (e : Engine) : Completions e.grantPass.2 :=
  (completions_grantConversions _ _).append (completions_grantWaiters _ _ _)

theorem completions_passUnlessFrozen (e : Engine) : Completions e.passUnlessFrozen.2 := by
  unfold Engine.passUnlessFrozen
  split
  · exact .nil
  · exact completions_grantPass e

theorem completions_settleDue (e : Engine) :
    Completions (e.settleDue.expired ++ e.settleDue.waitsOut ++ e.settleDue.convsOut) :=
  ((completions_conv _ _ _).append (completions_wait _ _ _)).append (completions_conv _ _ _)

theorem completions_afterClear (e : Engine) (p : Port) : Completions (e.afterClear p).2.1 := by
  unfold Engine.afterClear
  split
  · split
    · exact (completions_settleDue e).append (completions_grantPass _)
    · exact .nil
  · exact completions_grantPass e

theorem completions_told (e : Engine) (p : Port) (tell : Bool) : Completions (e.endSession p tell).told := by
  cases tell
  · exact .nil
  · exact (completions_conv _ _ _).append (completions_wait _ _ _)

/-! ### Requests -/

section
variable (e : Engine) (p : Port) (t : Tag)

/-- A request that changes the table and closes the event after one pass. -/
theorem Reports.passed {e c : Engine} {n : Tick} {o : List Out} (ho : Silent o) (h : SameSides n e c) :
    Reports n e (e.finish c.passUnlessFrozen.1 (o ++ c.passUnlessFrozen.2)) :=
  .finish (ho.append (completions_passUnlessFrozen c).silent) (h.settled ▸ h.trans c.passUnlessFrozen_frame.sameSides)

/-- A waiting claim is not marked, and it takes a FREE slot. -/
theorem Engine.queued_markedCount {k : SlotNo} (hfree : (e.record k).isFree = true) (w : Waiting) (q : Port) :
    (e.queued k w).markedCount q = e.markedCount q := by
  simp only [Engine.markedCount, Engine.countSlots]
  congr 1
  refine List.filter_congr fun j _ => ?_
  rw [show (e.queued k w).record j = if j = k then .waiting w else e.record j from Engine.record_enter ..]
  split
  next hj =>
    subst hj
    cases hr : e.record j <;> simp_all [Record.isFree, Record.isMarked]
  · rfl

theorem Reports.claimReq (b : BitVec 24) (l : Half) (m : Byte) (d w x : Half) :
    Reports e.settled e (e.claimReq p t b l m d w x) := by
  unfold Engine.claimReq
  split
  · exact .reply ..
  next m' k hk =>
    dsimp only
    split
    · exact .of_table (.answerTo _ _ _ _) (SameSides.closed ⟨rfl, rfl, rfl, rfl⟩)
    · split
      · exact .reply ..
      · have hsides (w : Waiting) : SameSides e.settled e (e.closeEvent (e.queued k w)) := .closed ⟨rfl, rfl, rfl, rfl⟩
        have hfree := Engine.lowestFree_free (Engine.admit_ok hk).2.2.2.2.2.2.1
        refine ⟨(hsides _).settled, .kept (hsides _).clock, .silent (.single ⟨rfl, rfl, rfl⟩) (fun q => ?_)
          (Engine.shownSession_congr (hsides _).sessions) (Engine.shownFreeze_congr (hsides _).freeze)⟩
        exact (Engine.markedCount_congr (fun j => Engine.record_closeEvent ..) q).trans
          (e.queued_markedCount hfree _ q)

theorem Reports.renewReq (h : Handle) (d : Half) : Reports e.settled e (e.renewReq p t h d) := by
  unfold Engine.renewReq
  split
  · exact .reply ..
  · split
    · split
      · unfold Engine.renewLease
        dsimp only
        split
        · exact .reply ..
        · split
          · exact .reply ..
          · exact .finish (.answerTo _ _ _ _) ⟨rfl, rfl, rfl, rfl⟩
      · exact .reply ..
    · exact .reply ..
    · exact .reply ..

theorem Reports.releaseReq (h : Handle) : Reports e.settled e (e.releaseReq p t h) := by
  unfold Engine.releaseReq
  split
  · exact .reply ..
  · split
    next x _ =>
      exact .passed ((completions_convCompletion x _).silent.append (.answerTo _ _ _ _)) ⟨rfl, rfl, rfl, rfl⟩
    · exact .reply ..

theorem Reports.downgradeReq (h : Handle) : Reports e.settled e (e.downgradeReq p t h) := by
  unfold Engine.downgradeReq
  split
  · exact .reply ..
  · split
    · split
      · exact .passed (.answerTo _ _ _ _) ⟨rfl, rfl, rfl, rfl⟩
      · exact .reply ..
    · exact .reply ..
    · exact .reply ..

theorem Reports.upgradeReq (h : Handle) (w : Half) : Reports e.settled e (e.upgradeReq p t h w) := by
  unfold Engine.upgradeReq
  split
  · exact .reply ..
  · split
    · split
      · unfold Engine.upgradeLease
        split
        · exact .finish (.answerTo _ _ _ _) ⟨rfl, rfl, rfl, rfl⟩
        · exact .reply ..
        · split
          · exact .reply ..
          · exact .finish (.single ⟨rfl, rfl, rfl⟩) ⟨rfl, rfl, rfl, rfl⟩
      · exact .reply ..
    · exact .reply ..
    · exact .reply ..

theorem Reports.acknowledgeReq (h : Handle) : Reports e.settled e (e.acknowledgeReq p t h) := by
  unfold Engine.acknowledgeReq
  split
  · exact .reply ..
  · split
    · exact .finish (.answerTo _ _ _ _) ⟨rfl, rfl, rfl, rfl⟩
    · split
      · exact .finish (.answerTo _ _ _ _) ⟨rfl, rfl, rfl, rfl⟩
      · exact .reply ..
    · exact .reply ..

theorem Reports.openReq (m : Half) (n : Byte) : Reports e.settled e (e.openReq p t m n) := by
  unfold Engine.openReq
  split
  · exact .reply ..
  · split
    next margin mask _ _ =>
      refine ⟨rfl, .kept rfl, ?_⟩
      have hother (q : Port) (hq : q ≠ p) :
          (e.setSession p ((e.session p).opened margin mask)).shownSession q = e.shownSession q := by
        simp only [Engine.shownSession, Engine.session_setSession_ne _ _ hq]
      exact .of_unmarked (a := e) (b := e.setSession p ((e.session p).opened margin mask)) (talk := [_]) (frz := [])
        (fun _ => rfl) (.answerTo _ _ _ _) (.inr ⟨p, rfl, hother⟩) (.inl ⟨rfl, fun _ => rfl⟩)
    · exact .reply ..

theorem Engine.endSession_thawed (e : Engine) (q : Port) (tell : Bool) :
    (e.endSession q tell).thawed = e.freeze.any fun f => f.owner == q := by
  change ((e.clearPort q).afterClear q).2.2 = _
  unfold Engine.afterClear
  rw [show (e.clearPort q).freeze = e.freeze from rfl]
  cases e.freeze with
  | none => rfl
  | some f =>
    by_cases howner : f.owner = q
    · simp [howner]
    · simp [howner]

theorem SameSides.settleThaw_clock (e : Engine) (start : Tick) : (e.settleThaw start).engine.clock = e.clock :=
  (Engine.grantPass_frame _).clock

theorem Engine.settleThaw_settled (e : Engine) (start : Tick) : (e.settleThaw start).engine.settled = e.settled :=
  (TableMove.settleThaw e start).settled

theorem Engine.endSession_settled (e : Engine) (q : Port) (tell : Bool) :
    (e.endSession q tell).engine.settled = e.settled :=
  (TableMove.endSession e q tell).settled

theorem Engine.afterClear_clock (e : Engine) (q : Port) : (e.afterClear q).1.clock = e.clock := by
  unfold Engine.afterClear
  split
  · split
    · exact SameSides.settleThaw_clock e _
    · rfl
  · exact e.grantPass_frame.clock

/-- The notices of a session end: the port's session notice, and freeze notices where the freeze went with it. -/
theorem Informs.of_ended {e m : Engine} {q : Port} {tell : Bool} {x : Session} (htalk : Silent talk)
    (hsessions : m.sessions = put e.sessions q x) (hfreeze : m.freeze = (e.endSession q tell).engine.freeze) :
    Informs e m
      (talk ++ countNotices e m ++ [m.sessionNotice q] ++ m.freezeNoticesIf (e.endSession q tell).thawed) := by
  refine .of_parts htalk (.inr ⟨q, rfl, fun r hr => ?_⟩) ?_
  · simp only [Engine.shownSession, Engine.session, hsessions, pick_put_ne _ _ hr]
  · rw [Engine.endSession_thawed, Engine.freezeNoticesIf]
    rw [Engine.endSession_freeze] at hfreeze
    split
    · exact .inr rfl
    next howner =>
      rw [if_neg howner] at hfreeze
      exact .inl ⟨rfl, Engine.shownFreeze_congr hfreeze⟩

theorem Engine.endSession_clock (e : Engine) (q : Port) (tell : Bool) : (e.endSession q tell).engine.clock = e.clock :=
  (e.clearPort q).afterClear_clock q

/-- A session end for a request: `x` is the session entry that the event leaves, its SESSION_LOST written or not. -/
theorem Reports.endSessionFor (q : Port) (x : Session) {d : Ended} (hd : d.engine = (e.endSession q true).engine.setSession q x)
    (htold : d.told = (e.endSession q true).told) (hpassed : d.passed = (e.endSession q true).passed)
    (hthawed : d.thawed = (e.endSession q true).thawed) : Reports e.settled e (e.endSessionFor p t q d) := by
  have htalk : Silent (d.told ++ [answerTo p t .ok (.sessionEnd d.payload)] ++ d.passed) := by
    rw [htold, hpassed]
    exact ((completions_told e q true).silent.append (.answerTo _ _ _ _)).append (completions_afterClear _ q).silent
  refine ⟨?_, .kept ?_, ?_⟩
  · exact (Engine.closeEvent_settled e d.engine).trans (hd ▸ e.endSession_settled q true)
  · exact (Engine.closeEvent_clock e d.engine).trans (hd ▸ e.endSession_clock q true)
  · unfold Engine.endSessionFor
    dsimp only
    rw [hthawed]
    refine .of_ended (x := x) htalk ?_ ?_
    · rw [Engine.closeEvent_sessions, hd, Engine.setSession_sessions, Engine.endSession_sessions]
      exact table_ext fun r => by simp only [pick_put]; split <;> rfl
    · rw [Engine.closeEvent_freeze, hd, Engine.setSession_freeze]

theorem Reports.closeReq : Reports e.settled e (e.closeReq p t) := by
  unfold Engine.closeReq
  split
  · exact .reply ..
  · exact .endSessionFor e p t p _ (Engine.setSession_same _ p).symm rfl rfl rfl

theorem Reports.evictReq (n : Byte) : Reports e.settled e (e.evictReq p t n) := by
  unfold Engine.evictReq
  split
  · exact .reply ..
  · split
    · exact .reply ..
    next q _ =>
      split
      · exact .reply ..
      · split
        · exact .reply ..
        · exact .endSessionFor e p t q _ rfl rfl rfl rfl

theorem Reports.limitsReq (q c : Byte) (d : Half) (m r : Byte) : Reports e.settled e (e.limitsReq p t q c d m r) := by
  unfold Engine.limitsReq
  split
  · exact .reply ..
  · split
    · split
      · exact .reply ..
      · exact ⟨rfl, .kept rfl, .silent (.answerTo _ _ _ _) (fun _ => rfl) (fun _ => rfl) fun _ => rfl⟩
    · exact .reply ..

theorem Reports.noticeReq : Reports e.settled e (e.noticeReq p t) := by
  unfold Engine.noticeReq
  split
  · exact .reply ..
  · split <;> exact .reply ..

theorem Reports.probeReq (b : BitVec 24) (l : Half) : Reports e.settled e (e.probeReq p t b l) := by
  unfold Engine.probeReq
  split
  · exact .reply ..
  · split
    · exact .reply ..
    · split <;> exact .reply ..

/-- A cursor is nothing that the ports are told of. -/
theorem Engine.shownSession_setCursor (c : Option Cursor) (q : Port) :
    (e.setCursor p c).shownSession q = e.shownSession q := by
  unfold Engine.shownSession Engine.setCursor
  rw [Engine.session_setSession]
  split
  next hq => rw [hq]
  · rfl

theorem Reports.scanStep (f : Filter) (g : Half) (n : Nat) : Reports e.settled e (e.scanStep p t f g n) := by
  unfold Engine.scanStep
  split <;>
    exact ⟨rfl, .kept rfl, .silent (.answerTo _ _ _ _) (fun _ => rfl) (e.shownSession_setCursor p _) fun _ => rfl⟩

theorem Reports.scanFirstReq (f q : Byte) (b : BitVec 24) (l : Half) :
    Reports e.settled e (e.scanFirstReq p t f q b l) := by
  unfold Engine.scanFirstReq
  split
  · exact .reply ..
  · split
    · exact .reply ..
    · split
      · exact .reply ..
      · split
        · exact .reply ..
        · exact .scanStep ..

theorem Reports.scanNextReq : Reports e.settled e (e.scanNextReq p t) := by
  unfold Engine.scanNextReq
  split
  · exact .reply ..
  · split
    · exact .reply ..
    · exact .scanStep ..

theorem Reports.revokeReq (h : Handle) : Reports e.settled e (e.revokeReq p t h) := by
  unfold Engine.revokeReq
  split
  · exact .reply ..
  · split
    · exact .reply ..
    · unfold Engine.revokeSlot
      split
      · exact .passed ((completions_conv _ _ _).silent.append (.answerTo _ _ _ _)) ⟨rfl, rfl, rfl, rfl⟩
      next x _ =>
        exact .passed (o := [_] ++ [_]) ((Completions.single _ _ _).silent.append (.answerTo _ _ _ _))
          ⟨rfl, rfl, rfl, rfl⟩
      · exact .finish (.answerTo _ _ _ _) ⟨rfl, rfl, rfl, rfl⟩
      · exact .reply ..

theorem Reports.revokeRangeReq (b : BitVec 24) (l : Half) : Reports e.settled e (e.revokeRangeReq p t b l) := by
  unfold Engine.revokeRangeReq
  split
  · exact .reply ..
  · split
    · exact .reply ..
    · split
      · exact .reply ..
      · unfold Engine.revokeRegion
        dsimp only
        have htalk (x : Payload) (h : SlotNo → Bool) : Silent (e.convCompletions h .revoked ++ [answerTo p t .ok x]) :=
          (completions_conv _ _ _).silent.append (.answerTo _ _ _ _)
        split
        · exact .passed (htalk _ _) ⟨rfl, rfl, rfl, rfl⟩
        · exact .finish ((htalk _ _).append .nil) ⟨rfl, rfl, rfl, rfl⟩

theorem Reports.freezeReq : Reports e.settled e (e.freezeReq p t) := by
  unfold Engine.freezeReq
  split
  · exact .reply ..
  · split
    · exact .reply ..
    · exact ⟨rfl, .kept rfl, .of_unmarked (a := e) (b := { e with freeze := some { owner := p, start := e.settled } })
        (sess := []) (fun _ => rfl) (.answerTo _ _ _ _) (.inl ⟨rfl, fun _ => rfl⟩) (.inr rfl)⟩

/-- Thaw settlement, its messages with those of the event that runs it, and the notices. -/
theorem Informs.of_thaw {a m : Engine} (htalk : Silent talk) (hsessions : m.sessions = a.sessions) :
    Informs a m (talk ++ countNotices a m ++ m.freezeNotices) := by
  have hparts := Informs.of_parts (a := a) (b := m) (sess := []) htalk
    (.inl ⟨rfl, Engine.shownSession_congr hsessions⟩) (.inr rfl)
  rwa [List.append_nil] at hparts

theorem Reports.thawReq : Reports e.settled e (e.thawReq p t) := by
  unfold Engine.thawReq
  split
  · exact .reply ..
  · split
    · exact .reply ..
    next f _ =>
      split
      · refine ⟨?_, .kept ?_, .of_thaw ?_ ?_⟩
        · exact (Engine.closeEvent_settled e _).trans (e.settleThaw_settled _)
        · exact (Engine.closeEvent_clock e _).trans (SameSides.settleThaw_clock e _)
        · exact ((completions_settleDue e).silent.append (.answerTo _ _ _ _)).append (completions_grantPass _).silent
        · exact (Engine.closeEvent_sessions e _).trans (e.settleThaw_sessions _)
      · exact .reply ..

theorem Reports.sendClock (free : e.clock = none) (k : ClockKind) (c : ClockCall) (h : k.calledBy c = true) :
    Reports e.settled e (e.sendClock p t k c) where
  settled := rfl
  clock := .inr ⟨free, _, _, rfl, rfl, h⟩
  informs := .silent .nil (fun _ => rfl) (fun _ => rfl) fun _ => rfl

theorem Reports.trimReq (free : e.clock = none) (n : Byte) : Reports e.settled e (e.trimReq p t n) := by
  unfold Engine.trimReq
  split
  · exact .reply ..
  · split
    · exact .reply ..
    · exact .sendClock e p t free _ _ rfl

/-- The account of every request. -/
theorem Reports.of_request (free : e.clock = none) (r : Request) : Reports e.settled e (e.requestEffect p t r) := by
  cases r with
  | openSession m a => exact .openReq e p t m a
  | closeSession => exact .closeReq e p t
  | readClock => exact .sendClock e p t free _ _ rfl
  | noop => exact .reply e p t _ _
  | claim b l m d w x => exact .claimReq e p t b l m d w x
  | renew h d => exact .renewReq e p t h d
  | release h => exact .releaseReq e p t h
  | downgrade h => exact .downgradeReq e p t h
  | upgrade h w => exact .upgradeReq e p t h w
  | acknowledge h => exact .acknowledgeReq e p t h
  | notice => exact .noticeReq e p t
  | probe b l => exact .probeReq e p t b l
  | scanFirst f q b l => exact .scanFirstReq e p t f q b l
  | scanNext => exact .scanNextReq e p t
  | limits q c d m r => exact .limitsReq e p t q c d m r
  | revoke h => exact .revokeReq e p t h
  | revokeRange b l => exact .revokeRangeReq e p t b l
  | evict q => exact .evictReq e p t q
  | freeze => exact .freezeReq e p t
  | thaw => exact .thawReq e p t
  | trim a => exact .trimReq e p t free a

/-! ### Forwarded cancels, port-drops and tick notices -/

theorem Reports.cancelReq : Reports e.settled e (e.cancelReq p t) := by
  unfold Engine.cancelReq
  split
  · exact .passed (Completions.single _ _ _).silent ⟨rfl, rfl, rfl, rfl⟩
  · exact .passed (Completions.single _ _ _).silent ⟨rfl, rfl, rfl, rfl⟩
  · have hnotice : Reports e.settled e { engine := e, out := [(p, .cancelLate t)] } :=
      ⟨rfl, .kept rfl, .silent (.single ⟨rfl, rfl, rfl⟩) (fun _ => rfl) (fun _ => rfl) fun _ => rfl⟩
    unfold Engine.cancelLate
    split
    next c hc =>
      split
      · exact ⟨rfl, .inl ⟨rfl, by rw [hc]; rfl⟩, .silent .nil (fun _ => rfl) (fun _ => rfl) fun _ => rfl⟩
      · exact hnotice
    · exact hnotice

/-- The kind of a clock request stays when its answer is to be dropped. -/
theorem ClockRequest.dropFor_kind (c : ClockRequest) (q : Port) : (c.dropFor q).kind = c.kind := by
  unfold ClockRequest.dropFor
  split <;> rfl

theorem Reports.dropPort : Reports e.settled e (e.dropPort p) where
  settled := (Engine.closeEvent_settled e _).trans (e.endSession_settled p false)
  clock := .inl ⟨rfl, by
    change (e.clock.map fun c => c.dropFor p).map (fun c => c.kind) = _
    rw [Option.map_map]
    exact Option.map_congr fun c _ => c.dropFor_kind p⟩
  informs := by
    have hlast (m : Engine) : Informs m m [(p, .dropComplete)] :=
      .silent (.single ⟨rfl, rfl, rfl⟩) (fun _ => rfl) (fun _ => rfl) fun _ => rfl
    refine Informs.trans (Informs.of_ended (q := p) (tell := false)
      (x := { (e.endSession p false).engine.session p with lost := false }) (completions_afterClear _ p).silent ?_ ?_)
      (hlast _)
    · refine (Engine.closeEvent_sessions e _).trans ?_
      change put (e.endSession p false).engine.sessions p _ = _
      rw [Engine.endSession_sessions]
      exact table_ext fun r => by simp only [pick_put]; split <;> rfl
    · exact Engine.closeEvent_freeze e _

theorem Reports.of_portEffect {m : PortMsg} (free : m.isRequest = true → e.clock = none) :
    Reports e.settled e (e.portEffect p m) := by
  cases m with
  | request t r => exact .of_request e p t (free rfl) r
  | cancel t => exact .cancelReq e p t
  | portDrop => exact .dropPort e p

theorem Reports.of_tick (n : Tick) : Reports n e (e.tick n) := by
  unfold Engine.tick
  split
  next f _ =>
    unfold Engine.tickFrozen
    split
    · refine ⟨?_, .kept ?_, .of_thaw ?_ ?_⟩
      · exact (Engine.closeEvent_settled e _).trans (Engine.settleThaw_settled _ _)
      · exact (Engine.closeEvent_clock e _).trans (SameSides.settleThaw_clock _ _)
      · exact (completions_settleDue _).silent.append (completions_grantPass _).silent
      · exact (Engine.closeEvent_sessions e _).trans (Engine.settleThaw_sessions _ _)
    · exact ⟨rfl, .kept rfl, .silent .nil (fun _ => rfl) (fun _ => rfl) fun _ => rfl⟩
  · unfold Engine.tickUnfrozen
    dsimp only
    have hsides : SameSides n e (e.advance n).settleDue.engine.warnPart := ⟨rfl, rfl, rfl, rfl⟩
    have htalk := (completions_settleDue (e.advance n)).silent
    split
    · exact .finish (htalk.append (completions_grantPass _).silent)
        (hsides.trans (Engine.grantPass_frame (e.advance n).settleDue.engine.warnPart).sameSides)
    · exact .finish (htalk.append .nil) hsides

end

end

end Sys2Proof.Machine

/-! ## Ticks and the clock request: proofs about `StepsKeepTicksAndClockRequestInOrder` (R75, R77, R84, R87) -/

namespace Sys2Proof.Machine

/-! ### Consecutive ticks -/

@[simp] theorem length_ticksAfter (n : Tick) (count : Nat) : (ticksAfter n count).length = count := by
  induction count generalizing n with
  | zero => rfl
  | succ count ih => simp [ticksAfter, ih]

theorem add_ofNat_succ (n : Tick) (count : Nat) :
    n + BitVec.ofNat 32 (count + 1) = n + 1 + BitVec.ofNat 32 count := by
  rw [BitVec.ofNat_add, BitVec.add_comm (BitVec.ofNat 32 count), ← BitVec.add_assoc]
  rfl

theorem ticksAfter_snoc (n : Tick) (count : Nat) :
    ticksAfter n (count + 1) = ticksAfter n count ++ [n + BitVec.ofNat 32 count + 1] := by
  induction count generalizing n with
  | zero => simp [ticksAfter]
  | succ count ih => rw [ticksAfter, ih, add_ofNat_succ]; rfl

/-- The ticks on a path are those from the settled tick up to NOW. -/
def TicksConsecutive (ticks : List Tick) (settled now : Tick) : Prop :=
  ticks = ticksAfter settled ticks.length ∧ now = settled + BitVec.ofNat 32 ticks.length

theorem tickLaw_iff {s : State} :
    TickLaw s ↔ TicksConsecutive (s.fromTimebase.filterMap TimebaseMsg.tickOf) s.engine.settled s.timebase.now :=
  Iff.rfl

section
variable {ticks : List Tick} {settled now n : Tick}

theorem TicksConsecutive.sent (h : TicksConsecutive ticks settled now) :
    TicksConsecutive (ticks ++ [now + 1]) settled (now + 1) := by
  obtain ⟨hticks, hnow⟩ := h
  constructor
  · rw [List.length_append, List.length_singleton, ticksAfter_snoc, ← hnow, ← hticks]
  · rw [List.length_append, List.length_singleton, hnow, BitVec.ofNat_add, ← BitVec.add_assoc]
    rfl

theorem TicksConsecutive.taken (h : TicksConsecutive (n :: ticks) settled now) : TicksConsecutive ticks n now := by
  obtain ⟨hticks, hnow⟩ := h
  obtain ⟨hn, hrest⟩ := List.cons.inj hticks
  constructor
  · rw [hn]
    exact hrest
  · rw [hnow, List.length_cons, add_ofNat_succ, hn]

end

/-! ### What the timebase sends -/

/-- The timebase sends at most one tick notice, with the value that NOW then has. -/
inductive TickSent (x : Timebase) : Timebase → List Tick → Prop where
  | none {y : Timebase} (h : y.now = x.now) : TickSent x y []
  | one {y : Timebase} (h : y.now = x.now + 1) : TickSent x y [x.now + 1]

theorem TickSent.edge (x : Timebase) : TickSent x x.edge.1 (x.edge.2.filterMap TimebaseMsg.tickOf) := by
  unfold Timebase.edge
  split
  · split
    · exact .none rfl
    · exact .one rfl
  · exact .none rfl

theorem Timebase.edge_answers (x : Timebase) : (x.edge.2.filter fun m => m.tickOf.isNone) = [] := by
  unfold Timebase.edge
  split
  · split <;> rfl
  · rfl

theorem TickSent.trim (x : Timebase) (a : Byte) : TickSent x (x.trim a).1 ((x.trim a).2.filterMap TimebaseMsg.tickOf) := by
  unfold Timebase.trim
  split
  · exact .none rfl
  · split
    · exact .one rfl
    · split <;> exact .none rfl

theorem Timebase.trim_answers (x : Timebase) (a : Byte) :
    ∃ busy y, ((x.trim a).2.filter fun m => m.tickOf.isNone) = [.trimAnswer busy y] := by
  unfold Timebase.trim
  split
  · exact ⟨_, _, rfl⟩
  · split
    · exact ⟨_, _, rfl⟩
    · split <;> exact ⟨_, _, rfl⟩

theorem TicksConsecutive.sentBy {x y : Timebase} {ticks sent : List Tick} {settled : Tick}
    (h : TicksConsecutive ticks settled x.now) (hsent : TickSent x y sent) :
    TicksConsecutive (ticks ++ sent) settled y.now := by
  cases hsent with
  | none hnow => rwa [List.append_nil, hnow]
  | one hnow => rw [hnow]; exact h.sent

/-! ### The two laws under each change of the state -/

section
variable {s s' : State}

theorem TickLaw.congr (h : TickLaw s) (hpath : s'.fromTimebase = s.fromTimebase)
    (hsettled : s'.engine.settled = s.engine.settled) (hnow : s'.timebase.now = s.timebase.now) : TickLaw s' := by
  rw [tickLaw_iff] at h ⊢
  rwa [hpath, hsettled, hnow]

theorem TickLaw.sent {ms : List TimebaseMsg} (h : TickLaw s) (hpath : s'.fromTimebase = s.fromTimebase ++ ms)
    (hsettled : s'.engine.settled = s.engine.settled)
    (hms : TickSent s.timebase s'.timebase (ms.filterMap TimebaseMsg.tickOf)) : TickLaw s' := by
  rw [tickLaw_iff] at h ⊢
  rw [hpath, hsettled, List.filterMap_append]
  exact h.sentBy hms

theorem TickLaw.tickTaken {n : Tick} {rest : List TimebaseMsg} (h : TickLaw s)
    (head : s.fromTimebase = .tick n :: rest) (hpath : s'.fromTimebase = rest) (hsettled : s'.engine.settled = n)
    (hnow : s'.timebase.now = s.timebase.now) : TickLaw s' := by
  rw [tickLaw_iff] at h ⊢
  rw [head] at h
  rw [hpath, hsettled, hnow]
  exact TicksConsecutive.taken h

/-- An answer of the timebase is no tick notice. -/
theorem ClockRequest.tickOf_of_resultOf {c : ClockRequest} {m : TimebaseMsg} {v : ResultCode × Payload}
    (h : c.resultOf m = some v) : m.tickOf = none := by
  unfold ClockRequest.resultOf at h
  split at h
  · rfl
  · rfl
  · cases h

theorem TickLaw.answerTaken {m : TimebaseMsg} {rest : List TimebaseMsg} (h : TickLaw s)
    (head : s.fromTimebase = m :: rest) (hm : m.tickOf = none) (hpath : s'.fromTimebase = rest)
    (hsettled : s'.engine.settled = s.engine.settled) (hnow : s'.timebase.now = s.timebase.now) : TickLaw s' := by
  rw [tickLaw_iff] at h ⊢
  rw [head, List.filterMap_cons_none hm] at h
  rwa [hpath, hsettled, hnow]

theorem ClockLaw.congr (h : ClockLaw s)
    (hkind : s'.engine.clock.map (fun c => c.kind) = s.engine.clock.map fun c => c.kind)
    (hcall : s'.toTimebase = s.toTimebase) (hpath : s'.answersOnPath = s.answersOnPath) : ClockLaw s' := by
  unfold ClockLaw at h ⊢
  rw [hcall, hpath]
  cases hold : s.engine.clock with
  | none =>
    rw [hold] at h hkind
    rw [Option.map_eq_none_iff.mp hkind]
    exact h
  | some c =>
    rw [hold] at h hkind
    obtain ⟨d, hd, hdc⟩ := Option.map_eq_some_iff.mp hkind
    rw [hd]
    simpa only [hdc] using h

/-- Without a call under way, no call arrives at the timebase. -/
theorem ClockLaw.of_call {call : ClockCall} (h : ClockLaw s) (hcall : s.toTimebase = some call) :
    ∃ c, s.engine.clock = some c ∧ c.kind.calledBy call = true ∧ s.answersOnPath = [] := by
  unfold ClockLaw at h
  split at h
  · rw [hcall] at h; cases h.1
  next c hc =>
    rcases h with ⟨d, hd, hby, hpath⟩ | ⟨m, hnone, -, -⟩
    · rw [hcall] at hd; cases hd; exact ⟨c, hc, hby, hpath⟩
    · rw [hcall] at hnone; cases hnone

/-- The timebase answers the call that it takes. -/
theorem ClockLaw.answered {call : ClockCall} {m : TimebaseMsg} (h : ClockLaw s) (hcall : s.toTimebase = some call)
    (hanswers : ∀ k : ClockKind, k.calledBy call = true → k.answeredBy m = true)
    (hclock : s'.engine.clock = s.engine.clock) (htaken : s'.toTimebase = none)
    (hpath : s'.answersOnPath = s.answersOnPath ++ [m]) : ClockLaw s' := by
  obtain ⟨c, hc, hby, hempty⟩ := h.of_call hcall
  unfold ClockLaw
  rw [hclock, hc]
  exact .inr ⟨m, htaken, by rw [hpath, hempty, List.nil_append], hanswers _ hby⟩

theorem ClockLaw.stepped {f : Effect} (h : ClockLaw s) (hf : ClockStep s.engine f) (hengine : s'.engine = f.engine)
    (hcall : s'.toTimebase = f.call.orElse fun _ => s.toTimebase) (hpath : s'.answersOnPath = s.answersOnPath) :
    ClockLaw s' := by
  rcases hf with ⟨hnone, hkind⟩ | ⟨hfree, c, call, hc, hsent, hby⟩
  · rw [hnone] at hcall
    exact h.congr (hengine ▸ hkind) hcall hpath
  · unfold ClockLaw at h ⊢
    rw [hfree] at h
    rw [hengine, hc]
    exact .inl ⟨call, by rw [hcall, hsent]; rfl, hby, hpath.trans h.2⟩

theorem answersOnPath_cons_tick {n : Tick} {rest : List TimebaseMsg} (head : s.fromTimebase = .tick n :: rest)
    (hpath : s'.fromTimebase = rest) : s'.answersOnPath = s.answersOnPath := by
  rw [State.answersOnPath, State.answersOnPath, hpath, head]
  rfl

/-- The engine takes the answer to its clock request. -/
theorem ClockLaw.ended {m : TimebaseMsg} {rest : List TimebaseMsg} {c : ClockRequest} (h : ClockLaw s)
    (head : s.fromTimebase = m :: rest) (hm : m.tickOf = none) (held : s.engine.clock = some c)
    (hclock : s'.engine.clock = none) (hcall : s'.toTimebase = s.toTimebase) (hpath : s'.fromTimebase = rest) :
    ClockLaw s' := by
  have hanswers : s.answersOnPath = m :: s'.answersOnPath := by
    rw [State.answersOnPath, State.answersOnPath, hpath, head, List.filter_cons_of_pos (by rw [hm]; rfl)]
  unfold ClockLaw at h ⊢
  rw [held, hanswers] at h
  rw [hclock]
  rcases h with ⟨_, _, _, hempty⟩ | ⟨_, hnone, hone, _⟩
  · cases hempty
  · exact ⟨hcall.trans hnone, (List.cons.inj hone).2⟩

/-- Both laws go through everything that a command can do. -/
theorem Move.keeps_time (hmove : Move s s') (htick : TickLaw s) (hclock : ClockLaw s) : TickLaw s' ∧ ClockLaw s' := by
  cases hmove with
  | none => exact ⟨htick, hclock⟩
  | deviceReset => exact ⟨⟨rfl, rfl⟩, rfl, rfl⟩
  | release straps prst low => exact ⟨htick.congr rfl rfl rfl, hclock.congr rfl rfl rfl⟩
  | selectLevel p level low => exact ⟨htick.congr rfl rfl rfl, hclock.congr rfl rfl rfl⟩
  | edge prst running =>
    refine ⟨htick.sent rfl rfl (.edge s.timebase), hclock.congr rfl rfl ?_⟩
    exact (List.filter_append ..).trans (by rw [Timebase.edge_answers, List.append_nil]; rfl)
  | tick n rest running head =>
    have hreports := Reports.of_tick s.engine n
    exact ⟨htick.tickTaken head rfl hreports.settled rfl,
      hclock.stepped hreports.clock rfl rfl (answersOnPath_cons_tick head rfl)⟩
  | take p m rest running head free =>
    have hreports := Reports.of_portEffect s.engine p free
    exact ⟨htick.congr rfl hreports.settled rfl, hclock.stepped hreports.clock rfl rfl rfl⟩
  | clockAnswer m rest c o x running head held result =>
    have hm := ClockRequest.tickOf_of_resultOf result
    exact ⟨htick.answerTaken head hm rfl rfl rfl, hclock.ended head hm held rfl rfl rfl⟩
  | arbiter p t r running ready head => exact ⟨htick.congr rfl rfl rfl, hclock.congr rfl rfl rfl⟩
  | trim a running call =>
    obtain ⟨busy, y, hanswer⟩ := s.timebase.trim_answers a
    refine ⟨htick.sent rfl rfl (.trim s.timebase a), hclock.answered (m := .trimAnswer busy y) call (fun k hk => hk) rfl rfl ?_⟩
    exact (List.filter_append ..).trans (by rw [hanswer]; rfl)
  | readClock running call =>
    have hsent : (State.answersOnPath { s.sendFromTimebase [.clockAnswer s.timebase.now s.timebase.phase
        s.timebase.debt] with toTimebase := Option.none }) = s.answersOnPath ++
          [.clockAnswer s.timebase.now s.timebase.phase s.timebase.debt] := List.filter_append ..
    exact ⟨htick.sent rfl rfl (.none rfl), hclock.answered (m := .clockAnswer ..) call (fun k hk => hk) rfl rfl hsent⟩
  | message p m rest a running head taken => exact ⟨htick.congr rfl rfl rfl, hclock.congr rfl rfl rfl⟩
  | link p a ms running moved => exact ⟨htick.congr rfl rfl rfl, hclock.congr rfl rfl rfl⟩

end

/-- Settles O57: a tick or an answer leaves the path at its head as a tick or an answer joined it at its tail. -/
theorem stepsKeepTicksAndClockRequestInOrder : Obligations.StepsKeepTicksAndClockRequestInOrder := by
  intro s s' hlaws hstep
  exact step_keeps (P := fun s => TickLaw s ∧ ClockLaw s) (fun _ _ h => h)
    (fun _ _ hmove h => hmove.keeps_time h.1 h.2) hlaws hstep

end Sys2Proof.Machine

/-! ## What the ports hold: proofs about `StepsKeepPortsInformed` (R99, R121, R140) -/

namespace Sys2Proof.Machine

/-- What a port holds of the engine: the marked-record count, the session values and the freeze flags. -/
def AgentPort.heldValues (a : AgentPort) : Nat × (Bool × AttnMask × Bool) × Bool × Bool :=
  (a.marked, (a.sessionOpen, a.mask, a.lost), (a.frozen, a.freezeOwner))

/-- Once port `p` has taken the messages `down`, it holds the values of the engine `e`. -/
structure PortInformed (held : Nat × (Bool × AttnMask × Bool) × Bool × Bool) (down : List EngineMsg) (e : Engine)
    (p : Port) : Prop where
  marked  : lastOr EngineMsg.markedOf down held.1 = e.markedCount p
  session : lastOr EngineMsg.sessionOf down held.2.1 = e.shownSession p
  freeze  : lastOr EngineMsg.freezeOf down held.2.2 = e.shownFreeze p

theorem informedLaw_iff {s : State} :
    InformedLaw s ↔ ∀ p, PortInformed (s.port p).heldValues (pick s.toPort p) s.engine p :=
  forall_congr' fun _ => ⟨fun ⟨hmarked, hsession, hfreeze⟩ => ⟨hmarked, hsession, hfreeze⟩,
    fun ⟨hmarked, hsession, hfreeze⟩ => ⟨hmarked, hsession, hfreeze⟩⟩

/-! ### What a message that is taken makes of the port -/

section
variable {a b : AgentPort} {t : Tag}

theorem AgentPort.takeAnswer_ok {x : Answer} (h : a.takeAnswer t x = .ok b) :
    (∃ r co, a.context t = .queued r true co ∧ b = (a.unlist t).setContext t (x.settle r co)) ∨
      (a.context t = .free ∧ b = a) := by
  unfold AgentPort.takeAnswer at h
  split at h
  next r co hc => exact .inl ⟨r, co, hc, (Except.ok.inj h).symm⟩
  next hc => exact .inr ⟨hc, (Except.ok.inj h).symm⟩
  · cases h

theorem AgentPort.takeCompletion_ok {c : Completion} (h : a.takeCompletion t c = .ok b) :
    (∃ r k co, a.context t = .waiting r k co ∧ b = a.setContext t (c.settle r k co)) ∨
      (a.context t = .free ∧ b = a) := by
  unfold AgentPort.takeCompletion at h
  split at h
  next r k co hc => exact .inl ⟨r, k, co, hc, (Except.ok.inj h).symm⟩
  next hc => exact .inr ⟨hc, (Except.ok.inj h).symm⟩
  · cases h

theorem AgentPort.takeCancelLate_ok (h : a.takeCancelLate t = .ok b) :
    (∃ r, a.context t = .done r true ∧ b = a.setContext t (.done { r with late := true } false)) ∨
      (a.context t = .free ∧ b = a) := by
  unfold AgentPort.takeCancelLate at h
  split at h
  next r hc => exact .inl ⟨r, hc, (Except.ok.inj h).symm⟩
  next hc => exact .inr ⟨hc, (Except.ok.inj h).symm⟩
  · cases h

theorem AgentPort.takeDropComplete_ok (h : a.takeDropComplete = .ok b) :
    (a.link = .inReset ∧ a.dropOutstanding = true ∧ b = a.freed) ∨ (a.link = .draining ∧ b = a.freed.leaveReset) := by
  unfold AgentPort.takeDropComplete at h
  split at h
  next hl hd => exact .inl ⟨hl, hd, (Except.ok.inj h).symm⟩
  next hl => exact .inr ⟨hl, (Except.ok.inj h).symm⟩
  · cases h

end

/-! ### What a port does with its own events leaves the held values -/

section
variable {a b : AgentPort} {t : Tag}

@[simp] theorem AgentPort.heldValues_recordFault (c : LinkFault) : (a.recordFault c).heldValues = a.heldValues := by
  unfold AgentPort.recordFault
  split <;> rfl

@[simp] theorem AgentPort.heldValues_judge (bytes : List Byte) (c : Byte) :
    (a.judge t bytes c).heldValues = a.heldValues := by
  unfold AgentPort.judge
  split
  · split
    · rfl
    · exact heldValues_recordFault _
  · exact heldValues_recordFault _

@[simp] theorem AgentPort.heldValues_frameByte (c : Byte) : (a.frameByte c).heldValues = a.heldValues := by
  unfold AgentPort.frameByte
  split
  · split
    · rfl
    · exact heldValues_recordFault _
  · split
    · split
      · rfl
      · exact heldValues_judge _ _
    · exact heldValues_recordFault _
  · exact heldValues_recordFault _
  · rfl

@[simp] theorem AgentPort.heldValues_frameBytes (bytes : List Byte) : (a.frameBytes bytes).heldValues = a.heldValues := by
  induction bytes generalizing a with
  | nil => rfl
  | cons c bytes ih => exact ih.trans (heldValues_frameByte c)

theorem LinkMove.heldValues {ms : List PortMsg} (h : LinkMove a b ms) : b.heldValues = a.heldValues := by
  cases h with
  | selectFall =>
    unfold AgentPort.selectFall
    split
    · rfl
    · split <;> rfl
  | selectRise =>
    unfold AgentPort.selectRise
    split
    · split
      · exact AgentPort.heldValues_recordFault _
      all_goals rfl
    · rfl
  | submit u bytes =>
    unfold AgentPort.submit
    split
    · exact AgentPort.heldValues_frameBytes bytes
    · split
      · exact AgentPort.heldValues_frameBytes bytes
      · rfl
    · rfl
  | bitAfterCheck =>
    unfold AgentPort.bitAfterCheck
    split
    · exact AgentPort.heldValues_recordFault _
    · rfl
  | fetch u => unfold AgentPort.fetch; split <;> rfl
  | fetchComplete => unfold AgentPort.fetchComplete; split <;> rfl
  | cancel u =>
    unfold AgentPort.cancel
    split
    · unfold AgentPort.cancelContext
      dsimp only
      split <;> rfl
    · rfl
  | statusReply => unfold AgentPort.statusReply; split <;> rfl
  | causeShiftedOut => unfold AgentPort.causeShiftedOut; split <;> rfl
  | unknownTransaction c =>
    unfold AgentPort.unknownTransaction
    split
    · exact AgentPort.heldValues_recordFault _
    · rfl

theorem AgentPort.heldValues_samplePrst (high : Bool) : (a.samplePrst high).1.heldValues = a.heldValues := by
  unfold AgentPort.samplePrst
  dsimp only
  split
  · unfold AgentPort.resetEvent
    dsimp only
    split <;> rfl
  · unfold AgentPort.releaseEvent
    dsimp only
    split
    · split <;> rfl
    · rfl
  · rfl

/-- The held values after a message: the value that it carries takes its place. -/
theorem AgentPort.heldValues_message {m : EngineMsg} (h : a.messageEffect m = .ok b) :
    b.heldValues = (m.markedOf.getD a.marked, m.sessionOf.getD (a.sessionOpen, a.mask, a.lost),
      m.freezeOf.getD (a.frozen, a.freezeOwner)) := by
  cases m with
  | answer u x => rcases takeAnswer_ok h with ⟨_, _, -, rfl⟩ | ⟨-, rfl⟩ <;> rfl
  | completion u c => rcases takeCompletion_ok h with ⟨_, _, _, -, rfl⟩ | ⟨-, rfl⟩ <;> rfl
  | cancelLate u => rcases takeCancelLate_ok h with ⟨_, -, rfl⟩ | ⟨-, rfl⟩ <;> rfl
  | marked n => cases h; rfl
  | session o k l => cases h; rfl
  | freeze f o => cases h; rfl
  | dropComplete => rcases takeDropComplete_ok h with ⟨-, -, rfl⟩ | ⟨-, rfl⟩ <;> rfl

end

/-! ### The law under each change of the state -/

section
variable {s s' : State} {p : Port} {held : Nat × (Bool × AttnMask × Bool) × Bool × Bool} {down : List EngineMsg}
  {e e' : Engine}

/-- The engine's event tells the port what it changed. -/
theorem PortInformed.told {out : List Out} (h : PortInformed held down e p) (hout : Informs e e' out) :
    PortInformed held (down ++ outFor p out) e' p where
  marked := by rw [lastOr_append, h.marked, hout.marked]
  session := by rw [lastOr_append, h.session, hout.session]
  freeze := by rw [lastOr_append, h.freeze, hout.freeze]

/-- The port takes the head of its path. -/
theorem PortInformed.taken {m : EngineMsg} {a b : AgentPort} (h : PortInformed a.heldValues (m :: down) e p)
    (hm : a.messageEffect m = .ok b) : PortInformed b.heldValues down e p := by
  rw [AgentPort.heldValues_message hm]
  exact ⟨(lastOr_cons ..).symm.trans h.marked, (lastOr_cons ..).symm.trans h.session,
    (lastOr_cons ..).symm.trans h.freeze⟩

/-- An event of the ports alone. -/
theorem InformedLaw.atPorts (h : InformedLaw s) (hheld : ∀ q, (s'.port q).heldValues = (s.port q).heldValues)
    (hpath : s'.toPort = s.toPort) (hengine : s'.engine = s.engine) : InformedLaw s' := by
  rw [informedLaw_iff] at h ⊢
  intro q
  rw [hheld, hpath, hengine]
  exact h q

/-- An event of the engine. -/
theorem InformedLaw.told {f : Effect} (h : InformedLaw s) (hf : Informs s.engine f.engine f.out)
    (hports : s'.ports = s.ports) (hpath : s'.toPort = tab fun q => pick s.toPort q ++ outFor q f.out)
    (hengine : s'.engine = f.engine) : InformedLaw s' := by
  rw [informedLaw_iff] at h ⊢
  intro q
  rw [State.port, hports, hpath, hengine, pick_tab]
  exact (h q).told hf

theorem Informs.endClock (e : Engine) (c : ClockRequest) (o : ResultCode) (x : Payload) :
    Informs e (e.endClock c o x).engine (e.endClock c o x).out := by
  refine .silent ?_ (fun _ => rfl) (fun _ => rfl) fun _ => rfl
  unfold Engine.endClock
  dsimp only
  split
  · exact .nil
  · exact .single ⟨rfl, rfl, rfl⟩

theorem PortInformed.reset (b : Bool) (p : Port) :
    PortInformed (AgentPort.reset b).heldValues [] Engine.reset p := by
  refine ⟨?_, ?_, rfl⟩
  · exact (show Engine.reset.markedCount p = 0 by
      simp [Engine.markedCount, Engine.countSlots, Engine.record_reset, Record.isMarked]).symm
  · change _ = ((Engine.reset.session p).isOpen, (Engine.reset.session p).mask, (Engine.reset.session p).lost)
    rw [Engine.session, Engine.reset, pick_tab]
    rfl

/-- After device reset, whatever the levels of SELn and the queue of commands. -/
theorem InformedLaw.reset (sel : Port → Bool) (q : List Instr) :
    InformedLaw { State.reset with ports := tab fun p => AgentPort.reset (sel p), pending := q } := by
  rw [informedLaw_iff]
  intro p
  rw [State.port_of_ports rfl, show pick State.reset.toPort p = [] from pick_tab ..]
  exact .reset _ p

theorem Move.keeps_informed (hmove : Move s s') (h : InformedLaw s) : InformedLaw s' := by
  cases hmove with
  | none => exact h
  | deviceReset => exact .reset (fun p => (s.port p).selLow) s.pending
  | release straps prst low =>
    rw [informedLaw_iff] at h ⊢
    intro q
    rw [State.port_of_ports rfl]
    have hshown : (s.engine.atRelease straps).shownSession q = s.engine.shownSession q := by
      simp only [Engine.shownSession, Engine.session, Engine.atRelease, pick_tab]
    exact ⟨(h q).marked, (h q).session.trans hshown.symm, (h q).freeze⟩
  | selectLevel p level low =>
    refine h.atPorts (fun q => ?_) rfl rfl
    rw [State.port_setPort]
    split
    next hq => rw [hq]; rfl
    · rfl
  | edge prst running =>
    refine h.atPorts (fun q => ?_) rfl rfl
    rw [State.port_of_ports rfl]
    exact AgentPort.heldValues_samplePrst _
  | tick n rest running head => exact h.told (Reports.of_tick s.engine n).informs rfl rfl rfl
  | take p m rest running head free => exact h.told (Reports.of_portEffect s.engine p free).informs rfl rfl rfl
  | clockAnswer m rest c o x running head held result => exact h.told (.endClock s.engine c o x) rfl rfl rfl
  | arbiter p t r running ready head =>
    refine h.atPorts (fun q => ?_) rfl rfl
    change ((s.setPort p ((s.port p).held t r)).port q).heldValues = _
    rw [State.port_setPort]
    split
    next hq => rw [hq]; rfl
    · rfl
  | trim a running call => exact h.atPorts (fun _ => rfl) rfl rfl
  | readClock running call => exact h.atPorts (fun _ => rfl) rfl rfl
  | message p m rest a running head taken =>
    rw [informedLaw_iff] at h ⊢
    intro q
    rw [State.port_setPort, State.setPort_toPort, State.setPort_engine, State.restToPort_toPort, pick_put]
    split
    next hq =>
      subst hq
      have hq := h q
      rw [head] at hq
      exact hq.taken taken
    · exact h q
  | link p a ms running moved =>
    refine h.atPorts (fun q => ?_) rfl rfl
    rw [State.sendToEngine_port, State.port_setPort]
    split
    next hq => rw [hq]; exact moved.heldValues
    · rfl

end

/-- Settles O58: the messages of every event of the engine tell each port what it changed. -/
theorem stepsKeepPortsInformed : Obligations.StepsKeepPortsInformed := fun _ _ hlaw hstep =>
  step_keeps (fun _ _ h => h) (fun _ _ hmove h => hmove.keeps_informed h) hlaw hstep

end Sys2Proof.Machine

/-! ## Submission lists, FETCH and SELn: proofs about `StepsKeepSubmissionListsAndLinks` (R153, R166, R167, R171) -/

namespace Sys2Proof.Machine

section
variable {a b : AgentPort} {t : Tag} {c : Context}

/-! ### The submission list (R153) -/

theorem SubmissionLaw.congr (h : SubmissionLaw a) (hcontexts : b.contexts = a.contexts)
    (hlist : b.submission = a.submission) : SubmissionLaw b := by
  unfold SubmissionLaw AgentPort.context at *
  rwa [hcontexts, hlist]

/-- With no context QUEUED and an empty list. -/
theorem SubmissionLaw.of_empty (hcontexts : ∀ u, (b.context u).isQueued = false) (hlist : b.submission = []) :
    SubmissionLaw b := by
  refine ⟨hlist ▸ List.nodup_nil, fun u => ?_, fun u r d hu => ?_⟩
  · simp [hlist, hcontexts u]
  · have hqueued := hcontexts u
    rw [hu] at hqueued
    cases hqueued

/-- A context that is not QUEUED is replaced by one that is not. -/
theorem SubmissionLaw.setUnqueued (h : SubmissionLaw a) (hold : (a.context t).isQueued = false)
    (hnew : c.isQueued = false) : SubmissionLaw (a.setContext t c) := by
  obtain ⟨hnodup, hmem, hhead⟩ := h
  refine ⟨hnodup, fun u => ?_, fun u r d hu => ?_⟩
  · rw [AgentPort.context_setContext]
    split
    next hut => rw [hut, hnew, ← hold]; exact hmem t
    · exact hmem u
  · rw [AgentPort.context_setContext] at hu
    split at hu
    · rw [hu] at hnew; cases hnew
    · exact hhead u r d hu

/-- A QUEUED context becomes another one; a held one stands at the head. -/
theorem SubmissionLaw.setQueued {r : Request} {d held : Bool} (h : SubmissionLaw a)
    (hold : (a.context t).isQueued = true) (hheld : held = true → a.submission.head? = some t) :
    SubmissionLaw (a.setContext t (.queued r held d)) := by
  obtain ⟨hnodup, hmem, hhead⟩ := h
  refine ⟨hnodup, fun u => ?_, fun u r' d' hu => ?_⟩
  · rw [AgentPort.context_setContext]
    split
    next hut => rw [hut]; exact (hmem t).trans (iff_of_true hold rfl)
    · exact hmem u
  · rw [AgentPort.context_setContext] at hu
    split at hu
    next hut => cases hu; rw [hut]; exact hheld rfl
    · exact hhead u r' d' hu

/-- What remains of a list without one tag still has at its head what stood there. -/
theorem head?_filter_ne {l : List Tag} {u : Tag} (hhead : l.head? = some u) (hne : u ≠ t) :
    (l.filter fun v => v != t).head? = some u := by
  cases l with
  | nil => cases hhead
  | cons v l =>
    cases hhead
    rw [List.filter_cons_of_pos (by simpa using hne)]
    rfl

/-- A context leaves the list and is QUEUED no more. -/
theorem SubmissionLaw.unlisted (h : SubmissionLaw a) (hnew : c.isQueued = false) :
    SubmissionLaw ((a.unlist t).setContext t c) := by
  obtain ⟨hnodup, hmem, hhead⟩ := h
  refine ⟨hnodup.filter _, fun u => ?_, fun u r d hu => ?_⟩
  · rw [AgentPort.context_setContext]
    change u ∈ a.submission.filter (fun v => v != t) ↔ _
    rw [List.mem_filter, hmem u]
    split
    next hut => simp [hut, hnew]
    next hut => simp [hut, AgentPort.context, AgentPort.unlist]
  · rw [AgentPort.context_setContext] at hu
    split at hu
    · rw [hu] at hnew; cases hnew
    next hut => exact head?_filter_ne (hhead u r d hu) hut

/-- An accepted frame makes a FREE context the last of the list. -/
theorem SubmissionLaw.accepted {r : Request} (h : SubmissionLaw a) (hold : a.context t = .free) :
    SubmissionLaw (a.accept t r) := by
  obtain ⟨hnodup, hmem, hhead⟩ := h
  have hcontext (u : Tag) : (a.accept t r).context u = if u = t then .queued r false false else a.context u :=
    AgentPort.context_setContext a t u _
  have hout : t ∉ a.submission := by rw [hmem, hold]; nofun
  refine ⟨List.nodup_append.mpr ⟨hnodup, List.nodup_singleton t, ?_⟩, fun u => ?_, fun u r' d' hu => ?_⟩
  · rintro u hu v hv rfl
    exact hout (List.mem_singleton.mp hv ▸ hu)
  · rw [hcontext]
    change u ∈ a.submission ++ [t] ↔ _
    rw [List.mem_append, List.mem_singleton, hmem u]
    split
    next hut => simp [hut, Context.isQueued]
    next hut => simp [hut]
  · rw [hcontext] at hu
    split at hu
    · cases hu
    · exact (List.head?_append ..).trans (by rw [hhead u r' d' hu]; rfl)

/-! ### The record under a FETCH (R171) -/

/-- Where no record is shifted out. -/
theorem FetchLaw.of_link (hlink : ∀ u out, b.link ≠ .reply (.record u) out) : FetchLaw b := fun u out h =>
  (hlink u out h).elim

theorem FetchLaw.congr (h : FetchLaw a) (hcontexts : b.contexts = a.contexts) (hlink : b.link = a.link) :
    FetchLaw b := by
  unfold FetchLaw AgentPort.context at *
  rwa [hcontexts, hlink]

/-- A context other than DONE with cancel-outstanding clear is replaced. -/
theorem FetchLaw.setContext (h : FetchLaw a) (hold : ∀ r, a.context t ≠ .done r false) :
    FetchLaw (a.setContext t c) := by
  intro u out hlink
  obtain ⟨r, hr, hout⟩ := h u out hlink
  have hut : u ≠ t := fun hut => hold r (hut ▸ hr)
  exact ⟨r, by rw [AgentPort.context_setContext, if_neg hut, hr], hout⟩

/-! ### SELn (R166, R167) -/

theorem SelectLaw.congr (h : SelectLaw a) (hlink : b.link = a.link) (hsel : b.selLow = a.selLow) : SelectLaw b := by
  unfold SelectLaw at *
  rwa [hlink, hsel]

theorem SelectLaw.of_low (hsel : b.selLow = true) (hlink : b.link ≠ .standby) : SelectLaw b := by
  unfold SelectLaw
  cases hl : b.link with
  | standby => exact (hlink hl).elim
  | inReset | draining => trivial
  | command | frame _ _ | reply _ _ | ignore => exact hsel

/-- Outside STANDBY and a port reset SELn is low. -/
theorem SelectLaw.low (h : SelectLaw a) (hlink : a.link ≠ .standby ∧ a.link ≠ .inReset ∧ a.link ≠ .draining) :
    a.selLow = true := by
  obtain ⟨hstandby, hreset, hdraining⟩ := hlink
  unfold SelectLaw at h
  cases hl : a.link with
  | standby => exact (hstandby hl).elim
  | inReset => exact (hreset hl).elim
  | draining => exact (hdraining hl).elim
  | command | frame _ _ | reply _ _ | ignore => rw [hl] at h; exact h

/-! ### The three laws of a port while RESETn is high -/

structure PortOrder (a : AgentPort) : Prop where
  list   : SubmissionLaw a
  fetch  : FetchLaw a
  select : SelectLaw a

theorem PortOrder.congr (h : PortOrder a) (hcontexts : b.contexts = a.contexts) (hlist : b.submission = a.submission)
    (hlink : b.link = a.link) (hsel : b.selLow = a.selLow) : PortOrder b :=
  ⟨h.list.congr hcontexts hlist, h.fetch.congr hcontexts hlink, h.select.congr hlink hsel⟩

theorem PortOrder.recordFault (h : PortOrder a) (x : LinkFault) : PortOrder (a.recordFault x) :=
  have ⟨hcontexts, hlist, hlink, hsel⟩ := a.recordFault_same x
  h.congr hcontexts hlist hlink hsel

/-- The link moves on inside a transaction, to no record. -/
theorem PortOrder.linked (h : PortOrder a) (hsel : a.selLow = true) {l : Link}
    (hlink : l ≠ .standby ∧ ∀ u out, l ≠ .reply (.record u) out) : PortOrder { a with link := l } :=
  ⟨h.list.congr rfl rfl, .of_link hlink.2, .of_low hsel hlink.1⟩

theorem SubmissionLaw.judged (h : SubmissionLaw a) (bytes : List Byte) (x : Byte) : SubmissionLaw (a.judge t bytes x) := by
  have hfault (f : LinkFault) : SubmissionLaw (a.recordFault f) :=
    h.congr (a.recordFault_same f).1 (a.recordFault_same f).2.1
  unfold AgentPort.judge
  split
  · split
    next hfree _ => exact h.accepted hfree
    · exact hfault _
  · exact hfault _

theorem PortOrder.frameByte (h : PortOrder a) (x : Byte) : PortOrder (a.frameByte x) := by
  have hlow {u : Tag} {f : FrameProgress} (hlink : a.link = .frame u f) : a.selLow = true := h.select.low (by simp [hlink])
  have hunknown {u : Tag} {f : FrameProgress} (hlink : a.link = .frame u f) :
      PortOrder { a.recordFault .unknownRequest with link := .ignore } :=
    (h.recordFault _).linked ((a.recordFault_same _).2.2.2.trans (hlow hlink)) ⟨nofun, nofun⟩
  unfold AgentPort.frameByte
  split
  next hlink =>
    split
    · exact h.linked (hlow hlink) ⟨nofun, nofun⟩
    · exact hunknown hlink
  next hlink =>
    split
    · split
      · exact h.linked (hlow hlink) ⟨nofun, nofun⟩
      · exact ⟨(h.list.judged _ x).congr rfl rfl, .of_link nofun,
          .of_low ((a.judge_link _ _ x).2.trans (hlow hlink)) nofun⟩
    · exact hunknown hlink
  · exact h.recordFault _
  · exact h

theorem PortOrder.frameBytes (h : PortOrder a) (bytes : List Byte) : PortOrder (a.frameBytes bytes) := by
  induction bytes generalizing a with
  | nil => exact h
  | cons x bytes ih => exact ih (h.frameByte x)

theorem PortOrder.selectFall (h : PortOrder a) : PortOrder a.selectFall := by
  unfold AgentPort.selectFall
  split
  · exact h
  next hhigh =>
    split
    · exact ⟨h.list.congr rfl rfl, .of_link nofun, .of_low rfl nofun⟩
    next hstandby => exact ⟨h.list.congr rfl rfl, h.fetch.congr rfl rfl, .of_low rfl hstandby⟩

theorem PortOrder.selectRise (h : PortOrder a) : PortOrder a.selectRise := by
  have hended {l : Link} (hlink : l = .standby) {b : AgentPort} (hcontexts : b.contexts = a.contexts)
      (hlist : b.submission = a.submission) : PortOrder { b with selLow := false, link := l } :=
    ⟨h.list.congr hcontexts hlist, .of_link (by rw [hlink]; nofun), by rw [hlink]; rfl⟩
  have hkept (hlink : a.link = .standby ∨ a.link = .inReset ∨ a.link = .draining) :
      PortOrder { a with selLow := false } := by
    refine ⟨h.list.congr rfl rfl, h.fetch.congr rfl rfl, ?_⟩
    unfold SelectLaw
    rcases hlink with hlink | hlink | hlink <;> simp [hlink]
  unfold AgentPort.selectRise
  split
  · split
    · exact hended rfl (a.recordFault_same _).1 (a.recordFault_same _).2.1
    · exact hended rfl rfl rfl
    · exact hended rfl rfl rfl
    · exact hended rfl rfl rfl
    · exact hended rfl rfl rfl
    next hlink => exact hkept (.inl hlink)
    next hlink => exact hkept (.inr (.inl hlink))
    next hlink => exact hkept (.inr (.inr hlink))
  · exact h

/-- CANCEL leaves each context in its place in the list, or takes it out of it. -/
theorem SubmissionLaw.cancelContext (h : SubmissionLaw a) (t : Tag) : SubmissionLaw (a.cancelContext t).1 := by
  unfold AgentPort.cancelContext
  split
  · exact h
  · exact h.unlisted rfl
  next r hc => exact h.setQueued (by rw [hc]; rfl) fun _ => h.2.2 t r false hc
  · exact h
  next hc => exact h.setUnqueued (by rw [hc]; rfl) rfl
  · exact h
  · exact h

theorem AgentPort.cancelContext_selLow (a : AgentPort) (t : Tag) : (a.cancelContext t).1.selLow = a.selLow := by
  unfold AgentPort.cancelContext
  split <;> rfl

/-- An event at the port's link. -/
theorem PortOrder.moved (h : PortOrder a) {ms : List PortMsg} (hmove : LinkMove a b ms) : PortOrder b := by
  have hlow (hlink : a.link = .command) : a.selLow = true := h.select.low (by simp [hlink])
  cases hmove with
  | selectFall => exact h.selectFall
  | selectRise => exact h.selectRise
  | submit u bytes =>
    unfold AgentPort.submit
    split
    next hlink =>
      exact (h.linked (l := .frame u (.collecting [])) (hlow hlink) ⟨nofun, nofun⟩).frameBytes bytes
    · split
      · exact h.frameBytes bytes
      · exact h
    · exact h
  | bitAfterCheck =>
    unfold AgentPort.bitAfterCheck
    split
    · exact h.recordFault _
    · exact h
  | fetch u =>
    unfold AgentPort.fetch
    split
    next r hlink hdone =>
      refine ⟨h.list.congr rfl rfl, fun v out hrecord => ?_, .of_low (hlow hlink) nofun⟩
      cases hrecord
      exact ⟨r, hdone, rfl⟩
    next hlink _ => exact h.linked (hlow hlink) ⟨nofun, nofun⟩
    · exact h
  | fetchComplete =>
    unfold AgentPort.fetchComplete
    split
    next u out hlink =>
      obtain ⟨r, hr, -⟩ := h.fetch u out hlink
      exact ⟨(h.list.setUnqueued (c := .free) (by rw [hr]; rfl) rfl).congr rfl rfl, .of_link nofun,
        .of_low (h.select.low (by simp [hlink])) nofun⟩
    · exact h
  | cancel u =>
    unfold AgentPort.cancel
    split
    next hlink =>
      exact ⟨(h.list.cancelContext u).congr rfl rfl, .of_link nofun,
        .of_low ((a.cancelContext_selLow u).trans (hlow hlink)) nofun⟩
    · exact h
  | statusReply =>
    unfold AgentPort.statusReply
    split
    next hlink => exact h.linked (hlow hlink) ⟨nofun, nofun⟩
    · exact h
  | causeShiftedOut =>
    unfold AgentPort.causeShiftedOut
    split
    next hlink =>
      exact ⟨h.list.congr rfl rfl, .of_link nofun, .of_low (h.select.low (by simp [hlink])) nofun⟩
    · exact h
  | unknownTransaction x =>
    unfold AgentPort.unknownTransaction
    split
    next hlink _ =>
      exact (h.recordFault _).linked ((a.recordFault_same _).2.2.2.trans (hlow hlink)) ⟨nofun, nofun⟩
    · exact h

/-! ### The other events at a port -/

/-- The link after a port reset, or after the release of RESETn, agrees with SELn. -/
theorem PortOrder.leaveReset (h : SubmissionLaw a) : PortOrder a.leaveReset := by
  refine ⟨h.congr rfl rfl, .of_link ?_, ?_⟩
  · unfold AgentPort.leaveReset
    dsimp only
    split <;> nofun
  · unfold AgentPort.leaveReset SelectLaw
    cases hsel : a.selLow <;> simp

theorem PortOrder.resetEvent (a : AgentPort) : PortOrder a.resetEvent.1 := by
  have hcontext (u : Tag) : (pick (tab fun u => (a.context u).atPortReset) u).isQueued = false := by
    rw [pick_tab]
    cases a.context u <;> rfl
  unfold AgentPort.resetEvent
  dsimp only
  split <;> exact ⟨.of_empty hcontext rfl, .of_link nofun, trivial⟩

theorem PortOrder.releaseEvent (h : PortOrder a) : PortOrder a.releaseEvent := by
  unfold AgentPort.releaseEvent
  split
  · split
    · exact ⟨h.list.congr rfl rfl, .of_link nofun, trivial⟩
    · exact .leaveReset h.list
  · exact h

theorem PortOrder.samplePrst (h : PortOrder a) (high : Bool) : PortOrder (a.samplePrst high).1 := by
  have hfiltered : PortOrder { a with filter := (a.filter.sample high).1 } := h.congr rfl rfl rfl rfl
  unfold AgentPort.samplePrst
  dsimp only
  split
  · exact .resetEvent _
  · exact hfiltered.releaseEvent
  · exact hfiltered

theorem SubmissionLaw.freed (a : AgentPort) : SubmissionLaw a.freed :=
  .of_empty (fun u => by rw [AgentPort.context, AgentPort.freed, pick_tab]; rfl) rfl

/-- A message of the engine. -/
theorem PortOrder.message (h : PortOrder a) {m : EngineMsg} (hm : a.messageEffect m = .ok b) : PortOrder b := by
  cases m with
  | answer u x =>
    rcases AgentPort.takeAnswer_ok hm with ⟨r, co, hc, rfl⟩ | ⟨-, rfl⟩
    · refine ⟨h.list.unlisted (by cases x <;> rfl), ?_, h.select.congr rfl rfl⟩
      exact FetchLaw.setContext (h.fetch.congr (b := a.unlist u) rfl rfl) fun r' hr => by
        cases hc.symm.trans hr
    · exact h
  | completion u c =>
    rcases AgentPort.takeCompletion_ok hm with ⟨r, k, co, hc, rfl⟩ | ⟨-, rfl⟩
    · exact ⟨h.list.setUnqueued (by rw [hc]; rfl) rfl, h.fetch.setContext (by simp [hc]), h.select.congr rfl rfl⟩
    · exact h
  | cancelLate u =>
    rcases AgentPort.takeCancelLate_ok hm with ⟨r, hc, rfl⟩ | ⟨-, rfl⟩
    · exact ⟨h.list.setUnqueued (by rw [hc]; rfl) rfl, h.fetch.setContext (by simp [hc]), h.select.congr rfl rfl⟩
    · exact h
  | marked n => cases hm; exact h.congr rfl rfl rfl rfl
  | session o k l => cases hm; exact h.congr rfl rfl rfl rfl
  | freeze f o => cases hm; exact h.congr rfl rfl rfl rfl
  | dropComplete =>
    rcases AgentPort.takeDropComplete_ok hm with ⟨hlink, -, rfl⟩ | ⟨-, rfl⟩
    · refine ⟨.freed a, .of_link ?_, ?_⟩
      · change ∀ u out, a.link ≠ _
        rw [hlink]; nofun
      · change SelectLaw { a with contexts := _, submission := _, dropOutstanding := _ }
        unfold SelectLaw
        simp [hlink]
    · exact .leaveReset (.freed a)

/-- The arbiter's take of the head of the list. -/
theorem PortOrder.held {r : Request} {d : Bool} (h : PortOrder a) (hc : a.context t = .queued r false d)
    (hhead : a.submission.head? = some t) : PortOrder (a.held t r) :=
  ⟨h.list.setQueued (by rw [hc]; rfl) fun _ => hhead, h.fetch.setContext (by simp [hc]), h.select.congr rfl rfl⟩

theorem PortOrder.atRelease (h : SubmissionLaw a) (strap high : Bool) : PortOrder (a.atRelease strap high) := by
  refine ⟨h.congr rfl rfl, .of_link ?_, ?_⟩
  · unfold AgentPort.atRelease linkAtRelease
    dsimp only
    split
    · split <;> nofun
    · nofun
  · unfold AgentPort.atRelease linkAtRelease SelectLaw
    cases high
    · trivial
    · cases hsel : a.selLow <;> simp

theorem SubmissionLaw.reset (b : Bool) : SubmissionLaw (AgentPort.reset b) :=
  .of_empty (fun u => by rw [AgentPort.context, AgentPort.reset, pick_tab]; rfl) rfl

end

/-! ### Every command -/

/-- The laws of the four ports; that of SELn while RESETn is high. -/
def PortsInOrder (s : State) : Prop :=
  (∀ p, SubmissionLaw (s.port p) ∧ FetchLaw (s.port p)) ∧ (s.resetLow = false → ∀ p, SelectLaw (s.port p))

section
variable {s s' : State}

theorem PortsInOrder.running (h : PortsInOrder s) (hrun : s.resetLow = false) (p : Port) : PortOrder (s.port p) :=
  ⟨(h.1 p).1, (h.1 p).2, h.2 hrun p⟩

theorem PortsInOrder.of_ports (h : ∀ p, PortOrder (s.port p)) : PortsInOrder s :=
  ⟨fun p => ⟨(h p).list, (h p).fetch⟩, fun _ p => (h p).select⟩

/-- An event of the engine or the timebase. -/
theorem PortsInOrder.congr (h : PortsInOrder s) (hreset : s'.resetLow = s.resetLow) (hports : s'.ports = s.ports) :
    PortsInOrder s' := by
  unfold PortsInOrder State.port at *
  rwa [hreset, hports]

/-- An event at one port. -/
theorem PortsInOrder.setPort {p : Port} {a : AgentPort} (h : PortsInOrder s) (hrun : s.resetLow = false)
    (ha : PortOrder a) (hports : s'.ports = put s.ports p a) : PortsInOrder s' := by
  refine .of_ports fun q => ?_
  rw [State.port, hports, pick_put]
  split
  · exact ha
  · exact h.running hrun q

/-- The head that the arbiter takes stands at the head of its list, QUEUED and not held. -/
theorem State.takable_some {p : Port} {t : Tag} {r : Request} (h : s.takable p = some (t, r)) :
    (s.port p).submission.head? = some t ∧ (∃ d, (s.port p).context t = .queued r false d) ∧
      s.engine.eligible p r.code = true := by
  unfold State.takable at h
  split at h
  · cases h
  next u l hlist =>
    split at h
    next r' d hc =>
      split at h
      next helig => cases h; exact ⟨by rw [hlist]; rfl, ⟨d, hc⟩, helig⟩
      · cases h
    · cases h

theorem Move.keeps_ports (hmove : Move s s') (h : PortsInOrder s) : PortsInOrder s' := by
  cases hmove with
  | none => exact h
  | deviceReset =>
    refine ⟨fun p => ?_, nofun⟩
    rw [State.port_of_ports rfl]
    exact ⟨.reset _, .of_link nofun⟩
  | release straps prst low =>
    refine .of_ports fun p => ?_
    rw [State.port_of_ports rfl]
    exact .atRelease (h.1 p).1 _ _
  | selectLevel p level low =>
    refine ⟨fun q => ?_, fun hrun => by cases low.symm.trans hrun⟩
    rw [State.port_setPort]
    split
    · exact ⟨(h.1 p).1.congr rfl rfl, (h.1 p).2.congr rfl rfl⟩
    · exact h.1 q
  | edge prst running =>
    refine .of_ports fun p => ?_
    rw [State.port_of_ports rfl]
    exact (h.running running p).samplePrst _
  | tick n rest running head => exact h.congr rfl rfl
  | take p m rest running head free => exact h.congr rfl rfl
  | clockAnswer m rest c o x running head held result => exact h.congr rfl rfl
  | arbiter p t r running ready head =>
    obtain ⟨hhead, ⟨d, hc⟩, -⟩ := State.takable_some head
    exact h.setPort running ((h.running running p).held hc hhead) rfl
  | trim a running call => exact h.congr rfl rfl
  | readClock running call => exact h.congr rfl rfl
  | message p m rest a running head taken => exact h.setPort running ((h.running running p).message taken) rfl
  | link p a ms running moved => exact h.setPort running ((h.running running p).moved moved) rfl

end

/-- Settles O59: each event at a port keeps the list with its contexts, the fetched record and the link with SELn. -/
theorem stepsKeepSubmissionListsAndLinks : Obligations.StepsKeepSubmissionListsAndLinks := fun _ _ hlaws hstep =>
  step_keeps (P := PortsInOrder) (fun _ _ h => h) (fun _ _ hmove h => hmove.keeps_ports h) hlaws hstep

end Sys2Proof.Machine

/-! ## The two lists and the match of requests to contexts: proofs about `StepsKeepBothLists` (R39, R65, R158) -/

namespace Sys2Proof.Machine

/-- Region and mode of a lease with a pending conversion. -/
def Record.pending : Record → Option (Region × Mode)
  | .held x => if x.conv.isSome then some (x.region, x.mode) else none
  | _ => none

theorem Record.pending_isSome (r : Record) : r.pending.isSome = r.conv.isSome := by
  cases r with
  | held x => cases h : x.conv <;> simp [Record.pending, Record.conv, h]
  | _ => rfl

theorem Record.pending_eq_some {r : Record} {g : Region} {m : Mode} :
    r.pending = some (g, m) ↔ ∃ x, r = .held x ∧ x.conv.isSome = true ∧ x.region = g ∧ x.mode = m := by
  cases r with
  | held x => simp [Record.pending]
  | _ => simp [Record.pending]

/-- The laws of the wait list and the conversion list, by what each record has to do with them. -/
structure ListLaws (e : Engine) : Prop where
  waitsOnce : e.waitList.Nodup
  waits     : ∀ k, k ∈ e.waitList ↔ (e.record k).isWaiting = true
  convsOnce : e.convList.Nodup
  convs     : ∀ k, k ∈ e.convList ↔ (e.record k).pending.isSome = true
  shared    : ∀ k g m, (e.record k).pending = some (g, m) → m = .shared
  apart     : ∀ j k g m g' m', j ≠ k → (e.record j).pending = some (g, m) → (e.record k).pending = some (g', m') →
    g.overlaps g' = false

theorem listLaws_iff {e : Engine} : ListLaws e ↔ WaitListLaw e ∧ ConvListLaw e := by
  constructor
  · intro h
    refine ⟨⟨h.waitsOnce, h.waits⟩, h.convsOnce, fun k => by rw [h.convs, Record.pending_isSome], ?_, ?_⟩
    · exact fun k x hx hc => h.shared k x.region x.mode (Record.pending_eq_some.mpr ⟨x, hx, hc, rfl, rfl⟩)
    · exact fun j k x y hjk hx hy hcx hcy => h.apart j k x.region x.mode y.region y.mode hjk
        (Record.pending_eq_some.mpr ⟨x, hx, hcx, rfl, rfl⟩) (Record.pending_eq_some.mpr ⟨y, hy, hcy, rfl, rfl⟩)
  · rintro ⟨⟨hwo, hw⟩, hco, hc, hshared, hapart⟩
    refine ⟨hwo, hw, hco, fun k => by rw [hc, Record.pending_isSome], ?_, ?_⟩
    · intro k g m hk
      obtain ⟨x, hx, hcx, -, rfl⟩ := Record.pending_eq_some.mp hk
      exact hshared k x hx hcx
    · intro j k g m g' m' hjk hj hk
      obtain ⟨x, hx, hcx, rfl, -⟩ := Record.pending_eq_some.mp hj
      obtain ⟨y, hy, hcy, rfl, -⟩ := Record.pending_eq_some.mp hk
      exact hapart j k x y hjk hx hy hcx hcy

section
variable {a b e : Engine}

/-- A change that takes the slots `f` out of the wait list and `g` out of the conversion list. -/
structure Drops (f g : SlotNo → Bool) (a b : Engine) : Prop where
  waitList : b.waitList = dropSlots f a.waitList
  waiting  : ∀ k, (b.record k).isWaiting = ((a.record k).isWaiting && !f k)
  convList : b.convList = dropSlots g a.convList
  pending  : ∀ k, (b.record k).pending = if g k then none else (a.record k).pending

/-- No slot leaves either list. -/
abbrev Untouched : Engine → Engine → Prop := Drops (fun _ => false) fun _ => false

theorem dropSlots_none (l : List SlotNo) : dropSlots (fun _ => false) l = l := List.filter_true l

theorem Untouched.mk' (hwaits : b.waitList = a.waitList) (hconvs : b.convList = a.convList)
    (hrecord : ∀ k, (b.record k).isWaiting = (a.record k).isWaiting ∧ (b.record k).pending = (a.record k).pending) :
    Untouched a b where
  waitList := hwaits.trans (dropSlots_none _).symm
  waiting k := by rw [(hrecord k).1]; simp
  convList := hconvs.trans (dropSlots_none _).symm
  pending k := (hrecord k).2

theorem ListLaws.dropped {f g : SlotNo → Bool} (ha : ListLaws a) (h : Drops f g a b) : ListLaws b := by
  have hpending {k : SlotNo} {v : Region × Mode} (hk : (b.record k).pending = some v) :
      (a.record k).pending = some v := by
    rw [h.pending] at hk
    split at hk
    · cases hk
    · exact hk
  refine ⟨?_, fun k => ?_, ?_, fun k => ?_, ?_, ?_⟩
  · rw [h.waitList]; exact nodup_dropSlots f ha.waitsOnce
  · rw [h.waitList, mem_dropSlots, ha.waits, h.waiting]; simp
  · rw [h.convList]; exact nodup_dropSlots g ha.convsOnce
  · rw [h.convList, mem_dropSlots, ha.convs, h.pending]
    cases g k <;> simp
  · exact fun k r m hk => ha.shared k r m (hpending hk)
  · exact fun j k r m r' m' hjk hj hk => ha.apart j k r m r' m' hjk (hpending hj) (hpending hk)

theorem ListLaws.congr (ha : ListLaws a) (hwaits : b.waitList = a.waitList) (hconvs : b.convList = a.convList)
    (hrecord : ∀ k, b.record k = a.record k) : ListLaws b :=
  ha.dropped (Untouched.mk' hwaits hconvs fun k => by rw [hrecord k]; exact ⟨rfl, rfl⟩)

/-! ### Parts of an event -/

theorem Record.retire_isWaiting (r : Record) (cause : RetireCause) : (r.retire cause).isWaiting = r.isWaiting := by
  cases r <;> rfl

theorem Record.retire_pending (r : Record) (cause : RetireCause) : (r.retire cause).pending = none := by
  cases r <;> rfl

theorem Record.dropConv_isWaiting (r : Record) : r.dropConv.isWaiting = r.isWaiting := by
  cases r <;> rfl

theorem Record.dropConv_pending (r : Record) : r.dropConv.pending = none := by
  cases r <;> rfl

theorem Record.warn_lists (r : Record) : r.warn.isWaiting = r.isWaiting ∧ r.warn.pending = r.pending := by
  cases r <;> exact ⟨rfl, rfl⟩

theorem ListLaws.freeWhere (h : ListLaws e) (which : SlotNo → Bool) : ListLaws (e.freeWhere which) :=
  h.dropped
    { waitList := rfl
      waiting := fun k => by
        rw [Engine.record_freeWhere]
        cases which k
        · exact (Bool.and_true _).symm
        · exact (Bool.and_false _).symm
      convList := rfl
      pending := fun k => by
        rw [Engine.record_freeWhere]
        split <;> rfl }

theorem ListLaws.retireWhere (h : ListLaws e) (which : SlotNo → Bool) (cause : RetireCause) :
    ListLaws (e.retireWhere which cause) :=
  h.dropped (f := fun _ => false)
    { waitList := (dropSlots_none _).symm
      waiting := fun k => by
        rw [Engine.record_retireWhere, Bool.not_false, Bool.and_true]
        split
        · exact Record.retire_isWaiting _ _
        · rfl
      convList := rfl
      pending := fun k => by
        rw [Engine.record_retireWhere]
        split
        · exact Record.retire_pending _ _
        · rfl }

theorem ListLaws.dropConvWhere (h : ListLaws e) (which : SlotNo → Bool) : ListLaws (e.dropConvWhere which) :=
  h.dropped (f := fun _ => false)
    { waitList := (dropSlots_none _).symm
      waiting := fun k => by
        rw [Engine.record_dropConvWhere, Bool.not_false, Bool.and_true]
        split
        · exact Record.dropConv_isWaiting _
        · rfl
      convList := rfl
      pending := fun k => by
        rw [Engine.record_dropConvWhere]
        split
        · exact Record.dropConv_pending _
        · rfl }

theorem ListLaws.warnPart (h : ListLaws e) : ListLaws e.warnPart :=
  h.dropped (Untouched.mk' rfl rfl fun k => by
    rw [Engine.record_warnPart]
    split
    · exact Record.warn_lists _
    · exact ⟨rfl, rfl⟩)

theorem ListLaws.thawWarnPart (h : ListLaws e) (start : Tick) : ListLaws (e.thawWarnPart start) :=
  h.dropped (Untouched.mk' rfl rfl fun k => by
    rw [Engine.record_thawWarnPart]
    split
    · exact Record.warn_lists _
    · exact ⟨rfl, rfl⟩)

/-- One record replaced: what it has to do with the lists goes, or stays as it was. -/
theorem Drops.of_written {f g : SlotNo → Bool} {k : SlotNo} {r : Record}
    (hwaits : b.waitList = dropSlots f a.waitList) (hconvs : b.convList = dropSlots g a.convList)
    (hrecord : ∀ j, b.record j = if j = k then r else a.record j)
    (hothers : ∀ j, j ≠ k → f j = false ∧ g j = false) (hwait : r.isWaiting = ((a.record k).isWaiting && !f k))
    (hpend : r.pending = if g k then none else (a.record k).pending) : Drops f g a b where
  waitList := hwaits
  waiting j := by
    rw [hrecord]
    split
    next hj => rw [hj]; exact hwait
    next hj => rw [(hothers j hj).1]; simp
  convList := hconvs
  pending j := by
    rw [hrecord]
    split
    next hj => rw [hj]; exact hpend
    next hj => rw [(hothers j hj).2]; simp

theorem ListLaws.conversion {k : SlotNo} {m : Out} (ha : ListLaws a) (h : a.grantConversion k = some (b, m)) :
    ListLaws b := by
  unfold Engine.grantConversion at h
  split at h
  next x hx =>
    split at h
    · split at h
      · obtain ⟨rfl, -⟩ := Prod.mk.inj (Option.some.inj h)
        exact ha.dropped (.of_written (f := fun _ => false) (g := fun j => j == k) (dropSlots_none _).symm rfl
          (fun j => Engine.record_setRecord ..) (fun j hj => ⟨rfl, beq_false_of_ne hj⟩) (by rw [hx]; rfl)
          (by simp [Record.pending]))
      · cases h
    · cases h
  · cases h

theorem ListLaws.waiter {passed : List SlotNo} {k : SlotNo} {m : Out} (ha : ListLaws a)
    (h : a.grantWaiter passed k = some (b, m)) : ListLaws b := by
  unfold Engine.grantWaiter at h
  split at h
  next w hw =>
    split at h
    · cases h
    · obtain ⟨rfl, -⟩ := Prod.mk.inj (Option.some.inj h)
      exact ha.dropped (.of_written (f := fun j => j == k) (g := fun _ => false) rfl (dropSlots_none _).symm
        (fun j => Engine.record_setRecord ..) (fun j hj => ⟨beq_false_of_ne hj, rfl⟩)
        (by rw [beq_self_eq_true, Bool.not_true, Bool.and_false]; rfl) (by rw [hw]; rfl))
  · cases h

theorem ListLaws.grantPass (h : ListLaws e) : ListLaws e.grantPass.1 :=
  Engine.grantPass_induct (fun _ _ _ _ ha hg => ha.conversion hg) (fun _ _ _ _ _ ha hg => ha.waiter hg) e h

theorem ListLaws.passUnlessFrozen (h : ListLaws e) : ListLaws e.passUnlessFrozen.1 := by
  unfold Engine.passUnlessFrozen
  split
  · exact h
  · exact h.grantPass

theorem ListLaws.settleDue (h : ListLaws e) : ListLaws e.settleDue.engine :=
  ((h.retireWhere _ _).freeWhere _).dropConvWhere _

theorem ListLaws.settleThaw (h : ListLaws e) (start : Tick) : ListLaws (e.settleThaw start).engine :=
  (h.settleDue.thawWarnPart start).grantPass.congr rfl rfl fun _ => rfl

theorem ListLaws.endSession (h : ListLaws e) (p : Port) (tell : Bool) : ListLaws (e.endSession p tell).engine := by
  have hclear : ListLaws (e.clearPort p) := (h.freeWhere _).congr rfl rfl fun _ => rfl
  change ListLaws ((e.clearPort p).afterClear p).1
  unfold Engine.afterClear
  split
  · split
    · exact hclear.settleThaw _
    · exact hclear
  · exact hclear.grantPass

/-! ### Records that enter a list -/

/-- A FREE slot has to do with neither list. -/
theorem Record.lists_of_free {r : Record} (h : r.isFree = true) : r.isWaiting = false ∧ r.pending = none := by
  cases r with
  | free => exact ⟨rfl, rfl⟩
  | _ => cases h

/-- A list takes one more slot at its tail. -/
theorem nodup_snoc {l : List SlotNo} {k : SlotNo} (h : l.Nodup) (hk : k ∉ l) : (l ++ [k]).Nodup :=
  List.nodup_append.mpr ⟨h, List.nodup_singleton k, by
    rintro j hj _ hk' rfl
    exact hk (List.mem_singleton.mp hk' ▸ hj)⟩

theorem ListLaws.queued {k : SlotNo} {w : Waiting} (h : ListLaws e) (hfree : (e.record k).isFree = true) :
    ListLaws (e.queued k w) := by
  obtain ⟨hwait, hpend⟩ := Record.lists_of_free hfree
  have hrecord (j : SlotNo) : (e.queued k w).record j = if j = k then .waiting w else e.record j :=
    Engine.record_enter ..
  have hpending (j : SlotNo) : ((e.queued k w).record j).pending = (e.record j).pending := by
    rw [hrecord]
    split
    next hj => rw [hj, hpend]; rfl
    · rfl
  refine ⟨nodup_snoc h.waitsOnce ?_, fun j => ?_, h.convsOnce, fun j => ?_, ?_, ?_⟩
  · rw [h.waits, hwait]; nofun
  · change j ∈ e.waitList ++ [k] ↔ _
    rw [hrecord, List.mem_append, List.mem_singleton, h.waits]
    split
    next hj => simp [hj, Record.isWaiting]
    next hj => simp [hj]
  · rw [hpending]; exact h.convs j
  · simpa only [hpending] using h.shared
  · simpa only [hpending] using h.apart

/-- An UPGRADE that waits: no pending conversion overlaps its lease. -/
theorem ListLaws.pended {k : SlotNo} {x : Held} {c : Conversion} (h : ListLaws e) (held : e.record k = .held x)
    (shared : x.mode = .shared) (single : x.conv = none) (clear : e.overlappingConversions x.region = []) :
    ListLaws { e.setRecord k (.held { x with conv := some c }) with convList := e.convList ++ [k] } := by
  have hpend : (e.record k).pending = none := by simp [Record.pending, held, single]
  have hrecord (j : SlotNo) : ({ e.setRecord k (.held { x with conv := some c }) with
      convList := e.convList ++ [k] } : Engine).record j = if j = k then .held { x with conv := some c } else e.record j :=
    Engine.record_setRecord ..
  have hpending (j : SlotNo) : (({ e.setRecord k (.held { x with conv := some c }) with
      convList := e.convList ++ [k] } : Engine).record j).pending =
        if j = k then some (x.region, x.mode) else (e.record j).pending := by
    rw [hrecord]
    split <;> rfl
  have halone {j : SlotNo} {g : Region} {m : Mode} (hj : (e.record j).pending = some (g, m)) :
      g.overlaps x.region = false := by
    obtain ⟨y, hy, hcy, rfl, rfl⟩ := Record.pending_eq_some.mp hj
    have hmem := List.filter_eq_nil_iff.mp clear j (mem_allSlots j)
    have hlist : j ∈ e.convList := by rw [h.convs, hj]; rfl
    simp only [Bool.and_eq_true, not_and, Bool.not_eq_true] at hmem
    rw [← Record.overlaps_of_common (r := e.record j) (c := y.toCommon) (by rw [hy]; rfl)]
    exact hmem ⟨List.contains_iff_mem.mpr hlist, by rw [hy]; rfl⟩
  refine ⟨h.waitsOnce, fun j => ?_, nodup_snoc h.convsOnce ?_, fun j => ?_, fun j g m hj => ?_, ?_⟩
  · rw [hrecord]
    split
    next hj => rw [hj]; exact (h.waits k).trans (by rw [held]; rfl)
    · exact h.waits j
  · rw [h.convs, hpend]; nofun
  · change j ∈ e.convList ++ [k] ↔ _
    rw [hpending, List.mem_append, List.mem_singleton, h.convs]
    split
    next hj => simp [hj]
    next hj => simp [hj]
  · rw [hpending] at hj
    split at hj
    · cases hj; exact shared
    · exact h.shared j g m hj
  · intro i j g m g' m' hij hi hj
    rw [hpending] at hi hj
    split at hi
    next hik =>
      cases hi
      rw [if_neg fun hjk => hij (hik.trans hjk.symm)] at hj
      rw [Region.overlaps_comm]
      exact halone hj
    · split at hj
      · cases hj; exact halone hi
      · exact h.apart i j g m g' m' hij hi hj

/-! ### Every event of the engine -/

/-- A record is replaced by one that has as much to do with the lists. -/
theorem ListLaws.rewritten {k : SlotNo} {r : Record} (ha : ListLaws a) (hwaits : b.waitList = a.waitList)
    (hconvs : b.convList = a.convList) (hrecord : ∀ j, b.record j = if j = k then r else a.record j)
    (hr : r.isWaiting = (a.record k).isWaiting ∧ r.pending = (a.record k).pending) : ListLaws b :=
  ha.dropped (Untouched.mk' hwaits hconvs fun j => by
    rw [hrecord]
    split
    next hj => rw [hj]; exact hr
    · exact ⟨rfl, rfl⟩)

theorem ListLaws.edited (ha : ListLaws a) (h : Edit a b) : ListLaws b := by
  cases h with
  | same => exact ha
  | clock c => exact ha.congr rfl rfl fun _ => rfl
  | opened p margin mask _ => exact ha.congr rfl rfl fun _ => rfl
  | cursor p c _ => exact ha.congr rfl rfl fun _ => rfl
  | limits q l _ _ _ _ => exact ha.congr rfl rfl fun _ => rfl
  | freeze p _ _ _ => exact ha.congr rfl rfl fun _ => rfl
  | grant k c d free _ _ _ _ =>
    obtain ⟨hwait, hpend⟩ := Record.lists_of_free free
    exact ha.rewritten rfl rfl (fun j => Engine.record_enter ..) ⟨hwait.symm, hpend.symm⟩
  | queue k w _ free _ _ _ _ _ => exact ha.queued free
  | renew p k x stated stored n held _ =>
    exact ha.rewritten rfl rfl (fun j => Engine.record_setRecord ..) (by rw [held]; exact ⟨rfl, rfl⟩)
  | acknowledge k x held _ =>
    exact ha.rewritten rfl rfl (fun j => Engine.record_setRecord ..) (by rw [held]; exact ⟨rfl, rfl⟩)
  | convert k x held _ single _ =>
    refine ha.rewritten rfl rfl (fun j => Engine.record_setRecord ..) ?_
    rw [held]
    exact ⟨rfl, by simp [Record.pending, single]⟩
  | pend k x t limit held shared single clear _ => exact ha.pended held shared single clear
  | downgrade k x held sole =>
    suffices hset : ListLaws (a.setRecord k (.held { x with mode := .shared })) from hset.passUnlessFrozen
    refine ha.rewritten rfl rfl (fun j => Engine.record_setRecord ..) ?_
    have hnone : x.conv.isSome = false := by
      by_contra hsome
      rw [Bool.not_eq_false] at hsome
      cases sole.symm.trans (ha.shared k x.region x.mode (Record.pending_eq_some.mpr ⟨x, held, hsome, rfl, rfl⟩))
    rw [held]
    exact ⟨rfl, by simp [Record.pending, hnone]⟩
  | freeRetired k x _ => exact ha.freeWhere _
  | freeThenPass k _ => exact (ha.freeWhere _).passUnlessFrozen
  | retireThenPass which _ => exact (ha.retireWhere which _).passUnlessFrozen
  | retireNone which _ => exact ha.retireWhere which _
  | dropConvThenPass k _ => exact (ha.dropConvWhere _).passUnlessFrozen
  | thaw f _ => exact ha.settleThaw _
  | endSession p tell _ => exact ha.endSession p tell
  | endSessionLost p tell lost => exact (ha.endSession p tell).congr rfl rfl fun _ => rfl
  | advance n f _ => exact ha.congr rfl rfl fun _ => rfl
  | tick n _ => exact (ha.congr (b := a.advance n) rfl rfl fun _ => rfl).settleDue.warnPart
  | tickPass n _ => exact (ha.congr (b := a.advance n) rfl rfl fun _ => rfl).settleDue.warnPart.grantPass
  | limitThaw n f _ => exact (ha.congr (b := a.advance n) rfl rfl fun _ => rfl).settleThaw _

theorem ListLaws.closed (ha : ListLaws a) : ListLaws (e.closeEvent a) :=
  ha.congr (by simp) (by simp) fun k => Engine.record_closeEvent e a k

theorem ListLaws.next (ha : ListLaws a) (h : EngineNext a b) : ListLaws b := by
  cases h with
  | plain _ h => exact ha.edited h
  | closed m h => exact (ha.edited h).closed
  | closedClock m h c =>
    have hm : ListLaws (a.closeEvent m) := (ha.edited h).closed
    exact hm.congr rfl rfl fun _ => rfl

theorem ListLaws.reset : ListLaws .reset := by
  have hrecord (k : SlotNo) : (Engine.reset.record k).isWaiting = false ∧ (Engine.reset.record k).pending = none := by
    rw [Engine.record_reset]; exact ⟨rfl, rfl⟩
  refine ⟨List.nodup_nil, fun k => ?_, List.nodup_nil, fun k => ?_, fun k g m hk => ?_, fun j k g m g' m' _ hj => ?_⟩
  · rw [(hrecord k).1]; exact iff_of_false List.not_mem_nil nofun
  · rw [(hrecord k).2]; exact iff_of_false List.not_mem_nil nofun
  · rw [(hrecord k).2] at hk; cases hk
  · rw [(hrecord j).2] at hj; cases hj

theorem ListLaws.moved {s s' : State} (hs : ListLaws s.engine) (h : Move s s') : ListLaws s'.engine := by
  rcases h.engine with hreset | ⟨-, straps, hrelease⟩ | hnext
  · rw [hreset]; exact .reset
  · rw [hrelease]; exact hs.congr rfl rfl fun _ => rfl
  · exact hs.next hnext

end

/-! ### The match of requests and waits to contexts -/

section
variable {s s' : State}

/-- A port with the level of SELn written while RESETn is low. -/
theorem PortMatch.selectLevel {a : AgentPort} {up down} {asked waits : Tag → Nat} (h : PortMatch a up asked waits down)
    (level : Bool) : PortMatch { a with selLow := level } up asked waits down :=
  ⟨h.once, h.matched, h.drops, h.inReset, h.draining, h.released, h.lastAsk, h.lastWord⟩

/-- A port at the release of RESETn: no drop is outstanding, and the link is in IN_RESET while PRSTn is low. -/
theorem PortMatch.atRelease {a : AgentPort} {up down} {asked waits : Tag → Nat} (h : PortMatch a up asked waits down)
    (hdrop : a.dropOutstanding = false) (strap high : Bool) :
    PortMatch (a.atRelease strap high) up asked waits down := by
  have hlink : (high = true → (a.atRelease strap high).link ≠ .inReset) ∧ (a.atRelease strap high).link ≠ .draining := by
    unfold AgentPort.atRelease linkAtRelease
    cases high <;> cases a.selLow <;> simp
  refine ⟨h.once, h.matched, h.drops, fun hout => ?_, fun hl => (hlink.2 hl).elim, fun hf => hlink.1 ?_, h.lastAsk,
    h.lastWord⟩
  · cases hdrop.symm.trans hout
  · simpa [AgentPort.atRelease] using hf

/-- While RESETn is high the match is all that the law says. -/
theorem MatchLaw.of_running (hrun : s.resetLow = false)
    (h : ∀ p, PortMatch (s.port p) (pick s.toEngine p) (s.engine.asked p) (s.engine.waits p) (pick s.toPort p)) :
    MatchLaw s := fun p => ⟨h p, fun hlow => by cases hrun.symm.trans hlow⟩

/-- An event of the engine that takes no port's message. -/
theorem MatchLaw.engineEvent {f : Effect} (h : MatchLaw s) (hf : Spends s.engine f.engine f.out noExtra)
    (hrun : s'.resetLow = false) (hports : s'.ports = s.ports) (hup : s'.toEngine = s.toEngine)
    (hengine : s'.engine = f.engine) (hdown : s'.toPort = tab fun q => pick s.toPort q ++ outFor q f.out) :
    MatchLaw s' := by
  refine .of_running hrun fun q => ?_
  rw [State.port, hports, hup, hengine, hdown, pick_tab]
  exact h.spends hf q

/-- After device reset, whatever the levels of SELn and the queue of commands. -/
theorem MatchLaw.reset (sel : Port → Bool) (q : List Instr) :
    MatchLaw { State.reset with ports := tab fun p => AgentPort.reset (sel p), pending := q } := by
  intro p
  rw [State.port_of_ports rfl]
  refine ⟨?_, fun _ => rfl⟩
  have hup : pick State.reset.toEngine p = [] := pick_tab ..
  have hdown : pick State.reset.toPort p = [] := pick_tab ..
  change PortMatch _ (pick State.reset.toEngine p) (Engine.reset.asked p) (Engine.reset.waits p)
    (pick State.reset.toPort p)
  rw [hup, hdown, Engine.reset_waits, Engine.reset_asked]
  exact .reset _

theorem MatchLaw.moved (h : MatchLaw s) (hlists : ListsExact s.engine) (hfetch : ∀ p, FetchLaw (s.port p))
    (hmove : Move s s') : MatchLaw s' := by
  cases hmove with
  | none => exact h
  | deviceReset => exact .reset (fun p => (s.port p).selLow) s.pending
  | release straps prst low =>
    refine .of_running rfl fun p => ?_
    rw [State.port_of_ports rfl]
    exact (h p).1.atRelease ((h p).2 low) _ _
  | selectLevel p level low =>
    intro q
    rw [State.port_setPort]
    split
    next hq => rw [hq]; exact ⟨(h p).1.selectLevel level, (h p).2⟩
    · exact h q
  | edge prst running =>
    refine .of_running running fun p => ?_
    rw [State.port_of_ports rfl]
    change PortMatch _ (pick (tab fun p => pick s.toEngine p ++ ((s.port p).samplePrst (pick prst p)).2) p) _ _ _
    rw [pick_tab]
    exact (h p).1.sample
  | tick n rest running head => exact h.engineEvent (.of_tick hlists n) running rfl rfl rfl rfl
  | take p m rest running head free =>
    refine .of_running running fun q => ?_
    rw [State.applyEffect_port, State.restToEngine_port, State.applyEffect_engine, State.applyEffect_toEngine,
      State.restToEngine_toEngine, State.applyEffect_toPort, State.restToEngine_toPort, pick_tab]
    exact h.portMessage hlists head free q
  | clockAnswer m rest c o x running head held result =>
    exact h.engineEvent (.of_endClock held o x) running rfl rfl rfl rfl
  | arbiter p t r running ready head =>
    obtain ⟨-, ⟨d, hc⟩, -⟩ := State.takable_some head
    refine .of_running running fun q => ?_
    change PortMatch ((s.setPort p ((s.port p).held t r)).port q) (pick (put s.toEngine p _) q) _ _ _
    rw [State.port_setPort, pick_put]
    split
    next hq => rw [hq]; exact (h p).1.asks hc
    · exact (h q).1
  | trim a running call => exact .of_running running fun q => (h q).1
  | readClock running call => exact .of_running running fun q => (h q).1
  | message p m rest a running head taken =>
    refine .of_running running fun q => ?_
    change PortMatch (((s.restToPort p rest).setPort p a).port q) _ _ _ (pick (put s.toPort p rest) q)
    rw [State.port_setPort, pick_put]
    split
    next hq =>
      rw [hq]
      have hp := (h p).1
      rw [head] at hp
      exact hp.message taken
    · exact (h q).1
  | link p a ms running moved =>
    refine .of_running running fun q => ?_
    change PortMatch ((s.setPort p a).port q) (pick (put s.toEngine p _) q) _ _ _
    rw [State.port_setPort, pick_put]
    split
    next hq => rw [hq]; exact (h p).1.linkMove (hfetch p) moved
    · exact (h q).1

/-! ### What the match says of waits -/

/-- A list with at most one entry. -/
theorem eq_of_length_le_one {l : List SlotNo} {j k : SlotNo} (h : l.length ≤ 1) (hj : j ∈ l) (hk : k ∈ l) : j = k := by
  match l, h with
  | [i], _ => rw [List.mem_singleton.mp hj, List.mem_singleton.mp hk]

/-- A context names at most one wait of the engine. -/
theorem MatchLaw.names_once (h : MatchLaw s) {p : Port} {t : Tag} {j k : SlotNo}
    (hj : (s.engine.record j).names p t = true) (hk : (s.engine.record k).names p t = true) : j = k := by
  have hle : s.engine.waits p t ≤ 1 := by
    have honce := (h p).1.once t
    unfold underWay inWait at honce
    omega
  exact eq_of_length_le_one hle (List.mem_filter.mpr ⟨mem_allSlots j, hj⟩) (List.mem_filter.mpr ⟨mem_allSlots k, hk⟩)

/-- A context has a wait of the engine exactly where a record names it. -/
theorem Engine.waits_pos {e : Engine} {p : Port} {t : Tag} : 0 < e.waits p t ↔ ∃ j, (e.record j).names p t = true := by
  unfold Engine.waits Engine.countSlots
  rw [List.length_pos_iff_exists_mem]
  simp

/-- Once the port has taken every message, a WAITING context is named by a record. -/
theorem MatchLaw.named_of_waiting (h : MatchLaw s) {p : Port} {t : Tag} {r : Request} {k : Kept} {c : Bool}
    (hdown : pick s.toPort p = []) (hc : (s.port p).context t = .waiting r k c) :
    ∃ j, (s.engine.record j).names p t = true := by
  have hm := (h p).1.matched t
  rw [hc, hdown] at hm
  have hwait : s.engine.waits p t = 1 := hm.1 nofun
  exact Engine.waits_pos.mp (by omega)

/-- Once the port has taken every message, a context that a record names is WAITING, or FREE with the port-drop notice
still on its way. -/
theorem MatchLaw.waiting_of_named (h : MatchLaw s) {p : Port} {t : Tag} {j : SlotNo} (hdown : pick s.toPort p = [])
    (hj : (s.engine.record j).names p t = true) :
    (∃ r k c, (s.port p).context t = .waiting r k c) ∨
      ((s.port p).context t = .free ∧ (s.port p).dropOutstanding = true ∧ PortMsg.portDrop ∈ pick s.toEngine p) := by
  have hpos : 0 < s.engine.waits p t := Engine.waits_pos.mpr ⟨j, hj⟩
  have hm := (h p).1.matched t
  have hdrops := (h p).1.drops
  rw [hdown] at hm hdrops
  have hunder : underWay (pick s.toEngine p) (s.engine.asked p) (s.engine.waits p) [] t ≠ 0 := by
    unfold underWay inWait
    omega
  cases hc : (s.port p).context t with
  | waiting r k c => exact .inl ⟨r, k, c, rfl⟩
  | done r c =>
    rw [hc] at hm
    exact (hunder hm.1).elim
  | queued r held c =>
    rw [hc] at hm
    cases held with
    | false => exact (hunder hm.1).elim
    | true =>
      have hwait : 0 = s.engine.waits p t := hm.2
      omega
  | free =>
    rw [hc] at hm
    cases hout : (s.port p).dropOutstanding with
    | false => exact (hunder (hm hout).1).elim
    | true =>
      rw [hout] at hdrops
      refine .inr ⟨rfl, rfl, List.count_pos_iff.mp ?_⟩
      simp only [List.count_nil, if_true] at hdrops
      omega

end

/-- Settles O54: a record enters and leaves its list as it becomes and ceases to be WAITING or pending, and each event
accounts for the requests and waits that it takes, answers and completes. -/
theorem stepsKeepBothLists : Obligations.StepsKeepBothLists := by
  intro s s' ⟨hwaits, hconvs, hmatch⟩ hfetch hstep
  have hkept : ListLaws s'.engine ∧ MatchLaw s' := by
    rcases step_next hstep with ⟨-, rfl⟩ | ⟨c, q, -, hmove⟩
    · exact ⟨listLaws_iff.mpr ⟨hwaits, hconvs⟩, hmatch⟩
    · exact ⟨ListLaws.moved (s := { s with pending := q }) (listLaws_iff.mpr ⟨hwaits, hconvs⟩) hmove,
        MatchLaw.moved (s := { s with pending := q }) hmatch (.of_laws hwaits hconvs) hfetch hmove⟩
  obtain ⟨hlists, hmatch'⟩ := hkept
  obtain ⟨hwaits', hconvs'⟩ := listLaws_iff.mp hlists
  refine ⟨⟨hwaits', hconvs', hmatch'⟩, fun p t j k hj hk => hmatch'.names_once hj hk, fun p t hdown => ⟨?_, ?_⟩⟩
  · rintro ⟨r, k, c, hc⟩
    exact hmatch'.named_of_waiting hdown hc
  · exact fun j hj => hmatch'.waiting_of_named hdown hj

end Sys2Proof.Machine

/-! ## Reset, straps and PRSTn: proofs about Machine/Reset.lean and the filters (R25, R73, R122, R166, R176, R177) -/

namespace Sys2Proof.Machine

section
variable {s : State}

/-! ### The values of device reset -/

theorem Engine.reset_markedCount (p : Port) : Engine.reset.markedCount p = 0 := by
  simp [Engine.markedCount, Engine.countSlots, Engine.record_reset, Record.isMarked]

theorem Engine.reset_issue (k : SlotNo) : Engine.reset.issue k = 0 := by
  rw [Engine.issue, Engine.reset, pick_tab]
  rfl

theorem Engine.reset_session (p : Port) : Engine.reset.session p = .reset false := pick_tab ..

theorem Engine.reset_limitsOf (p : Port) : Engine.reset.limitsOf p = .reset false := pick_tab ..

theorem AgentPort.reset_context (sel : Bool) (t : Tag) : (AgentPort.reset sel).context t = .free := pick_tab ..

theorem AgentPort.reset_statusByte (sel : Bool) : (AgentPort.reset sel).statusByte = 0 := by
  have hmark (t : Tag) : (AgentPort.reset sel).doneMark t = false := by
    rw [AgentPort.doneMark, show pick (AgentPort.reset sel).contexts t = .free from pick_tab ..]
    rfl
  unfold AgentPort.statusByte
  rw [hmark, hmark, hmark, hmark]
  exact (by decide : byteOfBits false false (decide (0 < 0)) (decide (LinkFault.none ≠ .none)) false false false false = 0)

/-- Settles O60: right after device reset every record and context is FREE and every path is empty. -/
theorem lawsHoldAfterDeviceReset : Obligations.LawsHoldAfterDeviceReset := by
  obtain ⟨hwaits, hconvs⟩ := listLaws_iff.mp ListLaws.reset
  refine ⟨.reset, hwaits, hconvs, .reset, .reset, PortLaws.reset.session, PortLaws.reset.freeze, PortLaws.reset.cap,
    fun _ => rfl, ⟨rfl, rfl⟩, ⟨rfl, rfl⟩, .reset (fun _ => false) [], .reset (fun _ => false) [], fun p => ?_⟩
  rw [State.port_of_ports rfl]
  exact ⟨.reset false, .of_link nofun, rfl⟩

/-- Settles O4: each block's part of `State.reset` is its device-reset value. -/
theorem deviceResetGivesResetValues : Obligations.DeviceResetGivesResetValues := by
  intro s
  refine ⟨_, rfl, rfl, rfl, fun k => ⟨Engine.record_reset k, Engine.reset_issue k⟩, rfl, rfl, rfl, rfl,
    fun p => ⟨Engine.reset_ownedCount p, Engine.reset_markedCount p⟩, fun p => ?_, fun p => ?_, rfl, rfl, rfl, rfl,
    fun p => ?_, fun p => ⟨pick_tab .., pick_tab ..⟩, rfl, rfl⟩
  · change (Engine.reset.session p).isOpen = false ∧ _
    rw [show State.reset.engine.session p = .reset false from Engine.reset_session p, Engine.reset_session]
    exact ⟨rfl, rfl, rfl, rfl, rfl⟩
  · rw [show State.reset.engine.limitsOf p = .reset false from Engine.reset_limitsOf p]
    exact ⟨rfl, rfl, rfl⟩
  · rw [State.port_of_ports rfl]
    exact ⟨AgentPort.reset_context _, rfl, rfl, rfl, rfl, rfl, rfl, rfl, rfl, rfl, rfl, AgentPort.reset_statusByte _, rfl⟩

/-! ### The release of RESETn -/

/-- Settles O5: the release writes the straps and the sampled PRSTn, and nothing else. -/
theorem releaseCapturesStrapsAndPortResets : Obligations.ReleaseCapturesStrapsAndPortResets := by
  intro s straps prst hlow
  refine ⟨_, if_pos hlow, rfl, fun p => ⟨pick_tab .., pick_tab .., ?_⟩, rfl, rfl, rfl, rfl, rfl, rfl, rfl, rfl, rfl, rfl,
    rfl, rfl, rfl⟩
  rw [State.port_of_ports rfl, AgentPort.atRelease, linkAtRelease]
  cases pick prst p <;> rfl

/-! ### While RESETn is low -/

theorem State.takeFromPort_low (hlow : s.resetLow = true) (p : Port) (f : PortMsg → Option Effect) :
    s.takeFromPort p f = .next s := State.whenRunning_low _ hlow

theorem State.takeRequest_low (hlow : s.resetLow = true) (p : Port) (f : Tag → Request → Option Effect) :
    s.takeRequest p f = .next s := by
  unfold State.takeRequest
  split
  · rfl
  · exact State.takeFromPort_low hlow p _

/-- Settles O6: every command but device reset, the release and the two edges of SELn waits for RESETn. -/
theorem lowResetTakesNoEvent : Obligations.LowResetTakesNoEvent := by
  intro s c hlow
  cases c with
  | deviceReset | resetRelease => trivial
  | selectFall p | selectRise p => exact if_pos hlow
  | refclkEdge | tickNotice | leaseExpiry | waitTimeout | conversionTimeout | warnMarginReached | freezeLimit
  | arbiterTake | timebaseTrim | timebaseReadClock | clockAnswer | forwardedCancel | portDrop | portAnswer
  | portCompletion | cancelLateNotice | markedCount | sessionNotice | freezeNotice | dropComplete | submit | fetch
  | fetchComplete | cancel | status | unknownTransaction | portReset | portRelease | linkFaultCauseShiftedOut
  | bitAfterCheckByte => exact State.whenRunning_low _ hlow
  | _ p => exact State.takeRequest_low hlow p _

/-! ### The PRSTn filter: one equation for each kind of sample (R176) -/

section
variable {a : AgentPort} {high : Bool}

theorem AgentPort.samplePrst_of_agree (h : high = !a.filter.asserted) :
    a.samplePrst high = ({ a with filter := { a.filter with count := 0 } }, []) := by
  unfold AgentPort.samplePrst PrstFilter.sample
  rw [if_neg (by rw [h]; cases a.filter.asserted <;> decide)]

theorem AgentPort.samplePrst_of_count (h : high = a.filter.asserted) (hcount : a.filter.count ≠ 2) :
    a.samplePrst high = ({ a with filter := { a.filter with count := a.filter.count + 1 } }, []) := by
  unfold AgentPort.samplePrst PrstFilter.sample
  rw [if_pos h, if_neg hcount]

theorem AgentPort.samplePrst_of_third_low (h : a.filter = { asserted := false, count := 2 }) :
    a.samplePrst false = ({ a with filter := { asserted := true, count := 0 } } : AgentPort).resetEvent := by
  unfold AgentPort.samplePrst
  rw [h]
  rfl

theorem AgentPort.samplePrst_of_third_high (h : a.filter = { asserted := true, count := 2 }) :
    a.samplePrst true = (({ a with filter := { asserted := false, count := 0 } } : AgentPort).releaseEvent, []) := by
  unfold AgentPort.samplePrst
  rw [h]
  rfl

theorem PrstFilter.sample_event {f : PrstFilter} {x : FilterEvent} :
    (f.sample high).2 = some x ↔
      high = f.asserted ∧ f.count = 2 ∧ x = if f.asserted then .release else .reset := by
  unfold PrstFilter.sample
  split
  next h =>
    split
    next hcount =>
      exact ⟨fun hx => ⟨h, hcount, (Option.some.inj hx).symm⟩, fun ⟨_, _, hx⟩ => congrArg some hx.symm⟩
    next hcount => simp [hcount]
  next h => simp [h]

end

theorem State.prstEvent_reset_iff {p : Port} {prst : PinLevels} :
    s.prstEvent p prst = some .reset ↔ s.ThirdSample p prst false := by
  unfold State.prstEvent State.ThirdSample
  rw [PrstFilter.sample_event]
  generalize (s.port p).filter = f
  obtain ⟨asserted, count⟩ := f
  cases asserted <;> simp

theorem State.prstEvent_release_iff {p : Port} {prst : PinLevels} :
    s.prstEvent p prst = some .release ↔ s.ThirdSample p prst true := by
  unfold State.prstEvent State.ThirdSample
  rw [PrstFilter.sample_event]
  generalize (s.port p).filter = f
  obtain ⟨asserted, count⟩ := f
  cases asserted <;> simp

theorem exec_portReset_of_third {p : Port} {prst : PinLevels} (hrun : s.resetLow = false)
    (h : s.ThirdSample p prst false) : exec (.portReset p prst) s = .next (s.refclk prst) :=
  (State.whenRunning_high _ hrun).trans (if_pos (State.prstEvent_reset_iff.mpr h))

theorem exec_portRelease_of_third {p : Port} {prst : PinLevels} (hrun : s.resetLow = false)
    (h : s.ThirdSample p prst true) : exec (.portRelease p prst) s = .next (s.refclk prst) :=
  (State.whenRunning_high _ hrun).trans (if_pos (State.prstEvent_release_iff.mpr h))

theorem State.refclk_port (prst : PinLevels) (p : Port) :
    (s.refclk prst).port p = ((s.port p).samplePrst (pick prst p)).1 := pick_tab ..

theorem State.refclk_toEngine (prst : PinLevels) (p : Port) :
    pick (s.refclk prst).toEngine p = pick s.toEngine p ++ ((s.port p).samplePrst (pick prst p)).2 := pick_tab ..

theorem Context.atPortReset_eq (c : Context) : c.atPortReset = if c.isQueued then .free else c := by
  cases c <;> rfl

/-- Settles O8: each clause is one equation of `AgentPort.samplePrst`. -/
theorem portResetNeedsThreeSamples : Obligations.PortResetNeedsThreeSamples := by
  intro s prst p hrun
  refine ⟨s.refclk prst, exec_refclkEdge hrun prst, fun h => ?_, fun h hcount => ?_, fun h hthird => ?_,
    fun h hthird => ?_, fun h hthird => exec_portReset_of_third hrun ⟨h, hthird⟩,
    fun h hthird => exec_portRelease_of_third hrun ⟨h, hthird⟩⟩
  · rw [State.refclk_port, State.refclk_toEngine, AgentPort.samplePrst_of_agree h]
    exact ⟨rfl, List.append_nil _⟩
  · rw [State.refclk_port, State.refclk_toEngine, AgentPort.samplePrst_of_count h hcount]
    exact ⟨rfl, List.append_nil _⟩
  · rw [State.refclk_port, State.refclk_toEngine, h, AgentPort.samplePrst_of_third_low hthird, AgentPort.resetEvent]
    have hcontext (t : Tag) : pick (tab fun t => ((s.port p).context t).atPortReset) t =
        if ((s.port p).context t).isQueued then .free else (s.port p).context t := by
      rw [pick_tab, Context.atPortReset_eq]
    dsimp only
    split
    next hlink =>
      exact ⟨rfl, rfl, rfl, rfl, rfl, hcontext, ⟨rfl, List.append_nil _⟩, rfl, rfl, rfl, rfl, rfl, rfl, rfl, rfl, rfl⟩
    next hlink =>
      exact ⟨rfl, rfl, rfl, rfl, rfl, hcontext, ⟨rfl, rfl⟩, rfl, rfl, rfl, rfl, rfl, rfl, rfl, rfl, rfl⟩
  · rw [State.refclk_port, State.refclk_toEngine, h, AgentPort.samplePrst_of_third_high hthird]
    refine ⟨List.append_nil _, ?_⟩
    unfold AgentPort.releaseEvent AgentPort.leaveReset
    dsimp only
    split
    · split <;> rfl
    · rfl

end

end Sys2Proof.Machine

/-! ## The queue of commands, absent events and faults: proofs about every command of Machine/Dispatch.lean -/

namespace Sys2Proof.Machine

/-! ### The request arbiter (R143, R154) -/

section
variable {s : State} {p : Port} {t : Tag} {r : Request}

theorem State.engineReady_iff : s.engineReady = true ↔ s.Ready := by
  have hpath (q : Port) : ((pick s.toEngine q).all fun m => !m.isRequest) = true ↔
      ∀ u x, PortMsg.request u x ∉ pick s.toEngine q := by
    rw [List.all_eq_true]
    constructor
    · intro h u x hmem
      cases h _ hmem
    · intro h m hm
      cases m with
      | request u x => exact (h u x hm).elim
      | cancel | portDrop => rfl
  rw [State.engineReady, Bool.and_eq_true, Option.isNone_iff_eq_none, List.all_eq_true]
  exact and_congr_right fun _ => ⟨fun h q => (hpath q).mp (h q (mem_allPorts q)), fun h q _ => (hpath q).mpr (h q)⟩

theorem ReqCode.alwaysEligible_iff (c : ReqCode) : c.alwaysEligible = true ↔
    c ∈ [ReqCode.probe, .scanFirst, .scanNext, .notice, .readClock, .noop, .freeze, .thaw, .trim] := by
  cases c <;> decide

theorem Engine.eligible_iff {e : Engine} {c : ReqCode} : e.eligible p c = true ↔
    e.freeze = none ∨ (∃ f, e.freeze = some f ∧ f.owner = p) ∨
      c ∈ [ReqCode.probe, .scanFirst, .scanNext, .notice, .readClock, .noop, .freeze, .thaw, .trim] := by
  unfold Engine.eligible
  cases e.freeze with
  | none => simp
  | some f => rw [Bool.or_eq_true, beq_iff_eq, ReqCode.alwaysEligible_iff]; simp

theorem State.takable_iff : s.takable p = some (t, r) ↔ s.HeadTakable p t r := by
  constructor
  · intro h
    obtain ⟨hhead, hqueued, helig⟩ := State.takable_some h
    exact ⟨hhead, hqueued, Engine.eligible_iff.mp helig⟩
  · rintro ⟨hhead, ⟨c, hqueued⟩, helig⟩
    obtain ⟨l, hl⟩ := List.head?_eq_some_iff.mp hhead
    unfold State.takable
    rw [hl]
    dsimp only
    rw [hqueued]
    exact if_pos (Engine.eligible_iff.mpr helig)

theorem State.takable_eq_none (h : ∀ u m, ¬s.HeadTakable p u m) : s.takable p = none := by
  cases htake : s.takable p with
  | none => rfl
  | some v => exact (h v.1 v.2 (State.takable_iff.mp htake)).elim

/-- A port in the order of visits: the ports before it have the lower places of the round. -/
theorem visitOrder_split (last p : Port) : ∃ before after, visitOrder last = before ++ p :: after ∧
    ∀ q ∈ before, q - last - 1 < p - last - 1 :=
  ⟨(visitOrder last).take (p - last - 1).val, (visitOrder last).drop ((p - last - 1).val + 1), by decide +revert,
    by decide +revert⟩

/-- The arbiter's take of the first port in its round with a head that can be taken. -/
theorem exec_arbiterTake_of_first (hrun : s.resetLow = false) (hready : s.Ready) (hhead : s.HeadTakable p t r)
    (hfirst : ∀ q, s.place q < s.place p → ∀ u m, ¬s.HeadTakable q u m) :
    exec .arbiterTake s = .next (s.arbiterTakes p t r) := by
  obtain ⟨before, after, horder, hbefore⟩ := visitOrder_split s.lastServed p
  have hfound : ((visitOrder s.lastServed).findSome? fun q => (s.takable q).map fun h => (q, h)) = some (p, t, r) := by
    rw [List.findSome?_eq_some_iff]
    refine ⟨before, p, after, horder, by rw [State.takable_iff.mpr hhead]; rfl, fun q hq => ?_⟩
    rw [State.takable_eq_none (hfirst q (hbefore q hq))]
    rfl
  change execArbiterTake s = _
  unfold execArbiterTake
  rw [State.whenRunning_high _ hrun, if_pos (State.engineReady_iff.mpr hready), hfound]

theorem exec_arbiterTake_of_none (h : ¬s.Ready ∨ ∀ p t r, ¬s.HeadTakable p t r) :
    exec .arbiterTake s = .next s := by
  change execArbiterTake s = _
  unfold execArbiterTake State.whenRunning
  split
  · rfl
  · split
    next hready =>
      have hnone : ((visitOrder s.lastServed).findSome? fun q => (s.takable q).map fun h => (q, h)) = none := by
        rw [List.findSome?_eq_none_iff]
        intro q _
        rw [State.takable_eq_none ((h.resolve_left fun hn => hn (State.engineReady_iff.mp hready)) q)]
        rfl
      rw [hnone]
    · rfl

end

/-- Settles O17: the round is the order of visits, and the first takable head in it is taken. -/
theorem arbiterTakesFirstPortInItsRound : Obligations.ArbiterTakesFirstPortInItsRound := fun _ hrun =>
  ⟨fun _ _ _ hready hhead hfirst => exec_arbiterTake_of_first hrun hready hhead hfirst, exec_arbiterTake_of_none⟩

/-! ### Absent events (log 1) -/

section
variable {s : State} {p : Port}

theorem State.takeRequest_absent {c : ReqCode} {f : Tag → Request → Option Effect} (h : s.NoRequest p c)
    (hf : ∀ t r x, f t r = some x → r.code = c) : s.takeRequest p f = .next s := by
  rcases State.takeRequest_cases s p f with hsame | ⟨t, r, rest, x, -, hclock, hhead, hx, -⟩
  · exact hsame
  · rcases h with hheld | hother
    · rw [hclock] at hheld; cases hheld
    · exact (hother t r rest hhead (hf t r x hx)).elim

theorem State.takeFromPort_absent {f : PortMsg → Option Effect}
    (hf : ∀ m rest, pick s.toEngine p = m :: rest → f m = none) : s.takeFromPort p f = .next s := by
  rcases State.takeFromPort_cases s p f with hsame | ⟨m, rest, x, -, hhead, hx, -⟩
  · exact hsame
  · cases (hf m rest hhead).symm.trans hx

theorem State.takeTickIf_absent {f : Engine → Tick → Bool} {g : Engine → Tick → Prop} (h : s.NoTick g)
    (hf : ∀ n, f s.engine n = true → g s.engine n) : s.takeTickIf f = .next s := by
  rcases State.takeTickIf_cases s f with hsame | ⟨n, rest, -, hhead, hn, -⟩
  · exact hsame
  · exact (h n rest hhead (hf n hn)).elim

theorem State.takeAtPort_absent {f : EngineMsg → Option (Except Fault AgentPort)} {g : EngineMsg → Prop}
    (h : s.NoMessage p g) (hf : ∀ m, ¬g m → f m = none) : s.takeAtPort p f = .next s := by
  rcases State.takeAtPort_cases s p f with hsame | ⟨m, rest, -, hhead, ⟨a, ha, -⟩ | ⟨x, hx, -⟩⟩
  · exact hsame
  · cases (hf m (h m rest hhead)).symm.trans ha
  · cases (hf m (h m rest hhead)).symm.trans hx

/-- A port replaced by itself. -/
theorem State.setPort_same (s : State) (p : Port) : s.setPort p (s.port p) = s := by
  have hports : put s.ports p (s.port p) = s.ports := table_ext fun q => by
    rw [pick_put]
    split
    next hq => rw [hq]; rfl
    · rfl
  rw [State.setPort, hports]

theorem State.atPort_absent {f : AgentPort → AgentPort × List PortMsg} (h : f (s.port p) = (s.port p, [])) :
    s.atPort p f = .next s := by
  rcases State.atPort_cases s p f with hsame | ⟨-, hnext⟩
  · exact hsame
  · rw [hnext, h, State.sendToEngine_nil, State.setPort_same]

theorem State.whenRunning_absent {k : StepResult} (h : k = .next s) : s.whenRunning k = .next s := by
  rw [h]
  exact ite_self _

theorem Engine.isFrozen_eq_false {e : Engine} : e.isFrozen = false ↔ e.freeze = none := by
  cases h : e.freeze <;> simp [Engine.isFrozen, h]

/-! ### The link's absent events -/

variable {a : AgentPort} {t : Tag}

theorem AgentPort.submit_absent {bytes : List Byte} (hcommand : a.link ≠ .command) (hframe : ∀ f, a.link ≠ .frame t f) :
    a.submit t bytes = a := by
  unfold AgentPort.submit
  split
  next hlink => exact (hcommand hlink).elim
  next u f hlink => exact if_neg fun hu : u = t => hframe f (hu ▸ hlink)
  · rfl

theorem AgentPort.bitAfterCheck_absent (h : ∀ t, a.link ≠ .frame t .judged) : a.bitAfterCheck = a := by
  unfold AgentPort.bitAfterCheck
  split
  next u hlink => exact (h u hlink).elim
  · rfl

theorem AgentPort.fetch_absent (h : a.link ≠ .command) : a.fetch t = a := by
  unfold AgentPort.fetch
  split
  next hlink _ => exact (h hlink).elim
  next hlink _ => exact (h hlink).elim
  · rfl

theorem AgentPort.fetchComplete_absent (h : ∀ t out, a.link ≠ .reply (.record t) out) : a.fetchComplete = a := by
  unfold AgentPort.fetchComplete
  split
  next u out hlink => exact (h u out hlink).elim
  · rfl

theorem AgentPort.statusReply_absent (h : a.link ≠ .command) : a.statusReply = a := by
  unfold AgentPort.statusReply
  split
  next hlink => exact (h hlink).elim
  · rfl

theorem AgentPort.causeShiftedOut_absent (h : ∀ out, a.link ≠ .reply .status out) : a.causeShiftedOut = a := by
  unfold AgentPort.causeShiftedOut
  split
  next out hlink => exact (h out hlink).elim
  · rfl

/-- Every transaction's byte names it. -/
theorem decodeTransaction_byte (x : Transaction) : decodeTransaction x.byte = some x := by
  cases x <;> decide +revert

theorem AgentPort.unknownTransaction_absent {b : Byte} (h : a.link ≠ .command ∨ ∃ x : Transaction, x.byte = b) :
    a.unknownTransaction b = a := by
  unfold AgentPort.unknownTransaction
  split
  next hlink hb =>
    rcases h with h | ⟨x, rfl⟩
    · exact (h hlink).elim
    · cases (decodeTransaction_byte x).symm.trans hb
  · rfl

theorem AgentPort.selectFall_absent (h : a.selLow = true) : a.selectFall = a := if_pos h

theorem AgentPort.selectRise_absent (h : a.selLow = false) : a.selectRise = a := if_neg (by rw [h]; nofun)

/-- A level of SELn written as it is. -/
theorem AgentPort.selLow_same {level : Bool} (h : a.selLow = level) : { a with selLow := level } = a := by
  rw [← h]

end

/-! ### Every command -/

theorem step_of_pending {c : Instr} {q : List Instr} {s : State} (h : s.pending = c :: q) :
    step s = exec c { s with pending := q } := by
  unfold step
  rw [h]

/-- Settles O1. -/
theorem stepTakesFrontCommand : Obligations.StepTakesFrontCommand := fun _ _ _ => step_of_pending

theorem step_of_idle {s : State} (h : s.pending = []) : step s = .next s := by
  unfold step
  rw [h]

theorem Move.pending {s s' : State} (h : Move s s') : s'.pending = s.pending := by
  cases h <;> rfl

theorem exec_absent {c : Instr} {s : State} (h : EventAbsent c s) : exec c s = .next s := by
  cases c with
  | deviceReset | refclkEdge => exact h.elim
  | resetRelease straps prst => exact if_neg (by rw [show s.resetLow = false from h]; nofun)
  | portReset p prst =>
    exact State.whenRunning_absent (if_neg fun hevent => h (State.prstEvent_reset_iff.mp hevent))
  | portRelease p prst =>
    exact State.whenRunning_absent (if_neg fun hevent => h (State.prstEvent_release_iff.mp hevent))
  | timebaseTrim =>
    refine State.whenRunning_absent ?_
    split
    next a hcall => exact (h a hcall).elim
    · rfl
  | timebaseReadClock =>
    refine State.whenRunning_absent ?_
    split
    next hcall => exact (h hcall).elim
    · rfl
  | clockAnswer =>
    refine State.whenRunning_absent ?_
    split
    · rfl
    · rfl
    next m rest hm hpath =>
      have htick := h m rest hpath
      cases m with
      | tick n => exact (hm n rfl).elim
      | trimAnswer | clockAnswer => cases htick
  | tickNotice =>
    change s.takeTickIf (fun _ _ => true) = _
    dsimp only [EventAbsent] at h
    exact State.takeTickIf_absent h fun _ _ => trivial
  | leaseExpiry k =>
    change s.takeTickIf (fun e n => e.expiresAt k n) = _
    dsimp only [EventAbsent] at h
    refine State.takeTickIf_absent h fun n hn => ?_
    simpa [Engine.expiresAt, Engine.isFrozen_eq_false] using hn
  | waitTimeout k =>
    change s.takeTickIf (fun e n => e.waitEndsAt k n) = _
    dsimp only [EventAbsent] at h
    refine State.takeTickIf_absent h fun n hn => ?_
    simpa [Engine.waitEndsAt, Engine.isFrozen_eq_false] using hn
  | conversionTimeout k =>
    change s.takeTickIf (fun e n => e.convEndsAt k n) = _
    dsimp only [EventAbsent] at h
    refine State.takeTickIf_absent h fun n hn => ?_
    simpa [Engine.convEndsAt, Engine.isFrozen_eq_false, and_assoc] using hn
  | warnMarginReached k =>
    change s.takeTickIf (fun e n => e.warnsAt k n) = _
    dsimp only [EventAbsent] at h
    refine State.takeTickIf_absent h fun n hn => ?_
    simpa [Engine.warnsAt, Engine.isFrozen_eq_false, and_assoc] using hn
  | freezeLimit =>
    change s.takeTickIf (fun e n => e.limitAt n) = _
    dsimp only [EventAbsent] at h
    refine State.takeTickIf_absent h fun n hn => ?_
    simpa [Engine.limitAt, Freeze.limitTick, Config.freezeLimit, Option.any_eq_true] using hn
  | arbiterTake => exact exec_arbiterTake_of_none h
  | forwardedCancel p =>
    refine State.takeFromPort_absent fun m rest hhead => ?_
    cases m with
    | cancel t => exact (h t rest hhead).elim
    | request | portDrop => rfl
  | portDrop p =>
    refine State.takeFromPort_absent fun m rest hhead => ?_
    cases m with
    | portDrop => exact (h rest hhead).elim
    | request | cancel => rfl
  | portAnswer p =>
    refine State.takeAtPort_absent h fun m hm => ?_
    cases m with
    | answer t x => exact (hm ⟨t, x, rfl⟩).elim
    | _ => rfl
  | portCompletion p =>
    refine State.takeAtPort_absent h fun m hm => ?_
    cases m with
    | completion t x => exact (hm ⟨t, x, rfl⟩).elim
    | _ => rfl
  | cancelLateNotice p =>
    refine State.takeAtPort_absent h fun m hm => ?_
    cases m with
    | cancelLate t => exact (hm ⟨t, rfl⟩).elim
    | _ => rfl
  | markedCount p =>
    refine State.takeAtPort_absent h fun m hm => ?_
    cases m with
    | marked n => exact (hm ⟨n, rfl⟩).elim
    | _ => rfl
  | sessionNotice p =>
    refine State.takeAtPort_absent h fun m hm => ?_
    cases m with
    | session o k l => exact (hm ⟨o, k, l, rfl⟩).elim
    | _ => rfl
  | freezeNotice p =>
    refine State.takeAtPort_absent h fun m hm => ?_
    cases m with
    | freeze f o => exact (hm ⟨f, o, rfl⟩).elim
    | _ => rfl
  | dropComplete p =>
    refine State.takeAtPort_absent h fun m hm => ?_
    cases m with
    | dropComplete => exact (hm rfl).elim
    | _ => rfl
  | selectFall p =>
    have hsel : (s.port p).selLow = true := h
    change execSelectFall p s = _
    unfold execSelectFall
    rw [AgentPort.selLow_same hsel, AgentPort.selectFall_absent hsel, State.setPort_same]
    exact ite_self _
  | selectRise p =>
    have hsel : (s.port p).selLow = false := h
    change execSelectRise p s = _
    unfold execSelectRise
    rw [AgentPort.selLow_same hsel, AgentPort.selectRise_absent hsel, State.setPort_same]
    exact ite_self _
  | submit p t bytes =>
    change s.atPort p (fun a => (a.submit t bytes, [])) = _
    exact State.atPort_absent (by rw [AgentPort.submit_absent h.1 h.2])
  | fetch p t =>
    change s.atPort p (fun a => (a.fetch t, [])) = _
    exact State.atPort_absent (by rw [AgentPort.fetch_absent h])
  | cancel p t =>
    change s.atPort p (fun a => a.cancel t) = _
    exact State.atPort_absent (AgentPort.cancel_of_not_command h)
  | status p =>
    change s.atPort p (fun a => (a.statusReply, [])) = _
    exact State.atPort_absent (by rw [AgentPort.statusReply_absent h])
  | unknownTransaction p b =>
    change s.atPort p (fun a => (a.unknownTransaction b, [])) = _
    exact State.atPort_absent (by rw [AgentPort.unknownTransaction_absent h])
  | bitAfterCheckByte p =>
    change s.atPort p (fun a => (a.bitAfterCheck, [])) = _
    exact State.atPort_absent (by rw [AgentPort.bitAfterCheck_absent h])
  | fetchComplete p =>
    change s.atPort p (fun a => (a.fetchComplete, [])) = _
    exact State.atPort_absent (by rw [AgentPort.fetchComplete_absent h])
  | linkFaultCauseShiftedOut p =>
    change s.atPort p (fun a => (a.causeShiftedOut, [])) = _
    exact State.atPort_absent (by rw [AgentPort.causeShiftedOut_absent h])
  | _ p => exact State.takeRequest_absent h fun t r x hx => by cases r <;> simp_all [Request.code]

/-- Settles O2: a command moves the part and leaves the queue, and each command waits for the event that it names. -/
theorem queueIdlesAndAbsentEventsChangeNothing : Obligations.QueueIdlesAndAbsentEventsChangeNothing :=
  ⟨⟨fun _ => step_of_idle, fun _ _ _ h => (exec_next h).pending⟩, fun _ _ => exec_absent⟩

/-! ### Faults (log 8) -/

/-- The command answers a next state. -/
def Proceeds (k : StepResult) : Prop := ∃ s', k = .next s'

section
variable {s : State} {p : Port}

theorem Proceeds.whenRunning {k : StepResult} (h : Proceeds k) : Proceeds (s.whenRunning k) := by
  unfold State.whenRunning
  split
  · exact ⟨s, rfl⟩
  · exact h

theorem Proceeds.takeFromPort (f : PortMsg → Option Effect) : Proceeds (s.takeFromPort p f) := by
  rcases State.takeFromPort_cases s p f with h | ⟨_, _, _, _, _, _, h⟩ <;> exact ⟨_, h⟩

theorem Proceeds.takeRequest (f : Tag → Request → Option Effect) : Proceeds (s.takeRequest p f) := by
  rcases State.takeRequest_cases s p f with h | ⟨_, _, _, _, _, _, _, _, h⟩ <;> exact ⟨_, h⟩

theorem Proceeds.takeTickIf (f : Engine → Tick → Bool) : Proceeds (s.takeTickIf f) := by
  rcases State.takeTickIf_cases s f with h | ⟨_, _, _, _, _, h⟩ <;> exact ⟨_, h⟩

/-- A message that no port can fault on. -/
theorem Proceeds.takeAtPort {f : EngineMsg → Option (Except Fault AgentPort)} (hf : ∀ m x, f m ≠ some (.error x)) :
    Proceeds (s.takeAtPort p f) := by
  rcases State.takeAtPort_cases s p f with h | ⟨m, _, _, _, ⟨_, _, h⟩ | ⟨x, hx, _⟩⟩
  · exact ⟨_, h⟩
  · exact ⟨_, h⟩
  · exact (hf m x hx).elim

/-- The command answers a next state, or stops with a fault while RESETn is high for the reason `why`. -/
def StopsOnly (s : State) (why : Fault → Prop) (k : StepResult) : Prop :=
  Proceeds k ∨ ∃ f, k = .fault f ∧ s.resetLow = false ∧ why f

theorem StopsOnly.takeAtPort {f : EngineMsg → Option (Except Fault AgentPort)} {why : Fault → Prop}
    (hf : ∀ m rest x, pick s.toPort p = m :: rest → f m = some (.error x) → why x) :
    StopsOnly s why (s.takeAtPort p f) := by
  rcases State.takeAtPort_cases s p f with h | ⟨m, rest, hrun, hhead, ⟨_, _, h⟩ | ⟨x, hx, h⟩⟩
  · exact .inl ⟨_, h⟩
  · exact .inl ⟨_, h⟩
  · exact .inr ⟨x, h, hrun, hf m rest x hhead hx⟩

/-! ### Messages that a port does not take -/

variable {a : AgentPort} {t : Tag} {f : Fault}

theorem AgentPort.takeAnswer_error {x : Answer} (h : a.takeAnswer t x = .error f) :
    f = .answerUnexpected ∧ a.context t ≠ .free ∧ ∀ r k, a.context t ≠ .queued r true k := by
  unfold AgentPort.takeAnswer at h
  split at h
  · cases h
  · cases h
  next hheld hfree => exact ⟨(Except.error.inj h).symm, hfree, hheld⟩

theorem AgentPort.takeCompletion_error {x : Completion} (h : a.takeCompletion t x = .error f) :
    f = .completionUnexpected ∧ a.context t ≠ .free ∧ ∀ r k m, a.context t ≠ .waiting r k m := by
  unfold AgentPort.takeCompletion at h
  split at h
  · cases h
  · cases h
  next hwaiting hfree => exact ⟨(Except.error.inj h).symm, hfree, hwaiting⟩

theorem AgentPort.takeCancelLate_error (h : a.takeCancelLate t = .error f) :
    f = .cancelLateUnexpected ∧ a.context t ≠ .free ∧ ∀ r, a.context t ≠ .done r true := by
  unfold AgentPort.takeCancelLate at h
  split at h
  · cases h
  · cases h
  next hdone hfree => exact ⟨(Except.error.inj h).symm, hfree, hdone⟩

theorem AgentPort.takeDropComplete_error (h : a.takeDropComplete = .error f) :
    f = .dropCompleteUnexpected ∧ a.link ≠ .draining ∧ (a.link = .inReset → a.dropOutstanding = false) := by
  unfold AgentPort.takeDropComplete at h
  split at h
  · cases h
  · cases h
  next hdraining hreset =>
    exact ⟨(Except.error.inj h).symm, hdraining, fun hlink => Bool.eq_false_iff.mpr (hreset hlink)⟩

/-- A message that gives a clock request no result is a tick notice or no answer to its kind. -/
theorem ClockRequest.answeredBy_of_resultOf {c : ClockRequest} {m : TimebaseMsg} (h : c.resultOf m = none) :
    c.kind.answeredBy m = false := by
  unfold ClockRequest.resultOf at h
  cases hk : c.kind <;> cases m <;> simp_all [ClockKind.answeredBy]

theorem StopsOnly.clockAnswer : StopsOnly s (fun f => f = .clockAnswerUnexpected ∧
    ∃ m rest, s.fromTimebase = m :: rest ∧ m.tickOf = none ∧
      ∀ k, s.engine.clock = some k → k.kind.answeredBy m = false) (exec .clockAnswer s) := by
  change StopsOnly s _ (execClockAnswer s)
  unfold execClockAnswer State.whenRunning
  split
  · exact .inl ⟨_, rfl⟩
  next hrun =>
    split
    · exact .inl ⟨_, rfl⟩
    · exact .inl ⟨_, rfl⟩
    next m rest hm hpath =>
      split
      · exact .inl ⟨_, rfl⟩
      next hnone =>
        refine .inr ⟨_, rfl, by simpa using hrun, rfl, m, rest, hpath, ?_, fun k hk => ?_⟩
        · cases m with
          | tick n => exact (hm n rfl).elim
          | trimAnswer | clockAnswer => rfl
        · rw [hk, Option.bind_some, Option.map_eq_none_iff] at hnone
          exact ClockRequest.answeredBy_of_resultOf hnone

end

/-- Why a command stops. -/
def StopReason (s : State) (c : Instr) (f : Fault) : Prop :=
  match c with
  | .portAnswer p => f = .answerUnexpected ∧
      ∃ t x rest, pick s.toPort p = .answer t x :: rest ∧ (s.port p).context t ≠ .free ∧
        ∀ r k, (s.port p).context t ≠ .queued r true k
  | .portCompletion p => f = .completionUnexpected ∧
      ∃ t x rest, pick s.toPort p = .completion t x :: rest ∧ (s.port p).context t ≠ .free ∧
        ∀ r k m, (s.port p).context t ≠ .waiting r k m
  | .cancelLateNotice p => f = .cancelLateUnexpected ∧
      ∃ t rest, pick s.toPort p = .cancelLate t :: rest ∧ (s.port p).context t ≠ .free ∧
        ∀ r, (s.port p).context t ≠ .done r true
  | .dropComplete p => f = .dropCompleteUnexpected ∧
      (∃ rest, pick s.toPort p = .dropComplete :: rest) ∧ (s.port p).link ≠ .draining ∧
        ((s.port p).link = .inReset → (s.port p).dropOutstanding = false)
  | .clockAnswer => f = .clockAnswerUnexpected ∧
      ∃ m rest, s.fromTimebase = m :: rest ∧ m.tickOf = none ∧
        ∀ k, s.engine.clock = some k → k.kind.answeredBy m = false
  | _ => False

theorem exec_stopsOnly (c : Instr) (s : State) : StopsOnly s (StopReason s c) (exec c s) := by
  cases c with
  | portAnswer p =>
    refine .takeAtPort fun m rest x hhead hx => ?_
    cases m with
    | answer t y =>
      obtain ⟨hf, hfree, hheld⟩ := AgentPort.takeAnswer_error (Option.some.inj hx)
      exact ⟨hf, t, y, rest, hhead, hfree, hheld⟩
    | _ => cases hx
  | portCompletion p =>
    refine .takeAtPort fun m rest x hhead hx => ?_
    cases m with
    | completion t y =>
      obtain ⟨hf, hfree, hwaiting⟩ := AgentPort.takeCompletion_error (Option.some.inj hx)
      exact ⟨hf, t, y, rest, hhead, hfree, hwaiting⟩
    | _ => cases hx
  | cancelLateNotice p =>
    refine .takeAtPort fun m rest x hhead hx => ?_
    cases m with
    | cancelLate t =>
      obtain ⟨hf, hfree, hdone⟩ := AgentPort.takeCancelLate_error (Option.some.inj hx)
      exact ⟨hf, t, rest, hhead, hfree, hdone⟩
    | _ => cases hx
  | dropComplete p =>
    refine .takeAtPort fun m rest x hhead hx => ?_
    cases m with
    | dropComplete =>
      obtain ⟨hf, hdraining, hreset⟩ := AgentPort.takeDropComplete_error (Option.some.inj hx)
      exact ⟨hf, ⟨rest, hhead⟩, hdraining, hreset⟩
    | _ => cases hx
  | clockAnswer => exact .clockAnswer
  | markedCount p => exact .inl (.takeAtPort fun m x hx => by cases m <;> cases hx)
  | sessionNotice p => exact .inl (.takeAtPort fun m x hx => by cases m <;> cases hx)
  | freezeNotice p => exact .inl (.takeAtPort fun m x hx => by cases m <;> cases hx)
  | deviceReset => exact .inl ⟨_, rfl⟩
  | resetRelease straps prst =>
    change StopsOnly s _ (execResetRelease straps prst s)
    unfold execResetRelease
    split <;> exact .inl ⟨_, rfl⟩
  | refclkEdge prst => exact .inl (Proceeds.whenRunning ⟨_, rfl⟩)
  | portReset p prst =>
    refine .inl (Proceeds.whenRunning ?_)
    split <;> exact ⟨_, rfl⟩
  | portRelease p prst =>
    refine .inl (Proceeds.whenRunning ?_)
    split <;> exact ⟨_, rfl⟩
  | arbiterTake =>
    refine .inl (Proceeds.whenRunning ?_)
    split
    · split <;> exact ⟨_, rfl⟩
    · exact ⟨_, rfl⟩
  | timebaseTrim =>
    refine .inl (Proceeds.whenRunning ?_)
    split <;> exact ⟨_, rfl⟩
  | timebaseReadClock =>
    refine .inl (Proceeds.whenRunning ?_)
    split <;> exact ⟨_, rfl⟩
  | selectFall p =>
    change StopsOnly s _ (execSelectFall p s)
    unfold execSelectFall
    split <;> exact .inl ⟨_, rfl⟩
  | selectRise p =>
    change StopsOnly s _ (execSelectRise p s)
    unfold execSelectRise
    split <;> exact .inl ⟨_, rfl⟩
  | tickNotice => exact .inl (.takeTickIf (fun _ _ => true))
  | leaseExpiry k => exact .inl (.takeTickIf (fun e n => e.expiresAt k n))
  | waitTimeout k => exact .inl (.takeTickIf (fun e n => e.waitEndsAt k n))
  | conversionTimeout k => exact .inl (.takeTickIf (fun e n => e.convEndsAt k n))
  | warnMarginReached k => exact .inl (.takeTickIf (fun e n => e.warnsAt k n))
  | freezeLimit => exact .inl (.takeTickIf (fun e n => e.limitAt n))
  | forwardedCancel p | portDrop p => exact .inl (.takeFromPort _)
  | submit | fetch | fetchComplete | cancel | status | unknownTransaction | linkFaultCauseShiftedOut
  | bitAfterCheckByte => exact .inl (Proceeds.whenRunning ⟨_, rfl⟩)
  | _ p => exact .inl (.takeRequest _)

/-- Settles O3: a command proceeds, or it is one of five that stop on a message which the port or the engine does not
expect. -/
theorem onlyUnexpectedMessagesStop : Obligations.OnlyUnexpectedMessagesStop := by
  constructor
  · intro c s x hx
    rcases exec_stopsOnly c s with ⟨s', h⟩ | ⟨f, h, -⟩ <;> cases h.symm.trans hx
  · intro c s f hf
    rcases exec_stopsOnly c s with ⟨s', h⟩ | ⟨f', h, hrun, hwhy⟩
    · cases h.symm.trans hf
    · cases h.symm.trans hf
      refine ⟨hrun, ?_⟩
      cases c <;> exact hwhy

end Sys2Proof.Machine

/-! ## Tick notices and thaw settlement: proofs about Machine/Ticks.lean (R88, R90 to R96, R146, R148 to R150) -/

namespace Sys2Proof.Machine

section
variable {s : State} {e : Engine} {n : Tick} {rest : List TimebaseMsg}

/-! ### Taking a tick notice -/

/-- A command by whose condition the notice at the head of the path is taken does what the notice does. -/
theorem exec_of_tick {c : Instr} {f : Engine → Tick → Bool} {e' : Engine} {out : List Out}
    (hcommand : exec c s = s.takeTickIf f) (hrun : s.resetLow = false) (hhead : s.fromTimebase = .tick n :: rest)
    (hf : f s.engine n = true) (htick : s.engine.tick n = { engine := e', out := out }) :
    exec c s = .next (s.afterTimebase rest e' out) := by
  rw [hcommand, State.takeTickIf_head hrun hhead hf, htick, State.applyEffect_afterTimebase]

theorem Engine.tick_of_unfrozen (h : e.freeze = none) : e.tick n = e.tickUnfrozen n := by
  unfold Engine.tick
  rw [h]

theorem Engine.tick_of_freeze {f : Freeze} (h : e.freeze = some f) : e.tick n = e.tickFrozen f n := by
  unfold Engine.tick
  rw [h]

theorem Engine.tick_of_frozen {f : Freeze} (h : e.freeze = some f) (hn : n ≠ f.start + 512) :
    e.tick n = { engine := { e with settled := n }, out := [] } :=
  (Engine.tick_of_freeze h).trans (if_neg hn)

theorem Engine.tick_of_limit {f : Freeze} (h : e.freeze = some f) :
    e.tick (f.start + 512) = e.limitThaw f (f.start + 512) :=
  (Engine.tick_of_freeze h).trans (if_pos rfl)

/-- Settles O10. -/
theorem frozenTickOnlyAdvances : Obligations.FrozenTickOnlyAdvances := fun _ _ _ _ hrun hhead hfreeze hn =>
  exec_of_tick (f := fun _ _ => true) rfl hrun hhead rfl (Engine.tick_of_frozen hfreeze hn)

/-! ### The parts of a notice in the unfrozen table (R90) -/

theorem Engine.countSlots_pos {f : Record → Bool} : 0 < e.countSlots f ↔ ∃ k, f (e.record k) = true := by
  unfold Engine.countSlots
  rw [List.length_pos_iff_exists_mem]
  simp

/-- What the due parts have done something with. -/
theorem Engine.settleDue_moved (e : Engine) : e.settleDue.moved = true ↔
    (∃ k, (e.record k).leaseDue e.settled = true) ∨ (∃ k, (e.expirePart.1.record k).waitDue e.settled = true) ∨
      ∃ k, (e.expirePart.1.waitTimeoutPart.1.record k).convDue e.settled = true := by
  change (decide (0 < e.countSlots _) || decide (0 < e.expirePart.1.countSlots _) ||
    decide (0 < e.expirePart.1.waitTimeoutPart.1.countSlots _)) = true ↔ _
  rw [Bool.or_eq_true, Bool.or_eq_true, decide_eq_true_iff, decide_eq_true_iff, decide_eq_true_iff,
    Engine.countSlots_pos, Engine.countSlots_pos, Engine.countSlots_pos, or_assoc]

theorem Engine.convCompletions_none {which : SlotNo → Bool} (h : ∀ k, which k = false) (c : Completion) :
    e.convCompletions which c = [] := by
  refine List.filterMap_eq_nil_iff.mpr fun k _ => ?_
  split
  · exact if_neg (by simp [h])
  · rfl

theorem Engine.waitCompletions_none {which : SlotNo → Bool} (h : ∀ k, which k = false) (c : Completion) :
    e.waitCompletions which c = [] := by
  refine List.filterMap_eq_nil_iff.mpr fun k _ => ?_
  split
  · exact if_neg (by simp [h])
  · rfl

/-- Settles O11: the pass runs when one of the due parts did something; else none of them has a message. -/
theorem unfrozenTickRunsItsParts : Obligations.UnfrozenTickRunsItsParts := by
  intro s n rest hrun hhead hfreeze e1 e2 gone e3 late waits e4 convs e5 due
  have hmoved : (s.engine.advance n).settleDue.moved = true ↔ due := Engine.settleDue_moved (s.engine.advance n)
  constructor
  · intro hdue
    refine exec_of_tick (f := fun _ _ => true) rfl hrun hhead rfl ?_
    rw [Engine.tick_of_unfrozen hfreeze, Engine.tickUnfrozen]
    rw [if_pos (hmoved.mpr hdue)]
    rfl
  · intro hdue
    refine exec_of_tick (f := fun _ _ => true) rfl hrun hhead rfl ?_
    rw [Engine.tick_of_unfrozen hfreeze, Engine.tickUnfrozen]
    rw [if_neg fun h => hdue (hmoved.mp h)]
    obtain ⟨hleases, hrest⟩ := not_or.mp hdue
    obtain ⟨hwaits, hconvs⟩ := not_or.mp hrest
    have hgone : gone = [] := Engine.convCompletions_none (fun k => by simpa using fun h => hleases ⟨k, h⟩) _
    have hlate : waits = [] := Engine.waitCompletions_none (fun k => by simpa using fun h => hwaits ⟨k, h⟩) _
    have hended : convs = [] := Engine.convCompletions_none (fun k => by simpa using fun h => hconvs ⟨k, h⟩) _
    change s.engine.finish e5 (gone ++ waits ++ convs ++ []) = _
    rw [hgone, hlate, hended]
    rfl

/-! ### The notice at which a record falls due (R91 to R94) -/

/-- The engine of a notice after part 5, which the pass of part 6 finds. -/
def Engine.warnedAt (e : Engine) (n : Tick) : Engine := (e.advance n).settleDue.engine.warnPart

/-- What a notice in the unfrozen table leaves: part 6 moves records by its grants only, and the completions of the due
parts leave first. -/
theorem Engine.tickUnfrozen_eq (e : Engine) (n : Tick) : ∃ b o, PassFrame (e.warnedAt n) b ∧
    e.tickUnfrozen n = { engine := e.closeEvent b
                         out := (e.advance n).settleDue.expired ++ (e.advance n).settleDue.waitsOut ++
                           (e.advance n).settleDue.convsOut ++ o } := by
  unfold Engine.tickUnfrozen
  dsimp only
  split
  · exact ⟨_, _, Engine.grantPass_frame _, by rw [Engine.finish, List.append_assoc]; rfl⟩
  · exact ⟨_, _, PassFrame.refl _, by rw [Engine.finish, List.append_assoc]; rfl⟩

theorem Engine.warnedAt_record (e : Engine) (n : Tick) (k : SlotNo) :
    (e.warnedAt n).record k =
      let r := (e.record k).settleDue n
      if r.reachesMargin n (e.marginFor r) then r.warn else r := by
  have hr : (e.advance n).settleDue.engine.record k = (e.record k).settleDue n :=
    Engine.record_settleDue (e.advance n) k
  rw [Engine.warnedAt, Engine.record_warnPart, hr]
  rfl

theorem Engine.warnedAt_issue (e : Engine) (n : Tick) (k : SlotNo) : (e.warnedAt n).issue k = e.issue k := by
  rw [Engine.warnedAt, Engine.issue_warnPart, Engine.issue_settleDue]
  rfl

/-- What the notice at the head of the path leaves in the unfrozen table, said for the statements about one record. -/
structure TickOutcome (s : State) (c : Instr) (n : Tick) (k : SlotNo) (s' : State) : Prop where
  command : exec c s = .next s'
  notice  : exec .tickNotice s = .next s'
  settled : s'.engine.settled = n
  issue   : s'.engine.issue k = s.engine.issue k
  record  : GrantMove (s.engine.warnedAt n) ((s.engine.warnedAt n).record k) (s'.engine.record k)
  waits   : s'.engine.waitList.Sublist (s.engine.warnedAt n).waitList
  convs   : s'.engine.convList.Sublist (s.engine.warnedAt n).convList
  sent    : ∀ q m, (q, m) ∈ (s.engine.advance n).settleDue.expired ++ (s.engine.advance n).settleDue.waitsOut ++
    (s.engine.advance n).settleDue.convsOut → m ∈ pick s'.toPort q

theorem mem_outFor_of_mem {q : Port} {m : EngineMsg} {out : List Out} (h : (q, m) ∈ out) : m ∈ outFor q out :=
  List.mem_filterMap.mpr ⟨(q, m), h, if_pos rfl⟩

theorem exec_tick_outcome {c : Instr} {f : Engine → Tick → Bool} (hcommand : exec c s = s.takeTickIf f)
    (hrun : s.resetLow = false) (hhead : s.fromTimebase = .tick n :: rest) (hfreeze : s.engine.freeze = none)
    (hf : f s.engine n = true) (k : SlotNo) : ∃ s', TickOutcome s c n k s' := by
  obtain ⟨b, o, hframe, heq⟩ := s.engine.tickUnfrozen_eq n
  have htick := (Engine.tick_of_unfrozen (n := n) hfreeze).trans heq
  refine ⟨_, exec_of_tick hcommand hrun hhead hf htick,
    exec_of_tick (f := fun _ _ => true) rfl hrun hhead rfl htick, ?_, ?_, ?_, ?_, ?_, fun q m hm => ?_⟩
  · exact (Engine.closeEvent_settled ..).trans hframe.settled
  · exact (Engine.issue_closeEvent ..).trans ((hframe.issue k).trans (s.engine.warnedAt_issue n k))
  · change GrantMove _ _ ((s.engine.closeEvent b).record k)
    rw [Engine.record_closeEvent]
    exact hframe.record k
  · change (s.engine.closeEvent b).waitList.Sublist _
    rw [Engine.closeEvent_waitList]
    exact hframe.waitList
  · change (s.engine.closeEvent b).convList.Sublist _
    rw [Engine.closeEvent_convList]
    exact hframe.convList
  · change m ∈ pick (tab fun q => _) q
    rw [pick_tab]
    exact List.mem_append_right _ (mem_outFor_of_mem (List.mem_append_left _ hm))

/-! ### One record through the due parts -/

theorem Engine.expirePart_record_of_not_due {k : SlotNo} (h : (e.record k).leaseDue n = false) :
    (e.advance n).expirePart.1.record k = e.record k := by
  change ((e.advance n).retireWhere _ _).record k = _
  rw [Engine.record_retireWhere]
  exact if_neg (by rw [show ((e.advance n).record k).leaseDue (e.advance n).settled = false from h]; nofun)

theorem Engine.waitTimeoutPart_record_of_held {k : SlotNo} {x : Held} (hx : e.record k = .held x)
    (h : (e.record k).leaseDue n = false) : (e.advance n).expirePart.1.waitTimeoutPart.1.record k = .held x := by
  change ((e.advance n).expirePart.1.freeWhere _).record k = _
  rw [Engine.record_freeWhere, Engine.expirePart_record_of_not_due h, hx]
  exact if_neg nofun

theorem Engine.mem_warnedAt_waitList {k : SlotNo} : k ∈ (e.warnedAt n).waitList ↔
    k ∈ e.waitList ∧ ((e.advance n).expirePart.1.record k).waitDue n = false := by
  change k ∈ dropSlots _ e.waitList ↔ _
  rw [mem_dropSlots]
  rfl

theorem Engine.mem_warnedAt_convList {k : SlotNo} : k ∈ (e.warnedAt n).convList ↔
    ((k ∈ e.convList ∧ (e.record k).leaseDue n = false) ∧ ((e.advance n).expirePart.1.record k).waitDue n = false) ∧
      ((e.advance n).expirePart.1.waitTimeoutPart.1.record k).convDue n = false := by
  change k ∈ dropSlots _ (dropSlots _ (dropSlots _ e.convList)) ↔ _
  rw [mem_dropSlots, mem_dropSlots, mem_dropSlots]
  rfl

theorem Engine.mem_convCompletions {which : SlotNo → Bool} {k : SlotNo} {x : Held} {c : Conversion}
    (hk : k ∈ e.convList) (hx : e.record k = .held x) (hc : x.conv = some c) (hwhich : which k = true)
    (d : Completion) : (x.holder, EngineMsg.completion c.tag d) ∈ e.convCompletions which d :=
  List.mem_filterMap.mpr ⟨k, hk, by simp [hx, hc, hwhich]⟩

theorem Engine.mem_waitCompletions {which : SlotNo → Bool} {k : SlotNo} {w : Waiting} (hk : k ∈ e.waitList)
    (hw : e.record k = .waiting w) (hwhich : which k = true) (d : Completion) :
    (w.holder, EngineMsg.completion w.tag d) ∈ e.waitCompletions which d :=
  List.mem_filterMap.mpr ⟨k, hk, by simp [hw, hwhich]⟩

/-! ### Due times -/

theorem Held.leaseDue_of_timed {x : Held} {d : Half} {m : Tick} (h : x.term = .timed d m) :
    (Record.held x).leaseDue n = decide ((m - n).toInt ≤ 0) := by
  simp [Record.leaseDue, h, isDue, remaining]

theorem Held.leaseDue_eq_false {x : Held} (h : ∀ d l, x.term = .timed d l → 0 < (l - n).toInt) :
    (Record.held x).leaseDue n = false := by
  cases hx : x.term with
  | pinned => simp [Record.leaseDue, hx]
  | timed d l =>
    rw [Held.leaseDue_of_timed hx]
    exact decide_eq_false (not_le.mpr (h d l hx))

theorem Waiting.waitDue_of_deadline {w : Waiting} {m : Tick} (h : w.waitDeadline = some m) :
    (Record.waiting w).waitDue n = decide ((m - n).toInt ≤ 0) := by
  simp [Record.waitDue, h, waitIsDue, isDue, remaining]

theorem Held.convDue_of_deadline {x : Held} {c : Conversion} {m : Tick} (hc : x.conv = some c)
    (h : c.waitDeadline = some m) : (Record.held x).convDue n = decide ((m - n).toInt ≤ 0) := by
  simp [Record.convDue, Record.conv, hc, h, waitIsDue, isDue, remaining]

/-- A margin above 0 is ahead of the settled tick. -/
theorem toInt_margin_pos {margin : BitVec 12} (h : 0 < margin.toNat) : 0 < (margin.setWidth 32).toInt := by
  have hlt := margin.isLt
  rw [BitVec.toInt_eq_toNat_of_lt (by rw [BitVec.toNat_setWidth]; omega), BitVec.toNat_setWidth]
  omega

/-- A lease that is not due goes through the due parts with its pending conversion settled. -/
theorem Record.settleDue_of_held {x : Held} (h : (Record.held x).leaseDue n = false) :
    (Record.held x).settleDue n = if (Record.held x).convDue n then .held { x with conv := none } else .held x := by
  unfold Record.settleDue
  rw [h]
  rfl

/-! ### The four notices -/

variable {k : SlotNo}

/-- R91. -/
theorem leaseExpiry_settles {x : Held} {d : Half} {m : Tick} (hrun : s.resetLow = false)
    (hhead : s.fromTimebase = .tick n :: rest) (hfreeze : s.engine.freeze = none) (hx : s.engine.record k = .held x)
    (hterm : x.term = .timed d m) (hdue : (m - n).toInt ≤ 0) : ∃ s',
      exec (.leaseExpiry k) s = .next s' ∧ exec .tickNotice s = .next s' ∧ s'.engine.settled = n ∧
        s'.engine.record k = .retired { toCommon := x.toCommon, cause := .expired } ∧
        s'.engine.issue k = s.engine.issue k ∧ k ∉ s'.engine.convList ∧
        ∀ c, x.conv = some c → k ∈ s.engine.convList →
          .completion c.tag { outcome := .gone, time := .none, endCause := .expired } ∈ pick s'.toPort x.holder := by
  have hlease : (s.engine.record k).leaseDue n = true := by
    rw [hx, Held.leaseDue_of_timed hterm]
    exact decide_eq_true hdue
  obtain ⟨s', hs⟩ := exec_tick_outcome (c := .leaseExpiry k) (f := fun e n => e.expiresAt k n) rfl hrun hhead hfreeze
    (by simp [Engine.expiresAt, Engine.isFrozen_eq_false.mpr hfreeze, hlease]) k
  refine ⟨s', hs.command, hs.notice, hs.settled, ?_, hs.issue, fun hmem => ?_, fun c hc hk => ?_⟩
  · have hretired : (s.engine.warnedAt n).record k = .retired { toCommon := x.toCommon, cause := .expired } := by
      rw [Engine.warnedAt_record, Record.settleDue, hlease, hx]
      rfl
    have hmove := hs.record
    rw [hretired] at hmove
    exact hmove.eq_of_quiet rfl rfl
  · obtain ⟨⟨⟨-, hnot⟩, -⟩, -⟩ := Engine.mem_warnedAt_convList.mp (hs.convs.mem hmem)
    cases hlease.symm.trans hnot
  · exact hs.sent _ _ (List.mem_append_left _ (List.mem_append_left _
      (Engine.mem_convCompletions (e := s.engine.advance n) hk hx hc hlease _)))

/-- R92. -/
theorem waitTimeout_settles {w : Waiting} {m : Tick} (hrun : s.resetLow = false)
    (hhead : s.fromTimebase = .tick n :: rest) (hfreeze : s.engine.freeze = none) (hw : s.engine.record k = .waiting w)
    (hdeadline : w.waitDeadline = some m) (hdue : (m - n).toInt ≤ 0) : ∃ s',
      exec (.waitTimeout k) s = .next s' ∧ exec .tickNotice s = .next s' ∧ s'.engine.settled = n ∧
        s'.engine.record k = .free ∧ s'.engine.issue k = s.engine.issue k ∧ k ∉ s'.engine.waitList ∧
        (k ∈ s.engine.waitList →
          .completion w.tag { outcome := .timeout, time := .none, endCause := .none } ∈ pick s'.toPort w.holder) := by
  have hwait : (s.engine.record k).waitDue n = true := by
    rw [hw, Waiting.waitDue_of_deadline hdeadline]
    exact decide_eq_true hdue
  have hlease : (s.engine.record k).leaseDue n = false := by rw [hw]; rfl
  have hexpire := Engine.expirePart_record_of_not_due hlease
  obtain ⟨s', hs⟩ := exec_tick_outcome (c := .waitTimeout k) (f := fun e n => e.waitEndsAt k n) rfl hrun hhead hfreeze
    (by simp [Engine.waitEndsAt, Engine.isFrozen_eq_false.mpr hfreeze, hwait]) k
  refine ⟨s', hs.command, hs.notice, hs.settled, ?_, hs.issue, fun hmem => ?_, fun hk => ?_⟩
  · have hfree : (s.engine.warnedAt n).record k = .free := by
      rw [Engine.warnedAt_record, Record.settleDue, hlease, hwait]
      rfl
    have hmove := hs.record
    rw [hfree] at hmove
    exact hmove.eq_of_quiet rfl rfl
  · obtain ⟨-, hnot⟩ := Engine.mem_warnedAt_waitList.mp (hs.waits.mem hmem)
    rw [hexpire, hwait] at hnot
    cases hnot
  · refine hs.sent _ _ (List.mem_append_left _ (List.mem_append_right _ ?_))
    exact Engine.mem_waitCompletions (e := (s.engine.advance n).expirePart.1) hk (hexpire.trans hw)
      ((congrArg (fun r => r.waitDue n) hexpire).trans hwait) _

/-- R93. -/
theorem conversionTimeout_settles {x : Held} {c : Conversion} {m : Tick} (hrun : s.resetLow = false)
    (hhead : s.fromTimebase = .tick n :: rest) (hfreeze : s.engine.freeze = none) (hx : s.engine.record k = .held x)
    (hc : x.conv = some c) (hdeadline : c.waitDeadline = some m) (hdue : (m - n).toInt ≤ 0)
    (hahead : ∀ d l, x.term = .timed d l → 0 < (l - n).toInt) : ∃ s',
      exec (.conversionTimeout k) s = .next s' ∧ exec .tickNotice s = .next s' ∧ s'.engine.settled = n ∧
        (∃ warned, s'.engine.record k = .held { x with conv := none, warned }) ∧
        s'.engine.issue k = s.engine.issue k ∧ k ∉ s'.engine.convList ∧
        (k ∈ s.engine.convList →
          .completion c.tag { outcome := .timeout, time := .none, endCause := .none } ∈ pick s'.toPort x.holder) := by
  have hconv : (s.engine.record k).convDue n = true := by
    rw [hx, Held.convDue_of_deadline hc hdeadline]
    exact decide_eq_true hdue
  have hlease : (s.engine.record k).leaseDue n = false := by rw [hx]; exact Held.leaseDue_eq_false hahead
  have hthird := Engine.waitTimeoutPart_record_of_held hx hlease
  obtain ⟨s', hs⟩ := exec_tick_outcome (c := .conversionTimeout k) (f := fun e n => e.convEndsAt k n) rfl hrun hhead
    hfreeze (by simp [Engine.convEndsAt, Engine.isFrozen_eq_false.mpr hfreeze, hconv, hlease]) k
  refine ⟨s', hs.command, hs.notice, hs.settled, ?_, hs.issue, fun hmem => ?_, fun hk => ?_⟩
  · have hleft : ∃ warned, (s.engine.warnedAt n).record k = .held { x with conv := none, warned } := by
      rw [hx] at hlease hconv
      rw [Engine.warnedAt_record, hx, Record.settleDue_of_held hlease, if_pos hconv]
      dsimp only
      split
      · exact ⟨true, rfl⟩
      · exact ⟨x.warned, rfl⟩
    obtain ⟨warned, hleft⟩ := hleft
    have hmove := hs.record
    rw [hleft] at hmove
    exact ⟨warned, hmove.eq_of_quiet rfl rfl⟩
  · obtain ⟨-, hnot⟩ := Engine.mem_warnedAt_convList.mp (hs.convs.mem hmem)
    rw [hthird, ← hx, hconv] at hnot
    cases hnot
  · refine hs.sent _ _ (List.mem_append_right _ ?_)
    have hlisted : k ∈ (s.engine.advance n).expirePart.1.waitTimeoutPart.1.convList := by
      change k ∈ dropSlots _ (dropSlots _ s.engine.convList)
      refine mem_dropSlots.mpr ⟨mem_dropSlots.mpr ⟨hk, hlease⟩, ?_⟩
      rw [Engine.expirePart_record_of_not_due hlease, hx]
      rfl
    exact Engine.mem_convCompletions hlisted hthird hc
      ((congrArg (fun r => r.convDue n) (hthird.trans hx.symm)).trans hconv) _

/-- R94. -/
theorem warnMarginReached_warns {x : Held} {d : Half} {m : Tick} (hrun : s.resetLow = false)
    (hhead : s.fromTimebase = .tick n :: rest) (hfreeze : s.engine.freeze = none) (hx : s.engine.record k = .held x)
    (hterm : x.term = .timed d m) (hunwarned : x.warned = false)
    (hmargin : 0 < (s.engine.session x.holder).warnMargin.toNat)
    (hreach : m - n = (s.engine.session x.holder).warnMargin.setWidth 32) : ∃ s' y,
      exec (.warnMarginReached k) s = .next s' ∧ exec .tickNotice s = .next s' ∧ s'.engine.settled = n ∧
        s'.engine.record k = .held y ∧ y.warned = true ∧ y.toCommon = { x.toCommon with mode := y.mode } ∧
        y.term = x.term ∧ y.renewals = x.renewals ∧ s'.engine.issue k = s.engine.issue k := by
  have hlease : (s.engine.record k).leaseDue n = false := by
    rw [hx, Held.leaseDue_of_timed hterm, hreach]
    exact decide_eq_false (not_le.mpr (toInt_margin_pos hmargin))
  have hreaches (c : Option Conversion) :
      (Record.held { x with conv := c }).reachesMargin n (s.engine.marginFor (.held { x with conv := c })) = true := by
    simp [Record.reachesMargin, hterm, hunwarned, Engine.marginFor, Record.common, Engine.margin, hmargin, remaining,
      hreach]
  have hreachesNow : (s.engine.record k).reachesMargin n (s.engine.marginFor (s.engine.record k)) = true := by
    rw [hx]; exact hreaches x.conv
  obtain ⟨s', hs⟩ := exec_tick_outcome (c := .warnMarginReached k) (f := fun e n => e.warnsAt k n) rfl hrun hhead
    hfreeze (by simp [Engine.warnsAt, Engine.isFrozen_eq_false.mpr hfreeze, hreachesNow, hlease]) k
  have hwarned : ∃ c, (s.engine.warnedAt n).record k = .held { x with conv := c, warned := true } := by
    rw [hx] at hlease
    rw [Engine.warnedAt_record, hx, Record.settleDue_of_held hlease]
    split
    next hconv => exact ⟨none, if_pos (hreaches none)⟩
    · exact ⟨x.conv, if_pos (hreaches x.conv)⟩
  obtain ⟨c, hwarned⟩ := hwarned
  have hmove := hs.record
  rw [hwarned] at hmove
  rcases hmove.of_held with hsame | hgranted
  · exact ⟨s', _, hs.command, hs.notice, hs.settled, hsame, rfl, rfl, rfl, rfl, hs.issue⟩
  · exact ⟨s', _, hs.command, hs.notice, hs.settled, hgranted, rfl, rfl, rfl, rfl, hs.issue⟩

end

/-- Settles O12. -/
theorem dueRecordsSettleAtTheirNotice : Obligations.DueRecordsSettleAtTheirNotice := fun _ _ _ _ hrun hhead hfreeze =>
  ⟨fun _ _ _ hx hterm hdue => leaseExpiry_settles hrun hhead hfreeze hx hterm hdue,
    fun _ _ hw hdeadline hdue => waitTimeout_settles hrun hhead hfreeze hw hdeadline hdue,
    fun _ _ _ hx hc hdeadline hdue hahead =>
      conversionTimeout_settles hrun hhead hfreeze hx hc hdeadline hdue hahead,
    fun _ _ _ hx hterm hunwarned hmargin hreach =>
      warnMarginReached_warns hrun hhead hfreeze hx hterm hunwarned hmargin hreach⟩

/-! ### The freeze limit and thaw settlement (R146, R148 to R150) -/

section
variable {e : Engine}

theorem Engine.freezeNotices_of_thawed (h : e.freeze = none) : e.freezeNotices =
    [(0, .freeze false false), (1, .freeze false false), (2, .freeze false false), (3, .freeze false false)] := by
  unfold Engine.freezeNotices Engine.isFrozen
  rw [h]
  rfl

/-- The warnings of thaw settlement: the lease is warned when its margin point fell within the freeze. -/
theorem Record.crossedMargin_iff {x : Held} {d : Half} {m n start : Tick} {margin : BitVec 12}
    (h : x.term = .timed d m) : (Record.held x).crossedMargin n start margin = true ↔
      x.warned = false ∧ 0 < margin.toNat ∧ (m - n).toInt ≤ margin.toNat ∧
        (margin.toNat : Int) < (m - start).toInt := by
  simp [Record.crossedMargin, h, remaining, and_assoc]

theorem Engine.thawWarnPart_record_cases (e : Engine) (start : Tick) (k : SlotNo) :
    (e.thawWarnPart start).record k = e.record k ∨ ∃ x d m, e.record k = .held x ∧ x.term = .timed d m ∧
      (e.thawWarnPart start).record k = .held { x with warned := true } := by
  rw [Engine.record_thawWarnPart]
  split
  next hcrossed =>
    cases hr : e.record k with
    | held x =>
      cases hx : x.term with
      | pinned => simp [Record.crossedMargin, hr, hx] at hcrossed
      | timed d m => exact .inr ⟨x, d, m, rfl, hx, rfl⟩
    | _ => exact .inl rfl
  · exact .inl rfl

end

/-- Settles O13: thaw settlement is the due parts, the warnings, one pass and the end of the freeze, in this order. -/
theorem freezeLimitThawsBySettlement : Obligations.FreezeLimitThawsBySettlement := by
  constructor
  · intro s f rest hrun hhead hfreeze x e
    have hthawed : e.freeze = none := (Engine.closeEvent_freeze ..).trans rfl
    have htick : s.engine.tick (f.start + 512) = { engine := e, out := x.early ++ x.grants ++ countNotices s.engine e ++
        [(0, .freeze false false), (1, .freeze false false), (2, .freeze false false), (3, .freeze false false)] } := by
      rw [Engine.tick_of_limit hfreeze, ← Engine.freezeNotices_of_thawed hthawed]
      rfl
    have hlimit := exec_of_tick (c := .freezeLimit) (f := fun e n => e.limitAt n) rfl hrun hhead
      (by simp [Engine.limitAt, hfreeze, Freeze.limitTick, Config.freezeLimit]) htick
    exact ⟨hthawed, hlimit,
      (exec_of_tick (f := fun _ _ => true) rfl hrun hhead rfl htick).trans hlimit.symm⟩
  · intro e start n e1 e2 e3 late
    have hmargin {k : SlotNo} {x : Held} (hx : e3.record k = .held x) :
        e3.marginFor (e3.record k) = (e.session x.holder).warnMargin := by
      rw [hx]; rfl
    refine ⟨e3.thawWarnPart start, ⟨rfl, rfl, rfl, rfl⟩, fun k => ⟨?_, e3.thawWarnPart_record_cases start k⟩,
      fun k x d m hx hterm => ⟨fun h => ?_, fun h => ?_⟩, rfl, rfl, rfl⟩
    · exact (Engine.issue_thawWarnPart ..).trans (Engine.issue_settleDue e k)
    · rw [Engine.record_thawWarnPart, if_pos, hx]
      · rfl
      · rw [hmargin hx, hx]
        exact (Record.crossedMargin_iff hterm).mpr h
    · rw [Engine.record_thawWarnPart, if_neg, hx]
      rw [hmargin hx, hx]
      exact fun hcrossed => h ((Record.crossedMargin_iff hterm).mp hcrossed)

end Sys2Proof.Machine

/-! ## The table's shared moves and the grant pass: proofs about Machine/Ops.lean (R9, R13 to R15, R19, R43 to R47) -/

namespace Sys2Proof.Machine

/-! ### Shared moves (R9, R13, R14, R19) -/

/-- Settles O14. -/
theorem slotsMoveAndGenerationStepsOnce : Obligations.SlotsMoveAndGenerationStepsOnce := by
  constructor
  · intro e which
    refine ⟨fun k => ⟨Engine.record_freeWhere .., Engine.issue_freeWhere ..⟩, rfl, rfl,
      fun cause k => ⟨Engine.issue_retireWhere .., fun x hk hx => ?_, fun h => ?_⟩, fun cause => ⟨rfl, rfl⟩,
      fun k => ⟨Engine.issue_dropConvWhere .., fun x hk hx => ?_, fun h => ?_⟩, rfl, rfl,
      fun j r k => ⟨Engine.record_enter .., ?_⟩⟩
    · rw [Engine.record_retireWhere, if_pos hk, hx]; rfl
    · rw [Engine.record_retireWhere]
      rcases h with hk | hheld
      · exact if_neg (by rw [hk]; nofun)
      · cases hr : e.record k with
        | held x => rw [hr] at hheld; cases hheld
        | _ => exact ite_self _
    · rw [Engine.record_dropConvWhere, if_pos hk, hx]; rfl
    · rw [Engine.record_dropConvWhere]
      rcases h with hk | hheld
      · exact if_neg (by rw [hk]; nofun)
      · cases hr : e.record k with
        | held x => rw [hr] at hheld; cases hheld
        | _ => exact ite_self _
    · rw [Engine.issue_enter]
      split
      next hk => rw [hk]
      · rfl
  · intro before after
    refine ⟨fun ⟨k, hk⟩ => Engine.closeEvent_changed fun hslots => ?_, fun h => Engine.closeEvent_same
      (Engine.slots_ext (fun k => (h k).1) fun k => (h k).2)⟩
    exact hk.elim (fun hr => hr (Engine.record_congr hslots k)) fun hi => hi (Engine.issue_congr hslots k)

section
variable {a b e : Engine} {k : SlotNo}

/-! ### One entry of a pass (R44 to R46) -/

theorem Engine.grantConversion_of_alone {x : Held} {c : Conversion} (hx : e.record k = .held x) (hc : x.conv = some c)
    (halone : e.otherHolders k x.region = []) : e.grantConversion k =
      some ({ e.setRecord k (.held { x with mode := .sole, conv := none }) with
              convList := dropSlots (fun j => j == k) e.convList },
        (x.holder, .completion c.tag { outcome := .granted, time := x.term.grantTime, endCause := .none })) := by
  unfold Engine.grantConversion
  rw [hx]
  dsimp only
  rw [hc]
  exact if_pos halone

theorem Engine.grantConversion_of_others {x : Held} (hx : e.record k = .held x)
    (hothers : e.otherHolders k x.region ≠ []) : e.grantConversion k = none := by
  unfold Engine.grantConversion
  rw [hx]
  dsimp only
  split
  · exact if_neg hothers
  · rfl

/-- Another HELD lease overlaps the region `g` of slot `k`. -/
def Engine.SharesRegion (e : Engine) (k : SlotNo) (g : Region) : Prop :=
  ∃ j y, j ≠ k ∧ e.record j = .held y ∧ y.region.overlaps g = true

theorem Engine.otherHolders_ne_nil {g : Region} : e.otherHolders k g ≠ [] ↔ e.SharesRegion k g := by
  constructor
  · intro hne
    obtain ⟨j, hj⟩ := List.exists_mem_of_ne_nil _ hne
    obtain ⟨hne, hheld, hover⟩ := Engine.mem_otherHolders.mp hj
    cases hr : e.record j with
    | held y => rw [hr] at hover; exact ⟨j, y, hne, hr, hover⟩
    | _ => rw [hr] at hheld; cases hheld
  · rintro ⟨j, y, hne, hy, hover⟩
    exact List.ne_nil_of_mem (Engine.mem_otherHolders.mpr ⟨hne, by rw [hy]; rfl, by rw [hy]; exact hover⟩)

/-- A party for region `g` in mode `m` conflicts with a HELD lease, or with a WAITING claim among `earlier`. -/
def Engine.Blocked (e : Engine) (earlier : SlotNo → Prop) (g : Region) (m : Mode) : Prop :=
  (∃ j y, e.record j = .held y ∧ (Record.held y).blocks g m = true) ∨
    ∃ j v, earlier j ∧ e.record j = .waiting v ∧ (Record.waiting v).blocks g m = true

theorem Engine.heldBack_iff {passed : List SlotNo} {w : Waiting} :
    e.heldBack passed w = true ↔ e.Blocked (· ∈ passed) w.region w.mode := by
  rw [Engine.heldBack, Bool.or_eq_true, List.any_eq_true, List.any_eq_true]
  refine or_congr ⟨?_, ?_⟩ ⟨?_, ?_⟩
  · rintro ⟨j, -, hj⟩
    obtain ⟨hheld, hblocks⟩ := Bool.and_eq_true_iff.mp hj
    cases hr : e.record j with
    | held y => exact ⟨j, y, hr, hr ▸ hblocks⟩
    | _ => rw [hr] at hheld; cases hheld
  · rintro ⟨j, y, hy, hblocks⟩
    exact ⟨j, mem_allSlots j, by rw [hy, hblocks]; rfl⟩
  · rintro ⟨j, hmem, hj⟩
    obtain ⟨hwaiting, hblocks⟩ := Bool.and_eq_true_iff.mp hj
    cases hr : e.record j with
    | waiting v => exact ⟨j, v, hmem, hr, hr ▸ hblocks⟩
    | _ => rw [hr] at hwaiting; cases hwaiting
  · rintro ⟨j, v, hmem, hv, hblocks⟩
    exact ⟨j, hmem, by rw [hv, hblocks]; rfl⟩

theorem Engine.grantWaiter_of_clear {passed : List SlotNo} {w : Waiting} (hw : e.record k = .waiting w)
    (h : ¬e.Blocked (· ∈ passed) w.region w.mode) : e.grantWaiter passed k =
      some ({ e.setRecord k (.held (e.grantedHeld w.toCommon w.duration)) with
              waitList := dropSlots (fun j => j == k) e.waitList },
        (w.holder, .completion w.tag
          { outcome := .granted, time := (Term.start e.settled w.duration).grantTime, endCause := .none })) := by
  unfold Engine.grantWaiter
  rw [hw]
  exact if_neg fun hback => h (Engine.heldBack_iff.mp hback)

theorem Engine.grantWaiter_of_blocked {passed : List SlotNo} {w : Waiting} (hw : e.record k = .waiting w)
    (h : e.Blocked (· ∈ passed) w.region w.mode) : e.grantWaiter passed k = none := by
  unfold Engine.grantWaiter
  rw [hw]
  exact if_pos (Engine.heldBack_iff.mpr h)

/-! ### Conflicts and terms in the words of the statements -/

theorem Record.blocks_held_iff {y : Held} {g : Region} {m : Mode} : (Record.held y).blocks g m = true ↔
    y.region.overlaps g = true ∧ (m = .sole ∨ y.mode = .sole ∨ y.conv.isSome = true) := by
  rw [Record.blocks_held, conflicts_iff, Region.overlaps_comm]
  refine and_congr_right fun _ => or_congr_right ?_
  cases y.conv.isSome <;> simp

theorem Record.blocks_waiting_iff {v : Waiting} {g : Region} {m : Mode} : (Record.waiting v).blocks g m = true ↔
    v.region.overlaps g = true ∧ (m = .sole ∨ v.mode = .sole) := by
  rw [Record.blocks_waiting, conflicts_iff, Region.overlaps_comm]

theorem Engine.blocked_iff {earlier : SlotNo → Prop} {g : Region} {m : Mode} : e.Blocked earlier g m ↔
    (∃ j y, e.record j = .held y ∧ y.region.overlaps g = true ∧
        (m = .sole ∨ y.mode = .sole ∨ y.conv.isSome = true)) ∨
      ∃ j v, earlier j ∧ e.record j = .waiting v ∧ v.region.overlaps g = true ∧ (m = .sole ∨ v.mode = .sole) := by
  simp only [Engine.Blocked, Record.blocks_held_iff, Record.blocks_waiting_iff]

theorem Term.start_eq_termFrom (n : Tick) (d : Half) : Term.start n d = termFrom n d := by
  unfold Term.start termFrom
  rfl

theorem Engine.grantedHeld_eq (e : Engine) (c : Common) (d : Half) : e.grantedHeld c d =
    { toCommon := c, term := termFrom e.settled d, renewals := 0
      warned := d != 0 && decide (d.toNat ≤ (e.session c.holder).warnMargin.toNat), conv := none } := by
  rw [Engine.grantedHeld, Term.start_eq_termFrom]
  rfl

theorem dropSlots_one (k : SlotNo) (l : List SlotNo) : dropSlots (fun j => j == k) l = l.filter fun j => j != k := rfl

/-! ### The pass as a walk over its lists (R47) -/

/-- Steps of part one, one after another, each with what it adds to the messages. -/
theorem foldl_conversions {step : Engine × List Out → SlotNo → Engine × List Out}
    (hgrant : ∀ x k e' m, x.1.grantConversion k = some (e', m) → step x k = (e', x.2 ++ [m]))
    (hleave : ∀ x k, x.1.grantConversion k = none → step x k = x) (l : List SlotNo) (x : Engine × List Out) :
    l.foldl step x = ((Engine.grantConversions l x.1).1, x.2 ++ (Engine.grantConversions l x.1).2) := by
  induction l generalizing x with
  | nil => simp [Engine.grantConversions]
  | cons k l ih =>
    rw [List.foldl_cons, ih, Engine.grantConversions]
    cases h : x.1.grantConversion k with
    | none => rw [hleave x k h]
    | some v => rw [hgrant x k v.1 v.2 h]; simp

/-- Steps of part two, which keep the entries passed. -/
theorem foldl_waiters {step : List SlotNo × Engine × List Out → SlotNo → List SlotNo × Engine × List Out}
    (hgrant : ∀ x k e' m, x.2.1.grantWaiter x.1 k = some (e', m) → step x k = (x.1, e', x.2.2 ++ [m]))
    (hleave : ∀ x k, x.2.1.grantWaiter x.1 k = none → step x k = (x.1 ++ [k], x.2)) (l : List SlotNo)
    (x : List SlotNo × Engine × List Out) :
    (l.foldl step x).2 = ((Engine.grantWaiters x.1 l x.2.1).1, x.2.2 ++ (Engine.grantWaiters x.1 l x.2.1).2) := by
  induction l generalizing x with
  | nil => simp [Engine.grantWaiters]
  | cons k l ih =>
    rw [List.foldl_cons, ih, Engine.grantWaiters]
    cases h : x.2.1.grantWaiter x.1 k with
    | none => rw [hleave x k h]
    | some v => rw [hgrant x k v.1 v.2 h]; simp

end

/-- Settles O15. -/
theorem entriesOfAPassAreGranted : Obligations.EntriesOfAPassAreGranted := by
  refine ⟨fun e k x c hx hc => ⟨fun halone => ?_, fun hothers => ?_⟩, fun e passed k w hw => ?_, fun e => ?_⟩
  · have hnone : e.otherHolders k x.region = [] := by
      by_contra hne
      obtain ⟨j, y, hj, hy, hover⟩ := Engine.otherHolders_ne_nil.mp hne
      rw [halone j y hj hy] at hover
      cases hover
    have hgrant := Engine.grantConversion_of_alone hx hc hnone
    rw [Term.grantTime_eq_reported] at hgrant
    refine ⟨_, hgrant, Engine.record_setRecord_self .., fun j hj => ?_, dropSlots_one .., rfl⟩
    exact (Engine.record_setRecord ..).trans (if_neg hj)
  · exact Engine.grantConversion_of_others hx (Engine.otherHolders_ne_nil.mpr hothers)
  · intro blocked
    have hblocked : e.Blocked (· ∈ passed) w.region w.mode ↔ blocked := Engine.blocked_iff
    refine ⟨fun hclear => ?_, fun hback => Engine.grantWaiter_of_blocked hw (hblocked.mpr hback)⟩
    have hgrant := Engine.grantWaiter_of_clear hw fun h => hclear (hblocked.mp h)
    rw [Term.start_eq_termFrom, Term.grantTime_eq_reported] at hgrant
    refine ⟨_, hgrant, (Engine.record_setRecord_self ..).trans ?_,
      fun j hj => (Engine.record_setRecord ..).trans (if_neg hj), fun j => Engine.issue_setRecord .., dropSlots_one ..,
      rfl⟩
    rw [Engine.grantedHeld_eq]
  · intro conversion waiter first
    have hfirst : first = Engine.grantConversions e.convList e :=
      (foldl_conversions (step := conversion) (fun x k e' m h => by simp only [conversion, h])
        (fun x k h => by simp only [conversion, h]) e.convList (e, [])).trans (by simp)
    have hsecond := foldl_waiters (step := waiter) (fun x k e' m h => by simp only [waiter, h])
      (fun x k h => by simp only [waiter, h]) first.1.waitList ([], first)
    rw [hsecond, hfirst]
    rfl

/-! ### What a pass leaves (R44 to R47) -/

section
variable {a b e : Engine} {k : SlotNo}

/-- A lease with a pending conversion after a pass stood so before it. -/
theorem GrantMove.eq_of_pending {r r' : Record} {x : Held} (h : GrantMove e r r') (hx : r' = .held x)
    (hc : x.conv.isSome = true) : r = .held x := by
  cases h with
  | same => exact hx
  | converted y c _ => cases hx; cases hc
  | granted w => cases hx; cases hc

/-- A claim that waits after a pass waited before it. -/
theorem GrantMove.eq_of_waiting {r r' : Record} {w : Waiting} (h : GrantMove e r r') (hw : r' = .waiting w) :
    r = .waiting w := by
  cases h with
  | same => exact hw
  | converted y c _ => cases hw
  | granted v => cases hw

theorem Engine.SharesRegion.passed {g : Region} (h : a.SharesRegion k g) (hframe : PassFrame a b) :
    b.SharesRegion k g := by
  obtain ⟨j, y, hj, hy, hover⟩ := h
  rcases (hy ▸ hframe.record j).of_held with hsame | hgranted
  · exact ⟨j, y, hj, hsame, hover⟩
  · exact ⟨j, _, hj, hgranted, hover⟩

/-- A pass leaves whoever conflicts with a party in conflict with it: a conversion that is granted takes part as SOLE
before and after, and a claim that is granted in its mode. -/
theorem Engine.Blocked.passed {earlier later : SlotNo → Prop} {g : Region} {m : Mode} (h : a.Blocked earlier g m)
    (hframe : PassFrame a b) (hlater : ∀ j, earlier j → later j) : b.Blocked later g m := by
  rcases h with ⟨j, y, hy, hblocks⟩ | ⟨j, v, hj, hv, hblocks⟩
  · have hmove := hframe.record j
    rw [hy] at hmove
    generalize hr : b.record j = r' at hmove
    cases hmove with
    | same => exact .inl ⟨j, y, hr, hblocks⟩
    | converted _ c hc =>
      refine .inl ⟨j, _, hr, ?_⟩
      rw [Record.blocks_held_converting (by rw [hc]; rfl)] at hblocks
      rw [Record.blocks_held_sole rfl]
      exact hblocks
  · have hmove := hframe.record j
    rw [hv] at hmove
    generalize hr : b.record j = r' at hmove
    cases hmove with
    | same => exact .inr ⟨j, v, hlater j hj, hr, hblocks⟩
    | granted =>
      refine .inl ⟨j, _, hr, ?_⟩
      rw [Record.blocks_held_single rfl]
      exact hblocks

theorem Engine.grantConversions_frame (l : List SlotNo) (a : Engine) :
    PassFrame a (Engine.grantConversions l a).1 :=
  Engine.grantConversions_induct (P := PassFrame a) (fun _ _ _ _ h hg => h.trans (Engine.grantConversion_frame hg)) l a
    (.refl a)

theorem Engine.grantWaiters_frame (l passed : List SlotNo) (a : Engine) :
    PassFrame a (Engine.grantWaiters passed l a).1 :=
  Engine.grantWaiters_induct (P := PassFrame a) (fun _ _ _ _ _ h hg => h.trans (Engine.grantWaiter_frame hg)) l passed a
    (.refl a)

/-- A conversion that part one has examined and left overlaps another HELD lease. -/
theorem Engine.grantConversions_left (l : List SlotNo) (a : Engine) (hk : k ∈ l) {x : Held}
    (hx : (Engine.grantConversions l a).1.record k = .held x) (hc : x.conv.isSome = true) :
    (Engine.grantConversions l a).1.SharesRegion k x.region := by
  induction l generalizing a with
  | nil => cases hk
  | cons i l ih =>
    have hbefore : a.record k = .held x := ((Engine.grantConversions_frame _ a).record k).eq_of_pending hx hc
    rw [Engine.grantConversions] at hx ⊢
    split at hx
    next b m hg =>
      rcases List.mem_cons.mp hk with rfl | hk
      · have hstill := ((Engine.grantConversions_frame l b).record k).eq_of_pending hx hc
        exact ((Engine.grantConversion_some hg).changed (hstill.trans hbefore.symm)).elim
      · exact ih b hk hx
    next hg =>
      rcases List.mem_cons.mp hk with rfl | hk
      · refine Engine.SharesRegion.passed (Engine.otherHolders_ne_nil.mp fun halone => ?_)
          (Engine.grantConversions_frame l a)
        obtain ⟨c, hc⟩ := Option.isSome_iff_exists.mp hc
        cases hg.symm.trans (Engine.grantConversion_of_alone hbefore hc halone)
      · exact ih a hk hx

/-- A waiter that part two has examined and left conflicts with a HELD lease or with an earlier entry still WAITING. -/
theorem Engine.grantWaiters_left (before after passed : List SlotNo) (a : Engine) {w : Waiting}
    (hw : (Engine.grantWaiters passed (before ++ k :: after) a).1.record k = .waiting w) :
    (Engine.grantWaiters passed (before ++ k :: after) a).1.Blocked (fun j => j ∈ passed ∨ j ∈ before) w.region
      w.mode := by
  induction before generalizing passed a with
  | nil =>
    have hbefore : a.record k = .waiting w := ((Engine.grantWaiters_frame _ passed a).record k).eq_of_waiting hw
    rw [List.nil_append, Engine.grantWaiters] at hw ⊢
    split at hw
    next b m hg =>
      have hstill := ((Engine.grantWaiters_frame after passed b).record k).eq_of_waiting hw
      exact ((Engine.grantWaiter_some hg).changed (hstill.trans hbefore.symm)).elim
    next hg =>
      have hback : a.Blocked (· ∈ passed) w.region w.mode := by
        by_contra hclear
        cases hg.symm.trans (Engine.grantWaiter_of_clear hbefore hclear)
      exact hback.passed (Engine.grantWaiters_frame after (passed ++ [k]) a) fun _ hj => .inl hj
  | cons i before ih =>
    rw [List.cons_append, Engine.grantWaiters] at hw ⊢
    split at hw
    next b m hg =>
      exact (ih passed b hw).passed (.refl _) fun j hj => hj.imp_right (List.mem_cons_of_mem i)
    next hg =>
      refine (ih (passed ++ [i]) a hw).passed (.refl _) fun j hj => ?_
      rcases hj with hj | hj
      · rcases List.mem_append.mp hj with hj | hj
        · exact .inl hj
        · exact .inr (List.mem_cons.mpr (.inl (List.mem_singleton.mp hj)))
      · exact .inr (List.mem_cons_of_mem i hj)

/-! ### The two parts of a pass over exact lists -/

/-- The engine between the two parts of a pass. -/
abbrev Engine.halfPass (e : Engine) : Engine := (Engine.grantConversions e.convList e).1

/-- What the two parts of a pass over exact lists have done. -/
structure PassParts (e : Engine) : Prop where
  first  : GrantsOf Engine.convList Engine.waitList e.convList e (Engine.grantConversions e.convList e)
  second : GrantsOf Engine.waitList Engine.convList e.halfPass.waitList e.halfPass
    (Engine.grantWaiters [] e.halfPass.waitList e.halfPass)
  kept   : e.halfPass.waitList = e.waitList
  waits  : ∀ k ∈ e.halfPass.waitList, e.halfPass.record k = e.record k
  convs  : ∀ k ∈ e.convList, e.grantPass.1.record k = e.halfPass.record k

theorem PassParts.of_laws (hwaits : WaitListLaw e) (hconvs : ConvListLaw e) : PassParts e := by
  obtain ⟨hwaitsOnce, hwaiting⟩ := hwaits
  obtain ⟨hconvsOnce, hpending, -⟩ := hconvs
  have hfirst := Engine.grantConversions_grants e.convList e hconvsOnce
  have hapart {k : SlotNo} (hw : k ∈ e.waitList) (hc : k ∈ e.convList) : False := by
    have hw := (hwaiting k).mp hw
    have hc := (hpending k).mp hc
    cases hr : e.record k with
    | held x => rw [hr] at hw; cases hw
    | _ => rw [hr] at hc; cases hc
  have hkept : e.halfPass.waitList = e.waitList := hfirst.kept
  have hsecond := Engine.grantWaiters_grants e.halfPass.waitList [] e.halfPass (hkept ▸ hwaitsOnce)
  exact ⟨hfirst, hsecond, hkept, fun k hk => hfirst.others k fun hc => hapart (hkept ▸ hk) hc,
    fun k hk => hsecond.others k fun hw => hapart (hkept ▸ hw) hk⟩

theorem PassParts.waitList (h : PassParts e) :
    e.grantPass.1.waitList = e.waitList.filter fun k => decide (e.grantPass.1.record k = e.record k) := by
  rw [← h.kept]
  exact h.second.out.trans (List.filter_congr fun k hk => by rw [h.waits k hk]; rfl)

theorem PassParts.convList (h : PassParts e) :
    e.grantPass.1.convList = e.convList.filter fun k => decide (e.grantPass.1.record k = e.record k) := by
  refine (h.second.kept.trans (h.first.out.trans ?_) :
    (Engine.grantWaiters [] e.halfPass.waitList e.halfPass).1.convList = _)
  exact List.filter_congr fun k hk => by rw [h.convs k hk]

/-- The entries whose record the pass has changed. -/
def Engine.grantedOf (e : Engine) (l : List SlotNo) : List SlotNo :=
  l.filter fun k => decide (e.grantPass.1.record k ≠ e.record k)

theorem PassParts.first_granted (h : PassParts e) :
    (e.convList.filter fun k => decide (e.halfPass.record k ≠ e.record k)) = e.grantedOf e.convList :=
  List.filter_congr fun k hk => by rw [h.convs k hk]

theorem PassParts.second_granted (h : PassParts e) :
    (e.halfPass.waitList.filter fun k =>
        decide ((Engine.grantWaiters [] e.halfPass.waitList e.halfPass).1.record k ≠ e.halfPass.record k)) =
      e.grantedOf e.waitList := by
  rw [← h.kept]
  exact List.filter_congr fun k hk => by rw [h.waits k hk]; rfl

theorem PassParts.messages (h : PassParts e) :
    e.grantPass.2 = (e.grantedOf e.convList ++ e.grantedOf e.waitList).filterMap e.grantOf := by
  have hfirst := h.first.messages
  have hsecond := h.second.messages
  rw [h.first_granted] at hfirst
  rw [h.second_granted] at hsecond
  have hcongr : (e.grantedOf e.waitList).filterMap e.halfPass.grantOf = (e.grantedOf e.waitList).filterMap e.grantOf :=
    List.filterMap_congr fun k hk => Engine.grantOf_congr (h.waits k (h.kept ▸ List.mem_of_mem_filter hk)) h.first.settled
  rw [List.filterMap_append, ← hcongr, ← hfirst, ← hsecond]
  rfl

theorem PassParts.count (h : PassParts e) :
    e.grantPass.2.length = (e.grantedOf e.convList).length + (e.grantedOf e.waitList).length := by
  have hfirst := h.first.count
  have hsecond := h.second.count
  rw [h.first_granted] at hfirst
  rw [h.second_granted] at hsecond
  rw [← hfirst, ← hsecond]
  exact List.length_append

/-- What a pass can do to one record, in the words of the statements. -/
theorem GrantMove.cases_of {r r' : Record} (h : GrantMove e r r') : r' = r ∨
    (∃ x, r = .held x ∧ x.conv.isSome = true ∧ r' = .held { x with mode := .sole, conv := none }) ∨
      ∃ w, r = .waiting w ∧ r' = .held { toCommon := w.toCommon, term := termFrom e.settled w.duration, renewals := 0
                                         warned := w.duration != 0 &&
                                           decide (w.duration.toNat ≤ (e.session w.holder).warnMargin.toNat)
                                         conv := none } := by
  cases h with
  | same => exact .inl rfl
  | converted x c hc => exact .inr (.inl ⟨x, rfl, by rw [hc]; rfl, rfl⟩)
  | granted w => exact .inr (.inr ⟨w, rfl, by rw [Engine.grantedHeld_eq]⟩)

end

/-- Settles O16: an entry that its part left was blocked at its turn, and a pass takes no blocker away. -/
theorem grantPassLeavesNothingGrantable : Obligations.GrantPassLeavesNothingGrantable := by
  intro e hwaits hconvs e'
  have hframe := e.grantPass_frame
  have hparts := PassParts.of_laws hwaits hconvs
  refine ⟨fun k x hx hc => ?_, fun before k after w hlist hw => ?_, fun k => ⟨hframe.issue k, (hframe.record k).cases_of⟩,
    ⟨hparts.messages, hparts.count, hparts.convList, hparts.waitList⟩, hframe.generation, hframe.settled,
    hframe.sessions, hframe.limits, hframe.freeze, hframe.clock⟩
  · have hsecond := Engine.grantWaiters_frame e.halfPass.waitList [] e.halfPass
    have hhalf : e.halfPass.record k = .held x := (hsecond.record k).eq_of_pending hx hc
    have hstart : e.record k = .held x := (hframe.record k).eq_of_pending hx hc
    have hmem : k ∈ e.convList := (hconvs.2.1 k).mpr (by rw [hstart]; exact hc)
    exact (Engine.grantConversions_left e.convList e hmem hhalf hc).passed hsecond
  · have hmem : k ∈ e.halfPass.waitList := by
      have hk : k ∈ e'.waitList := by rw [hlist]; simp
      rw [hparts.waitList] at hk
      rw [hparts.kept]
      exact List.mem_of_mem_filter hk
    obtain ⟨done, rest, hsplit⟩ := List.append_of_mem hmem
    have hleft : e'.Blocked (fun j => j ∈ [] ∨ j ∈ done) w.region w.mode := by
      have hend : e' = (Engine.grantWaiters [] (done ++ k :: rest) e.halfPass).1 := by rw [← hsplit]; rfl
      rw [hend] at hw ⊢
      exact Engine.grantWaiters_left done rest [] e.halfPass hw
    have hunchanged {j : SlotNo} {v : Waiting} (hv : e'.record j = .waiting v) :
        decide (e'.record j = e.record j) = true :=
      decide_eq_true (hv.trans ((hframe.record j).eq_of_waiting hv).symm)
    have hfiltered : before ++ k :: after = (done.filter fun j => decide (e'.record j = e.record j)) ++
        k :: rest.filter fun j => decide (e'.record j = e.record j) := by
      rw [← hlist, hparts.waitList, ← hparts.kept, hsplit, List.filter_append]
      exact congrArg _ (List.filter_cons_of_pos (hunchanged hw))
    have honce : (before ++ k :: after).count k ≤ 1 := by
      rw [← hlist, hparts.waitList]
      exact List.nodup_iff_count_le_one.mp (hwaits.1.filter _) k
    obtain ⟨hbefore, -⟩ := split_unique hfiltered honce
    rcases Engine.blocked_iff.mp hleft with hheld | ⟨j, v, hj, hv, hover⟩
    · exact .inl hheld
    · refine .inr ⟨j, v, ?_, hv, hover⟩
      rw [hbefore]
      exact List.mem_filter.mpr ⟨hj.resolve_left List.not_mem_nil, hunchanged hv⟩

end Sys2Proof.Machine

/-! ## Checks of requests: proofs about the order of checks (R27, R51, R52, R77, R100, R105, R111, R113, R123, R141) -/

namespace Sys2Proof.Machine

/-! ### Operand values with a meaning (R179), in the words of the statements -/

theorem modeOf_eq (m : Byte) : modeOf m = if 1 < m.toNat then none else some (claimMode m) := by
  decide +revert

theorem baseMeaningful_eq (b : BitVec 24) : baseMeaningful b = !decide (1048575 < b.toNat) := by
  rw [baseMeaningful, ← decide_not]
  exact decide_eq_decide.mpr (by rw [Config.unitCount]; omega)

theorem regionOf_valid {b : BitVec 24} (l : Half) (h : baseMeaningful b = true) :
    (regionOf b l).valid = regionFits b l := by
  have hlt : b.toNat < 1048576 := of_decide_eq_true h
  have hbase : (b.setWidth 20).toNat = b.toNat := by rw [BitVec.toNat_setWidth]; omega
  unfold Region.valid regionFits Region.first Region.length regionOf
  rw [hbase]
  rfl

theorem Limits.tooLong_eq (l : Limits) (d : Half) :
    l.tooLong d = !(if d = 0 then l.mayPin else decide (d.toNat ≤ l.durationCap.toNat)) := by
  unfold Limits.tooLong
  split
  · rfl
  · rw [← decide_not]
    exact decide_eq_decide.mpr not_le.symm

theorem portOf_eq (b : Byte) : portOf b = if 3 < b.toNat then none else some (BitVec.toFin (b.setWidth 2)) := by
  decide +revert

theorem maskOf_isNone (b : Byte) : (maskOf b).isNone = decide (3 < b.toNat) := by
  decide +revert

theorem marginOf_isNone (m : Half) : (marginOf m).isNone = decide (4095 < m.toNat) := by
  unfold marginOf
  split
  next h => exact (decide_eq_false (not_lt.mpr h)).symm
  next h => exact (decide_eq_true (not_le.mp h)).symm

theorem flagOf_isNone (b : Byte) : (flagOf b).isNone = decide (1 < b.toNat) := by
  decide +revert

theorem limitsOf_isNone (cap : Byte) (d : Half) (pin r : Byte) : (limitsOf cap d pin r).isNone =
    (decide (cap = 0) || decide (64 < cap.toNat) || decide (d = 0) || decide (1 < pin.toNat)) := by
  unfold limitsOf
  have hcap : Config.maxLeaseCap.toNat = 64 := rfl
  rw [hcap, ← flagOf_isNone]
  by_cases h : cap = 0 ∨ cap.toNat > 64 ∨ d = 0
  · rw [if_pos h]
    rcases h with h | h | h <;> simp [h]
  · rw [if_neg h, Option.isNone_map]
    obtain ⟨hcap, hbig, hzero⟩ : ¬cap = 0 ∧ ¬cap.toNat > 64 ∧ ¬d = 0 := by simpa only [not_or] using h
    rw [decide_eq_false hcap, decide_eq_false hbig, decide_eq_false hzero]
    rfl

theorem limits_meaningless (q cap : Byte) (d : Half) (pin r : Byte) :
    (Request.limits q cap d pin r).meaningless = (decide (3 < q.toNat) || (limitsOf cap d pin r).isNone) := by
  rw [limitsOf_isNone, ← Bool.or_assoc, ← Bool.or_assoc, ← Bool.or_assoc]
  rfl

theorem trimMeaningful_eq (n : Byte) : trimMeaningful n = !(Request.trim n).meaningless := by
  change decide (-16 ≤ n.toInt ∧ n.toInt ≤ 15) = !(decide (n.toInt < -16) || decide (15 < n.toInt))
  decide +revert

section
variable {e : Engine} {p : Port} {t : Tag} {o : ResultCode}

/-! ### CLAIM (R27 to R33) -/

theorem Engine.lowestFree_isSome (e : Engine) : e.lowestFree.isSome = allSlots.any fun k => (e.record k).isFree :=
  Bool.eq_iff_iff.mpr (List.find?_isSome.trans List.any_eq_true.symm)

theorem Engine.selfBlockers_eq_nil (g : Region) (m : Mode) :
    e.selfBlockers p g m = [] ↔ (allSlots.all fun k => !e.ownConflict p g m k) = true := by
  rw [Engine.selfBlockers, List.filter_eq_nil_iff, List.all_eq_true]
  exact forall₂_congr fun k _ => by rw [Bool.not_eq_true', ← Bool.not_eq_true]; rfl

/-- What the admission of a claim answers where a check fails: its outcome, with the lowest own blocker for the last. -/
theorem Engine.admission_of_failing {b : BitVec 24} {l : Half} {m : Byte} {d w x : Half}
    (h : firstFailing (e.claimChecks p b l m d w x) = some o) :
    (o ≠ .selfConflict ∧ e.admission p b l m d = .error (o, .none)) ∨
      (o = .selfConflict ∧ ∃ j js, e.selfBlockers p (regionOf b l) (claimMode m) = j :: js ∧
        e.admission p b l m d = .error (o, .blocker (e.handle j))) := by
  have hmeaning : (Request.claim b l m d w x).meaningless = true ↔ modeOf m = none ∨ baseMeaningful b = false := by
    rw [modeOf_eq, baseMeaningful_eq]
    simp [Request.meaningless, or_comm]
  simp only [Engine.claimChecks, firstFailing] at h
  split at h
  next hopen =>
    split at h
    next hmeant =>
      rw [Bool.not_eq_true', ← Bool.not_eq_true, hmeaning, not_or, Bool.not_eq_false, modeOf_eq] at hmeant
      obtain ⟨hmode, hbase⟩ := hmeant
      have hmode : modeOf m = some (claimMode m) := by
        rw [modeOf_eq]
        exact if_neg fun hbig => hmode (if_pos hbig)
      rw [← regionOf_valid l hbase] at h
      split at h
      next hvalid =>
        rw [← Bool.not_not (if d = 0 then _ else _), ← Limits.tooLong_eq] at h
        split at h
        next hlong =>
          split at h
          next hcap =>
            rw [← Engine.lowestFree_isSome] at h
            have hcap' : ¬(e.limitsOf p).leaseCap.toNat ≤ e.ownedCount p := not_le.mpr (of_decide_eq_true hcap)
            split at h
            next hfree =>
              obtain ⟨k, hk⟩ := Option.isSome_iff_exists.mp hfree
              split at h
              · cases h
              next hself =>
                cases h
                rw [← Engine.selfBlockers_eq_nil] at hself
                obtain ⟨j, js, hjs⟩ := List.exists_cons_of_ne_nil hself
                refine .inr ⟨rfl, j, js, hjs, ?_⟩
                simp_all [Engine.admission, Engine.sessionOpen]
            next hfull =>
              cases h
              have hnone : e.lowestFree = none := by simpa using hfull
              exact .inl ⟨nofun, by simp_all [Engine.admission, Engine.sessionOpen]⟩
          next hcap =>
            cases h
            have hcap' : (e.limitsOf p).leaseCap.toNat ≤ e.ownedCount p := by simpa using hcap
            exact .inl ⟨nofun, by simp_all [Engine.admission, Engine.sessionOpen]⟩
        next hlong =>
          cases h
          exact .inl ⟨nofun, by simp_all [Engine.admission, Engine.sessionOpen]⟩
      next hvalid =>
        cases h
        exact .inl ⟨nofun, by simp_all [Engine.admission, Engine.sessionOpen]⟩
    next hmeant =>
      cases h
      refine .inl ⟨nofun, ?_⟩
      rw [Bool.not_eq_true', Bool.not_eq_false, hmeaning] at hmeant
      unfold Engine.admission
      rw [if_neg (by simpa [Engine.sessionOpen] using hopen)]
      split
      · rfl
      next hmode =>
        have hbase := hmeant.resolve_left (by rw [hmode]; nofun)
        rw [if_pos (by rw [hbase]; rfl)]
  next hopen =>
    cases h
    exact .inl ⟨nofun, by simp_all [Engine.admission, Engine.sessionOpen]⟩

/-- The lowest slot that meets a condition is found first. -/
theorem IsLowest.find? {f : SlotNo → Bool} {k : SlotNo} (h : IsLowest f k) : allSlots.find? f = some k := by
  obtain ⟨js, hjs⟩ := h.filter_allSlots
  rw [← List.head?_filter, hjs]
  rfl

theorem Engine.lowestFree_eq {k : SlotNo} (h : e.IsLowestFree k) : e.lowestFree = some k :=
  IsLowest.find? (f := fun k => (e.record k).isFree) h

/-- An admitted claim gets the lowest FREE slot. -/
theorem Engine.admission_of_passing {b : BitVec 24} {l : Half} {m : Byte} {d w x : Half} {k : SlotNo}
    (h : firstFailing (e.claimChecks p b l m d w x) = none) (hk : e.IsLowestFree k) :
    e.admission p b l m d = .ok (claimMode m, k) := by
  simp only [firstFailing_none, Engine.claimChecks, List.forall_mem_cons, Bool.not_eq_true', decide_eq_true_eq] at h
  obtain ⟨hopen, hmeant, hfits, hlong, hcap, -, hself, -⟩ := h
  obtain ⟨hbase, hmode⟩ : ¬1048575 < b.toNat ∧ ¬1 < m.toNat := by simpa [Request.meaningless] using hmeant
  have hbase : baseMeaningful b = true := by rw [baseMeaningful_eq, decide_eq_false hbase]; rfl
  have hlong : (e.limitsOf p).tooLong d = false := by rw [Limits.tooLong_eq, hlong]; rfl
  have hcap : ¬(e.limitsOf p).leaseCap.toNat ≤ e.ownedCount p := not_le.mpr hcap
  unfold Engine.admission
  rw [if_neg (by rw [Engine.sessionOpen, hopen]; nofun), modeOf_eq, if_neg hmode]
  dsimp only
  rw [if_neg (by rw [hbase]; nofun), if_neg (by rw [regionOf_valid l hbase, hfits]; nofun),
    if_neg (by rw [hlong]; nofun), if_neg hcap, Engine.lowestFree_eq hk, (Engine.selfBlockers_eq_nil ..).mpr hself]

/-- Settles O18. -/
theorem claimChecksInOrder : Obligations.ClaimChecksInOrder := by
  intro s p t b l m d w x rest o hoffer hfail
  have hrefused {ref : HandleRef} (h : s.engine.admission p b l m d = .error (o, ref)) :
      AnswersOnly s p t (.claim b l m d w x) rest o
        (.claim { ref, path := .none, time := .none, generation := s.engine.generation }) := by
    refine .of_reply hoffer ?_
    change s.engine.claimReq p t b l m d w x = _
    unfold Engine.claimReq
    rw [h]
    rfl
  refine ⟨fun hne => ?_, fun k hself hlowest => ?_⟩
  · rcases Engine.admission_of_failing hfail with ⟨-, h⟩ | ⟨hself, -⟩
    · exact hrefused h
    · exact (hne hself).elim
  · rcases Engine.admission_of_failing hfail with ⟨hne, -⟩ | ⟨-, j, js, hblockers, h⟩
    · exact (hne hself).elim
    · obtain ⟨ks, hks⟩ := hlowest.filter_allSlots
      have hj : j = k := (List.cons.inj (hblockers.symm.trans hks)).1
      rw [← hj]
      exact hrefused h

/-! ### Holder requests (R51, R52) -/

theorem Engine.holderCheck_of_failing {h : Handle} (hfail : firstFailing (e.holderChecks p h) = some o) :
    e.holderCheck p h = .error o := by
  simp only [Engine.holderChecks, firstFailing] at hfail
  unfold Engine.holderCheck Engine.sessionOpen
  split at hfail
  next hopen =>
    rw [if_neg (by rw [hopen]; nofun)]
    split at hfail
    next hcur =>
      split at hfail
      · cases hfail
      next howned =>
        cases hfail
        rw [Engine.current_of_isCurrent hcur]
        exact if_neg howned
    next hcur =>
      cases hfail
      have hnone : e.current h = none := by
        refine if_pos ?_
        rw [Engine.isCurrent_iff, not_and_or, Bool.not_eq_false] at hcur
        exact hcur
      rw [hnone]
  next hclosed =>
    cases hfail
    rw [if_pos (by simpa using hclosed)]

/-- A holder request that checks 1 to 3 refuse. -/
theorem Engine.holderRequest_refused {r : Request} {h : Handle} (hr : r.holderHandle = some h)
    (hfail : firstFailing (e.holderChecks p h) = some o) :
    e.requestEffect p t r = e.reply p t o r.code.zeroPayload := by
  have hcheck := Engine.holderCheck_of_failing hfail
  cases r with
  | renew h' d => cases hr; change e.renewReq p t _ _ = _; unfold Engine.renewReq; rw [hcheck]; rfl
  | release h' => cases hr; change e.releaseReq p t _ = _; unfold Engine.releaseReq; rw [hcheck]; rfl
  | downgrade h' => cases hr; change e.downgradeReq p t _ = _; unfold Engine.downgradeReq; rw [hcheck]; rfl
  | upgrade h' w => cases hr; change e.upgradeReq p t _ _ = _; unfold Engine.upgradeReq; rw [hcheck]; rfl
  | acknowledge h' => cases hr; change e.acknowledgeReq p t _ = _; unfold Engine.acknowledgeReq; rw [hcheck]; rfl
  | _ => cases hr

section
variable {h : Handle}

theorem RetireCause.endCause_eq (c : RetireCause) : c.endCause = endCauseOf c := by
  cases c <;> rfl

/-- What a holder request answers to a record whose state refuses it. -/
theorem Engine.renewReq_refused {d : Half} (hpass : firstFailing (e.holderChecks p h) = none)
    (hstate : stateAnswer .renew (e.record (slotOf h)) = some o) :
    e.renewReq p t h d = e.reply p t o (stateAnswerPayload h .renew (e.record (slotOf h))) := by
  unfold Engine.renewReq
  rw [Engine.holderCheck_of_checks hpass]
  dsimp only
  cases hr : e.record (slotOf h) with
  | held x =>
    rw [hr] at hstate
    cases hx : x.term with
    | pinned => simp [stateAnswer, hx] at hstate; subst hstate; simp only [hx]; rfl
    | timed d n => simp [stateAnswer, hx] at hstate
  | retired x => rw [hr] at hstate; cases hstate; rfl
  | _ => rw [hr] at hstate; cases hstate; rfl

theorem Engine.releaseReq_refused (hpass : firstFailing (e.holderChecks p h) = none)
    (hstate : stateAnswer .release (e.record (slotOf h)) = some o) :
    e.releaseReq p t h = e.reply p t o (stateAnswerPayload h .release (e.record (slotOf h))) := by
  unfold Engine.releaseReq
  rw [Engine.holderCheck_of_checks hpass]
  dsimp only
  cases hr : e.record (slotOf h) with
  | held x => rw [hr] at hstate; cases hstate
  | _ => rw [hr] at hstate; cases hstate; rfl

theorem Engine.downgradeReq_refused (hpass : firstFailing (e.holderChecks p h) = none)
    (hstate : stateAnswer .downgrade (e.record (slotOf h)) = some o) :
    e.downgradeReq p t h = e.reply p t o (stateAnswerPayload h .downgrade (e.record (slotOf h))) := by
  unfold Engine.downgradeReq
  rw [Engine.holderCheck_of_checks hpass]
  dsimp only
  cases hr : e.record (slotOf h) with
  | held x =>
    rw [hr] at hstate
    dsimp only
    split
    next hsole => simp [stateAnswer, hsole] at hstate
    next hshared => simp [stateAnswer, hshared] at hstate; subst hstate; rfl
  | retired x => rw [hr] at hstate; cases hstate; rfl
  | _ => rw [hr] at hstate; cases hstate; rfl

theorem Engine.upgradeReq_refused {w : Half} (hpass : firstFailing (e.holderChecks p h) = none)
    (hstate : stateAnswer .upgrade (e.record (slotOf h)) = some o) :
    e.upgradeReq p t h w = e.reply p t o (stateAnswerPayload h .upgrade (e.record (slotOf h))) := by
  unfold Engine.upgradeReq
  rw [Engine.holderCheck_of_checks hpass]
  dsimp only
  cases hr : e.record (slotOf h) with
  | held x =>
    rw [hr] at hstate
    dsimp only
    split
    next hfit => simp [stateAnswer, hfit] at hstate
    next hunfit => simp [stateAnswer, hunfit] at hstate; subst hstate; rfl
  | retired x =>
    rw [hr] at hstate
    cases hstate
    obtain ⟨-, hcur, -⟩ := Engine.holderChecks_pass.mp hpass
    dsimp only
    rw [Engine.handle_of_isCurrent hcur, RetireCause.endCause_eq]
    rfl
  | _ => rw [hr] at hstate; cases hstate; rfl

theorem Engine.acknowledgeReq_refused (hpass : firstFailing (e.holderChecks p h) = none)
    (hstate : stateAnswer .acknowledge (e.record (slotOf h)) = some o) :
    e.acknowledgeReq p t h = e.reply p t o (stateAnswerPayload h .acknowledge (e.record (slotOf h))) := by
  unfold Engine.acknowledgeReq
  rw [Engine.holderCheck_of_checks hpass]
  dsimp only
  cases hr : e.record (slotOf h) with
  | held x =>
    rw [hr] at hstate
    dsimp only
    split
    next hwarned => simp [stateAnswer, hwarned] at hstate
    next hwarned => simp [stateAnswer, hwarned] at hstate; subst hstate; rfl
  | retired x => rw [hr] at hstate; cases hstate
  | _ => rw [hr] at hstate; cases hstate; rfl

end

/-- Settles O19. -/
theorem holderChecksInOrder : Obligations.HolderChecksInOrder := by
  intro s p t r h rest o hoffer hr
  refine ⟨fun hfail => .of_reply hoffer (Engine.holderRequest_refused hr hfail), fun hpass hstate => .of_reply hoffer ?_⟩
  cases r with
  | renew => cases hr; exact Engine.renewReq_refused hpass hstate
  | release => cases hr; exact Engine.releaseReq_refused hpass hstate
  | downgrade => cases hr; exact Engine.downgradeReq_refused hpass hstate
  | upgrade => cases hr; exact Engine.upgradeReq_refused hpass hstate
  | acknowledge => cases hr; exact Engine.acknowledgeReq_refused hpass hstate
  | _ => cases hr

/-! ### Lookup, supervisor and freeze requests and TRIM -/

theorem Engine.noticeReq_refused (h : firstFailing (e.requestChecks p .notice) = some o) :
    e.noticeReq p t = e.reply p t o (e.refusedPayload .notice o) := by
  simp only [Engine.requestChecks, firstFailing] at h
  split at h
  · cases h
  next hclosed => cases h; exact if_pos (by simpa [Engine.sessionOpen] using hclosed)

theorem Engine.probeReq_refused {b : BitVec 24} {l : Half}
    (h : firstFailing (e.requestChecks p (.probe b l)) = some o) :
    e.probeReq p t b l = e.reply p t o (e.refusedPayload (.probe b l) o) := by
  simp only [Engine.requestChecks, firstFailing, Request.meaningless, ← baseMeaningful_eq] at h
  unfold Engine.probeReq Engine.sessionOpen
  split at h
  next hopen =>
    rw [if_neg (by rw [hopen]; nofun)]
    split at h
    next hbase =>
      rw [if_neg (by rw [hbase]; nofun)]
      rw [← regionOf_valid l hbase] at h
      split at h
      · cases h
      next hvalid => cases h; exact if_pos (by simpa using hvalid)
    next hbase => cases h; exact if_pos (by simpa using hbase)
  next hclosed => cases h; exact if_pos (by simpa using hclosed)

/-- The filter of SCAN_FIRST's operands: none where one that it uses has no meaning; all but OWN need the right. -/
theorem filterOf_cases (p : Port) (f q : Byte) (b : BitVec 24) (l : Half) :
    ((Request.scanFirst f q b l).meaningless = true ∧ filterOf p f q b l = none) ∨
      ((Request.scanFirst f q b l).meaningless = false ∧ ∃ x, filterOf p f q b l = some x ∧
        x.needsRight = (f != 0) ∧ x.valid = (f != 2 || regionFits b l)) := by
  have hfilter : f = 0 ∨ f = 1 ∨ f = 2 ∨ f = 3 ∨ 3 < f.toNat := by decide +revert
  rcases hfilter with rfl | rfl | rfl | rfl | hbig
  · exact .inr ⟨rfl, .own p, rfl, rfl, rfl⟩
  · have hport : (filterOf p 1 q b l) = (portOf q).map .port := rfl
    rw [hport, portOf_eq]
    by_cases hq : 3 < q.toNat
    · exact .inl ⟨by simp [Request.meaningless, hq], by rw [if_pos hq]; rfl⟩
    · exact .inr ⟨by simp [Request.meaningless, hq], _, by rw [if_neg hq]; rfl, rfl, rfl⟩
  · have hregion : filterOf p 2 q b l = if baseMeaningful b then some (.region (regionOf b l)) else none := rfl
    rw [hregion]
    cases hb : baseMeaningful b with
    | false =>
      rw [baseMeaningful_eq] at hb
      exact .inl ⟨by simpa [Request.meaningless] using hb, rfl⟩
    | true =>
      refine .inr ⟨?_, _, rfl, rfl, regionOf_valid l hb⟩
      rw [baseMeaningful_eq] at hb
      simpa [Request.meaningless] using hb
  · exact .inr ⟨rfl, .all, rfl, rfl, rfl⟩
  · refine .inl ⟨by simp [Request.meaningless, hbig], ?_⟩
    unfold filterOf
    rw [if_neg, if_neg, if_neg, if_neg] <;> (rintro rfl; exact absurd hbig (by decide))

theorem Engine.scanFirstReq_refused {f q : Byte} {b : BitVec 24} {l : Half}
    (h : firstFailing (e.requestChecks p (.scanFirst f q b l)) = some o) :
    e.scanFirstReq p t f q b l = e.reply p t o (e.refusedPayload (.scanFirst f q b l) o) := by
  simp only [Engine.requestChecks, firstFailing] at h
  unfold Engine.scanFirstReq Engine.sessionOpen
  split at h
  next hopen =>
    rw [if_neg (by rw [hopen]; nofun)]
    rcases filterOf_cases p f q b l with ⟨hmeant, hnone⟩ | ⟨hmeant, x, hx, hright, hvalid⟩
    · rw [hmeant] at h
      cases h
      rw [hnone]
      rfl
    · rw [hmeant] at h
      rw [hx]
      dsimp only
      simp only [Bool.not_false, if_true] at h
      rw [← hvalid] at h
      split at h
      next hpermit =>
        rw [if_neg (by rw [hright]; simpa [bne, or_iff_not_imp_left] using hpermit)]
        split at h
        · cases h
        next hinvalid => cases h; exact if_pos (by simpa using hinvalid)
      next hpermit => cases h; exact if_pos (by rw [hright]; simpa [bne] using hpermit)
  next hclosed => cases h; exact if_pos (by simpa using hclosed)

theorem Engine.scanNextReq_refused (h : firstFailing (e.requestChecks p .scanNext) = some o) :
    e.scanNextReq p t = e.reply p t o (e.refusedPayload .scanNext o) := by
  simp only [Engine.requestChecks, firstFailing] at h
  unfold Engine.scanNextReq Engine.sessionOpen
  split at h
  next hopen =>
    rw [if_neg (by rw [hopen]; nofun)]
    split at h
    · cases h
    next hcursor =>
      cases h
      rw [show (e.session p).cursor = none by simpa using hcursor]
      rfl
  next hclosed => cases h; exact if_pos (by simpa using hclosed)

theorem Engine.thawReq_refused (h : firstFailing (e.requestChecks p .thaw) = some o) :
    e.thawReq p t = e.reply p t o (e.refusedPayload .thaw o) := by
  simp only [Engine.requestChecks, firstFailing] at h
  unfold Engine.thawReq Engine.sessionOpen
  split at h
  next hopen =>
    rw [if_neg (by rw [hopen]; nofun)]
    cases hf : e.freeze with
    | none => rw [hf] at h; cases h; rfl
    | some f =>
      rw [hf] at h
      dsimp only
      split
      next howner => simp [howner] at h
      next howner => simp [howner] at h; subst h; rfl
  next hclosed => cases h; exact if_pos (by simpa using hclosed)

/-- The two checks that open every supervisor request. -/
theorem Engine.supervisor_checks {rest : List Check}
    (h : firstFailing (((e.session p).isOpen, .noSession) :: ((e.session p).supervisor, .notPermitted) :: rest) = some o) :
    e.supervisorRefusal p = some o ∨ (e.supervisorRefusal p = none ∧ firstFailing rest = some o) := by
  unfold Engine.supervisorRefusal Engine.sessionOpen
  cases hopen : (e.session p).isOpen with
  | false => rw [hopen] at h; exact .inl h
  | true =>
    cases hright : (e.session p).supervisor with
    | false => rw [hopen, hright] at h; exact .inl h
    | true => rw [hopen, hright] at h; exact .inr ⟨rfl, h⟩

theorem Engine.limitsReq_refused {q c : Byte} {d : Half} {m r : Byte}
    (h : firstFailing (e.requestChecks p (.limits q c d m r)) = some o) :
    e.limitsReq p t q c d m r = e.reply p t o (e.refusedPayload (.limits q c d m r) o) := by
  unfold Engine.limitsReq
  rcases Engine.supervisor_checks h with href | ⟨href, h⟩
  · rw [href]; rfl
  · rw [href]
    dsimp only
    simp only [firstFailing] at h
    split at h
    · cases h
    next hmeant =>
      cases h
      split
      next q' l' hq hl =>
        have hport : ¬3 < q.toNat := fun hbig => by rw [portOf_eq, if_pos hbig] at hq; cases hq
        rw [limits_meaningless, hl, decide_eq_false hport] at hmeant
        exact (hmeant rfl).elim
      · rfl

theorem Engine.revokeReq_refused {h : Handle} (hfail : firstFailing (e.requestChecks p (.revoke h)) = some o) :
    e.revokeReq p t h = e.reply p t o (e.refusedPayload (.revoke h) o) := by
  unfold Engine.revokeReq
  rcases Engine.supervisor_checks hfail with href | ⟨href, hfail⟩
  · rw [href]; rfl
  · rw [href]
    dsimp only
    have hcur : e.isCurrent h = false ∧ o = .stale := by
      cases hcur : e.isCurrent h <;> simp_all [firstFailing, Request.meaningless]
    rw [Bool.eq_false_iff, Ne, Engine.isCurrent_iff, not_and_or, Bool.not_eq_false] at hcur
    rw [hcur.2, show e.current h = none from if_pos hcur.1]
    rfl

theorem Engine.revokeRangeReq_refused {b : BitVec 24} {l : Half}
    (h : firstFailing (e.requestChecks p (.revokeRange b l)) = some o) :
    e.revokeRangeReq p t b l = e.reply p t o (e.refusedPayload (.revokeRange b l) o) := by
  unfold Engine.revokeRangeReq
  rcases Engine.supervisor_checks h with href | ⟨href, h⟩
  · rw [href]; rfl
  · rw [href]
    dsimp only
    simp only [firstFailing, Request.meaningless, ← baseMeaningful_eq] at h
    split at h
    next hbase =>
      rw [if_neg (by rw [hbase]; nofun)]
      rw [← regionOf_valid l hbase] at h
      split at h
      · cases h
      next hvalid => cases h; exact if_pos (by simpa using hvalid)
    next hbase => cases h; exact if_pos (by simpa using hbase)

theorem Engine.evictReq_refused {n : Byte} (h : firstFailing (e.requestChecks p (.evict n)) = some o) :
    e.evictReq p t n = e.reply p t o (e.refusedPayload (.evict n) o) := by
  unfold Engine.evictReq
  rcases Engine.supervisor_checks h with href | ⟨href, h⟩
  · rw [href]; rfl
  · rw [href]
    dsimp only
    simp only [firstFailing] at h
    cases hq : portOf n with
    | none =>
      have hbig : 3 < n.toNat := by
        by_contra hsmall
        rw [portOf_eq, if_neg hsmall] at hq
        cases hq
      rw [show (Request.evict n).meaningless = true from decide_eq_true hbig] at h
      cases h
      rfl
    | some q =>
      have hsmall : ¬3 < n.toNat := fun hbig => by rw [portOf_eq, if_pos hbig] at hq; cases hq
      rw [show (Request.evict n).meaningless = false from decide_eq_false hsmall, hq] at h
      dsimp only
      by_cases hqp : q = p
      · simp [hqp] at h
        subst h
        exact if_pos hqp
      · rw [if_neg hqp]
        cases hopen : (e.session q).isOpen with
        | false =>
          simp [hqp, hopen] at h
          subst h
          exact if_pos (by rw [Engine.sessionOpen, hopen]; rfl)
        | true => simp [hqp, hopen] at h

theorem Engine.freezeReq_refused (h : firstFailing (e.requestChecks p .freeze) = some o) :
    e.freezeReq p t = e.reply p t o (e.refusedPayload .freeze o) := by
  unfold Engine.freezeReq
  rcases Engine.supervisor_checks h with href | ⟨href, h⟩
  · rw [href]; rfl
  · cases h

theorem Engine.trimReq_refused {n : Byte} (h : firstFailing (e.requestChecks p (.trim n)) = some o) :
    e.trimReq p t n = e.reply p t o (e.refusedPayload (.trim n) o) := by
  unfold Engine.trimReq
  rcases Engine.supervisor_checks h with href | ⟨href, h⟩
  · rw [href]
    have ho : o ≠ .malformed := by
      rintro rfl
      unfold Engine.supervisorRefusal at href
      split at href
      · cases href
      · split at href <;> cases href
    have hpayload : e.refusedPayload (.trim n) o = trimRefusal n := by
      simp only [Engine.refusedPayload, if_neg ho]
      rfl
    rw [hpayload]
  · rw [href]
    dsimp only
    simp only [firstFailing] at h
    split at h
    · cases h
    next hno => cases h; exact if_pos (by rw [trimMeaningful_eq]; simpa using hno)

end

/-- Settles O20: each clause is the refusal of one request at its first failing check. -/
theorem requestChecksInOrder : Obligations.RequestChecksInOrder := by
  intro s p t r rest o hoffer hfail
  refine .of_reply hoffer ?_
  cases r with
  | notice => exact Engine.noticeReq_refused hfail
  | probe => exact Engine.probeReq_refused hfail
  | scanFirst => exact Engine.scanFirstReq_refused hfail
  | scanNext => exact Engine.scanNextReq_refused hfail
  | limits => exact Engine.limitsReq_refused hfail
  | revoke => exact Engine.revokeReq_refused hfail
  | revokeRange => exact Engine.revokeRangeReq_refused hfail
  | evict => exact Engine.evictReq_refused hfail
  | freeze => exact Engine.freezeReq_refused hfail
  | thaw => exact Engine.thawReq_refused hfail
  | trim => exact Engine.trimReq_refused hfail
  | openSession | closeSession | readClock | noop | claim | renew | release | downgrade | upgrade | acknowledge =>
    cases hfail

end Sys2Proof.Machine

/-! ## MALFORMED: proofs about the operands with a meaning and the answers that follow (R179) -/

namespace Sys2Proof.Machine

/-! ### Messages without a MALFORMED result -/

/-- An answer whose result is MALFORMED. -/
def EngineMsg.isMalformed : EngineMsg → Bool
  | .answer _ (.result .malformed _ _) => true
  | _ => false

/-- Messages none of which is a MALFORMED result. -/
def WellMeant (out : List Out) : Prop := ∀ m ∈ out, m.2.isMalformed = false

section
variable {out out' : List Out} {e : Engine} {p q : Port} {t : Tag} {o : ResultCode} {x : Payload}

theorem WellMeant.nil : WellMeant [] := fun _ h => by cases h

theorem WellMeant.append (h : WellMeant out) (h' : WellMeant out') : WellMeant (out ++ out') := fun m hm =>
  (List.mem_append.mp hm).elim (h m) (h' m)

theorem WellMeant.single {m : Out} (h : m.2.isMalformed = false) : WellMeant [m] := fun n hn => by
  rw [List.mem_singleton.mp hn]
  exact h

theorem Completions.wellMeant (h : Completions out) : WellMeant out := fun m hm => by
  obtain ⟨u, c, hc⟩ := h m hm
  rw [hc]
  rfl

theorem Quiet.wellMeant (h : Quiet out) : WellMeant out := fun m hm => by
  obtain ⟨q, n⟩ := m
  cases n with
  | answer u y =>
    cases y with
    | result o y late =>
      obtain ⟨hmute, -⟩ := h _ hm
      obtain ⟨hresult, -, -⟩ := hmute u
      simp [EngineMsg.results] at hresult
    | _ => rfl
  | _ => rfl

theorem WellMeant.answerTo (x : Payload) (ho : o ≠ .malformed) : WellMeant [answerTo p t o x] := by
  refine .single ?_
  cases o with
  | malformed => exact (ho rfl).elim
  | _ => rfl

/-- The result of an event between the completions before it and those of its pass. -/
theorem WellMeant.between {before after : List Out} (hbefore : Completions before) (ho : o ≠ .malformed)
    (hafter : Completions after) : WellMeant (before ++ [Machine.answerTo p t o x] ++ after) :=
  (hbefore.wellMeant.append (.answerTo _ ho)).append hafter.wellMeant

theorem WellMeant.reply (x : Payload) (ho : o ≠ .malformed) : WellMeant (e.reply p t o x).out := .answerTo x ho

theorem WellMeant.refuse (c : ReqCode) (ho : o ≠ .malformed) : WellMeant (e.refuse p t o c).out := .answerTo _ ho

theorem WellMeant.finish (b : Engine) (h : WellMeant out) : WellMeant (e.finish b out).out :=
  h.append (quiet_countNotices e b).wellMeant

theorem WellMeant.endSessionFor (q : Port) {d : Ended} (htold : Completions d.told) (hpassed : Completions d.passed) :
    WellMeant (e.endSessionFor p t q d).out :=
  (((WellMeant.between (o := .ok) htold nofun hpassed).append (quiet_countNotices _ _).wellMeant).append
    (quiet_sessionNotice _ _).wellMeant).append (quiet_freezeNoticesIf _ _).wellMeant

/-! ### The refusals that do not look at the operands -/

theorem Engine.supervisorRefusal_ne_malformed (h : e.supervisorRefusal p = some o) : o ≠ .malformed := by
  unfold Engine.supervisorRefusal at h
  split at h
  · cases h; nofun
  · split at h <;> cases h
    nofun

theorem Engine.holderCheck_ne_malformed {h : Handle} (hcheck : e.holderCheck p h = .error o) : o ≠ .malformed := by
  unfold Engine.holderCheck at hcheck
  split at hcheck
  · cases hcheck; nofun
  · split at hcheck
    · cases hcheck; nofun
    · split at hcheck <;> cases hcheck
      nofun

/-- The admission of a claim whose operands have a meaning. -/
theorem Engine.admission_ne_malformed {b : BitVec 24} {l : Half} {m : Byte} {d w x : Half} {ref : HandleRef}
    (hmeant : (Request.claim b l m d w x).meaningless = false) (h : e.admission p b l m d = .error (o, ref)) :
    o ≠ .malformed := by
  obtain ⟨hbase, hmode⟩ : ¬1048575 < b.toNat ∧ ¬1 < m.toNat := by simpa [Request.meaningless] using hmeant
  have hbase : baseMeaningful b = true := by rw [baseMeaningful_eq, decide_eq_false hbase]; rfl
  have hmode : modeOf m = some (claimMode m) := by rw [modeOf_eq, if_neg hmode]
  unfold Engine.admission at h
  rw [hmode, hbase] at h
  dsimp only at h
  split at h
  · cases h; nofun
  · rw [if_neg nofun] at h
    split at h
    · cases h; nofun
    · split at h
      · cases h; nofun
      · split at h
        · cases h; nofun
        · split at h <;> cases h <;> nofun

/-! ### One request after the other -/

theorem WellMeant.openReq {m : Half} {a : Byte} (hmeant : (Request.openSession m a).meaningless = false) :
    WellMeant (e.openReq p t m a).out := by
  obtain ⟨hmargin, hmask⟩ : (marginOf m).isNone = false ∧ (maskOf a).isNone = false := by
    rw [marginOf_isNone, maskOf_isNone]
    exact Bool.or_eq_false_iff.mp hmeant
  unfold Engine.openReq
  split
  · exact .reply _ nofun
  · split
    · exact (WellMeant.answerTo (o := .ok) _ nofun).append (quiet_sessionNotice _ _).wellMeant
    next hnone =>
      obtain ⟨margin, hmargin⟩ := Option.isSome_iff_exists.mp (Option.isNone_eq_false_iff.mp hmargin)
      obtain ⟨mask, hmask⟩ := Option.isSome_iff_exists.mp (Option.isNone_eq_false_iff.mp hmask)
      exact (hnone _ _ hmargin hmask).elim

theorem WellMeant.closeReq : WellMeant (e.closeReq p t).out := by
  unfold Engine.closeReq
  split
  · exact .refuse _ nofun
  · exact .endSessionFor _ (completions_told _ _ _) (completions_afterClear _ _)

theorem WellMeant.claimReq {b : BitVec 24} {l : Half} {m : Byte} {d w x : Half}
    (hmeant : (Request.claim b l m d w x).meaningless = false) : WellMeant (e.claimReq p t b l m d w x).out := by
  unfold Engine.claimReq
  split
  next herror => exact .answerTo _ (Engine.admission_ne_malformed hmeant herror)
  · dsimp only
    split
    · exact (WellMeant.answerTo (o := .granted) _ nofun).append (quiet_countNotices _ _).wellMeant
    · split
      · exact .answerTo _ nofun
      · exact .single rfl

theorem WellMeant.renewReq (h : Handle) (d : Half) : WellMeant (e.renewReq p t h d).out := by
  unfold Engine.renewReq
  split
  next herror => exact .refuse _ (Engine.holderCheck_ne_malformed herror)
  · split
    · split
      · unfold Engine.renewLease
        dsimp only
        split
        · exact .reply _ nofun
        · split
          · exact .reply _ nofun
          · exact .finish _ (.answerTo _ nofun)
      · exact .refuse _ nofun
    · exact .reply _ nofun
    · exact .refuse _ nofun

theorem WellMeant.releaseReq (h : Handle) : WellMeant (e.releaseReq p t h).out := by
  unfold Engine.releaseReq
  split
  next herror => exact .refuse _ (Engine.holderCheck_ne_malformed herror)
  · split
    · exact .finish _ (.between (completions_convCompletion _ _) nofun (completions_passUnlessFrozen _))
    · exact .refuse _ nofun

theorem WellMeant.downgradeReq (h : Handle) : WellMeant (e.downgradeReq p t h).out := by
  unfold Engine.downgradeReq
  split
  next herror => exact .refuse _ (Engine.holderCheck_ne_malformed herror)
  · split
    · split
      · exact .finish _ (.between .nil nofun (completions_passUnlessFrozen _))
      · exact .refuse _ nofun
    · exact .reply _ nofun
    · exact .refuse _ nofun

theorem WellMeant.upgradeReq (h : Handle) (w : Half) : WellMeant (e.upgradeReq p t h w).out := by
  unfold Engine.upgradeReq
  split
  next herror => exact .refuse _ (Engine.holderCheck_ne_malformed herror)
  · split
    · split
      · unfold Engine.upgradeLease
        split
        · exact .finish _ (.answerTo _ nofun)
        · exact .reply _ nofun
        · split
          · exact .reply _ nofun
          · exact .finish _ (.single rfl)
      · exact .refuse _ nofun
    · exact .reply _ nofun
    · exact .refuse _ nofun

theorem WellMeant.acknowledgeReq (h : Handle) : WellMeant (e.acknowledgeReq p t h).out := by
  unfold Engine.acknowledgeReq
  split
  next herror => exact .refuse _ (Engine.holderCheck_ne_malformed herror)
  · split
    · exact .finish _ (.answerTo _ nofun)
    · split
      · exact .finish _ (.answerTo _ nofun)
      · exact .refuse _ nofun
    · exact .refuse _ nofun

theorem WellMeant.noticeReq : WellMeant (e.noticeReq p t).out := by
  unfold Engine.noticeReq
  split
  · exact .refuse _ nofun
  · split
    · exact .reply _ nofun
    · exact .refuse _ nofun

theorem baseMeaningful_of_not_big {b : BitVec 24} (h : decide (1048575 < b.toNat) = false) :
    (!baseMeaningful b) = false := by
  rw [baseMeaningful_eq, h]
  rfl

theorem WellMeant.probeReq {b : BitVec 24} {l : Half} (hmeant : (Request.probe b l).meaningless = false) :
    WellMeant (e.probeReq p t b l).out := by
  unfold Engine.probeReq
  rw [baseMeaningful_of_not_big hmeant]
  split
  · exact .answerTo _ nofun
  · rw [if_neg nofun]
    split
    · exact .answerTo _ nofun
    · exact .reply _ nofun

theorem WellMeant.scanStep (f : Filter) (g : Half) (n : Nat) : WellMeant (e.scanStep p t f g n).out := by
  unfold Engine.scanStep
  split <;> exact .answerTo _ nofun

theorem WellMeant.scanFirstReq {f r : Byte} {b : BitVec 24} {l : Half}
    (hmeant : (Request.scanFirst f r b l).meaningless = false) : WellMeant (e.scanFirstReq p t f r b l).out := by
  unfold Engine.scanFirstReq
  split
  · exact .answerTo _ nofun
  · rcases filterOf_cases p f r b l with ⟨hno, -⟩ | ⟨-, y, hy, -, -⟩
    · rw [hno] at hmeant
      cases hmeant
    · rw [hy]
      dsimp only
      split
      · exact .answerTo _ nofun
      · split
        · exact .answerTo _ nofun
        · exact .scanStep _ _ _

theorem WellMeant.scanNextReq : WellMeant (e.scanNextReq p t).out := by
  unfold Engine.scanNextReq
  split
  · exact .answerTo _ nofun
  · split
    · exact .answerTo _ nofun
    · exact .scanStep _ _ _

theorem WellMeant.limitsReq {r c : Byte} {d : Half} {m n : Byte}
    (hmeant : (Request.limits r c d m n).meaningless = false) : WellMeant (e.limitsReq p t r c d m n).out := by
  rw [limits_meaningless, Bool.or_eq_false_iff, decide_eq_false_iff_not] at hmeant
  obtain ⟨hport, hlimits⟩ := hmeant
  unfold Engine.limitsReq
  split
  next href => exact .refuse _ (Engine.supervisorRefusal_ne_malformed href)
  · rw [portOf_eq, if_neg hport]
    split
    · split
      · exact .reply _ nofun
      · exact .answerTo _ nofun
    next hnone =>
      obtain ⟨l, hl⟩ := Option.isSome_iff_exists.mp (Option.isNone_eq_false_iff.mp hlimits)
      exact (hnone _ _ rfl hl).elim

theorem WellMeant.revokeReq (h : Handle) : WellMeant (e.revokeReq p t h).out := by
  unfold Engine.revokeReq
  split
  next href => exact .refuse _ (Engine.supervisorRefusal_ne_malformed href)
  · split
    · exact .refuse _ nofun
    · unfold Engine.revokeSlot
      split
      · exact .finish _ (.between (completions_conv _ _ _) nofun (completions_passUnlessFrozen _))
      · exact .finish _ (.between (o := .ok) (.single _ _ _) nofun (completions_passUnlessFrozen _))
      · exact .finish _ (.answerTo _ nofun)
      · exact .refuse _ nofun

theorem WellMeant.revokeRangeReq {b : BitVec 24} {l : Half} (hmeant : (Request.revokeRange b l).meaningless = false) :
    WellMeant (e.revokeRangeReq p t b l).out := by
  unfold Engine.revokeRangeReq
  rw [baseMeaningful_of_not_big hmeant]
  split
  next href => exact .refuse _ (Engine.supervisorRefusal_ne_malformed href)
  · rw [if_neg nofun]
    split
    · exact .refuse _ nofun
    · refine .finish _ (.between (completions_conv _ _ _) nofun ?_)
      split
      · exact completions_passUnlessFrozen _
      · exact .nil

theorem WellMeant.evictReq {n : Byte} (hmeant : (Request.evict n).meaningless = false) :
    WellMeant (e.evictReq p t n).out := by
  have hport : ¬3 < n.toNat := of_decide_eq_false hmeant
  unfold Engine.evictReq
  split
  next href => exact .refuse _ (Engine.supervisorRefusal_ne_malformed href)
  · rw [portOf_eq, if_neg hport]
    generalize (BitVec.setWidth 2 n).toFin = q
    dsimp only
    split
    · exact .refuse _ nofun
    · split
      · exact .refuse _ nofun
      · exact .endSessionFor _ (completions_told e q true) (completions_afterClear (e.clearPort q) q)

theorem WellMeant.freezeReq : WellMeant (e.freezeReq p t).out := by
  unfold Engine.freezeReq
  split
  next href => exact .refuse _ (Engine.supervisorRefusal_ne_malformed href)
  · split
    · exact .reply _ (by split <;> nofun)
    · exact WellMeant.append (.answerTo (o := .ok) _ nofun) (quiet_freezeNotices _).wellMeant

theorem WellMeant.thawReq : WellMeant (e.thawReq p t).out := by
  unfold Engine.thawReq
  split
  · exact .refuse _ nofun
  · split
    · exact .refuse _ nofun
    next f _ =>
      split
      · have hearly : Completions (e.settleThaw f.start).early := completions_settleDue e
        have hgrants : Completions (e.settleThaw f.start).grants := completions_grantPass _
        exact ((WellMeant.between (o := .ok) hearly nofun hgrants).append (quiet_countNotices _ _).wellMeant).append
          (quiet_freezeNotices _).wellMeant
      · exact .refuse _ nofun

theorem WellMeant.trimReq {n : Byte} (hmeant : (Request.trim n).meaningless = false) :
    WellMeant (e.trimReq p t n).out := by
  unfold Engine.trimReq
  split
  next href => exact .reply _ (Engine.supervisorRefusal_ne_malformed href)
  · rw [if_neg (by rw [trimMeaningful_eq, hmeant]; nofun)]
    exact .nil

/-- The messages of a request whose operands have a meaning. -/
theorem WellMeant.of_request {r : Request} (hmeant : r.meaningless = false) :
    WellMeant (e.requestEffect p t r).out := by
  cases r with
  | openSession => exact .openReq hmeant
  | closeSession => exact .closeReq
  | readClock => exact .nil
  | noop => exact .answerTo _ nofun
  | claim => exact .claimReq hmeant
  | renew h d => exact .renewReq h d
  | release h => exact .releaseReq h
  | downgrade h => exact .downgradeReq h
  | upgrade h w => exact .upgradeReq h w
  | acknowledge h => exact .acknowledgeReq h
  | notice => exact .noticeReq
  | probe => exact .probeReq hmeant
  | scanFirst => exact .scanFirstReq hmeant
  | scanNext => exact .scanNextReq
  | limits => exact .limitsReq hmeant
  | revoke h => exact .revokeReq h
  | revokeRange => exact .revokeRangeReq hmeant
  | evict => exact .evictReq hmeant
  | freeze => exact .freezeReq
  | thaw => exact .thawReq
  | trim => exact .trimReq hmeant

end

/-- Settles O21: what the request adds to a path is no MALFORMED result. -/
theorem meaningfulOperandsAreNotMalformed : Obligations.MeaningfulOperandsAreNotMalformed := by
  intro s s' p t r rest hoffer hmeant hexec u x late hmem
  rw [exec_command hoffer] at hexec
  cases hexec
  have hpath : pick ((s.restToEngine p rest).applyEffect (s.engine.requestEffect p t r)).toPort p =
      pick s.toPort p ++ outFor p (s.engine.requestEffect p t r).out := pick_tab ..
  rw [hpath, List.mem_append] at hmem
  rcases hmem with hold | hnew
  · exact hold
  · cases WellMeant.of_request hmeant _ (mem_outFor hnew)

end Sys2Proof.Machine

/-! ## Claims and holder requests: proofs about Machine/Claims.lean (R35 to R37) and Machine/Holders.lean (R53 to R58,
R69, R102 to R104) -/

namespace Sys2Proof.Machine

section
variable {e c : Engine} {k : SlotNo} {p : Port} {t : Tag} {out : List Out}

/-! ### Closing an event that changes a record (R19, R99) -/

theorem Engine.closeEvent_of_record {new : Engine} (h : new.record k ≠ e.record k) :
    e.closeEvent new = new.nextGeneration :=
  Engine.closeEvent_changed (Engine.slots_ne_of_record k h)

theorem Engine.finish_of_record {new : Engine} (h : new.record k ≠ e.record k) :
    e.finish new out = { engine := new.nextGeneration, out := out ++ countNotices e new } := by
  rw [Engine.finish, Engine.closeEvent_of_record h]

/-- The pass of an ordinary event leaves a record that waits for nothing. -/
theorem Engine.passUnlessFrozen_record {r : Record} (h : c.record k = r) (hwaits : r.isWaiting = false)
    (hconv : r.conv = none) : c.passUnlessFrozen.1.record k = r :=
  ((c.passUnlessFrozen_frame.record k).eq_of_quiet (h ▸ hwaits) (h ▸ hconv)).trans h

/-- An event that writes a record that waits for nothing, and then runs its pass. -/
theorem Engine.finish_passed {r : Record} (h : c.record k = r) (hwaits : r.isWaiting = false) (hconv : r.conv = none)
    (hne : r ≠ e.record k) : e.finish c.passUnlessFrozen.1 out =
      { engine := c.passUnlessFrozen.1.nextGeneration, out := out ++ countNotices e c.passUnlessFrozen.1 } :=
  Engine.finish_of_record (by rw [Engine.passUnlessFrozen_record h hwaits hconv]; exact hne)

theorem Engine.record_freeWhere_one (e : Engine) (k : SlotNo) : (e.freeWhere fun j => j == k).record k = .free := by
  rw [Engine.record_freeWhere, if_pos (beq_self_eq_true k)]

/-! ### An admitted claim (R35 to R37) -/

theorem Engine.enter_closed {r : Record} (hfree : (e.record k).isFree = true) (hr : r.isFree = false) :
    e.closeEvent (e.enter k r) = (e.enter k r).nextGeneration := by
  refine Engine.closeEvent_of_record (k := k) fun h => ?_
  rw [Engine.record_enter, if_pos rfl] at h
  rw [h, hfree] at hr
  cases hr

theorem Engine.handle_enter (e : Engine) (k : SlotNo) (r : Record) :
    (e.enter k r).handle k = mkHandle k (e.issue k + 1) := by
  rw [Engine.handle, Engine.issue_enter, if_pos rfl]

theorem Engine.grantClaim_eq (hfree : (e.record k).isFree = true) (c : Common) (d : Half) :
    e.grantClaim p t k c d =
      { engine := (e.enter k (.held (e.grantedHeld c d))).nextGeneration
        out := [(p, resultMsg t .granted (.claim
            { ref := .own (mkHandle k (e.issue k + 1)), path := .immediate, time := (termFrom e.settled d).reported
              generation := e.generation + 1 }))] ++
          countNotices e (e.enter k (.held (e.grantedHeld c d))) } := by
  have hclosed := Engine.enter_closed (r := .held (e.grantedHeld c d)) hfree rfl
  have hhandle : (e.enter k (.held (e.grantedHeld c d))).nextGeneration.handle k = _ := e.handle_enter k _
  simp only [Engine.grantClaim, hclosed, hhandle, Term.grantTime_eq_reported,
    Term.start_eq_termFrom]
  rfl

theorem Engine.queueClaim_eq (hfree : (e.record k).isFree = true) (c : Common) (d w : Half) :
    e.queueClaim p t k c d w =
      { engine := (e.queued k { toCommon := c, duration := d, waitDeadline := waitFrom e.settled w
                                tag := t }).nextGeneration
        out := [(p, .answer t (.waitingClaim (mkHandle k (e.issue k + 1)) (e.generation + 1)))] } := by
  let y : Waiting := { toCommon := c, duration := d, waitDeadline := waitFrom e.settled w, tag := t }
  have hclosed : e.closeEvent (e.queued k y) = (e.queued k y).nextGeneration := by
    refine Engine.closeEvent_of_record (k := k) fun h => ?_
    have hwaits : (e.queued k y).record k = .waiting y := (Engine.record_enter ..).trans (if_pos rfl)
    rw [← h, hwaits] at hfree
    cases hfree
  have hhandle : (e.queued k y).nextGeneration.handle k = _ := e.handle_enter k (.waiting y)
  have hstart : waitDeadlineFrom e.settled w = waitFrom e.settled w := waitDeadlineFrom_eq_waitFrom ..
  simp only [Engine.queueClaim, hstart, show e.closeEvent (e.queued k { toCommon := c, .. }) = _ from hclosed, hhandle]
  rfl

/-- An admitted claim without a blocker is granted (R35). -/
theorem Engine.claimReq_of_clear {b : BitVec 24} {l : Half} {m : Byte} {d w x : Half}
    (h : firstFailing (e.claimChecks p b l m d w x) = none) (hk : e.IsLowestFree k)
    (hclear : e.blockers (regionOf b l) (claimMode m) = []) :
    e.claimReq p t b l m d w x =
      e.grantClaim p t k { holder := p, region := regionOf b l, mode := claimMode m, label := x } d := by
  simp only [Engine.claimReq, Engine.admission_of_passing h hk, hclear]

/-- An admitted claim with a blocker is refused or queued by its wait limit (R36, R37). -/
theorem Engine.claimReq_of_blocked {b : BitVec 24} {l : Half} {m : Byte} {d w x : Half} {j : SlotNo}
    {js : List SlotNo} (h : firstFailing (e.claimChecks p b l m d w x) = none) (hk : e.IsLowestFree k)
    (hblocked : e.blockers (regionOf b l) (claimMode m) = j :: js) :
    e.claimReq p t b l m d w x =
      if w = 0 then e.refuseClaim p t .conflict (.blocker (e.handle j))
      else e.queueClaim p t k { holder := p, region := regionOf b l, mode := claimMode m, label := x } d w := by
  simp only [Engine.claimReq, Engine.admission_of_passing h hk, hblocked]

end

/-- Settles O22: without a blocker the claim enters the lowest FREE slot. -/
theorem clearClaimIsGrantedAtOnce : Obligations.ClearClaimIsGrantedAtOnce := by
  intro s p t b l m d w x rest k hoffer hpass hk hclear e lease e'
  refine exec_command_eq hoffer ?_
  have hnone : e.blockers (regionOf b l) (claimMode m) = [] := filter_allSlots_eq_nil hclear
  refine ((Engine.claimReq_of_clear hpass hk hnone).trans (Engine.grantClaim_eq hk.1 _ d)).trans ?_
  rw [Engine.grantedHeld_eq]
  rfl

/-- Settles O23: the lowest blocker decides; without waiting it is named, else the claim enters the lowest FREE slot. -/
theorem blockedClaimIsRefusedOrQueued : Obligations.BlockedClaimIsRefusedOrQueued := by
  intro s p t b l m d w x rest j k hoffer hpass hk hj e waiter
  obtain ⟨js, hjs⟩ := hj.filter_allSlots
  have hblocked : e.blockers (regionOf b l) (claimMode m) = j :: js := hjs
  have heffect := Engine.claimReq_of_blocked (t := t) (w := w) (d := d) (x := x) hpass hk hblocked
  refine ⟨fun hw => .of_reply hoffer ?_, fun hw => exec_command_eq hoffer ?_⟩
  · exact heffect.trans (if_pos hw)
  · exact (heffect.trans (if_neg hw)).trans (Engine.queueClaim_eq hk.1 _ d w)

/-! ### Holder requests -/

section
variable {e : Engine} {h : Handle} {p : Port} {t : Tag} {x : Held}

/-- A RENEW whose checks pass, of a timed lease, comes to the tests of R53. -/
theorem Engine.renewReq_of_timed {stated stored : Half} {deadline : Tick}
    (hpass : firstFailing (e.holderChecks p h) = none) (hx : e.record (slotOf h) = .held x)
    (hterm : x.term = .timed stored deadline) :
    e.renewReq p t h stated = e.renewLease p t (slotOf h) x stored deadline stated := by
  simp only [Engine.renewReq, Engine.holderCheck_of_checks hpass, hx, hterm]

theorem Engine.releaseReq_of_held (hpass : firstFailing (e.holderChecks p h) = none)
    (hx : e.record (slotOf h) = .held x) : e.releaseReq p t h =
      e.finish (e.freeWhere fun k => k == slotOf h).passUnlessFrozen.1
        (x.convCompletion .released ++ [answerTo p t .ok .empty] ++
          (e.freeWhere fun k => k == slotOf h).passUnlessFrozen.2) := by
  simp only [Engine.releaseReq, Engine.holderCheck_of_checks hpass, hx]

theorem Engine.downgradeReq_of_sole (hpass : firstFailing (e.holderChecks p h) = none)
    (hx : e.record (slotOf h) = .held x) (hsole : x.mode = .sole) : e.downgradeReq p t h =
      e.finish (e.setRecord (slotOf h) (.held { x with mode := .shared })).passUnlessFrozen.1
        ([answerTo p t .ok (.downgrade none)] ++
          (e.setRecord (slotOf h) (.held { x with mode := .shared })).passUnlessFrozen.2) := by
  simp only [Engine.downgradeReq, Engine.holderCheck_of_checks hpass, hx, hsole, if_true]

theorem Engine.acknowledgeReq_of_retired {x : Retired} (hpass : firstFailing (e.holderChecks p h) = none)
    (hx : e.record (slotOf h) = .retired x) : e.acknowledgeReq p t h = e.acknowledgeRetired p t (slotOf h) x := by
  simp only [Engine.acknowledgeReq, Engine.holderCheck_of_checks hpass, hx]

theorem Engine.acknowledgeReq_of_warned (hpass : firstFailing (e.holderChecks p h) = none)
    (hx : e.record (slotOf h) = .held x) (hwarned : x.warned = true) :
    e.acknowledgeReq p t h = e.acknowledgeWarned p t (slotOf h) x := by
  simp only [Engine.acknowledgeReq, Engine.holderCheck_of_checks hpass, hx, hwarned, if_true]

theorem Held.convCompletion_eq (x : Held) (c : Completion) :
    x.convCompletion c = x.conv.toList.map fun v => (x.holder, .completion v.tag c) := by
  unfold Held.convCompletion
  cases x.conv <;> rfl

theorem Engine.owner_of_checks (hpass : firstFailing (e.holderChecks p h) = none) (hx : e.record (slotOf h) = .held x) :
    x.holder = p := by
  obtain ⟨-, -, howned⟩ := Engine.holderChecks_pass.mp hpass
  rw [hx] at howned
  simpa [Record.ownedBy, Record.common] using howned

end

/-- Settles O24: the tests of R53 in order, then the lease with its new deadline. -/
theorem renewRestartsTheDeadline : Obligations.RenewRestartsTheDeadline := by
  intro s p t h stated stored deadline x rest hoffer hpass hx hterm e l eff kept y atCap tooLong e'
  have heffect : e.requestEffect p t (.renew h stated) = e.renewLease p t (slotOf h) x stored deadline stated :=
    Engine.renewReq_of_timed hpass hx hterm
  refine ⟨fun hcap => .of_reply hoffer (heffect.trans (if_pos hcap)), fun hcap hlong => .of_reply hoffer ?_,
    fun hcap hlong => exec_command_eq hoffer ?_⟩
  · exact (heffect.trans (if_neg hcap)).trans (if_pos hlong)
  · exact (heffect.trans (if_neg hcap)).trans (if_neg hlong)

/-- Settles O25: the slot that RELEASE frees stays FREE through the pass. -/
theorem releaseFreesTheSlot : Obligations.ReleaseFreesTheSlot := by
  intro s p t h x rest hoffer hpass hx e freed passed gone
  have hfree : freed.record (slotOf h) = .free := e.record_freeWhere_one _
  have heffect : e.requestEffect p t (.release h) =
      e.finish passed.1 (x.convCompletion .released ++ [answerTo p t .ok .empty] ++ passed.2) :=
    Engine.releaseReq_of_held hpass hx
  have hgone : x.convCompletion .released = gone := by
    rw [Held.convCompletion_eq, Engine.owner_of_checks hpass hx]
    rfl
  refine ⟨Engine.passUnlessFrozen_record hfree rfl rfl, ?_, exec_command_eq hoffer (heffect.trans ?_)⟩
  · exact (freed.passUnlessFrozen_frame.issue _).trans (Engine.issue_freeWhere ..)
  · rw [hgone]
    exact Engine.finish_passed hfree rfl rfl (by rw [hx]; nofun)

/-- Settles O26: the lease without a conversion stays as DOWNGRADE writes it through the pass. -/
theorem downgradeMakesTheLeaseShared : Obligations.DowngradeMakesTheLeaseShared := by
  intro s p t h x rest hoffer hpass hx hsole hconv e down passed
  have hdown : down.record (slotOf h) = .held { x with mode := .shared } := Engine.record_setRecord_self ..
  have heffect : e.requestEffect p t (.downgrade h) =
      e.finish passed.1 ([answerTo p t .ok (.downgrade none)] ++ passed.2) :=
    Engine.downgradeReq_of_sole hpass hx hsole
  refine ⟨Engine.passUnlessFrozen_record hdown rfl hconv, exec_command_eq hoffer (heffect.trans ?_)⟩
  refine Engine.finish_passed hdown rfl hconv fun hsame => ?_
  rw [hx] at hsame
  cases (congrArg (fun y : Held => y.mode) (Record.held.inj hsame)).trans hsole

/-- Settles O28: the record loses its mark, with its slot when it is RETIRED. -/
theorem acknowledgeTakesTheMarkOff : Obligations.AcknowledgeTakesTheMarkOff := by
  intro s p t h rest hoffer hpass e k
  refine ⟨fun x hx => exec_command_eq (r := .acknowledge h) hoffer ?_,
    fun x d m hx hterm hwarned => exec_command_eq (r := .acknowledge h) hoffer ?_⟩
  · refine (Engine.acknowledgeReq_of_retired hpass hx).trans (Engine.finish_of_record (k := k) ?_)
    rw [Engine.record_freeWhere_one, hx]
    nofun
  · refine (Engine.acknowledgeReq_of_warned hpass hx hwarned).trans ?_
    unfold Engine.acknowledgeWarned
    rw [hterm]
    refine Engine.finish_of_record (k := k) fun hsame => ?_
    rw [Engine.record_setRecord_self, hx] at hsame
    cases (congrArg Held.warned (Record.held.inj hsame)).trans hwarned

end Sys2Proof.Machine

/-! ## Lookup and OPEN: proofs about Machine/Lookup.lean (R100, R101, R105 to R115) and Machine/Sessions.lean (R120,
R124, R125) -/

namespace Sys2Proof.Machine

section
variable {e : Engine} {p : Port} {t : Tag} {k : SlotNo}

/-! ### NOTICE (R100, R101) -/

theorem Engine.noticeReq_of_open (hopen : (e.session p).isOpen = true) :
    e.noticeReq p t = match e.markedSlots p with
      | j :: _ => e.reply p t .ok (.notice { marked := e.markedCount p, view := e.view j })
      | [] => e.refuse p t .nothing .notice :=
  if_neg (by rw [Engine.sessionOpen, hopen]; nofun)

/-! ### PROBE (R105 to R107) -/

/-- A view shows the overdue mark of its record, and a FREE slot has neither. -/
theorem Record.view_overdue (r : Record) (h : Handle) (n : Tick) (frozen : Bool) :
    ((r.view h n frozen).any fun v => v.overdue) = r.overdue n frozen := by
  cases r with
  | free => exact (Bool.and_eq_false_iff.mpr (.inl (Bool.and_false _))).symm
  | _ => rfl

theorem Engine.probeReq_of_passing {b : BitVec 24} {l : Half}
    (h : firstFailing (e.requestChecks p (.probe b l)) = none) :
    e.probeReq p t b l = e.reply p t .ok (.probe (e.probePayload (regionOf b l))) := by
  simp only [firstFailing_none, Engine.requestChecks, List.forall_mem_cons, Request.meaningless,
    ← baseMeaningful_eq] at h
  obtain ⟨hopen, hbase, hfits, -⟩ := h
  unfold Engine.probeReq Engine.sessionOpen
  rw [if_neg (by rw [hopen]; nofun), if_neg (by rw [hbase]; nofun),
    if_neg (by rw [regionOf_valid l hbase, hfits]; nofun)]

/-! ### Scans (R109 to R115) -/

theorem filterByte_cases (f : Byte) : f = 0 ∨ f = 1 ∨ f = 2 ∨ f = 3 ∨ 3 < f.toNat := by
  decide +revert

/-- The filter of SCAN_FIRST's operands, in the words of the statements. -/
theorem filterOf_eq {f : Filter} {fb pb : Byte} {b : BitVec 24} {l : Half}
    (hmeant : (Request.scanFirst fb pb b l).meaningless = false) (hown : fb = 0 → f = .own p)
    (hport : fb = 1 → ∃ q, portOf pb = some q ∧ f = .port q) (hregion : fb = 2 → f = .region (regionOf b l))
    (hall : fb = 3 → f = .all) : filterOf p fb pb b l = some f := by
  rcases filterByte_cases fb with rfl | rfl | rfl | rfl | hbig
  · rw [hown rfl]
    rfl
  · obtain ⟨q, hq, hf⟩ := hport rfl
    rw [hf]
    exact (congrArg (Option.map Filter.port) hq :)
  · have hbase : baseMeaningful b = true := by
      rw [baseMeaningful_eq]
      simpa [Request.meaningless] using hmeant
    rw [hregion rfl]
    exact if_pos hbase
  · rw [hall rfl]
    rfl
  · simp [Request.meaningless, hbig] at hmeant

theorem Engine.scanFirstReq_of_passing {f : Filter} {fb pb : Byte} {b : BitVec 24} {l : Half}
    (h : firstFailing (e.requestChecks p (.scanFirst fb pb b l)) = none)
    (hf : (Request.scanFirst fb pb b l).meaningless = false → filterOf p fb pb b l = some f) :
    e.scanFirstReq p t fb pb b l = e.scanStep p t f e.generation 0 := by
  simp only [firstFailing_none, Engine.requestChecks, List.forall_mem_cons, Bool.not_eq_true'] at h
  obtain ⟨hopen, hmeant, hright, hfits, -⟩ := h
  rcases filterOf_cases p fb pb b l with ⟨hno, -⟩ | ⟨-, x, hx, hneeds, hvalid⟩
  · rw [hno] at hmeant
    cases hmeant
  · cases (hf hmeant).symm.trans hx
    unfold Engine.scanFirstReq Engine.sessionOpen
    rw [if_neg (by rw [hopen]; nofun), hx]
    dsimp only
    rw [if_neg (by rw [hneeds]; simpa [bne, or_iff_not_imp_left] using hright), if_neg (by rw [hvalid, hfits]; nofun)]

theorem Engine.scanNextReq_of_cursor {c : Cursor} (hopen : (e.session p).isOpen = true)
    (hc : (e.session p).cursor = some c) :
    e.scanNextReq p t = e.scanStep p t c.filter c.startGen c.next.val := by
  unfold Engine.scanNextReq Engine.sessionOpen
  rw [if_neg (by rw [hopen]; nofun), hc]

theorem Cursor.after_of_next {f : Filter} {g : Half} {n : SlotNo} (h : k.val + 1 = n.val) :
    Cursor.after f g k = some { filter := f, next := n, startGen := g } := by
  have hlt : k.val < 63 := by have := n.isLt; omega
  have hn : (⟨k.val + 1, by omega⟩ : SlotNo) = n := Fin.ext h
  rw [Cursor.after, dif_pos hlt, hn]

theorem Cursor.after_of_last {f : Filter} {g : Half} (h : k.val = 63) : Cursor.after f g k = none :=
  dif_neg (by omega)

/-! ### OPEN (R124, R125) -/

theorem marginOf_of_small {m : Half} (h : ¬4095 < m.toNat) : marginOf m = some (m.setWidth 12) :=
  if_pos (not_lt.mp h)

theorem maskOf_of_small {a : Byte} (h : ¬3 < a.toNat) :
    maskOf a = some { done := a.getLsbD 0, notice := a.getLsbD 1 } := if_pos (by omega)

theorem Engine.openReq_malformed {m : Half} {a : Byte} (hclosed : (e.session p).isOpen = false)
    (hmeant : (Request.openSession m a).meaningless = true) :
    e.openReq p t m a = e.reply p t .malformed (e.openMalformedPayload p) := by
  unfold Engine.openReq Engine.sessionOpen
  rw [if_neg (by rw [hclosed]; nofun)]
  split
  next margin mask hmargin hmask =>
    have hsmall : (Request.openSession m a).meaningless = false := by
      change (decide (4095 < m.toNat) || decide (3 < a.toNat)) = false
      rw [← marginOf_isNone, ← maskOf_isNone, hmargin, hmask]
      rfl
    rw [hsmall] at hmeant
    cases hmeant
  · rfl

theorem Engine.openReq_opened {m : Half} {a : Byte} (hclosed : (e.session p).isOpen = false)
    (hmeant : (Request.openSession m a).meaningless = false) :
    e.openReq p t m a =
      let y := (e.session p).opened (m.setWidth 12) { done := a.getLsbD 0, notice := a.getLsbD 1 }
      { engine := e.setSession p y
        out := [answerTo p t .ok ((e.setSession p y).openPayload p (e.session p).lost),
          (e.setSession p y).sessionNotice p] } := by
  obtain ⟨hmargin, hmask⟩ : ¬4095 < m.toNat ∧ ¬3 < a.toNat := by simpa [Request.meaningless] using hmeant
  unfold Engine.openReq Engine.sessionOpen
  rw [if_neg (by rw [hclosed]; nofun), marginOf_of_small hmargin, maskOf_of_small hmask]

end

/-- Settles O29: NOTICE shows the first marked slot, or finds none. -/
theorem noticeShowsLowestMarkedRecord : Obligations.NoticeShowsLowestMarkedRecord := by
  intro s p t rest hoffer hopen marked
  have hmarked : s.engine.markedSlots p = allSlots.filter marked := rfl
  have heffect : s.engine.requestEffect p t .notice = _ := Engine.noticeReq_of_open (t := t) hopen
  rw [hmarked] at heffect
  refine ⟨fun k hk => .of_reply hoffer ?_, fun hnone => .of_reply hoffer ?_⟩
  · obtain ⟨js, hjs⟩ := hk.filter_allSlots
    rw [hjs] at heffect
    exact heffect
  · rw [filter_allSlots_eq_nil hnone] at heffect
    exact heffect

/-- Settles O30: the counts are of the slots that the statement names, and the view is of the first HELD one. -/
theorem probeCountsRecordsOnTheRegion : Obligations.ProbeCountsRecordsOnTheRegion := by
  intro s p t b l rest hoffer hpass e held waiting overdue answer
  have hoverdue : overdue = fun k => ((e.record k).heldOn (regionOf b l) || (e.record k).waitingOn (regionOf b l)) &&
      (e.record k).overdue e.settled e.isFrozen :=
    funext fun k => congrArg (_ && ·) (Record.view_overdue ..)
  have hanswer (v : Option View) (hv : (allSlots.find? held).bind e.view = v) : answer v := by
    refine .of_reply hoffer ((Engine.probeReq_of_passing hpass).trans ?_)
    rw [← hv, hoverdue]
    rfl
  refine ⟨fun k hk => hanswer _ ?_, fun hnone => hanswer _ ?_⟩
  · rw [hk.find?]
    rfl
  · rw [List.find?_eq_none.mpr fun k _ => by rw [hnone k]; nofun]
    rfl

/-- Settles O31: both requests come to one scan step, from slot 0 or from the cursor. -/
theorem scanStepsWalkTheTable : Obligations.ScanStepsWalkTheTable := by
  intro s p t rest c f startGen start hcommand e hit withCursor payload
  obtain ⟨r, hc, hoffer, heffect⟩ : ∃ r : Request, c = r.command p ∧ s.Offers p t r rest ∧
      e.requestEffect p t r = e.scanStep p t f startGen start := by
    rcases hcommand with ⟨fb, pb, b, l, hc, hoffer, hpass, hgen, hstart, hown, hport, hregion, hall⟩ |
      ⟨next, hc, hoffer, hopen, hcursor, hstart⟩
    · refine ⟨.scanFirst fb pb b l, hc, hoffer, ?_⟩
      rw [hgen, hstart]
      exact Engine.scanFirstReq_of_passing hpass fun hmeant => filterOf_eq hmeant hown hport hregion hall
    · refine ⟨.scanNext, hc, hoffer, ?_⟩
      rw [hstart]
      exact Engine.scanNextReq_of_cursor hopen hcursor
  have hsearch : e.search f start = allSlots.find? hit := by
    refine congrArg (List.find? · allSlots) (funext fun k => ?_)
    cases f <;> rfl
  subst hc
  refine ⟨fun k hk => ⟨fun n hn => exec_command_eq hoffer (heffect.trans ?_),
    fun hlast => exec_command_eq hoffer (heffect.trans ?_)⟩, fun hnone => exec_command_eq hoffer (heffect.trans ?_)⟩
  · unfold Engine.scanStep
    rw [hsearch, hk.find?]
    dsimp only
    rw [Cursor.after_of_next hn]
    rfl
  · unfold Engine.scanStep
    rw [hsearch, hk.find?]
    dsimp only
    rw [Cursor.after_of_last hlast]
    rfl
  · unfold Engine.scanStep
    rw [hsearch, List.find?_eq_none.mpr fun k _ => by rw [hnone k]; nofun]
    rfl

/-- Settles O32: NOOP answers; OPEN answers by the session's state and by its operands. -/
theorem noopAnswersAndOpenOpens : Obligations.NoopAnswersAndOpenOpens := by
  intro s p t rest
  refine ⟨fun hoffer => .of_reply hoffer rfl, fun margin mask hoffer => ?_⟩
  intro e x y shown
  refine ⟨fun hopen => .of_reply hoffer (if_pos hopen), fun hclosed hmeant => .of_reply hoffer ?_,
    fun hclosed hmeant => exec_command_eq hoffer ?_⟩
  · exact Engine.openReq_malformed hclosed hmeant
  · refine (Engine.openReq_opened hclosed hmeant).trans ?_
    simp only [Engine.openPayload, Engine.sessionNotice, Engine.session_setSession_self]
    rfl

end Sys2Proof.Machine

/-! ## Session ends and LIMITS: proofs about Machine/Sessions.lean (R126 to R130, R135, R137, R138) -/

namespace Sys2Proof.Machine

/-! ### What a settlement or a pass cannot undo -/

/-- The issue numbers and the generation stay, a FREE slot stays FREE, and neither list gains a slot. -/
structure LeavesFree (a b : Engine) : Prop where
  issue : ∀ k, b.issue k = a.issue k
  generation : b.generation = a.generation
  free : ∀ k, a.record k = .free → b.record k = .free
  waitList : b.waitList.Sublist a.waitList
  convList : b.convList.Sublist a.convList

section
variable {a b c e : Engine} {p q : Port} {t : Tag}

theorem LeavesFree.refl (a : Engine) : LeavesFree a a :=
  ⟨fun _ => rfl, rfl, fun _ h => h, List.Sublist.refl _, List.Sublist.refl _⟩

theorem LeavesFree.trans (h : LeavesFree a b) (h' : LeavesFree b c) : LeavesFree a c where
  issue k := (h'.issue k).trans (h.issue k)
  generation := h'.generation.trans h.generation
  free k hk := h'.free k (h.free k hk)
  waitList := h'.waitList.trans h.waitList
  convList := h'.convList.trans h.convList

theorem PassFrame.leavesFree (h : PassFrame a b) : LeavesFree a b where
  issue := h.issue
  generation := h.generation
  free k hk := ((h.record k).eq_of_quiet (by rw [hk]; rfl) (by rw [hk]; rfl)).trans hk
  waitList := h.waitList
  convList := h.convList

theorem LeavesFree.settleDue (e : Engine) : LeavesFree e e.settleDue.engine where
  issue := e.issue_settleDue
  generation := rfl
  free k hk := by rw [Engine.record_settleDue, hk]; rfl
  waitList := dropSlots_sublist _ _
  convList := (dropSlots_sublist _ _).trans ((dropSlots_sublist _ _).trans (dropSlots_sublist _ _))

theorem LeavesFree.thawWarnPart (e : Engine) (start : Tick) : LeavesFree e (e.thawWarnPart start) where
  issue := e.issue_thawWarnPart start
  generation := rfl
  free k hk := by
    rw [Engine.record_thawWarnPart, hk]
    split <;> rfl
  waitList := List.Sublist.refl _
  convList := List.Sublist.refl _

theorem LeavesFree.settleThaw (e : Engine) (start : Tick) : LeavesFree e (e.settleThaw start).engine :=
  have hpass := (e.settleDue.engine.thawWarnPart start).grantPass_frame.leavesFree
  have hall := ((settleDue e).trans (thawWarnPart _ start)).trans hpass
  ⟨hall.issue, hall.generation, hall.free, hall.waitList, hall.convList⟩

/-! ### The last steps of a session end, by the freeze (R126) -/

theorem Engine.afterClear_of_unfrozen (h : e.freeze = none) :
    e.afterClear p = (e.grantPass.1, e.grantPass.2, false) := by
  unfold Engine.afterClear
  rw [h]

theorem Engine.afterClear_of_owner {f : Freeze} (h : e.freeze = some f) (howner : f.owner = p) :
    e.afterClear p =
      ((e.settleThaw f.start).engine, (e.settleThaw f.start).early ++ (e.settleThaw f.start).grants, true) := by
  unfold Engine.afterClear
  rw [h]
  exact if_pos howner

theorem Engine.afterClear_of_other {f : Freeze} (h : e.freeze = some f) (howner : f.owner ≠ p) :
    e.afterClear p = (e, [], false) := by
  unfold Engine.afterClear
  rw [h]
  exact if_neg howner

theorem LeavesFree.afterClear (e : Engine) (p : Port) : LeavesFree e (e.afterClear p).1 := by
  cases hf : e.freeze with
  | none => rw [Engine.afterClear_of_unfrozen hf]; exact e.grantPass_frame.leavesFree
  | some f =>
    by_cases howner : f.owner = p
    · rw [Engine.afterClear_of_owner hf howner]; exact .settleThaw e f.start
    · rw [Engine.afterClear_of_other hf howner]; exact .refl e

/-- A session end frees every slot of its port, for good. -/
theorem Engine.endSession_frees {k : SlotNo} (h : (e.record k).ownedBy p = true) (tell : Bool) :
    (e.endSession p tell).engine.record k = .free ∧ k ∉ (e.endSession p tell).engine.waitList ∧
      k ∉ (e.endSession p tell).engine.convList := by
  have hleaves := LeavesFree.afterClear (e.clearPort p) p
  have hdropped {l : List SlotNo} : k ∉ dropSlots (fun j => (e.record j).ownedBy p) l := fun hk => by
    rw [mem_dropSlots, h] at hk
    exact Bool.noConfusion hk.2
  refine ⟨hleaves.free k ?_, fun hk => ?_, fun hk => ?_⟩
  · rw [Engine.record_clearPort, if_pos h]
  · exact hdropped (hleaves.waitList.subset hk)
  · exact hdropped (hleaves.convList.subset hk)

theorem Engine.endSession_thawed_iff (tell : Bool) :
    (e.endSession p tell).thawed = true ↔ ∃ f, e.freeze = some f ∧ f.owner = p := by
  rw [Engine.endSession_thawed, Option.any_eq_true]
  exact exists_congr fun f => and_congr_right fun _ => beq_iff_eq

theorem Engine.endSession_freeze_eq (tell : Bool) : (e.endSession p tell).engine.freeze =
    if (e.endSession p tell).thawed then none else e.freeze := by
  rw [Engine.endSession_freeze, Engine.endSession_thawed]

/-! ### The notices at the end of the event (R121, R150) -/

/-- A session end that thaws the table leaves it thawed, and then tells the four ports. -/
theorem Engine.freezeNoticesIf_of_ended {m : Engine} {tell : Bool}
    (h : m.freeze = (e.endSession q tell).engine.freeze) :
    m.freezeNoticesIf (e.endSession q tell).thawed =
      if (e.endSession q tell).thawed then
        [(0, .freeze false false), (1, .freeze false false), (2, .freeze false false), (3, .freeze false false)]
      else [] := by
  unfold Engine.freezeNoticesIf
  split
  next hthawed =>
    rw [Engine.endSession_freeze_eq, if_pos hthawed] at h
    exact Engine.freezeNotices_of_thawed h
  · rfl

theorem Engine.sessionNotice_of_session {m : Engine} {x : Session} (h : m.session q = x) :
    m.sessionNotice q = (q, .session x.isOpen x.mask x.lost) := by
  rw [Engine.sessionNotice, h]

theorem Engine.session_closeEvent (m : Engine) (q : Port) : (e.closeEvent m).session q = m.session q := by
  rw [Engine.session, Engine.closeEvent_sessions]
  rfl

theorem Engine.endSession_session_self (tell : Bool) :
    (e.endSession q tell).engine.session q = (e.session q).ended := by
  rw [Engine.endSession_session, if_pos rfl]

/-- The event of a session end for a request, with the port's SESSION_LOST as the event leaves it. -/
theorem Engine.endSessionFor_eq {d : Ended} {lost : Bool} (htold : d.told = (e.endSession q true).told)
    (hpassed : d.passed = (e.endSession q true).passed) (hthawed : d.thawed = (e.endSession q true).thawed)
    (hpayload : d.payload = (e.endSession q true).payload)
    (hsession : d.engine.session q = { (e.session q).ended with lost := lost })
    (hfreeze : d.engine.freeze = (e.endSession q true).engine.freeze) :
    e.endSessionFor p t q d =
      { engine := e.closeEvent d.engine
        out := (e.endSession q true).told ++ [(p, resultMsg t .ok (.sessionEnd (e.endSession q true).payload))] ++
          (e.endSession q true).passed ++ countNotices e (e.closeEvent d.engine) ++
          [(q, .session false (e.session q).mask lost)] ++
          if (e.endSession q true).thawed then
            [(0, .freeze false false), (1, .freeze false false), (2, .freeze false false), (3, .freeze false false)]
          else [] } := by
  have hnotice := Engine.sessionNotice_of_session ((e.session_closeEvent d.engine q).trans hsession)
  have hfreezes := Engine.freezeNoticesIf_of_ended ((Engine.closeEvent_freeze e d.engine).trans hfreeze)
  rw [Engine.endSessionFor, htold, hpassed, hthawed, hpayload, hfreezes, hnotice]
  rfl

/-! ### CLOSE and EVICT (R127, R135) -/

theorem Engine.closeReq_of_open (h : (e.session p).isOpen = true) :
    e.closeReq p t = e.endSessionFor p t p (e.endSession p true) :=
  if_neg (by rw [Engine.sessionOpen, h]; nofun)

theorem Engine.supervisorRefusal_of_passing {rest : List Check}
    (h : firstFailing (((e.session p).isOpen, .noSession) :: ((e.session p).supervisor, .notPermitted) :: rest) = none) :
    e.supervisorRefusal p = none ∧ firstFailing rest = none := by
  rw [firstFailing_none, List.forall_mem_cons, List.forall_mem_cons] at h
  obtain ⟨hopen, hright, hrest⟩ := h
  refine ⟨?_, firstFailing_none.mpr hrest⟩
  dsimp only at hopen hright
  rw [Engine.supervisorRefusal, Engine.sessionOpen, if_neg (by rw [hopen]; nofun), if_neg (by rw [hright]; nofun)]

theorem Engine.evictReq_of_passing {b : Byte} (h : firstFailing (e.requestChecks p (.evict b)) = none)
    (hq : portOf b = some q) :
    e.evictReq p t b = e.endSessionFor p t q ((e.endSession q true).withLost q true) := by
  obtain ⟨href, hrest⟩ := Engine.supervisorRefusal_of_passing h
  simp only [firstFailing_none, List.forall_mem_cons, hq] at hrest
  obtain ⟨-, hother, hopen, -⟩ := hrest
  have hother : q ≠ p := fun hqp => by simp [hqp] at hother
  unfold Engine.evictReq
  rw [href, hq]
  dsimp only
  rw [if_neg hother, if_neg (by rw [Engine.sessionOpen]; simpa using hopen)]

/-! ### LIMITS (R128 to R130) -/

theorem flagOf_of_small {b : Byte} (h : ¬1 < b.toNat) : flagOf b = some (b == 1) := by
  revert h
  decide +revert

theorem limitsOf_of_meaning {cap : Byte} {d : Half} {pin r : Byte} (h : (limitsOf cap d pin r).isNone = false) :
    limitsOf cap d pin r = some { leaseCap := cap, durationCap := d, mayPin := pin == 1, renewalCap := r } := by
  have hpin : ¬1 < pin.toNat := by
    rw [limitsOf_isNone] at h
    exact of_decide_eq_false (Bool.or_eq_false_iff.mp h).2
  unfold limitsOf at h ⊢
  split at h
  · cases h
  next hcaps => rw [if_neg hcaps, flagOf_of_small hpin]; rfl

theorem portOf_of_toNat {b : Byte} (h : b.toNat = q.val) : portOf b = some q := by
  rw [portOf_eq, if_neg (by omega)]
  refine congrArg some (Fin.ext ?_)
  change (b.setWidth 2).toNat = q.val
  rw [BitVec.toNat_setWidth]
  omega

theorem Engine.limitsReq_of_passing {target cap : Byte} {d : Half} {pin r : Byte}
    (h : firstFailing (e.requestChecks p (.limits target cap d pin r)) = none) (hq : target.toNat = q.val) :
    e.limitsReq p t target cap d pin r =
      let new : Limits := { leaseCap := cap, durationCap := d, mayPin := pin == 1, renewalCap := r }
      if cap.toNat < e.ownedCount q then e.reply p t .inUse (e.limitsPayload q (e.limitsOf q))
      else { engine := e.setLimits q new, out := [answerTo p t .ok (e.limitsPayload q new)] } := by
  obtain ⟨href, hrest⟩ := Engine.supervisorRefusal_of_passing h
  rw [firstFailing_none, List.forall_mem_cons, Bool.not_eq_true', limits_meaningless, Bool.or_eq_false_iff] at hrest
  obtain ⟨⟨-, hlimits⟩, -⟩ := hrest
  unfold Engine.limitsReq
  rw [href, portOf_of_toNat hq, limitsOf_of_meaning hlimits]

end

/-- Settles O33: the port's slots are freed before the pass or the settlement, which free nothing again and grant no
FREE slot. -/
theorem sessionEndFreesThePortsRecords : Obligations.SessionEndFreesThePortsRecords := by
  intro e p tell d e'
  have hleaves : LeavesFree (e.clearPort p) e' := .afterClear (e.clearPort p) p
  have hparts : d.engine = ((e.clearPort p).afterClear p).1 ∧ d.passed = ((e.clearPort p).afterClear p).2.1 :=
    ⟨rfl, rfl⟩
  refine ⟨fun k => ⟨?_, fun hk => Engine.endSession_frees hk tell⟩, Engine.endSession_session_self tell,
    fun q hq => ?_, fun q => ?_, e.endSession_settled p tell, e.endSession_clock p tell, hleaves.generation,
    Engine.endSession_thawed_iff tell, Engine.endSession_freeze_eq tell, ?_, ⟨fun hf => ?_, fun f hf howner => ?_,
    fun f hf howner => ?_⟩, rfl, rfl, rfl, rfl, rfl, rfl, length_convCompletions e _ _⟩
  · exact (hleaves.issue k).trans (Engine.issue_freeWhere ..)
  · exact (Engine.endSession_session e p q tell).trans (if_neg hq)
  · exact congrArg (pick · q) (e.endSession_limits p tell)
  · rintro ⟨f, hf, howner⟩ k hk
    change ((e.clearPort p).afterClear p).1.record k = _
    rw [Engine.afterClear_of_other (e := e.clearPort p) hf howner, Engine.record_clearPort, if_neg (by rw [hk]; nofun)]
  · rw [Engine.afterClear_of_unfrozen (e := e.clearPort p) hf] at hparts
    exact hparts
  · rw [Engine.afterClear_of_owner (e := e.clearPort p) hf howner] at hparts
    exact hparts
  · rw [Engine.afterClear_of_other (e := e.clearPort p) hf howner] at hparts
    exact hparts

/-- Settles O34: both requests are one event of a session end. -/
theorem closeAndEvictEndASession : Obligations.CloseAndEvictEndASession := by
  intro s p t rest e messages
  refine ⟨fun hoffer hopen => ?_, fun hoffer hclosed => .of_reply hoffer ?_, fun b q hoffer hq hpass => ?_⟩
  · refine exec_command_eq hoffer ((Engine.closeReq_of_open hopen).trans ?_)
    exact Engine.endSessionFor_eq rfl rfl rfl rfl (Engine.endSession_session_self true) rfl
  · exact if_pos (by rw [Engine.sessionOpen]; simpa using hclosed)
  · refine exec_command_eq hoffer ((Engine.evictReq_of_passing hpass hq).trans ?_)
    refine Engine.endSessionFor_eq rfl rfl rfl rfl ?_ rfl
    change (Engine.setSession _ q _).session q = _
    rw [Engine.session_setSession_self, Engine.endSession_session_self]

/-- Settles O35: the session ends without messages to its waits, and the drop is confirmed last. -/
theorem portDropEndsTheSession : Obligations.PortDropEndsTheSession := by
  intro s p rest hrun hhead e d e' clock
  have hexec : exec (.portDrop p) s = .next ((s.restToEngine p rest).applyEffect (e.dropPort p)) :=
    State.takeFromPort_head hrun hhead rfl
  have hsession : ({ e' with clock } : Engine).session p = { (e.session p).ended with lost := false } := by
    change e'.session p = _
    rw [Engine.session_closeEvent]
    change (Engine.setSession _ p _).session p = _
    rw [Engine.session_setSession_self, Engine.endSession_session_self]
  have hfreeze : ({ e' with clock } : Engine).freeze = d.engine.freeze := Engine.closeEvent_freeze ..
  have hdrop : e.dropPort p = { engine := { e' with clock }, out := d.passed ++ countNotices e { e' with clock } ++
      [Engine.sessionNotice { e' with clock } p] ++ Engine.freezeNoticesIf { e' with clock } d.thawed ++
      [(p, .dropComplete)] } := rfl
  rw [hexec, hdrop, Engine.freezeNoticesIf_of_ended hfreeze, Engine.sessionNotice_of_session hsession]
  rfl

/-- Settles O36: the owned count decides, and no record is written. -/
theorem limitsWritesFourLimits : Obligations.LimitsWritesFourLimits := by
  intro s p t target cap duration pin renewals rest q hoffer hpass hq e new answer
  have heffect := Engine.limitsReq_of_passing (t := t) hpass hq
  refine ⟨fun hless => .of_reply hoffer (heffect.trans (if_pos hless)), fun hfits => exec_command_eq hoffer ?_⟩
  exact heffect.trans (if_neg (not_lt.mpr hfits))

end Sys2Proof.Machine

/-! ## Supervision: proofs about Machine/Supervision.lean (R131 to R134, R140 to R142, R148, R150) -/

namespace Sys2Proof.Machine

section
variable {e : Engine} {p : Port} {t : Tag} {h : Handle}

/-! ### REVOKE (R131, R132) -/

theorem Engine.revokeReq_of_passing (hpass : firstFailing (e.requestChecks p (.revoke h)) = none) :
    e.revokeReq p t h = e.revokeSlot p t (slotOf h) := by
  obtain ⟨href, hrest⟩ := Engine.supervisorRefusal_of_passing hpass
  rw [firstFailing_none, List.forall_mem_cons, List.forall_mem_cons] at hrest
  obtain ⟨-, hcur, -⟩ := hrest
  simp only [Engine.revokeReq, href, Engine.current_of_isCurrent hcur]

section
variable {k : SlotNo}

theorem Engine.revokeSlot_of_held {x : Held} (hx : e.record k = .held x) : e.revokeSlot p t k =
    e.finish (e.retireWhere (fun j => j == k) .revoked).passUnlessFrozen.1
      (e.convCompletions (fun j => j == k) .revoked ++ [revokeAnswer p t (.held x) .retired x.holder] ++
        (e.retireWhere (fun j => j == k) .revoked).passUnlessFrozen.2) := by
  rw [Engine.revokeSlot, hx]

theorem Engine.revokeSlot_of_waiting {w : Waiting} (hw : e.record k = .waiting w) : e.revokeSlot p t k =
    e.finish (e.freeWhere fun j => j == k).passUnlessFrozen.1
      ([(w.holder, .completion w.tag .revoked), revokeAnswer p t (.waiting w) .freed w.holder] ++
        (e.freeWhere fun j => j == k).passUnlessFrozen.2) := by
  rw [Engine.revokeSlot, hw]

theorem Engine.revokeSlot_of_retired {x : Retired} (hx : e.record k = .retired x) : e.revokeSlot p t k =
    e.finish (e.freeWhere fun j => j == k) [revokeAnswer p t (.retired x) .freed x.holder] := by
  rw [Engine.revokeSlot, hx]

theorem Engine.record_retireWhere_one {x : Held} (hx : e.record k = .held x) (c : RetireCause) :
    (e.retireWhere (fun j => j == k) c).record k = .retired { toCommon := x.toCommon, cause := c } := by
  rw [Engine.record_retireWhere, if_pos (beq_self_eq_true k), hx]
  rfl

end

/-! ### REVOKE_RANGE (R134) -/

theorem Engine.revokeRangeReq_of_passing {b : BitVec 24} {l : Half}
    (hpass : firstFailing (e.requestChecks p (.revokeRange b l)) = none) :
    e.revokeRangeReq p t b l = e.revokeRegion p t (regionOf b l) := by
  obtain ⟨href, hrest⟩ := Engine.supervisorRefusal_of_passing hpass
  simp only [firstFailing_none, List.forall_mem_cons, Request.meaningless, ← baseMeaningful_eq] at hrest
  obtain ⟨hbase, hfits, -⟩ := hrest
  unfold Engine.revokeRangeReq
  rw [href]
  dsimp only
  rw [if_neg (by rw [hbase]; nofun), if_neg (by rw [regionOf_valid l hbase, hfits]; nofun)]

theorem Engine.retireWhere_none {which : SlotNo → Bool} (h : ∀ k, which k = false) (c : RetireCause) :
    e.retireWhere which c = e := by
  have hslots : (e.retireWhere which c).slots = e.slots :=
    Engine.slots_ext (fun k => by rw [Engine.record_retireWhere, h k]; rfl) fun k => Engine.issue_retireWhere ..
  have hconvs : dropSlots which e.convList = e.convList :=
    List.filter_eq_self.mpr fun k _ => by rw [h k]; rfl
  change { e with slots := (e.retireWhere which c).slots, convList := dropSlots which e.convList } = e
  rw [hslots, hconvs]

theorem countNotices_self (e : Engine) : countNotices e e = [] := countNotices_of_same_marks fun _ _ => rfl

/-! ### The counts of thaw settlement (R150) -/

/-- The waiting claims that settlement times out were due before its leases retired. -/
theorem Engine.settleDue_waitsGone (e : Engine) :
    e.settleDue.waitsGone = (allSlots.filter fun k => (e.record k).waitDue e.settled).length := by
  change (allSlots.filter fun k => (e.expirePart.1.record k).waitDue e.settled).length = _
  refine congrArg List.length (List.filter_congr fun k _ => ?_)
  unfold Engine.expirePart
  rw [Engine.record_retireWhere]
  cases e.record k <;> split <;> rfl

/-- The record that the conversion part of settlement finds. -/
theorem Engine.waitTimeoutPart_record (e : Engine) (k : SlotNo) :
    let r := e.expirePart.1.waitTimeoutPart.1.record k
    (!(e.expirePart.1.record k).waitDue e.settled && !(e.record k).leaseDue e.settled &&
      (r.convDue e.settled && r.conv.isSome)) =
      ((e.record k).conv.isSome && ((e.record k).leaseDue e.settled || (e.record k).convDue e.settled) &&
        !((e.record k).leaseDue e.settled && (e.record k).conv.isSome)) := by
  have hrecord : e.expirePart.1.waitTimeoutPart.1.record k =
      if (e.expirePart.1.record k).waitDue e.settled then .free else e.expirePart.1.record k :=
    Engine.record_freeWhere ..
  have hexpired : e.expirePart.1.record k =
      if (e.record k).leaseDue e.settled then (e.record k).retire .expired else e.record k :=
    Engine.record_retireWhere ..
  dsimp only
  rw [hrecord, hexpired]
  cases hr : e.record k with
  | held x =>
    have hwait : (Record.held x).waitDue e.settled = false := rfl
    cases hlease : (Record.held x).leaseDue e.settled with
    | true => simp
    | false => simp [hwait, Bool.and_comm]
  | waiting w => cases hw : (Record.waiting w).waitDue e.settled <;> simp [Record.leaseDue, Record.convDue, Record.conv, hw]
  | _ => simp [Record.leaseDue, Record.waitDue, Record.convDue, Record.conv]

/-- The conversions that settlement ends: those of leases that are due, and those whose own wait deadline is due. -/
theorem Engine.settleDue_conversions (e : Engine) :
    e.settleDue.expired.length + e.settleDue.convsOut.length = (e.convList.filter fun k =>
      (e.record k).conv.isSome && ((e.record k).leaseDue e.settled || (e.record k).convDue e.settled)).length := by
  have hexpired : e.settleDue.expired.length = _ :=
    length_convCompletions e (fun k => (e.record k).leaseDue e.settled) .expired
  have hconvs : e.settleDue.convsOut.length = _ := length_convCompletions e.expirePart.1.waitTimeoutPart.1
    (fun k => (e.expirePart.1.waitTimeoutPart.1.record k).convDue e.settled) .timedOut
  have hlist : e.expirePart.1.waitTimeoutPart.1.convList =
      dropSlots (fun k => (e.expirePart.1.record k).waitDue e.settled)
        (dropSlots (fun k => (e.record k).leaseDue e.settled) e.convList) := rfl
  rw [hexpired, hconvs, hlist, dropSlots, dropSlots, List.filter_filter, List.filter_filter]
  simp only [← List.countP_eq_length_filter]
  have hleases (k : SlotNo) (hk : ((e.record k).leaseDue e.settled && (e.record k).conv.isSome) = true) :
      ((e.record k).conv.isSome && ((e.record k).leaseDue e.settled || (e.record k).convDue e.settled)) = true := by
    obtain ⟨hlease, hconv⟩ := Bool.and_eq_true_iff.mp hk
    rw [hlease, hconv]
    rfl
  rw [← countP_split hleases, Nat.add_comm]
  refine congrArg (· + _) (List.countP_congr fun k _ => ?_)
  rw [← Engine.waitTimeoutPart_record, Bool.and_comm, Bool.and_comm (_ && _) (!_), Bool.and_left_comm, Bool.and_assoc]

/-! ### FREEZE and THAW (R141, R142) -/

theorem Engine.supervisorRefusal_of_right (hopen : (e.session p).isOpen = true)
    (hright : (e.session p).supervisor = true) : e.supervisorRefusal p = none := by
  rw [Engine.supervisorRefusal, Engine.sessionOpen, if_neg (by rw [hopen]; nofun), if_neg (by rw [hright]; nofun)]

theorem Engine.freezeReq_of_frozen {f : Freeze} (href : e.supervisorRefusal p = none) (hf : e.freeze = some f) :
    e.freezeReq p t = e.reply p t (if f.owner = p then .wrongState else .busy) (e.freezePayload f) := by
  rw [Engine.freezeReq, href, hf]

theorem Engine.freezeReq_of_thawed (href : e.supervisorRefusal p = none) (hf : e.freeze = none) :
    e.freezeReq p t =
      let e1 := { e with freeze := some { owner := p, start := e.settled } }
      { engine := e1
        out := [answerTo p t .ok (e.freezePayload { owner := p, start := e.settled })] ++ e1.freezeNotices } := by
  rw [Engine.freezeReq, href]
  dsimp only
  split
  next f hsome => rw [hf] at hsome; cases hsome
  · rfl

theorem Engine.freezeNotices_of_frozen {f : Freeze} (hf : e.freeze = some f) : e.freezeNotices =
    [(0, .freeze true (f.owner == 0)), (1, .freeze true (f.owner == 1)), (2, .freeze true (f.owner == 2)),
      (3, .freeze true (f.owner == 3))] := by
  unfold Engine.freezeNotices Engine.isFrozen
  rw [hf]
  rfl

theorem Engine.thawReq_of_owner {f : Freeze} (hopen : (e.session p).isOpen = true) (hf : e.freeze = some f)
    (howner : f.owner = p) : e.thawReq p t = e.thawNow p t f := by
  unfold Engine.thawReq
  rw [if_neg (by rw [Engine.sessionOpen, hopen]; nofun), hf]
  exact if_pos howner

end

/-- Settles O37: the revoked slot stays as REVOKE leaves it through the pass. -/
theorem revokeRetiresOrFrees : Obligations.RevokeRetiresOrFrees := by
  intro s p t h rest hoffer hpass e k revoked freed retired pass
  have heffect : e.requestEffect p t (.revoke h) = e.revokeSlot p t k := Engine.revokeReq_of_passing hpass
  have hfree : freed.record k = .free := e.record_freeWhere_one k
  refine ⟨fun x hx => ?_, fun w hw => ?_, fun x hx => ?_⟩
  · have hretired : retired.record k = .retired { toCommon := x.toCommon, cause := .revoked } :=
      Engine.record_retireWhere_one hx .revoked
    refine ⟨Engine.passUnlessFrozen_record hretired rfl rfl, exec_command_eq (r := .revoke h) hoffer ?_⟩
    exact (heffect.trans (Engine.revokeSlot_of_held hx)).trans
      (Engine.finish_passed hretired rfl rfl (by rw [hx]; nofun))
  · refine ⟨Engine.passUnlessFrozen_record hfree rfl rfl, exec_command_eq (r := .revoke h) hoffer ?_⟩
    exact (heffect.trans (Engine.revokeSlot_of_waiting hw)).trans
      (Engine.finish_passed hfree rfl rfl (by rw [hw]; nofun))
  · refine exec_command_eq (r := .revoke h) hoffer ?_
    exact (heffect.trans (Engine.revokeSlot_of_retired hx)).trans
      (Engine.finish_of_record (k := k) (by rw [hfree, hx]; nofun))

/-- Settles O38: a lease that retires changes its record, and without one REVOKE_RANGE writes nothing. -/
theorem revokeRangeRetiresTheRegion : Obligations.RevokeRangeRetiresTheRegion := by
  intro s p t b l rest hoffer hpass e hit told retired passed
  have heffect : e.requestEffect p t (.revokeRange b l) = e.revokeRegion p t (regionOf b l) :=
    Engine.revokeRangeReq_of_passing hpass
  refine ⟨fun hsome => ⟨tab fun q => allSlots.any fun k => hit k && (e.record k).ownedBy q, fun q => pick_tab .., ?_⟩,
    fun hnone => ⟨tab fun q => allSlots.any fun k => hit k && (e.record k).ownedBy q, fun q => ?_,
      .of_reply hoffer ?_⟩⟩
  · obtain ⟨k, hk⟩ := hsome
    have hcount : 0 < e.countSlots fun r => r.inRange (regionOf b l) := Engine.countSlots_pos.mpr ⟨k, hk⟩
    obtain ⟨x, hx⟩ : ∃ x, e.record k = .held x := by
      have hheld : (e.record k).isHeld = true := (Bool.and_eq_true_iff.mp hk).1
      cases hr : e.record k with
      | held x => exact ⟨x, rfl⟩
      | _ => rw [hr] at hheld; cases hheld
    have hretired : retired.record k = .retired { toCommon := x.toCommon, cause := .revoked } := by
      refine (Engine.record_retireWhere ..).trans ?_
      rw [hk, hx]
      rfl
    refine exec_command_eq (r := .revokeRange b l) hoffer (heffect.trans ?_)
    unfold Engine.revokeRegion
    simp only [if_pos hcount]
    exact Engine.finish_passed hretired rfl rfl (by rw [hx]; nofun)
  · rw [pick_tab, List.any_eq_false]
    intro k _
    rw [hnone k]
    nofun
  · have hcount : ¬0 < e.countSlots fun r => r.inRange (regionOf b l) := fun hpos => by
      obtain ⟨k, hk⟩ := Engine.countSlots_pos.mp hpos
      rw [show (e.record k).inRange (regionOf b l) = false from hnone k] at hk
      cases hk
    have hzero : (e.countSlots fun r => r.inRange (regionOf b l)) = 0 := Nat.eq_zero_of_not_pos hcount
    have hretired : e.retireWhere (fun k => (e.record k).inRange (regionOf b l)) .revoked = e :=
      Engine.retireWhere_none hnone _
    have htold : e.convCompletions (fun k => (e.record k).inRange (regionOf b l)) .revoked = [] :=
      Engine.convCompletions_none hnone _
    refine heffect.trans ?_
    unfold Engine.revokeRegion Engine.finish
    simp only [hretired, htold, hzero, Nat.lt_irrefl, if_false,
      Engine.closeEvent_same (rfl : e.slots = e.slots), countNotices_self]
    rfl

/-- Settles O39: FREEZE writes the freeze alone; THAW is thaw settlement with its result in the middle. -/
theorem freezeAndThawTheTable : Obligations.FreezeAndThawTheTable := by
  refine ⟨fun s p t rest hoffer hopen hright => ?_, fun s p t rest f hoffer hopen hf howner => ?_⟩
  · intro e payload
    have href : e.supervisorRefusal p = none := Engine.supervisorRefusal_of_right hopen hright
    refine ⟨fun f hf => .of_reply hoffer (Engine.freezeReq_of_frozen href hf), fun hf => ?_⟩
    refine exec_command_eq (r := .freeze) hoffer ((Engine.freezeReq_of_thawed href hf).trans ?_)
    dsimp only
    rw [Engine.freezeNotices_of_frozen rfl]
    rfl
  · intro e x e'
    have hthawed : e'.freeze = none := Engine.closeEvent_freeze ..
    refine ⟨hthawed, exec_command_eq (r := .thaw) hoffer ?_, rfl, e.settleDue_waitsGone, e.settleDue_conversions⟩
    refine (Engine.thawReq_of_owner hopen hf howner).trans ?_
    have hnow : e.thawNow p t f =
        { engine := e'
          out := x.early ++ [answerTo p t .ok (e.thawPayload f.start x)] ++ x.grants ++ countNotices e e' ++
            e'.freezeNotices } := rfl
    rw [hnow, Engine.freezeNotices_of_thawed hthawed]
    rfl

end Sys2Proof.Machine

/-! ## Clock requests and forwarded cancels: proofs about Machine/Clock.lean (R77 to R79, R82, R85, R86, R161) -/

namespace Sys2Proof.Machine

section
variable {s : State} {e : Engine} {p : Port} {t : Tag} {k : SlotNo}

/-! ### The request to the timebase and its answer (R77, R78, R85, R86) -/

theorem Engine.trimReq_of_passing {a : Byte} (h : firstFailing (e.requestChecks p (.trim a)) = none) :
    e.trimReq p t a = e.sendClock p t .trim (.trim a) := by
  obtain ⟨href, hrest⟩ := Engine.supervisorRefusal_of_passing h
  rw [firstFailing_none, List.forall_mem_cons] at hrest
  obtain ⟨hmeant, -⟩ := hrest
  dsimp only at hmeant
  unfold Engine.trimReq
  rw [href]
  exact if_neg (by rw [trimMeaningful_eq, hmeant]; nofun)

theorem exec_timebaseReadClock (hrun : s.resetLow = false) (hcall : s.toTimebase = some .readClock) :
    exec .timebaseReadClock s = .next { s with
      toTimebase := none
      fromTimebase := s.fromTimebase ++ [.clockAnswer s.timebase.now s.timebase.phase s.timebase.debt] } := by
  change execTimebaseReadClock s = _
  unfold execTimebaseReadClock
  rw [State.whenRunning_high _ hrun, hcall]
  rfl

/-- The engine takes the answer to its clock request. -/
theorem exec_clockAnswer_of_result {c : ClockRequest} {m : TimebaseMsg} {rest : List TimebaseMsg} {o : ResultCode}
    {x : Payload} (hrun : s.resetLow = false) (hclock : s.engine.clock = some c) (hhead : s.fromTimebase = m :: rest)
    (hresult : c.resultOf m = some (o, x)) :
    exec .clockAnswer s = .next (s.afterTimebase rest { s.engine with clock := none }
      (if c.dropped then [] else [(c.port, .answer c.tag (.result o x c.late))])) := by
  have hanswer : (s.engine.clock.bind fun c => (c.resultOf m).map fun r => (c, r)) = some (c, o, x) := by
    rw [hclock, Option.bind_some, hresult]
    rfl
  change execClockAnswer s = _
  unfold execClockAnswer
  rw [State.whenRunning_high _ hrun, hhead]
  cases m with
  | tick n =>
    unfold ClockRequest.resultOf at hresult
    cases hk : c.kind <;> rw [hk] at hresult <;> cases hresult
  | _ => dsimp only; rw [hanswer]; rfl

/-! ### The four cases of a forwarded cancel (R161) -/

/-- The conversion that a context is matched to, in the words of the statements. -/
theorem Record.convertsFor_eq (r : Record) (p : Port) (t : Tag) : r.convertsFor p t =
    match r with
    | .held x => x.holder == p && x.conv.any fun c => c.tag == t
    | _ => false := by
  cases r with
  | held x => rfl
  | _ => exact Bool.and_false _

theorem Engine.cancelReq_of_waiting (h : allSlots.find? (fun j => (e.record j).waitsFor p t) = some k) :
    e.cancelReq p t = e.cancelWait p t k := by
  rw [Engine.cancelReq, h]

theorem Engine.cancelReq_of_converting (hwaits : allSlots.find? (fun j => (e.record j).waitsFor p t) = none)
    (h : allSlots.find? (fun j => (e.record j).convertsFor p t) = some k) :
    e.cancelReq p t = e.cancelConversion p t k := by
  rw [Engine.cancelReq, hwaits, h]

theorem Engine.cancelReq_of_neither (hwaits : allSlots.find? (fun j => (e.record j).waitsFor p t) = none)
    (h : allSlots.find? (fun j => (e.record j).convertsFor p t) = none) :
    e.cancelReq p t = e.cancelLate p t := by
  rw [Engine.cancelReq, hwaits, h]

theorem Engine.cancelLate_of_clock {c : ClockRequest} (hclock : e.clock = some c) (hport : c.port = p)
    (htag : c.tag = t) : e.cancelLate p t = { engine := { e with clock := some { c with late := true } } } := by
  rw [Engine.cancelLate, hclock]
  exact if_pos ⟨hport, htag⟩

theorem Engine.cancelLate_of_other (h : ∀ c, e.clock = some c → c.port = p → c.tag ≠ t) :
    e.cancelLate p t = { engine := e, out := [(p, .cancelLate t)] } := by
  unfold Engine.cancelLate
  split
  next c hc => exact if_neg fun hboth => h c hc hboth.1 hboth.2
  · rfl

theorem Engine.record_dropConvWhere_one {x : Held} (hx : e.record k = .held x) :
    (e.dropConvWhere fun j => j == k).record k = .held { x with conv := none } := by
  rw [Engine.record_dropConvWhere, if_pos (beq_self_eq_true k), hx]
  rfl

theorem find?_allSlots_eq_none {f : SlotNo → Bool} (h : ∀ j, f j = false) : allSlots.find? f = none :=
  List.find?_eq_none.mpr fun k _ => by rw [h k]; nofun

/-- A forwarded cancel is taken, and its effect is that of its case. -/
theorem exec_forwardedCancel {rest : List PortMsg} {e' : Engine} {out : List Out} (hrun : s.resetLow = false)
    (hhead : pick s.toEngine p = .cancel t :: rest)
    (heffect : s.engine.cancelReq p t = { engine := e', out := out }) :
    exec (.forwardedCancel p) s = .next (s.afterTake p rest e' out) := by
  have htaken : exec (.forwardedCancel p) s =
      .next ((s.restToEngine p rest).applyEffect (s.engine.cancelReq p t)) := State.takeFromPort_head hrun hhead rfl
  rw [htaken, heffect]
  rfl

end

/-- Settles O40: both requests leave the table as it is and go to the timebase. -/
theorem clockRequestGoesToTheTimebase : Obligations.ClockRequestGoesToTheTimebase := by
  intro s p t rest e
  refine ⟨fun a hoffer hpass => ?_, fun hoffer => exec_command hoffer⟩
  have heffect : e.requestEffect p t (.trim a) = _ := Engine.trimReq_of_passing hpass
  exact (exec_command hoffer).trans (by rw [heffect]; rfl)

/-- Settles O41: the answer is of the request's kind, and its result is the request's. -/
theorem clockAnswerCompletesTheRequest : Obligations.ClockAnswerCompletesTheRequest := by
  intro s hrun
  refine ⟨exec_timebaseReadClock hrun, fun c rest hclock => ?_⟩
  refine ⟨fun busy x hhead hkind => ?_, fun now phase debt settled generation frozen hhead hkind => ?_⟩
  · exact exec_clockAnswer_of_result hrun hclock hhead (by unfold ClockRequest.resultOf; rw [hkind])
  · exact exec_clockAnswer_of_result hrun hclock hhead (by unfold ClockRequest.resultOf; rw [hkind])

/-- Settles O42: the waiting claim comes before the conversion, and both before the clock request. -/
theorem forwardedCancelHasFourCases : Obligations.ForwardedCancelHasFourCases := by
  intro s p t rest hrun hhead e waits converts cancelled pass
  have hconverts : (fun j => (e.record j).convertsFor p t) = converts :=
    funext fun j => Record.convertsFor_eq (e.record j) p t
  refine ⟨fun k hk => ?waiting, fun k y hnone hk hy => ?converting, fun hnone hno => ?neither⟩
  case waiting =>
    have hfree : (e.freeWhere fun j => j == k).record k = .free := e.record_freeWhere_one k
    have hwaiting : Record.free ≠ e.record k := fun h => by
      have hwaits : (e.record k).waitsFor p t = true := hk.1
      rw [← h] at hwaits
      cases hwaits
    refine ⟨Engine.passUnlessFrozen_record hfree rfl rfl, exec_forwardedCancel hrun hhead ?_⟩
    exact (Engine.cancelReq_of_waiting hk.find?).trans (Engine.finish_passed hfree rfl rfl hwaiting)
  case converting =>
    have hdropped : (e.dropConvWhere fun j => j == k).record k = .held { y with conv := none } :=
      Engine.record_dropConvWhere_one hy
    have hconverting : Record.held { y with conv := none } ≠ e.record k := fun h => by
      have hconverts : (e.record k).convertsFor p t = true := (congrFun hconverts k).trans hk.1
      rw [← h] at hconverts
      exact Bool.noConfusion ((Bool.and_false _).symm.trans hconverts)
    refine ⟨Engine.passUnlessFrozen_record hdropped rfl rfl, exec_forwardedCancel hrun hhead ?_⟩
    exact (Engine.cancelReq_of_converting (find?_allSlots_eq_none hnone) (by rw [hconverts]; exact hk.find?)).trans
      (Engine.finish_passed hdropped rfl rfl hconverting)
  case neither =>
    have hlate : e.cancelReq p t = e.cancelLate p t :=
      Engine.cancelReq_of_neither (find?_allSlots_eq_none hnone) (by rw [hconverts]; exact find?_allSlots_eq_none hno)
    exact ⟨fun c hclock hport htag =>
        exec_forwardedCancel hrun hhead (hlate.trans (Engine.cancelLate_of_clock hclock hport htag)),
      fun hother => exec_forwardedCancel hrun hhead (hlate.trans (Engine.cancelLate_of_other hother))⟩

end Sys2Proof.Machine

/-! ## Messages and transactions at a port: proofs about Machine/PortMessages.lean (R99, R121, R140, R156, R157, R162,
R164) and Machine/Serial.lean (R165, R167, R168, R170, R171, R173, R174) -/

namespace Sys2Proof.Machine

/-! ### The two kinds of event at a port -/

section
variable {s : State} {p : Port}

/-- A message that the port takes. -/
theorem exec_of_message {c : Instr} {f : EngineMsg → Option (Except Fault AgentPort)} {m : EngineMsg}
    {rest : List EngineMsg} {b : AgentPort} (hcommand : exec c s = s.takeAtPort p f) (hrun : s.resetLow = false)
    (hhead : pick s.toPort p = m :: rest) (hf : f m = some (.ok b)) :
    exec c s = .next (s.afterMessage p rest b) :=
  hcommand.trans (State.takeAtPort_head hrun hhead hf)

/-- An event at the port's link that sends nothing. -/
theorem exec_of_link {c : Instr} {b : AgentPort} (g : AgentPort → AgentPort)
    (hcommand : exec c s = s.atPort p fun a => (g a, [])) (hrun : s.resetLow = false) (hg : g (s.port p) = b) :
    exec c s = .next (s.afterLink p b []) := by
  rw [hcommand, State.atPort_running p _ hrun, hg]
  rfl

theorem State.afterLink_nil (b : AgentPort) : s.afterLink p b [] = s.setPort p b :=
  State.sendToEngine_nil (s := s.setPort p b) p

end

section
variable {a : AgentPort} {t : Tag}

/-! ### Answers, completions and cancel-late notices (R156, R157, R162) -/

theorem AgentPort.takeAnswer_of_held {r : Request} {out : Bool} (h : a.context t = .queued r true out) (x : Answer) :
    a.takeAnswer t x = .ok ((a.unlist t).setContext t (x.settle r out)) := by
  rw [AgentPort.takeAnswer, h]

theorem AgentPort.takeAnswer_of_free (h : a.context t = .free) (x : Answer) : a.takeAnswer t x = .ok a := by
  rw [AgentPort.takeAnswer, h]

theorem Answer.settle_result (r : Request) (out : Bool) (o : ResultCode) (y : Payload) (late : Bool) :
    (Answer.result o y late).settle r out =
      .done { outcome := o, code := r.code, payload := y, late } (if late then false else out) := by
  cases late with
  | true => exact congrArg _ (Bool.and_false _)
  | false => exact congrArg _ (Bool.and_true _)

theorem AgentPort.takeCompletion_of_waiting {r : Request} {k : Kept} {out : Bool}
    (h : a.context t = .waiting r k out) (c : Completion) :
    a.takeCompletion t c = .ok (a.setContext t (c.settle r k out)) := by
  rw [AgentPort.takeCompletion, h]

theorem AgentPort.takeCompletion_of_free (h : a.context t = .free) (c : Completion) :
    a.takeCompletion t c = .ok a := by
  rw [AgentPort.takeCompletion, h]

theorem Completion.settle_eq (c : Completion) (r : Request) (k : Kept) (out : Bool) : c.settle r k out =
    .done { outcome := c.outcome, code := r.code, payload := k.payload c, late := false }
      (if c.outcome = .cancelled then false else out) := by
  unfold Completion.settle
  split
  next h => rw [h]; exact congrArg _ (Bool.and_false _)
  next h => rw [bne_iff_ne.mpr h, Bool.and_true]

theorem AgentPort.takeCancelLate_of_done {x : ResultRecord} (h : a.context t = .done x true) :
    a.takeCancelLate t = .ok (a.setContext t (.done { x with late := true } false)) := by
  rw [AgentPort.takeCancelLate, h]

theorem AgentPort.takeCancelLate_of_free (h : a.context t = .free) : a.takeCancelLate t = .ok a := by
  rw [AgentPort.takeCancelLate, h]

/-! ### Drop-complete (R164, R177) -/

theorem AgentPort.takeDropComplete_of_inReset (hlink : a.link = .inReset) (hout : a.dropOutstanding = true) :
    a.takeDropComplete = .ok a.freed := by
  rw [AgentPort.takeDropComplete, hlink, hout]

theorem AgentPort.takeDropComplete_of_draining (hlink : a.link = .draining) :
    a.takeDropComplete = .ok a.freed.leaveReset := by
  rw [AgentPort.takeDropComplete, hlink]

/-! ### FETCH (R171) -/

theorem tagByte_eq (t : Tag) (late : Bool) :
    tagByte t late = (if late then 0x80 else 0) + BitVec.ofNat 8 t.val := by
  decide +revert

theorem AgentPort.fetch_of_done {r : ResultRecord} (hlink : a.link = .command) (h : a.context t = .done r false) :
    a.fetch t = { a with link := .reply (.record t) (r.bytes t) } := by
  rw [AgentPort.fetch, hlink, h]

theorem AgentPort.fetch_of_other (hlink : a.link = .command) (h : ∀ r, a.context t ≠ .done r false) :
    a.fetch t = { a with link := .reply .plain [replyNotReady] } := by
  unfold AgentPort.fetch
  rw [hlink]
  split
  next r _ hdone => exact (h r hdone).elim
  · rfl
  next hno _ => exact (hno rfl).elim

theorem AgentPort.fetchComplete_of_record {out : List Byte} (h : a.link = .reply (.record t) out) :
    a.fetchComplete = { a.setContext t .free with link := .reply .plain [] } := by
  rw [AgentPort.fetchComplete, h]

/-! ### STATUS and the link faults (R173, R174) -/

theorem AgentPort.statusReply_of_command (h : a.link = .command) :
    a.statusReply = { a with link := .reply .status a.extendedStatus } := by
  rw [AgentPort.statusReply, h]

theorem AgentPort.causeShiftedOut_of_status {out : List Byte} (h : a.link = .reply .status out) :
    a.causeShiftedOut = { a with cause := .none, link := .reply .plain (out.drop 2) } := by
  rw [AgentPort.causeShiftedOut, h]

theorem AgentPort.unknownTransaction_of_command {b : Byte} (hlink : a.link = .command)
    (hb : (Instr.unknownTransaction p b).wf = true) :
    a.unknownTransaction b = { a.withFault .unknownTransaction with link := .ignore } := by
  rw [AgentPort.unknownTransaction, hlink, Option.isNone_iff_eq_none.mp hb]
  rfl

/-- Four two-bit codes in a byte, the first in the lowest bits. -/
theorem packed_code (c : Fin 4 → BitVec 2) (k : Fin 4) :
    ((c 3 ++ c 2 ++ c 1 ++ c 0 : Byte) >>> (2 * k.val)) &&& 3 = (c k).setWidth 8 := by
  have hpacked (c3 c2 c1 c0 : BitVec 2) : ∀ k : Fin 4,
      ((c3 ++ c2 ++ c1 ++ c0 : Byte) >>> (2 * k.val)) &&& 3 = (#v[c0, c1, c2, c3][k.val]).setWidth 8 := by
    decide +revert
  rw [hpacked]
  match k with
  | 0 | 1 | 2 | 3 => rfl

theorem Context.stateCode_eq (c : Context) : c.stateCode.setWidth 8 =
    match c with
    | .free => (0 : Byte)
    | .queued _ _ _ => 1
    | .waiting _ _ _ => 2
    | .done _ _ => 3 := by
  cases c <;> rfl

theorem flagsByte_bits (f r o s : Bool) :
    let flags := byteOfBits false false false false f r o s
    flags.getLsbD 3 = f ∧ flags.getLsbD 2 = r ∧ flags.getLsbD 1 = o ∧ flags.getLsbD 0 = s ∧ flags >>> 4 = 0 := by
  decide +revert

/-! ### The status byte and ATTNn (R165, R168) -/

theorem AgentPort.doneMark_iff : a.doneMark t = true ↔ ∃ r, a.context t = .done r false := by
  unfold AgentPort.doneMark AgentPort.context
  cases pick a.contexts t with
  | done r out => cases out <;> simp [Context.doneMark]
  | _ => simp [Context.doneMark]

theorem byteOfBits_high (b7 b6 b5 b4 b3 b2 b1 b0 : Bool) :
    let b := byteOfBits b7 b6 b5 b4 b3 b2 b1 b0
    b.getLsbD 7 = b7 ∧ b.getLsbD 6 = b6 ∧ b.getLsbD 5 = b5 ∧ b.getLsbD 4 = b4 := by
  decide +revert

theorem byteOfBits_low (b7 b6 b5 b4 b3 b2 b1 b0 : Bool) :
    let b := byteOfBits b7 b6 b5 b4 b3 b2 b1 b0
    b.getLsbD 3 = b3 ∧ b.getLsbD 2 = b2 ∧ b.getLsbD 1 = b1 ∧ b.getLsbD 0 = b0 := by
  decide +revert

theorem AgentPort.statusByte_mark (a : AgentPort) (t : Tag) : a.statusByte.getLsbD t.val = a.doneMark t := by
  obtain ⟨h3, h2, h1, h0⟩ := byteOfBits_low a.sessionOpen a.lost (decide (0 < a.marked)) (decide (a.cause ≠ .none))
    (a.doneMark 3) (a.doneMark 2) (a.doneMark 1) (a.doneMark 0)
  match t with
  | 0 => exact h0
  | 1 => exact h1
  | 2 => exact h2
  | 3 => exact h3

theorem AgentPort.anyMark_iff :
    (a.doneMark 0 || a.doneMark 1 || a.doneMark 2 || a.doneMark 3) = true ↔ ∃ t r, a.context t = .done r false := by
  simp only [← AgentPort.doneMark_iff, Bool.or_eq_true, Fin.exists_fin_succ, IsEmpty.exists_iff, or_false, or_assoc]
  rfl

theorem Link.inPortReset_iff {l : Link} : l.inPortReset = false ↔ l ≠ .inReset ∧ l ≠ .draining := by
  cases l <;> simp [Link.inPortReset]

/-! ### SELn (R167, R170) -/

theorem AgentPort.selectFall_of_standby (hsel : a.selLow = false) (hlink : a.link = .standby) :
    a.selectFall = { a with selLow := true, shownStatus := a.statusByte, link := .command } := by
  rw [AgentPort.selectFall, if_neg (by rw [hsel]; nofun), hlink]

theorem AgentPort.selectFall_of_reset (hsel : a.selLow = false) (hlink : a.link = .inReset ∨ a.link = .draining) :
    a.selectFall = { a with selLow := true } := by
  rw [AgentPort.selectFall, if_neg (by rw [hsel]; nofun)]
  rcases hlink with hlink | hlink <;> rw [hlink]

theorem AgentPort.selectRise_of_cut {bytes : List Byte} (hsel : a.selLow = true)
    (hlink : a.link = .frame t (.collecting bytes)) :
    a.selectRise = { a.withFault .shortFrame with selLow := false, link := .standby } := by
  rw [AgentPort.selectRise, if_pos hsel, hlink]
  rfl

theorem AgentPort.selectRise_of_transaction (hsel : a.selLow = true)
    (hlink : (∃ t, a.link = .frame t .judged) ∨ a.link = .command ∨ (∃ k out, a.link = .reply k out) ∨
      a.link = .ignore) : a.selectRise = { a with selLow := false, link := .standby } := by
  rw [AgentPort.selectRise, if_pos hsel]
  rcases hlink with ⟨t, hlink⟩ | hlink | ⟨k, out, hlink⟩ | hlink <;> rw [hlink]

theorem AgentPort.selectRise_of_reset (hsel : a.selLow = true) (hlink : a.link = .inReset ∨ a.link = .draining) :
    a.selectRise = { a with selLow := false } := by
  rw [AgentPort.selectRise, if_pos hsel]
  rcases hlink with hlink | hlink <;> rw [hlink]

theorem AgentPort.sdo_of_reply {k : ReplyKind} {out : List Byte} (hsel : a.selLow = true)
    (hlink : a.link = .reply k out) (hout : out ≠ []) : a.sdo = .bytes out := by
  obtain ⟨b, bs, rfl⟩ := List.exists_cons_of_ne_nil hout
  rw [AgentPort.sdo, if_pos hsel, hlink]

theorem AgentPort.sdo_of_idle (hsel : a.selLow = true)
    (hlink : (∃ k, a.link = .reply k []) ∨ (∃ t f, a.link = .frame t f) ∨ a.link = .ignore ∨ a.link = .inReset ∨
      a.link = .draining) : a.sdo = .allHigh := by
  rw [AgentPort.sdo, if_pos hsel]
  rcases hlink with ⟨k, hlink⟩ | ⟨t, f, hlink⟩ | hlink | hlink | hlink <;> rw [hlink]

theorem exec_selectFall {s : State} {p : Port} {b : AgentPort} (hrun : s.resetLow = false)
    (h : (s.port p).selectFall = b) : exec (.selectFall p) s = .next (s.afterLink p b []) := by
  change execSelectFall p s = _
  rw [execSelectFall, if_neg (by rw [hrun]; nofun), h, State.afterLink_nil]

theorem exec_selectRise {s : State} {p : Port} {b : AgentPort} (hrun : s.resetLow = false)
    (h : (s.port p).selectRise = b) : exec (.selectRise p) s = .next (s.afterLink p b []) := by
  change execSelectRise p s = _
  rw [execSelectRise, if_neg (by rw [hrun]; nofun), h, State.afterLink_nil]

end

/-- Settles O43: each message settles a context that waits for it, and finds nothing to settle in a FREE one. -/
theorem engineMessagesSettleTheContext : Obligations.EngineMessagesSettleTheContext := by
  refine ⟨fun s p t x rest hrun hhead => ⟨fun r out hqueued => ?_, fun hfree => ?_⟩, fun s p t rest hrun => ?_⟩
  · refine exec_of_message rfl hrun hhead (congrArg some (AgentPort.takeAnswer_of_held hqueued x) |>.trans ?_)
    cases x with
    | result o y late => rw [Answer.settle_result]; rfl
    | _ => rfl
  · exact exec_of_message rfl hrun hhead (congrArg some (AgentPort.takeAnswer_of_free hfree x))
  · refine ⟨fun c hhead => ⟨fun r kept out hwaiting => ?_, fun hfree => ?_⟩,
      fun hhead => ⟨fun x hdone => ?_, fun hfree => ?_⟩⟩
    · refine exec_of_message rfl hrun hhead (congrArg some (AgentPort.takeCompletion_of_waiting hwaiting c) |>.trans ?_)
      rw [Completion.settle_eq]
      cases kept <;> rfl
    · exact exec_of_message rfl hrun hhead (congrArg some (AgentPort.takeCompletion_of_free hfree c))
    · exact exec_of_message rfl hrun hhead (congrArg some (AgentPort.takeCancelLate_of_done hdone))
    · exact exec_of_message rfl hrun hhead (congrArg some (AgentPort.takeCancelLate_of_free hfree))

/-- Settles O44: the notices write what they carry; drop-complete frees the contexts and ends DRAINING. -/
theorem portTakesNoticesAndDropComplete : Obligations.PortTakesNoticesAndDropComplete := by
  refine ⟨fun s p rest hrun => ⟨fun n hhead => ?_, fun o k l hhead => ?_, fun f o hhead => ?_⟩,
    fun s p rest hrun hhead hlink => ?_⟩
  · exact exec_of_message rfl hrun hhead rfl
  · exact exec_of_message rfl hrun hhead rfl
  · exact exec_of_message rfl hrun hhead rfl
  · intro a
    rcases hlink with hlink | ⟨hlink, hout⟩
    · refine ⟨a.freed.leaveReset, exec_of_message rfl hrun hhead
        (congrArg some (AgentPort.takeDropComplete_of_draining hlink)), fun t => pick_tab .., rfl, ?_, rfl⟩
      rw [show a.link = .draining from hlink]
      rfl
    · refine ⟨a.freed, exec_of_message rfl hrun hhead
        (congrArg some (AgentPort.takeDropComplete_of_inReset hlink hout)), fun t => pick_tab .., rfl, ?_, rfl⟩
      exact hlink.trans (if_pos hlink).symm

/-- Settles O46: the record leaves with the reply, and its context with the last bit of it. -/
theorem fetchShiftsOutTheRecord : Obligations.FetchShiftsOutTheRecord := by
  intro s p t hrun a
  refine ⟨fun hlink => ⟨fun r hdone => ?_, fun hno => ?_⟩, fun out hlink => ?_⟩
  · refine exec_of_link (·.fetch t) rfl hrun ((AgentPort.fetch_of_done hlink hdone).trans ?_)
    rw [ResultRecord.bytes, ResultRecord.covered, tagByte_eq]
  · exact exec_of_link (·.fetch t) rfl hrun (AgentPort.fetch_of_other hlink hno)
  · exact exec_of_link (·.fetchComplete) rfl hrun (AgentPort.fetchComplete_of_record hlink)

/-- Settles O48: the extended status packs the tag states and the flags. -/
theorem statusShowsAndClearsTheCause : Obligations.StatusShowsAndClearsTheCause := by
  intro s p hrun a
  refine ⟨fun hlink => ⟨_, _, exec_of_link (·.statusReply) rfl hrun (AgentPort.statusReply_of_command hlink),
    fun t => ?_, flagsByte_bits ..⟩, rfl, fun out hlink => ?_, fun b hlink hb => ?_⟩
  · exact (packed_code (fun k => (a.context k).stateCode) t).trans (a.context t).stateCode_eq
  · exact exec_of_link (·.causeShiftedOut) rfl hrun (AgentPort.causeShiftedOut_of_status hlink)
  · exact exec_of_link (·.unknownTransaction b) rfl hrun (AgentPort.unknownTransaction_of_command hlink hb)

/-- Settles O49: ATTNn and SDOn by the link and the marks; the edges of SELn by the link. -/
theorem selectAndAttentionShowTheMarks : Obligations.SelectAndAttentionShowTheMarks := by
  refine ⟨fun a => ?attention, fun a => ⟨fun hsel => ?_, fun hsel => ⟨fun hlink => ?_, fun k out hlink hout => ?_,
    AgentPort.sdo_of_idle hsel⟩⟩, fun s p hrun => ?edges⟩
  case attention =>
    rw [AgentPort.attention, Bool.and_eq_true, Bool.not_eq_true', Link.inPortReset_iff, and_assoc, Bool.or_eq_true,
      Bool.or_eq_true, Bool.and_eq_true, AgentPort.anyMark_iff, Bool.and_eq_true, decide_eq_true_eq, or_assoc]
  · exact if_neg (by rw [hsel]; nofun)
  · rw [AgentPort.sdo, if_pos hsel, hlink]
  · exact AgentPort.sdo_of_reply hsel hlink hout
  case edges =>
    intro a
    refine ⟨fun hsel => ⟨fun hlink => ?_, fun hlink => exec_selectFall hrun (AgentPort.selectFall_of_reset hsel hlink)⟩,
      fun hsel => ⟨fun t bytes hlink => exec_selectRise hrun (AgentPort.selectRise_of_cut hsel hlink),
        fun hlink => exec_selectRise hrun (AgentPort.selectRise_of_transaction hsel hlink),
        fun hlink => exec_selectRise hrun (AgentPort.selectRise_of_reset hsel hlink)⟩⟩
    obtain ⟨hopen, hlost, hmarked, hcause⟩ := byteOfBits_high a.sessionOpen a.lost (decide (0 < a.marked))
      (decide (a.cause ≠ .none)) (a.doneMark 3) (a.doneMark 2) (a.doneMark 1) (a.doneMark 0)
    refine ⟨_, exec_selectFall hrun (AgentPort.selectFall_of_standby hsel hlink), rfl, hopen, hlost, hmarked, hcause,
      fun t => ?_⟩
    rw [← AgentPort.doneMark_iff, ← AgentPort.statusByte_mark]

end Sys2Proof.Machine

/-! ## Formats: proofs about Machine/Words.lean and Machine/Formats.lean (R15, R16, R23, R24, R175, R178, R180,
chapter 11) -/

namespace Sys2Proof.Machine

/-! ### Bytes and the fields that they make up -/

theorem bytes2_join (x : Half) : x.extractLsb' 8 8 ++ x.extractLsb' 0 8 = x :=
  BitVec.extractLsb'_append_extractLsb' (w := 8) (len := 8)

theorem bytes3_join (x : BitVec 24) :
    (x.extractLsb' 16 8 ++ x.extractLsb' 8 8 ++ x.extractLsb' 0 8 : BitVec 24) = x := by
  rw [BitVec.extractLsb'_append_extractLsb'_eq_extractLsb' (by rfl)]
  exact BitVec.extractLsb'_append_extractLsb' (w := 16) (len := 8)

theorem bytes2_append (h l : Byte) : bytes2 (h ++ l) = [h, l] :=
  congrArg₂ (fun x y : Byte => [x, y]) BitVec.extractLsb'_append_eq_left BitVec.extractLsb'_append_eq_right

theorem bytes3_append (h m l : Byte) : bytes3 (h ++ m ++ l) = [h, m, l] := by
  have hhigh : (h ++ m ++ l : BitVec 24).extractLsb' 16 8 = h :=
    (BitVec.extractLsb'_append_eq_of_le (by decide)).trans BitVec.extractLsb'_append_eq_left
  have hmid : (h ++ m ++ l : BitVec 24).extractLsb' 8 8 = m :=
    (BitVec.extractLsb'_append_eq_of_le (by decide)).trans BitVec.extractLsb'_append_eq_right
  have hlow : (h ++ m ++ l : BitVec 24).extractLsb' 0 8 = l := BitVec.extractLsb'_append_eq_right
  rw [bytes3, hhigh, hmid, hlow]

/-! ### Request codes and operands (11.2, R178) -/

theorem ReqCode.ofByte_byte (c : ReqCode) : ReqCode.ofByte c.byte = some c := by
  cases c <;> rfl

theorem ReqCode.byte_of_ofByte {b : Byte} {c : ReqCode} (h : ReqCode.ofByte b = some c) : b = c.byte :=
  (beq_iff_eq.mp (List.find?_some (p := fun c : ReqCode => c.byte == b) h)).symm

theorem ReqCode.ofByte_eq_none {b : Byte} (h : ∀ c : ReqCode, c.byte ≠ b) : ReqCode.ofByte b = none :=
  List.find?_eq_none.mpr fun c _ hc => h c (beq_iff_eq.mp hc)

theorem Request.operandBytes_length (r : Request) : r.operandBytes.length = r.code.operandLength := by
  cases r <;> rfl

theorem Request.operandBytes_eq (r : Request) : r.operandBytes = layOut r.fields := by
  cases r <;> simp only [Request.operandBytes, Request.fields, layOut_cons, layOut_nil, bytes2_eq, bytes3_eq,
    fieldBytes_byte, List.append_nil, List.append_assoc, List.cons_append, List.nil_append]

section
variable {r : Request} {bytes : List Byte}

/-! The reading of each number of operand bytes: what it makes of the bytes of operands, and of which bytes alone. -/

theorem Request.of2_bytes (f : Half → Request) (h : Half) : Request.of2 f (bytes2 h) = some (f h) :=
  congrArg (fun x => some (f x)) (bytes2_join h)

theorem Request.of3_bytes (f : Half → Byte → Request) (h : Half) (b : Byte) :
    Request.of3 f (bytes2 h ++ [b]) = some (f h b) :=
  congrArg (fun x => some (f x b)) (bytes2_join h)

theorem Request.of4_bytes (f : Half → Half → Request) (h x : Half) :
    Request.of4 f (bytes2 h ++ bytes2 x) = some (f h x) :=
  congrArg₂ (fun x y => some (f x y)) (bytes2_join h) (bytes2_join x)

theorem Request.of5_bytes (f : BitVec 24 → Half → Request) (b : BitVec 24) (l : Half) :
    Request.of5 f (bytes3 b ++ bytes2 l) = some (f b l) :=
  congrArg₂ (fun x y => some (f x y)) (bytes3_join b) (bytes2_join l)

theorem Request.eq_of_ofNone {q : Request} (h : Request.ofNone q bytes = some r) : r = q ∧ bytes = [] := by
  unfold Request.ofNone at h
  split at h
  next hnil => exact ⟨(Option.some.inj h).symm, hnil⟩
  · cases h

theorem Request.eq_of_of1 {f : Byte → Request} (h : Request.of1 f bytes = some r) : ∃ b, r = f b ∧ bytes = [b] := by
  unfold Request.of1 at h
  split at h
  · exact ⟨_, (Option.some.inj h).symm, rfl⟩
  · cases h

theorem Request.eq_of_of2 {f : Half → Request} (h : Request.of2 f bytes = some r) :
    ∃ x, r = f x ∧ bytes = bytes2 x := by
  unfold Request.of2 at h
  split at h
  · exact ⟨_, (Option.some.inj h).symm, (bytes2_append ..).symm⟩
  · cases h

theorem Request.eq_of_of3 {f : Half → Byte → Request} (h : Request.of3 f bytes = some r) :
    ∃ x b, r = f x b ∧ bytes = bytes2 x ++ [b] := by
  unfold Request.of3 at h
  split at h
  · exact ⟨_, _, (Option.some.inj h).symm, by rw [bytes2_append]; rfl⟩
  · cases h

theorem Request.eq_of_of4 {f : Half → Half → Request} (h : Request.of4 f bytes = some r) :
    ∃ x y, r = f x y ∧ bytes = bytes2 x ++ bytes2 y := by
  unfold Request.of4 at h
  split at h
  · exact ⟨_, _, (Option.some.inj h).symm, by rw [bytes2_append, bytes2_append]; rfl⟩
  · cases h

theorem Request.eq_of_of5 {f : BitVec 24 → Half → Request} (h : Request.of5 f bytes = some r) :
    ∃ b l, r = f b l ∧ bytes = bytes3 b ++ bytes2 l := by
  unfold Request.of5 at h
  split at h
  · exact ⟨_, _, (Option.some.inj h).symm, by rw [bytes3_append, bytes2_append]; rfl⟩
  · cases h

theorem Request.eq_of_of6 (h : Request.of6 bytes = some r) :
    r.code = .limits ∧ bytes = r.operandBytes := by
  unfold Request.of6 at h
  split at h <;> cases h
  exact ⟨rfl, by rw [Request.operandBytes, bytes2_append]; rfl⟩

theorem Request.eq_of_of7 (h : Request.of7 bytes = some r) :
    r.code = .scanFirst ∧ bytes = r.operandBytes := by
  unfold Request.of7 at h
  split at h <;> cases h
  exact ⟨rfl, by rw [Request.operandBytes, bytes3_append, bytes2_append]; rfl⟩

theorem Request.eq_of_of12 (h : Request.of12 bytes = some r) :
    r.code = .claim ∧ bytes = r.operandBytes := by
  unfold Request.of12 at h
  split at h <;> cases h
  exact ⟨rfl, by simp only [Request.operandBytes, bytes3_append, bytes2_append]; rfl⟩

end

/-- The operand bytes of a request make the request again. -/
theorem Request.ofOperands_operandBytes (r : Request) : Request.ofOperands r.code r.operandBytes = some r := by
  cases r with
  | openSession m a => exact Request.of3_bytes .openSession m a
  | claim b l m d w x =>
    change some (Request.claim (_ ++ _ ++ _) (_ ++ _) m (_ ++ _) (_ ++ _) (_ ++ _)) = _
    rw [bytes3_join, bytes2_join, bytes2_join, bytes2_join, bytes2_join]
  | renew h d => exact Request.of4_bytes .renew h d
  | release h => exact Request.of2_bytes .release h
  | downgrade h => exact Request.of2_bytes .downgrade h
  | upgrade h w => exact Request.of4_bytes .upgrade h w
  | acknowledge h => exact Request.of2_bytes .acknowledge h
  | probe b l => exact Request.of5_bytes .probe b l
  | scanFirst f p b l =>
    change some (Request.scanFirst f p (_ ++ _ ++ _) (_ ++ _)) = _
    rw [bytes3_join, bytes2_join]
  | limits t c d m r =>
    change some (Request.limits t c (_ ++ _) m r) = _
    rw [bytes2_join]
  | revoke h => exact Request.of2_bytes .revoke h
  | revokeRange b l => exact Request.of5_bytes .revokeRange b l
  | _ => rfl

/-- A code and bytes that make a request are its code and its operand bytes. -/
theorem Request.eq_of_ofOperands {c : ReqCode} {bytes : List Byte} {r : Request}
    (h : Request.ofOperands c bytes = some r) : r.code = c ∧ bytes = r.operandBytes := by
  cases c with
  | closeSession | readClock | noop | notice | scanNext | freeze | thaw =>
    obtain ⟨rfl, rfl⟩ := Request.eq_of_ofNone h
    exact ⟨rfl, rfl⟩
  | evict | trim =>
    obtain ⟨b, rfl, rfl⟩ := Request.eq_of_of1 h
    exact ⟨rfl, rfl⟩
  | release | downgrade | acknowledge | revoke =>
    obtain ⟨x, rfl, rfl⟩ := Request.eq_of_of2 h
    exact ⟨rfl, rfl⟩
  | openSession =>
    obtain ⟨x, b, rfl, rfl⟩ := Request.eq_of_of3 h
    exact ⟨rfl, rfl⟩
  | renew | upgrade =>
    obtain ⟨x, y, rfl, rfl⟩ := Request.eq_of_of4 h
    exact ⟨rfl, rfl⟩
  | probe | revokeRange =>
    obtain ⟨b, l, rfl, rfl⟩ := Request.eq_of_of5 h
    exact ⟨rfl, rfl⟩
  | limits => exact Request.eq_of_of6 h
  | scanFirst => exact Request.eq_of_of7 h
  | claim => exact Request.eq_of_of12 h

theorem Request.ofCovered_covered (r : Request) : Request.ofCovered r.covered = some r := by
  rw [Request.covered, Request.ofCovered, ReqCode.ofByte_byte]
  exact r.ofOperands_operandBytes

theorem Request.covered_of_ofCovered {bytes : List Byte} {r : Request} (h : Request.ofCovered bytes = some r) :
    bytes = r.covered := by
  cases bytes with
  | nil => cases h
  | cons c ops =>
    obtain ⟨code, hcode, hops⟩ := Option.bind_eq_some_iff.mp h
    obtain ⟨hrcode, hrops⟩ := Request.eq_of_ofOperands hops
    rw [Request.covered, hrcode, ← hrops, ReqCode.byte_of_ofByte hcode]

theorem Request.covered_length (r : Request) : r.covered.length = 1 + r.code.operandLength := by
  rw [Request.covered, List.length_cons, Request.operandBytes_length, Nat.add_comm]

theorem Request.covered_eq (r : Request) : r.covered = layOut ((1, r.code.byte.toNat) :: r.fields) := by
  rw [Request.covered, Request.operandBytes_eq, layOut_cons, fieldBytes_byte]
  rfl

/-! ### Transaction bytes (11.1) -/

theorem byte_of_decodeTransaction {b : Byte} {x : Transaction} (h : decodeTransaction b = some x) : b = x.byte := by
  have hall : ∀ b : Byte, (decodeTransaction b).all fun x => x.byte == b := by decide
  have hb := hall b
  rw [h] at hb
  exact (beq_iff_eq.mp hb).symm

theorem transactionBytes (t : Tag) : (Transaction.submit t).byte.toNat = 160 + t.val ∧
    (Transaction.fetch t).byte.toNat = 176 + t.val ∧ (Transaction.cancel t).byte.toNat = 192 + t.val ∧
      Transaction.status.byte.toNat = 208 := by
  decide +revert

/-! ### Packed bytes of the payloads (11.4) -/

theorem flagByte_eq (b : Bool) : flagByte b = BitVec.ofNat 8 b.toNat := by
  cases b <;> rfl

theorem margin_toNat (x : BitVec 12) : (x.setWidth 16).toNat = x.toNat := by
  rw [BitVec.toNat_setWidth, Nat.mod_eq_of_lt (by omega)]

theorem bytes3_base (x : BitVec 20) : bytes3 (x.setWidth 24) = fieldBytes 3 x.toNat := by
  rw [bytes3_eq, BitVec.toNat_setWidth, Nat.mod_eq_of_lt (by omega)]

theorem rightsByte_eq (p : Port) (supervisor pin lost : Bool) :
    (0 : BitVec 1) ++ BitVec.ofBool lost ++ BitVec.ofBool pin ++ BitVec.ofBool supervisor ++ (0 : BitVec 2) ++
      BitVec.ofNat 2 p.val = BitVec.ofNat 8 (p.val + supervisor.toNat * 16 + pin.toNat * 32 + lost.toNat * 64) := by
  decide +revert

theorem AttnMask.byte_eq (m : AttnMask) : m.byte = BitVec.ofNat 8 (m.done.toNat + m.notice.toNat * 2) := by
  obtain ⟨done, notice⟩ := m
  cases done <;> cases notice <;> rfl

theorem warnedByte_eq (warned : Bool) (c : BitVec 2) :
    BitVec.ofBool warned ++ (0 : BitVec 5) ++ c = BitVec.ofNat 8 (warned.toNat * 128 + c.toNat) := by
  decide +revert

theorem scanByte_eq (changed present : Bool) :
    (0 : BitVec 6) ++ BitVec.ofBool changed ++ BitVec.ofBool present =
      BitVec.ofNat 8 (present.toNat + changed.toNat * 2) := by
  decide +revert

theorem portsByte_eq (b0 b1 b2 b3 : Bool) :
    (0 : BitVec 4) ++ BitVec.ofBool b3 ++ BitVec.ofBool b2 ++ BitVec.ofBool b1 ++ BitVec.ofBool b0 =
      BitVec.ofNat 8 (b0.toNat + b1.toNat * 2 + b2.toNat * 4 + b3.toNat * 8) := by
  decide +revert

theorem stateByte_eq (state : BitVec 2) (p : Port) (mode : BitVec 1) :
    state ++ BitVec.ofNat 2 p.val ++ (0 : BitVec 3) ++ mode =
      BitVec.ofNat 8 (state.toNat * 64 + p.val * 16 + mode.toNat) := by
  decide +revert

theorem marksByte_eq (cause : BitVec 2) (overdue pending warned : Bool) :
    (0 : BitVec 2) ++ cause ++ (0 : BitVec 1) ++ BitVec.ofBool overdue ++ BitVec.ofBool pending ++
      BitVec.ofBool warned =
        BitVec.ofNat 8 (warned.toNat + pending.toNat * 2 + overdue.toNat * 4 + cause.toNat * 16) := by
  decide +revert

theorem tagByte_eq_field (t : Tag) (late : Bool) : tagByte t late = BitVec.ofNat 8 (t.val + late.toNat * 128) := by
  decide +revert

/-! ### Views, payloads and records (11.4) -/

theorem View.bytes_eq (v : View) : v.bytes = layOut v.fields := by
  simp only [View.bytes, View.fields, stateByte_eq, marksByte_eq, bytes3_base, bytes2_eq, bytes4_eq, layOut_cons,
    layOut_nil, fieldBytes_one, BitVec.ofNat_toNat, BitVec.setWidth_eq, List.append_nil, List.append_assoc]

theorem viewBytes_eq (v : Option View) : viewBytes v = layOut (viewFields v) := by
  cases v with
  | some v => exact v.bytes_eq
  | none => rfl

theorem Limits.bytes_eq (l : Limits) : l.bytes = layOut l.fields := by
  simp only [Limits.bytes, Limits.fields, flagByte_eq, bytes2_eq, layOut_cons, layOut_nil,
    fieldBytes_one, BitVec.ofNat_toNat, BitVec.setWidth_eq, List.append_nil, List.cons_append, List.nil_append]

theorem Payload.bytes_eq (x : Payload) : x.bytes = layOut x.fields := by
  cases x with
  | scan x =>
    cases hnext : x.next <;> simp only [Payload.bytes, Payload.fields, hnext, Option.elim, layOut_cons, layOut_nil,
      layOut_append, bytes2_eq, fieldBytes_one, viewBytes_eq, scanByte_eq, List.append_nil, List.append_assoc,
      List.cons_append, List.nil_append]
    rfl
  | _ => simp only [Payload.bytes, Payload.fields, layOut_cons, layOut_nil, layOut_append, bytes2_eq, bytes4_eq,
      margin_toNat, fieldBytes_one, viewBytes_eq, Limits.bytes_eq, rightsByte_eq, AttnMask.byte_eq, warnedByte_eq,
      portsByte_eq, flagByte_eq, causeByte, countByte, portByte, BitVec.ofNat_toNat, BitVec.setWidth_eq,
      List.append_nil, List.append_assoc, List.cons_append, List.nil_append]

theorem ResultRecord.covered_eq (x : ResultRecord) (t : Tag) : x.covered t = layOut (x.fields t) := by
  rw [ResultRecord.covered, ResultRecord.fields, layOut_append, Payload.bytes_eq, tagByte_eq_field]
  simp only [layOut_cons, layOut_nil, fieldBytes_one, BitVec.ofNat_toNat, BitVec.setWidth_eq, List.append_nil,
    List.cons_append, List.nil_append]

theorem viewBytes_length (v : Option View) : (viewBytes v).length = 20 := by
  cases v <;> rfl

theorem Payload.bytes_length (x : Payload) : x.bytes.length = x.form.payloadLength := by
  cases x <;> simp only [Payload.bytes, Limits.bytes, bytes2, bytes4, viewBytes_length, List.length_append,
    List.length_cons, List.length_nil] <;> rfl

theorem ReqCode.payloadForm_length (c : ReqCode) : c.payloadForm.payloadLength = c.payloadLength := by
  cases c <;> rfl

theorem Payload.length_of_fits {x : Payload} {c : ReqCode} (h : x.fits c = true) :
    x.bytes.length = c.payloadLength := by
  have hform : x.form = c.payloadForm := beq_iff_eq.mp h
  rw [Payload.bytes_length, hform, ReqCode.payloadForm_length]

theorem ReqCode.zeroPayload_fits (c : ReqCode) : c.zeroPayload.fits c = true := by
  cases c <;> rfl

theorem ReqCode.zeroPayload_bytes (c : ReqCode) : c.zeroPayload.bytes = List.replicate c.payloadLength 0 := by
  cases c with
  | revokeRange =>
    simp only [ReqCode.zeroPayload, Payload.bytes, pick_tab]
    rfl
  | _ => decide

/-! ### The check byte (R175) -/

theorem crc_snoc (bytes : List Byte) (b : Byte) : crc (bytes ++ [b]) = crcByte (crc bytes) b :=
  List.foldl_concat ..

/-- Settles O50: each layout is the table's, field by field. -/
theorem framesAndRecordsKeepTheirFormats : Obligations.FramesAndRecordsKeepTheirFormats := by
  refine ⟨⟨fun r => ⟨r.ofCovered_covered, ?frame, r.covered_eq, rfl⟩, fun _ _ => Request.covered_of_ofCovered,
      fun b x => ⟨byte_of_decodeTransaction, fun h => h ▸ decodeTransaction_byte x⟩, transactionBytes⟩,
    ⟨fun x t => ?record, fun x t hfits => ?length, fun c => ⟨c.zeroPayload_fits, c.zeroPayload_bytes⟩⟩,
    ⟨rfl, by decide, rfl, rfl, rfl, rfl, rfl, rfl, rfl, rfl, rfl, fun h d => ⟨rfl, rfl, rfl, rfl⟩⟩,
    rfl, crc_snoc, by decide +kernel⟩
  case frame =>
    rw [Request.frame, List.length_append, Request.covered_length]
    change 1 + _ + 1 = _
    omega
  case record => rw [ResultRecord.bytes, ResultRecord.covered_eq]
  case length =>
    rw [ResultRecord.bytes, ResultRecord.covered, List.length_append, List.length_append,
      Payload.length_of_fits hfits]
    change 3 + _ + 1 = _
    omega

/-! ### Handles and lease views (R15, R16, R23, R24) -/

theorem mkHandle_toNat (k : SlotNo) (i : BitVec 10) : (mkHandle k i).toNat = k.val * 1024 + i.toNat := by
  rw [mkHandle, BitVec.toNat_ofNat, Nat.mod_eq_of_lt (by omega)]

theorem slotOf_mkHandle (k : SlotNo) (i : BitVec 10) : slotOf (mkHandle k i) = k := by
  refine Fin.ext ?_
  change (mkHandle k i).toNat / 1024 = k.val
  rw [mkHandle_toNat]
  omega

theorem issueOf_mkHandle (k : SlotNo) (i : BitVec 10) : issueOf (mkHandle k i) = i := by
  refine BitVec.eq_of_toNat_eq ?_
  rw [issueOf, BitVec.toNat_ofNat, mkHandle_toNat]
  omega

/-- Settles O51: the view of each kind of record, with its time where it has one. -/
theorem handlesAndViewsNameTheRecord : Obligations.HandlesAndViewsNameTheRecord := by
  refine ⟨fun k i h => ⟨mkHandle_toNat k i, slotOf_mkHandle k i, issueOf_mkHandle k i, mkHandle_slotOf_issueOf h⟩,
    fun e k => ⟨fun hr => ?free, fun x hr => ?held, fun w hr => ?waiting, fun x hr => ?retired⟩⟩
  case free => rw [Engine.view, hr]; rfl
  case held =>
    rw [Engine.view, hr]
    refine ⟨_, rfl, rfl, rfl, rfl, rfl, rfl, rfl, rfl, rfl, rfl, fun hterm => ?_, fun d m hterm => ?_⟩
    · simp [Record.viewTime, Record.overdue, TimeKind.timed, hterm]
    · simp [Record.viewTime, Record.overdue, TimeKind.timed, hterm, remaining, isDue, Engine.isFrozen]
  case waiting =>
    rw [Engine.view, hr]
    refine ⟨_, rfl, rfl, rfl, rfl, rfl, rfl, rfl, rfl, rfl, rfl, fun hwait => ?_, fun m hwait => ?_⟩
    · simp [Record.viewTime, Record.overdue, TimeKind.timed, hwait]
    · simp [Record.viewTime, Record.overdue, TimeKind.timed, hwait, remaining, isDue, Engine.isFrozen]
  case retired =>
    rw [Engine.view, hr]
    refine ⟨_, rfl, rfl, rfl, rfl, rfl, rfl, rfl, rfl, rfl, rfl, rfl, rfl, rfl, ?_⟩
    exact Bool.and_eq_false_iff.mpr (.inl (Bool.and_false _))

end Sys2Proof.Machine

/-! ## SUBMIT: proofs about Machine/Serial.lean (R169, R170, R174, R178) -/

namespace Sys2Proof.Machine

section
variable {a : AgentPort} {t : Tag} {r : Request}

/-- The port with the first bytes of a frame collected. -/
def AgentPort.collecting (a : AgentPort) (t : Tag) (bytes : List Byte) : AgentPort :=
  { a with link := .frame t (.collecting bytes) }

/-- The port with the frame's check byte judged. -/
def AgentPort.judged (a : AgentPort) (t : Tag) : AgentPort := { a with link := .frame t .judged }

/-! ### Bytes that are collected (R169) -/

theorem AgentPort.submit_eq {first : List Byte} (bytes : List Byte)
    (h : a.link = .command ∧ first = [] ∨ a.link = .frame t (.collecting first)) :
    a.submit t bytes = (a.collecting t first).frameBytes bytes := by
  unfold AgentPort.submit
  rcases h with ⟨hlink, rfl⟩ | hlink
  · rw [hlink]
    rfl
  · rw [hlink]
    dsimp only
    rw [if_pos rfl, AgentPort.collecting, ← hlink]

theorem AgentPort.frameBytes_append (a : AgentPort) (xs ys : List Byte) :
    a.frameBytes (xs ++ ys) = (a.frameBytes xs).frameBytes ys := List.foldl_append ..

/-- A byte of a request before its check byte is collected. -/
theorem AgentPort.frameByte_of_operand {bytes rest : List Byte} {b : Byte} (h : r.covered = bytes ++ b :: rest) :
    (a.collecting t bytes).frameByte b = a.collecting t (bytes ++ [b]) := by
  have hlength := congrArg List.length h
  rw [Request.covered_length, List.length_append, List.length_cons] at hlength
  cases bytes with
  | nil =>
    obtain ⟨hcode, -⟩ := List.cons.inj h
    simp only [AgentPort.frameByte, AgentPort.collecting, ← hcode, ReqCode.ofByte_byte]
    rfl
  | cons c ops =>
    obtain ⟨hcode, -⟩ := List.cons.inj h
    rw [List.length_cons] at hlength
    simp only [AgentPort.frameByte, AgentPort.collecting, ← hcode, ReqCode.ofByte_byte]
    exact if_pos (by omega)

theorem AgentPort.frameBytes_of_operands (mid : List Byte) : ∀ (bytes : List Byte) {rest : List Byte},
    r.covered = bytes ++ mid ++ rest → (a.collecting t bytes).frameBytes mid = a.collecting t (bytes ++ mid) := by
  induction mid with
  | nil => exact fun bytes _ _ => by rw [List.append_nil]; rfl
  | cons b mid ih =>
    intro bytes rest h
    have hsplit : r.covered = bytes ++ b :: (mid ++ rest) := by rw [h, List.append_assoc]; rfl
    have hnext : r.covered = bytes ++ [b] ++ mid ++ rest := by
      rw [hsplit, List.append_assoc, List.append_assoc, List.singleton_append]
    change ((a.collecting t bytes).frameByte b).frameBytes mid = _
    rw [AgentPort.frameByte_of_operand hsplit, ih _ hnext, List.append_assoc, List.singleton_append]

/-! ### The check byte (R169, R170) -/

theorem AgentPort.frameByte_of_check (b : Byte) :
    (a.collecting t r.covered).frameByte b = ((a.collecting t r.covered).judge t r.covered b).judged t := by
  simp only [AgentPort.frameByte, AgentPort.collecting, Request.covered, ReqCode.ofByte_byte]
  exact if_neg (by rw [Request.operandBytes_length]; omega)

theorem AgentPort.judge_of_free (hfree : a.context t = .free) :
    a.judge t r.covered (crc r.covered) = a.accept t r := by
  rw [AgentPort.judge, if_pos rfl, hfree, Request.ofCovered_covered]

theorem AgentPort.judge_of_busy (hbusy : a.context t ≠ .free) :
    a.judge t r.covered (crc r.covered) = a.withFault .tagBusy := by
  rw [AgentPort.judge, if_pos rfl]
  split
  next hfree _ => exact (hbusy hfree).elim
  · rfl

theorem AgentPort.judge_of_wrong {bytes : List Byte} {b : Byte} (h : b ≠ crc bytes) :
    a.judge t bytes b = a.withFault .check := if_neg h

/-- A fault writes the cause alone. -/
theorem AgentPort.withFault_collecting (c : LinkFault) (bytes : List Byte) :
    ((a.collecting t bytes).withFault c).judged t = (a.withFault c).judged t := by
  change AgentPort.judged (if a.cause = .none then _ else _) t = AgentPort.judged (if a.cause = .none then _ else _) t
  split <;> rfl

theorem AgentPort.withFault_link (c : LinkFault) : (a.withFault c).link = a.link := by
  unfold AgentPort.withFault
  split <;> rfl

theorem AgentPort.withFault_twice (c : LinkFault) : (a.withFault c).withFault c = a.withFault c := by
  unfold AgentPort.withFault
  by_cases h : a.cause = .none
  · rw [if_pos h]
    exact ite_id _
  · rw [if_neg h, if_neg h]

theorem AgentPort.frameByte_of_judged (h : a.link = .frame t .judged) (b : Byte) :
    a.frameByte b = a.withFault .overlong := by
  rw [AgentPort.frameByte, h]
  rfl

/-- What follows the check byte is OVERLONG, once. -/
theorem AgentPort.frameBytes_of_judged (more : List Byte) : ∀ {a : AgentPort}, a.link = .frame t .judged →
    a.frameBytes more = if more = [] then a else a.withFault .overlong := by
  induction more with
  | nil => exact fun _ => rfl
  | cons b more ih =>
    intro a h
    have hlink : (a.withFault .overlong).link = .frame t .judged := AgentPort.withFault_link _ |>.trans h
    change (a.frameByte b).frameBytes more = _
    rw [AgentPort.frameByte_of_judged h, ih hlink, AgentPort.withFault_twice, if_neg (List.cons_ne_nil b more)]
    exact ite_self _

/-- A frame with its check byte, and what follows it. -/
theorem AgentPort.frameBytes_of_frame {first rest more : List Byte} {b : Byte} (h : r.covered = first ++ rest) :
    (a.collecting t first).frameBytes (rest ++ b :: more) =
      if more = [] then ((a.collecting t r.covered).judge t r.covered b).judged t
      else (((a.collecting t r.covered).judge t r.covered b).judged t).withFault .overlong := by
  have hcollected : (a.collecting t first).frameBytes rest = a.collecting t r.covered := by
    rw [AgentPort.frameBytes_of_operands (r := r) rest first (rest := []) (by rw [List.append_nil]; exact h), ← h]
  rw [AgentPort.frameBytes_append, hcollected]
  change ((a.collecting t r.covered).frameByte b).frameBytes more = _
  rw [AgentPort.frameByte_of_check]
  exact AgentPort.frameBytes_of_judged more rfl

/-! ### A request code outside the table (R178) -/

theorem AgentPort.frameBytes_of_ignore (more : List Byte) {a : AgentPort} (h : a.link = .ignore) :
    a.frameBytes more = a := by
  induction more with
  | nil => rfl
  | cons b more ih =>
    have hbyte : a.frameByte b = a := by rw [AgentPort.frameByte, h]
    change (a.frameByte b).frameBytes more = a
    rw [hbyte, ih]

theorem AgentPort.frameBytes_of_unknown {b : Byte} (more : List Byte) (h : ∀ c : ReqCode, c.byte ≠ b) :
    (a.collecting t []).frameBytes (b :: more) = { a.withFault .unknownRequest with link := .ignore } := by
  have hbyte : (a.collecting t []).frameByte b = { a.withFault .unknownRequest with link := .ignore } := by
    simp only [AgentPort.frameByte, AgentPort.collecting, ReqCode.ofByte_eq_none h]
    unfold AgentPort.recordFault AgentPort.withFault
    dsimp only
    split <;> rfl
  change ((a.collecting t []).frameByte b).frameBytes more = _
  rw [hbyte]
  exact AgentPort.frameBytes_of_ignore more rfl

end

/-- Settles O45: the bytes are collected up to the check byte, which judges the frame; the rest is OVERLONG. -/
theorem submitJudgesTheFrame : Obligations.SubmitJudgesTheFrame := by
  intro s p t hrun a
  have hsubmit {bytes : List Byte} {b : AgentPort} (h : a.submit t bytes = b) :
      exec (.submit p t bytes) s = .next (s.afterLink p b []) := exec_of_link (·.submit t bytes) rfl hrun h
  refine ⟨fun first hlink => ?frame, fun hlink => ⟨?_, fun b more => hsubmit ?_⟩⟩
  case frame =>
    intro sent ends
    have hframe {r : Request} {rest more : List Byte} {b : Byte} {c : AgentPort} (h : r.covered = first ++ rest)
        (hc : ((a.collecting t r.covered).judge t r.covered b).judged t = c) :
        sent (rest ++ b :: more) (ends more c) :=
      hsubmit (by rw [AgentPort.submit_eq _ hlink, AgentPort.frameBytes_of_frame h, hc])
    refine ⟨fun r rest more hr => ⟨fun hfree => hframe hr ?_, fun hbusy => hframe hr ?_, fun b hb => hframe hr ?_⟩,
      fun r mid rest hr => hsubmit ?_, fun hfirst b more hb => hsubmit ?_⟩
    · rw [AgentPort.judge_of_free (a := a.collecting t r.covered) hfree]
      rfl
    · rw [AgentPort.judge_of_busy (a := a.collecting t r.covered) hbusy, AgentPort.withFault_collecting]
      rfl
    · rw [AgentPort.judge_of_wrong hb, AgentPort.withFault_collecting]
      rfl
    · exact (AgentPort.submit_eq _ hlink).trans (AgentPort.frameBytes_of_operands mid first hr)
    · rw [AgentPort.submit_eq _ hlink, hfirst]
      exact AgentPort.frameBytes_of_unknown more hb
  · exact exec_of_link (·.bitAfterCheck) rfl hrun (by rw [AgentPort.bitAfterCheck, hlink]; rfl)
  · have hbytes : a.submit t (b :: more) = a.frameBytes (b :: more) := by
      rw [AgentPort.submit, hlink]
      exact if_pos rfl
    rw [hbytes, AgentPort.frameBytes_of_judged _ hlink, if_neg (List.cons_ne_nil b more)]

end Sys2Proof.Machine
